-- ==== Sys2Proof/Word.lean ====
section
/-! DEFINITION. The word types of the machine and their plainest arithmetic (00_scope.md R9, R10). -/

namespace Sys2Proof

/-- A 32-bit word: host registers, bus data and bus addresses (R9). -/
abbrev Word := BitVec 32

/-- An 8-bit byte: a RAM byte or a UART character (R9). -/
abbrev Byte := BitVec 8

/-- `Word.bit v i` is `v[i]` (R10). -/
def Word.bit (v : Word) (i : Nat) : Bool := v.getLsbD i

/-- The word with only bit `i` set: `1 << i` (R10). -/
def Word.one (i : Nat) : Word := 1#32 <<< i

end Sys2Proof
end

