-- ==== Sys2Proof/Syntax.lean ====
section
/-! DEFINITION. The commands of the machine: one constructor per row of spec/opcode_table.json (30_encoding.md R144),
with the operand fields of its format (R142, R143). OPND, the latched ARG, is no field of the word (R141). -/

namespace Sys2Proof

inductive Instr where
  /-- MBOX.SUBMIT ch, format C (40_mailbox.md R210). -/
  | mboxSubmit (ch : BitVec 4)
  /-- FB.PROVISION, format N (42_framebuffer.md R290). -/
  | fbProvision
  /-- GPIO.CFGIN pin, format P (41_gpio.md R250). -/
  | gpioCfgin (pin : BitVec 6)
  /-- GPIO.CFGOUT pin, format P (41_gpio.md R251). -/
  | gpioCfgout (pin : BitVec 6)
  /-- GPIO.CFGALT pin, fn, format PF (41_gpio.md R252). -/
  | gpioCfgalt (pin : BitVec 6) (fn : BitVec 3)
  /-- TMR.NOW, format N (43_timer.md R330). -/
  | tmrNow
  /-- TMR.DELAY, format A (43_timer.md R331). -/
  | tmrDelay
  /-- CTRL.INIT, format N (44_controller.md R370). -/
  | ctrlInit
  /-- CTRL.SAMPLE, format N (44_controller.md R371). -/
  | ctrlSample
  /-- UART.INIT, format N (45_uart.md R410). -/
  | uartInit
  /-- UART.PUTC byte, format B (45_uart.md R411). -/
  | uartPutc (byte : Byte)
  /-- UART.GETC, format N (45_uart.md R412). -/
  | uartGetc
  /-- UART.PUTS len, format L (45_uart.md R413). -/
  | uartPuts (len : BitVec 16)
  /-- UART.PUTHEX, format A (45_uart.md R414). -/
  | uartPuthex
  deriving DecidableEq, Repr

/-- The mnemonic of a command, as R144 and R170 spell it. -/
def Instr.mnemonic : Instr → String
  | .mboxSubmit _ => "MBOX.SUBMIT"
  | .fbProvision => "FB.PROVISION"
  | .gpioCfgin _ => "GPIO.CFGIN"
  | .gpioCfgout _ => "GPIO.CFGOUT"
  | .gpioCfgalt _ _ => "GPIO.CFGALT"
  | .tmrNow => "TMR.NOW"
  | .tmrDelay => "TMR.DELAY"
  | .ctrlInit => "CTRL.INIT"
  | .ctrlSample => "CTRL.SAMPLE"
  | .uartInit => "UART.INIT"
  | .uartPutc _ => "UART.PUTC"
  | .uartGetc => "UART.GETC"
  | .uartPuts _ => "UART.PUTS"
  | .uartPuthex => "UART.PUTHEX"

/-- Whether a command uses OPND, the latched ARG: formats L and A (R142). Format C's `ch` stands in the word
(R142's table; R141's "A, C and L" is followed where it agrees with that table, log 28). -/
def Instr.usesOpnd : Instr → Bool
  | .tmrDelay | .uartPuts _ | .uartPuthex => true
  | .mboxSubmit _ | .fbProvision | .gpioCfgin _ | .gpioCfgout _ | .gpioCfgalt _ _ | .tmrNow | .ctrlInit | .ctrlSample
  | .uartInit | .uartPutc _ | .uartGetc => false

end Sys2Proof
end

