-- ==== Sys2Proof/WellFormed.lean ====
section
/-! DEFINITION. Well-formed commands: the operands that the word itself must keep legal (30_encoding.md R147, first two
cases). Field widths are in the types of Syntax; the third case of R147 needs OPND and is checked when the command
runs (`operandOk`). -/

namespace Sys2Proof

/-- A GPIO pin number is at most 53 (R147; P19 of 00_scope.md R7). -/
def pinOk (pin : BitVec 6) : Bool := decide (pin.toNat ≤ 53)

/-- An alternate function number is at most 5 (R147). -/
def fnOk (fn : BitVec 3) : Bool := decide (fn.toNat ≤ 5)

/-- The operands in the word are legal (R147). -/
def Instr.wf : Instr → Bool
  | .gpioCfgin pin => pinOk pin
  | .gpioCfgout pin => pinOk pin
  | .gpioCfgalt pin fn => pinOk pin && fnOk fn
  | .mboxSubmit _ | .fbProvision | .tmrNow | .tmrDelay | .ctrlInit | .ctrlSample | .uartInit | .uartPutc _ | .uartGetc
  | .uartPuts _ | .uartPuthex => true

/-- The byte range of UART.PUTS does not pass the top of the address space (R147, third case). -/
def stringOk (opnd : Word) (len : BitVec 16) : Bool := decide (opnd.toNat + len.toNat ≤ 2 ^ 32)

/-- OperandOK of 30_encoding.md R160: all three cases of R147. -/
def operandOk (i : Instr) (opnd : Word) : Bool :=
  i.wf &&
    match i with
    | .uartPuts len => stringOk opnd len
    | .mboxSubmit _ | .fbProvision | .gpioCfgin _ | .gpioCfgout _ | .gpioCfgalt _ _ | .tmrNow | .tmrDelay | .ctrlInit
    | .ctrlSample | .uartInit | .uartPutc _ | .uartGetc | .uartPuthex => true

end Sys2Proof
end

