-- ==== Sys2Proof/Decode.lean ====
section
/-! DEFINITION. Decoding and encoding of command words (30_encoding.md R140 to R146). -/

namespace Sys2Proof

/-- Why a word is illegal (R146). Either way the command completes with ILLEGAL_COMMAND (60_exceptions.md R500). -/
inductive DecodeReject where
  /-- No row of R144 has this opcode. -/
  | unlistedOpcode (op : Byte)
  /-- A listed opcode with a nonzero reserved bit. -/
  | reservedBits (op : Byte)
  /-- Not a 32-bit word (R140). -/
  | notAWord
  deriving DecidableEq, Repr

/-- A row of the opcode map (R144). `build` takes the fields of the row's format from the word (R143). -/
structure OpRow where
  mnemonic : String
  pattern  : Word
  mask     : Word
  build    : Word → Instr

/-- R143: ch = w[3:0]. -/
def fieldCh (w : Word) : BitVec 4 := w.extractLsb' 0 4
/-- R143: pin = w[5:0]. -/
def fieldPin (w : Word) : BitVec 6 := w.extractLsb' 0 6
/-- R143: fn = w[10:8]. -/
def fieldFn (w : Word) : BitVec 3 := w.extractLsb' 8 3
/-- R143: byte = w[7:0]. -/
def fieldByte (w : Word) : Byte := w.extractLsb' 0 8
/-- R143: len = w[15:0]. -/
def fieldLen (w : Word) : BitVec 16 := w.extractLsb' 0 16
/-- R141: the opcode is bits 31:24. -/
def fieldOp (w : Word) : Byte := w.extractLsb' 24 8

/-- The complete opcode map, row by row as R144 lists it. -/
def opcodeTable : List OpRow :=
  [⟨"MBOX.SUBMIT", 0x01000000#32, 0xFFFFFFF0#32, fun w => .mboxSubmit (fieldCh w)⟩,
   ⟨"FB.PROVISION", 0x02000000#32, 0xFFFFFFFF#32, fun _ => .fbProvision⟩,
   ⟨"GPIO.CFGIN", 0x10000000#32, 0xFFFFFFC0#32, fun w => .gpioCfgin (fieldPin w)⟩,
   ⟨"GPIO.CFGOUT", 0x11000000#32, 0xFFFFFFC0#32, fun w => .gpioCfgout (fieldPin w)⟩,
   ⟨"GPIO.CFGALT", 0x12000000#32, 0xFFFFF8C0#32, fun w => .gpioCfgalt (fieldPin w) (fieldFn w)⟩,
   ⟨"TMR.NOW", 0x20000000#32, 0xFFFFFFFF#32, fun _ => .tmrNow⟩,
   ⟨"TMR.DELAY", 0x21000000#32, 0xFFFFFFFF#32, fun _ => .tmrDelay⟩,
   ⟨"CTRL.INIT", 0x30000000#32, 0xFFFFFFFF#32, fun _ => .ctrlInit⟩,
   ⟨"CTRL.SAMPLE", 0x31000000#32, 0xFFFFFFFF#32, fun _ => .ctrlSample⟩,
   ⟨"UART.INIT", 0x40000000#32, 0xFFFFFFFF#32, fun _ => .uartInit⟩,
   ⟨"UART.PUTC", 0x41000000#32, 0xFFFFFF00#32, fun w => .uartPutc (fieldByte w)⟩,
   ⟨"UART.GETC", 0x42000000#32, 0xFFFFFFFF#32, fun _ => .uartGetc⟩,
   ⟨"UART.PUTS", 0x43000000#32, 0xFFFF0000#32, fun w => .uartPuts (fieldLen w)⟩,
   ⟨"UART.PUTHEX", 0x44000000#32, 0xFFFFFFFF#32, fun _ => .uartPuthex⟩]

/-- A word selects a row when `(w AND mask) = match` (R144). -/
def OpRow.selects (r : OpRow) (w : Word) : Bool := w &&& r.mask == r.pattern

/-- The search of R145 over rows. -/
def decodeRows : List OpRow → Word → Option Instr
  | [], _ => none
  | r :: rs, w => if r.selects w then some (r.build w) else decodeRows rs w

/-- Decode(w) of R145: total, with an illegal word rejected by name (R146). -/
def decodeWord (w : Word) : Except DecodeReject Instr :=
  match decodeRows opcodeTable w with
  | some i => .ok i
  | none =>
    .error <|
      if opcodeTable.any fun r => fieldOp r.pattern == fieldOp w then .reservedBits (fieldOp w)
      else .unlistedOpcode (fieldOp w)

/-- Decoding of the bytes of a command word, the first byte its bits 7:0 (20_memory.md R104; R140). -/
def decodeBytes : List Byte → Except DecodeReject Instr
  | [b0, b1, b2, b3] => decodeWord (b3 ++ b2 ++ b1 ++ b0)
  | _ => .error .notAWord

/-- The word of a command, from the bit patterns of R142 (bit 31 first). -/
def encode : Instr → Word
  | .mboxSubmit ch => 0x01#8 ++ 0#20 ++ ch
  | .fbProvision => 0x02#8 ++ 0#24
  | .gpioCfgin pin => 0x10#8 ++ 0#18 ++ pin
  | .gpioCfgout pin => 0x11#8 ++ 0#18 ++ pin
  | .gpioCfgalt pin fn => 0x12#8 ++ 0#13 ++ fn ++ 0#2 ++ pin
  | .tmrNow => 0x20#8 ++ 0#24
  | .tmrDelay => 0x21#8 ++ 0#24
  | .ctrlInit => 0x30#8 ++ 0#24
  | .ctrlSample => 0x31#8 ++ 0#24
  | .uartInit => 0x40#8 ++ 0#24
  | .uartPutc byte => 0x41#8 ++ 0#16 ++ byte
  | .uartGetc => 0x42#8 ++ 0#24
  | .uartPuts len => 0x43#8 ++ 0#8 ++ len
  | .uartPuthex => 0x44#8 ++ 0#24

/-- The instruction read from a table row's bits: bit 0 of `w` is bit 0 of the command word. A command word is 32 bits
(R140), so a value with a bit above bit 31 is none. -/
def decodeTableWord (_nbits w : Nat) : Option Instr :=
  if w < 2 ^ 32 then
    match decodeWord (BitVec.ofNat 32 w) with
    | .ok i => some i
    | .error _ => none
  else none

end Sys2Proof
end

