-- ==== Sys2Proof/Config.lean ====
section
/-! DEFINITION. The configuration record of the machine: parameters P1 to P33 of 00_scope.md R7, the register
offsets and codes of 60_exceptions.md R520 to R526, the well-formedness of R8 with the ranges of R7 and the alignment of 20_memory.md
R106, and the free values. -/

namespace Sys2Proof

/-- SUCCESS_TEST (P31; 40_mailbox.md R207). -/
inductive SuccessTest where
  | highBit
  | equalResponse
  deriving DecidableEq, Repr

/-- COUNTER_LIMIT (P33, OPEN; 43_timer.md R325): what the counter reads as past `2^64 - 1`.
`unspecified` leaves the reading free (DESIGN CHOICE: the three readings the model offers; log 15). -/
inductive CounterLimit where
  | wraps
  | stops
  | unspecified
  deriving DecidableEq, Repr

/-- Offsets of the device registers from their block's base (60_exceptions.md R520, R522, R524, R526).
PRESUMED: the BCM283x layout, from general knowledge as the spec says (log 4). -/
structure RegOffsets where
  mboxRead   : Word := 0x00#32
  mboxStatus : Word := 0x18#32
  mboxWrite  : Word := 0x20#32
  gpfsel     : Word := 0x00#32
  gpset      : Word := 0x1C#32
  gpclr      : Word := 0x28#32
  gplev      : Word := 0x34#32
  gppud      : Word := 0x94#32
  gppudclk   : Word := 0x98#32
  auxEnables : Word := 0x04#32
  auxMuIo    : Word := 0x40#32
  auxMuIer   : Word := 0x44#32
  auxMuIir   : Word := 0x48#32
  auxMuLcr   : Word := 0x4C#32
  auxMuMcr   : Word := 0x50#32
  auxMuLsr   : Word := 0x54#32
  auxMuCntl  : Word := 0x60#32
  auxMuBaud  : Word := 0x68#32
  systmrCs   : Word := 0x00#32
  systmrClo  : Word := 0x04#32
  systmrChi  : Word := 0x08#32
  systmrCmp  : Word := 0x0C#32
  deriving DecidableEq, Repr

/-- The configuration record (00_scope.md R7). A default is the value R7 gives; where R7 has none (OPEN) it is the
value log 3 names. A statement about the machine holds for every configuration, never for the defaults alone. -/
structure Config where
  /-- P1 ENGINE_BASE (OPEN). -/
  engineBase    : Word := 0x00000000#32
  /-- P2 PERIPH_BASE. -/
  periphBase    : Word := 0x3F000000#32
  /-- P3 MBOX_BASE. This default and the next three wrap where the sum passes `2^32 - 1` (log 38). -/
  mboxBase      : Word := periphBase + 0x0000B880#32
  /-- P4 GPIO_BASE. -/
  gpioBase      : Word := periphBase + 0x00200000#32
  /-- P5 AUX_BASE. -/
  auxBase       : Word := periphBase + 0x00215000#32
  /-- P6 SYSTMR_BASE. -/
  systmrBase    : Word := periphBase + 0x00003000#32
  /-- The register offsets within the blocks. -/
  off           : RegOffsets := {}
  /-- The GPPUD codes of pull-down and pull-up (60_exceptions.md R522). PRESUMED, as the spec says (G14; log 4). -/
  gppudDown     : Word := 1#32
  gppudUp       : Word := 2#32
  /-- The bits of AUX_MU_IIR that empty the receive and the transmit FIFO (R524, R525). PRESUMED, as the spec says (G17;
  log 4). -/
  iirRxBit      : Fin 32 := 1
  iirTxBit      : Fin 32 := 2
  /-- P7 MBOX_BUF_ADDR (OPEN). -/
  mboxBufAddr   : Word := 0x00080000#32
  /-- P8 MBOX_BUF_WORDS. -/
  mboxBufWords  : Nat := 36
  /-- P9 MBOX_FIFO_DEPTH. -/
  mboxFifoDepth : Nat := 8
  /-- P10 MBOX_FULL_BIT. -/
  mboxFullBit   : Fin 32 := 31
  /-- P10 MBOX_EMPTY_BIT. -/
  mboxEmptyBit  : Fin 32 := 30
  /-- P11 CH_PROP. -/
  chProp        : BitVec 4 := 8#4
  /-- P15, the seven tag identifiers. -/
  tagSetPhysWh     : Word := 0x00048003#32
  tagSetVirtWh     : Word := 0x00048004#32
  tagSetVirtOff    : Word := 0x00048009#32
  tagSetDepth      : Word := 0x00048005#32
  tagSetPixelOrder : Word := 0x00048006#32
  tagAllocBuffer   : Word := 0x00040001#32
  tagGetPitch      : Word := 0x00040008#32
  /-- P16 (OPEN; the example values). -/
  fbReqWidth    : Word := 1024#32
  fbReqHeight   : Word := 768#32
  fbReqVwidth   : Word := fbReqWidth
  fbReqVheight  : Word := fbReqHeight
  /-- P17 (OPEN; the example values). -/
  fbReqDepth    : Word := 32#32
  fbReqOrder    : Word := 1#32
  fbReqAlign    : Word := 4096#32
  /-- P20, the function-select codes. -/
  fselInput     : BitVec 3 := 0b000#3
  fselOutput    : BitVec 3 := 0b001#3
  fselAlt0      : BitVec 3 := 0b100#3
  fselAlt1      : BitVec 3 := 0b101#3
  fselAlt2      : BitVec 3 := 0b110#3
  fselAlt3      : BitVec 3 := 0b111#3
  fselAlt4      : BitVec 3 := 0b011#3
  fselAlt5      : BitVec 3 := 0b010#3
  /-- P21 PUD_WAIT_CYCLES (OPEN, at least 150). -/
  pudWaitCycles : Nat := 150
  /-- P23 UART pins and their alternate function. -/
  uartTxPin     : Nat := 14
  uartRxPin     : Nat := 15
  uartAltFn     : Nat := 5
  /-- P24, the values UART.INIT writes. -/
  auxMuEnMask   : Word := 0x1#32
  ierInit       : Word := 0x0#32
  cntlOff       : Word := 0x0#32
  lcrInit       : Word := 0x3#32
  mcrInit       : Word := 0x0#32
  iirInit       : Word := 0xC6#32
  baudDiv       : Word := 270#32
  cntlOn        : Word := 0x3#32
  /-- P26 UART_FIFO_DEPTH. -/
  uartFifoDepth : Nat := 8
  /-- P27, the controller pins. -/
  pinLatch      : Nat := 9
  pinData       : Nat := 10
  pinClock      : Nat := 11
  /-- P29 TIMER_PRESENT, an environment flag with no default in R7 (DESIGN CHOICE: true; log 3). -/
  timerPresent  : Bool := true
  /-- P30 CR_SUPPRESS. -/
  crSuppress    : Bool := true
  /-- P31 SUCCESS_TEST. -/
  successTest   : SuccessTest := .highBit
  /-- P32 ENGINE_CLK_HZ (OPEN); no rule depends on it (70_reset_and_hazards.md R631). -/
  engineClkHz   : Nat := 1
  /-- P33 COUNTER_LIMIT (OPEN). -/
  counterLimit  : CounterLimit := .unspecified
  /-- The RAM extent, as ranges (base, size), that the platform decides (20_memory.md R115; log 16). -/
  ramExtent     : List (Nat × Nat) := [(0x00000000, 0x3F000000)]
  deriving DecidableEq, Repr

/-! The parameters that the source itself fixes are constants (P12 to P14, P18, P19, P22, P25, P28). -/

/-- P12 REQUEST_CODE. -/
def Config.requestCode : Word := 0#32
/-- P13 SUCCESS_BIT. -/
def Config.successBit : Nat := 31
/-- P14 TAG_END. -/
def Config.tagEnd : Word := 0#32
/-- P18 ADDR_MASK. -/
def Config.addrMask : Word := 0x3FFFFFFF#32
/-- P19 PIN_COUNT. -/
def Config.pinCount : Nat := 54
/-- P22 GPPUD_OFF. -/
def Config.gppudOff : Word := 0#32
/-- P25 LSR_DR_BIT. -/
def Config.lsrDrBit : Fin 32 := 0
/-- P25 LSR_TXE_BIT. -/
def Config.lsrTxeBit : Fin 32 := 5
/-- P28 LATCH_US. -/
def Config.latchUs : Word := 12#32
/-- P28 HALF_BIT_US. -/
def Config.halfBitUs : Word := 6#32
/-- P28 CTRL_BITS. -/
def Config.ctrlBits : Nat := 16

/-- The seven clauses of 00_scope.md R8, in its order. -/
def Config.clauses (c : Config) : Bool :=
  decide (c.mboxBufAddr.toNat % 16 = 0)
    && decide (35 ≤ c.mboxBufWords)
    && decide (c.mboxBufAddr.toNat + 4 * c.mboxBufWords ≤ 2 ^ 32)
    && (decide (c.pinLatch ≤ 53) && decide (c.pinData ≤ 53) && decide (c.pinClock ≤ 53)
      && decide (c.uartTxPin ≤ 53) && decide (c.uartRxPin ≤ 53))
    && (decide (c.pinLatch ≠ c.pinData) && decide (c.pinData ≠ c.pinClock) && decide (c.pinLatch ≠ c.pinClock))
    && decide (c.uartAltFn ≤ 5)
    && decide (150 ≤ c.pudWaitCycles)

/-- The ranges that 00_scope.md R7 gives beside R8's: ENGINE_BASE (P1) is a multiple of 64, MBOX_FIFO_DEPTH (P9) at
least 1. -/
def Config.ranges (c : Config) : Bool := decide (c.engineBase.toNat % 64 = 0) && decide (1 ≤ c.mboxFifoDepth)

/-- The register offsets, in the order of their declaration. -/
def RegOffsets.all (o : RegOffsets) : List Word :=
  [o.mboxRead, o.mboxStatus, o.mboxWrite, o.gpfsel, o.gpset, o.gpclr, o.gplev, o.gppud, o.gppudclk, o.auxEnables, o.auxMuIo,
    o.auxMuIer, o.auxMuIir, o.auxMuLcr, o.auxMuMcr, o.auxMuLsr, o.auxMuCntl, o.auxMuBaud, o.systmrCs, o.systmrClo,
    o.systmrChi, o.systmrCmp]

/-- The word is a multiple of 4. -/
def Word.aligned (w : Word) : Bool := decide (w.toNat % 4 = 0)

/-- The alignments that 20_memory.md R106 rests on: PERIPH_BASE is a multiple of 4096, and every block base and register
offset a multiple of 4. -/
def Config.aligned (c : Config) : Bool :=
  decide (c.periphBase.toNat % 4096 = 0)
    && [c.mboxBase, c.gpioBase, c.auxBase, c.systmrBase].all Word.aligned && c.off.all.all Word.aligned

/-- The configuration is well-formed: the clauses of 00_scope.md R8, and the ranges and alignments that R7 and 20_memory.md
R106 state (DEDUCED: a model refuses these too; log 37). -/
def Config.wf (c : Config) : Bool := c.clauses && c.ranges && c.aligned

/-- Whether RAM stands at a bus address (20_memory.md R115). -/
def Config.inRam (c : Config) (a : Nat) : Bool :=
  c.ramExtent.any fun r => decide (r.1 ≤ a) && decide (a < r.1 + r.2)

/-- The free value: what the spec lets be "any value" (93_implementation_defined.md, treatment *any value*), where the
environment has supplied none. It has no body, so nothing can be proved of it (log 7). -/
opaque Config.freeWord : Nat → Word

end Sys2Proof
end

