-- ==== Sys2Proof/Machine/State.lean ====
section
/-! DEFINITION. The state of the machine as plain data (10_state.md, with the devices of 60_exceptions.md), its reset
value (70_reset_and_hazards.md R600, R602), and the reasons a step can stop. -/

namespace Sys2Proof.Machine

/-! ## Engine registers the host sees -/

/-- Error codes 0 to 4 (60_exceptions.md R500); 5 to 15 are never produced. -/
inductive ErrCode where
  | none
  | illegalCommand
  | illegalOperand
  | provisionFail
  | alreadyProvisioned
  deriving DecidableEq, Repr

/-- STATUS, field by field (10_state.md R44); its reserved bits read 0 and are no state. -/
structure Status where
  busy    : Bool := false
  done    : Bool := false
  result  : Bool := false
  err     : Bool := false
  errcode : ErrCode := .none
  overrun : Bool := false
  deriving DecidableEq, Repr

/-- The seven framebuffer descriptor words (10_state.md R50). -/
structure FbDesc where
  width  : Word := 0#32
  height : Word := 0#32
  pitch  : Word := 0#32
  depth  : Word := 0#32
  order  : Word := 0#32
  size   : Word := 0#32
  base   : Word := 0#32
  deriving DecidableEq, Repr

/-- The host register block (10_state.md R41). CMD and the reserved offsets hold nothing. -/
structure HostRegs where
  arg     : Word := 0#32
  status  : Status := {}
  res0    : Word := 0#32
  res1    : Word := 0#32
  fb      : FbDesc := {}
  fbValid : Bool := false
  deriving DecidableEq, Repr

/-! ## Device registers -/

/-- The device registers on the engine bus (60_exceptions.md R520, R522, R524, R526). -/
inductive Reg where
  | mboxRead
  | mboxStatus
  | mboxWrite
  | gpfsel (n : Fin 6)
  | gpset (n : Fin 2)
  | gpclr (n : Fin 2)
  | gplev (n : Fin 2)
  | gppud
  | gppudclk (n : Fin 2)
  | auxEnables
  | auxMuIo
  | auxMuIer
  | auxMuIir
  | auxMuLcr
  | auxMuMcr
  | auxMuLsr
  | auxMuCntl
  | auxMuBaud
  | systmrCs
  | systmrClo
  | systmrChi
  | systmrCmp (n : Fin 4)
  deriving DecidableEq, Repr

/-- A tag of a request: the index `t` of its identifier word, and its number of value words, `ceil(S/4)` (40_mailbox.md
R200). -/
structure TagSlot where
  start  : Nat
  values : Nat
  deriving DecidableEq, Repr

/-- The layout of a request that keeps the buffer invariant: the number of words of its buffer, `s div 4` of R531, and its
tags (40_mailbox.md R200, R201). -/
structure Layout where
  words : Nat
  tags  : List TagSlot
  deriving DecidableEq, Repr

/-- A request word the coprocessor has popped (R530), with the layout of its buffer when the request keeps the invariant of
40_mailbox.md R201, and `none` when it breaks it (log 18). -/
structure Request where
  word   : Word
  layout : Option Layout
  deriving DecidableEq, Repr

/-- Mailbox device (R521) with the coprocessor's popped and unanswered requests, oldest first (R530). -/
structure Mbox where
  inbound  : List Word := []
  outbound : List Word := []
  held     : List Request := []
  deriving DecidableEq, Repr

/-- Pull state of a pad (10_state.md R66). -/
inductive Pull where
  | off
  | down
  | up
  deriving DecidableEq, Repr

/-- The pulls after reset. PRESUMED: the BCM283x family's (log 5). -/
def familyPulls : Vector Pull 54 :=
  Vector.ofFn fun p =>
    if p.val ≤ 8 ∨ 34 ≤ p.val ∧ p.val ≤ 36 ∨ 46 ≤ p.val then .up
    else if p.val = 28 ∨ p.val = 29 ∨ p.val = 44 ∨ p.val = 45 then .off
    else .down

/-- GPIO block and its pads (R522, R523). Bit `p` of a 54-bit field is pin `p`. -/
structure Gpio where
  gpfsel   : Vector Word 6 := Vector.replicate 6 0#32
  latch    : BitVec 54 := 0#54
  gppud    : Word := 0#32
  gppudclk : Vector Word 2 := Vector.replicate 2 0#32
  pull     : Vector Pull 54 := familyPulls
  /-- Engine cycle of the last GPPUD write, if there was one (the settle time of R523). -/
  pudAt    : Option Nat := none
  /-- A host write has broken the settle time of the engine's pull sequence (70_reset_and_hazards.md R621). -/
  broken   : Bool := false
  /-- Engine cycle at which each pin's clock bit was last set (the hold time of R523). -/
  clkAt    : Vector Nat 54 := Vector.replicate 54 0
  /-- Pads the outside world drives, and the level it drives them to. -/
  driven   : BitVec 54 := 0#54
  level    : BitVec 54 := 0#54
  /-- The peripheral signal at each pin in an alternate function. -/
  alt      : BitVec 54 := 0#54
  deriving DecidableEq, Repr

/-- AUX block, mini UART and its transmitted stream TX (R524, R525). -/
structure Uart where
  enables : Word := 0#32
  ier     : Word := 0#32
  lcr     : Word := 0#32
  mcr     : Word := 0#32
  cntl    : Word := 3#32
  baud    : Word := 0#32
  rx      : List Byte := []
  tx      : List Byte := []
  sent    : List Byte := []
  deriving DecidableEq, Repr

/-- System timer (R526). `count` is the count of microseconds; `rate` is the model's own: how far agent 4 moves the
counter before each engine step (log 14). -/
structure Timer where
  count : Nat := 0
  rate  : Nat := 1
  cs    : Word := 0#32
  cmp   : Vector Word 4 := Vector.replicate 4 0#32
  deriving DecidableEq, Repr

/-- Controller peripheral (R534). A line is `none` while the pad floats. `edgeAt` and `synced` say whether the intervals
it needs have been kept since the last latch (log 13). -/
structure Ctrl where
  plugged   : Bool := true
  buttons   : BitVec 16 := 0#16
  shift     : BitVec 16 := 0#16
  pos       : Nat := 0
  latchLine : Option Bool := some false
  clockLine : Option Bool := some false
  edgeAt    : Nat := 0
  synced    : Bool := false
  deriving DecidableEq, Repr

/-- RAM as (address, byte) pairs in the canonical form of `Memory.wf` (Machine/Ops.lean). -/
abbrev Memory := List Host.Cell

/-! ## The sequencer -/

/-- What a Now() is for: the result of TMR.NOW, Delay's first reading, or a reading of Delay's loop (43_timer.md R320,
R322). -/
inductive NowUse where
  | result
  | delayFirst (n : Word)
  | delayAgain (n : Word)
  deriving DecidableEq, Repr

/-- The seven response words FB.PROVISION reads (42_framebuffer.md R283). -/
inductive RespField where
  | address
  | width
  | height
  | pitch
  | depth
  | order
  | size
  deriving DecidableEq, Repr

/-- What a command's completion writes (30_encoding.md R161; 10_state.md R46, R47). -/
inductive Finish where
  | plain
  | submit
  | provision
  | now
  | sample
  | getc
  | fail (e : ErrCode)
  deriving DecidableEq, Repr

/-- A local computation of the pseudocode: it takes no step of its own and belongs to the step of the access that follows it
(30_encoding.md R160). It uses hidden values and OPND only. -/
inductive Calc where
  /-- `until s[bit] = level` of `WaitUntil(r, bit, level)` (00_scope.md R11). -/
  | pollTest (r : Reg) (bit : Fin 32) (level : Bool)
  /-- `if r = W` of MboxCall (40_mailbox.md R205, R206). -/
  | matchTest
  /-- `if not ok` of FB.PROVISION (42_framebuffer.md R290). -/
  | codeTest
  /-- `if hi2 != hi` of Now() (43_timer.md R320). -/
  | nowTest (u : NowUse)
  /-- The end of a retried Now() (R320). -/
  | nowDone (u : NowUse)
  /-- `s[i] <- NOT d` of CTRL.SAMPLE (44_controller.md R371). -/
  | sampleBit (i : Nat)
  /-- What UART.PUTS does with the byte at index k of at most len bytes (45_uart.md R413). -/
  | lineTest (k len : Nat)
  deriving DecidableEq, Repr

/-- A program point of the pseudocode: one that takes an engine step, which is a bus access, a Spin or the completion
(30_encoding.md R160, R161), or a local computation. The program of a command is a list of these. -/
inductive Op where
  /-- A local computation, which opens the step of the point after it. -/
  | compute (c : Calc)
  /-- SetFunction's read of GPFSEL(p div 10) (41_gpio.md R240). -/
  | fselRead (p : Nat)
  /-- SetFunction's write (R240). -/
  | fselWrite (p : Nat) (f : BitVec 3)
  /-- `MemWrite(r, 4, v)` of a device register. -/
  | regWrite (r : Reg) (v : Word)
  /-- `Spin(PUD_WAIT_CYCLES)` (R241). -/
  | spin
  /-- `s <- MemRead(r, 4)` of WaitUntil (00_scope.md R11). -/
  | poll (r : Reg)
  /-- `MemWrite(MBOX_BUF_ADDR + 4*i, 4, v)` (42_framebuffer.md R282). -/
  | bufWrite (i : Nat) (v : Word)
  /-- `MemWrite(MBOX_WRITE, 4, W)` (40_mailbox.md R205). -/
  | mboxSend (ch : BitVec 4)
  /-- `r <- MemRead(MBOX_READ, 4)` (R205). -/
  | mboxReceive
  /-- `code <- MemRead(MBOX_BUF_ADDR + 4, 4)` (R205). -/
  | codeRead
  /-- A response read of FB.PROVISION (42_framebuffer.md R290). -/
  | respRead (f : RespField)
  /-- `hi <- MemRead(SYSTMR_CHI, 4)` of Now(), also in its retry (43_timer.md R320). -/
  | chiRead
  /-- `lo <- MemRead(SYSTMR_CLO, 4)` of Now(), also in its retry. -/
  | cloRead
  /-- `hi2 <- MemRead(SYSTMR_CHI, 4)` of Now(). -/
  | chiCheck
  /-- The DATA read of CTRL.SAMPLE (44_controller.md R371). -/
  | sampleRead
  /-- `e <- MemRead(AUX_ENABLES, 4)` (45_uart.md R400). -/
  | enableRead
  /-- `MemWrite(AUX_ENABLES, 4, e OR AUX_MU_EN_MASK)` (R400). -/
  | enableWrite
  /-- GetChar's read of AUX_MU_IO (R403). -/
  | rxRead
  /-- The byte read of UART.PUTS at index k (R413). -/
  | strRead (k : Nat)
  /-- PutChar's write of a byte to AUX_MU_IO (R402). -/
  | putByte (b : Byte)
  /-- PutChar's write of the hex digit of OPND's nibble k (R414). -/
  | putNibble (k : Nat)
  /-- The completion step (30_encoding.md R161; 60_exceptions.md R501). -/
  | finish (f : Finish)
  deriving DecidableEq, Repr

/-- SEQ (10_state.md R55, R56): idle; accepted and not yet decoded (30_encoding.md R160); or running at a program point,
written as the engine steps the pseudocode still has to make. -/
inductive Seq where
  | idle
  | decode (w : Word)
  | run (i : Instr) (todo : List Op)
  deriving DecidableEq, Repr

/-- Where the engine stands in a pull sequence (41_gpio.md R241): its GPPUD write is made and its clocking write is not, or its
clocking write of GPPUDCLK(n) is made and its clearing write is not. -/
inductive PullPhase where
  | settle
  | hold (n : Fin 2)
  deriving DecidableEq, Repr

/-- The engine's hidden values but SEQ and OPND (10_state.md R56; the pseudocode's variables). -/
structure Locals where
  /-- The word last read, where the pseudocode names it `s` (WaitUntil), `r` (MboxCall), `v` (SetFunction), `hi2` (Now()),
  `e` (UartInit), and the words read by CTRL.SAMPLE and GetChar. -/
  v    : Word := 0#32
  /-- W, the channel-encoded word in flight. -/
  w    : Word := 0#32
  /-- `hi` and `lo` of Now(). -/
  hi   : Word := 0#32
  lo   : Word := 0#32
  /-- `t0` of Delay. -/
  t0   : BitVec 64 := 0#64
  /-- `s` of CTRL.SAMPLE. -/
  snap : BitVec 16 := 0#16
  /-- `prev` of UART.PUTS. -/
  prev : Byte := 0#8
  /-- The byte UART.PUTS has read last. -/
  c    : Byte := 0#8
  /-- `code` of MboxCall. -/
  code : Word := 0#32
  /-- The seven response words of FB.PROVISION, the address still raw. -/
  resp : FbDesc := {}
  deriving DecidableEq, Repr

/-! ## The bus trace, the host's observations and the script of the agents -/

/-- Events of the engine's bus trace (00_scope.md R11). -/
inductive BusEvent where
  | rd (addr : Word) (n : Nat) (value : Word)
  | wr (addr : Word) (n : Nat) (value : Word)
  | spin (cycles : Nat)
  deriving DecidableEq, Repr

/-- What a host read returned (60_exceptions.md R541; 30_encoding.md R171). -/
inductive HostObs where
  | reg (addr value : Word)
  | ram (addr : Word) (value : Byte)
  | dev (r : Reg) (value : Word)
  deriving DecidableEq, Repr

/-- One entry of the script: an action of an agent other than the engine, or a marker that says how long the engine
moves next. The script is the interleaving of the agents as plain data (log 1). -/
inductive Event where
  /-- The engine takes one step. -/
  | engine
  /-- The engine moves until its command completes or a poll has not seen its condition. -/
  | untilHold
  /-- The host's POLL: it reads STATUS until DONE = 1, and the engine moves between two reads (30_encoding.md R171). -/
  | poll
  /-- A host write of `width` bytes on the host bus (60_exceptions.md R541; 10_state.md R42). -/
  | hostWrite (addr : Word) (width : Nat) (v : Word)
  /-- A host read of `width` bytes on the host bus. -/
  | hostRead (addr : Word) (width : Nat)
  /-- A host write of a RAM byte or word, or a host read of a RAM byte (R540, R541). -/
  | hostRamWrite (addr : Word) (v : Byte)
  | hostRamWriteWord (addr : Word) (v : Word)
  | hostRamRead (addr : Word)
  /-- A host access to a device register (R541, R621). -/
  | hostDevWrite (r : Reg) (v : Word)
  | hostDevRead (r : Reg)
  /-- The coprocessor pops a word, writes a RAM word, pushes a word (R530). -/
  | coPop
  | coWrite (addr : Word) (v : Word)
  | coPush (w : Word)
  /-- The timer counter advances by n (R526). -/
  | tick (n : Nat)
  /-- From now on the counter advances by n before each engine step (R526, R327). -/
  | timerRate (n : Nat)
  /-- n engine cycles pass with no access of the engine, as a host's own pull sequence waits them out (R523; log 11). -/
  | cycles (n : Nat)
  /-- The UART line partner removes the head of the transmit FIFO, or appends a received byte (R525). -/
  | uartDrain
  | uartReceive (b : Byte)
  /-- The buttons of the controller peripheral, and whether it is plugged in (R534). -/
  | buttons (p : BitVec 16)
  | plug (b : Bool)
  /-- The outside world drives a pad, or lets it go; a peripheral signal of an alternate function (R523). -/
  | drive (p : Nat) (level : Option Bool)
  | altSignal (p : Nat) (level : Bool)
  /-- Reset of the engine (70_reset_and_hazards.md R600, R601), which leaves the devices as they are. -/
  | reset
  /-- Reset after which the devices and RAM hold any values, here given (R602). -/
  | resetWith (mbox : Mbox) (gpio : Gpio) (uart : Uart) (timer : Timer) (ctrl : Ctrl) (ram : Memory)
  deriving DecidableEq, Repr

/-! ## State -/

/-- The whole machine: engine (10_state.md R41 to R56), devices and RAM (R65), configuration (00_scope.md R7), and the
model's own bookkeeping. -/
structure State where
  /-- Configuration, which no step changes (log 3). -/
  cfg     : Config := {}
  /-- Host registers (R41). -/
  regs    : HostRegs := {}
  /-- SEQ (R55). -/
  seq     : Seq := .idle
  /-- OPND (R61). -/
  opnd    : Word := 0#32
  /-- The other hidden values (R56). -/
  loc     : Locals := {}
  mbox    : Mbox := {}
  gpio    : Gpio := {}
  uart    : Uart := {}
  timer   : Timer := {}
  ctrl    : Ctrl := {}
  /-- RAM (R65, R104). -/
  ram     : Memory := []
  /-- Engine cycles passed: in Spins (00_scope.md R11), and outside them as the script says (log 11). -/
  cycles  : Nat := 0
  /-- The bus trace, oldest first (00_scope.md R11). -/
  trace   : List BusEvent := []
  /-- What the host has read, oldest first. -/
  obs     : List HostObs := []
  /-- The script of the agents (log 1). -/
  script  : List Event := []
  /-- Values the environment supplies where the spec says *any value*, used before `Config.freeWord` (log 7). -/
  noise   : List Word := []
  /-- Counter of the free values drawn from `Config.freeWord` (log 7). -/
  freeIdx : Nat := 0
  deriving DecidableEq, Repr

/-- The machine right after reset (70_reset_and_hazards.md R600): engine registers 0, SEQ idle, the hidden values 0 as
R600 allows. R602 gives the devices and RAM no value: theirs are PRESUMED for the family's registers (log 5) and DESIGN
CHOICE for the rest (logs 6, 32), the configuration log 3. -/
def State.reset : State := {}

/-! ## Why a step can stop -/

/-- A step stops with a fault. The hardware has no trap (60_exceptions.md R508); its errors are completions. -/
inductive Fault where
  /-- Raised by `step` when SEQ is running with no program point left: no rule gives that state a step, and no run
  reaches it. Safe. -/
  | noProgramPoint
  deriving DecidableEq, Repr

/-- A step is refused: the spec gives it no meaning. -/
inductive Refusal where
  /-- Raised by an arm of `exec` whose instruction has no meaning yet. Safe. -/
  | notModelled (mnemonic : String)
  /-- Raised by `step`: the configuration breaks a clause of 00_scope.md R8, which says a model refuses it. Safe. -/
  | illFormedConfig
  /-- Raised by `step`: a host access that is not an aligned 32-bit access of the engine block (10_state.md R42,
  20_memory.md R108). Safe. -/
  | hostAccess
  deriving DecidableEq, Repr

end Sys2Proof.Machine
end

