-- ==== Sys2Proof/Machine/Flags.lean ====
section
/-! DEFINITION. STATUS: its word, and what acceptance, completion, an error and an overrun do to it (10_state.md R44;
30_encoding.md R160 to R162; 60_exceptions.md R500, R501). -/

namespace Sys2Proof.Machine

/-- The ERRCODE value of an error (60_exceptions.md R500). -/
def ErrCode.bits : ErrCode → BitVec 4
  | .none => 0#4
  | .illegalCommand => 1#4
  | .illegalOperand => 2#4
  | .provisionFail => 3#4
  | .alreadyProvisioned => 4#4

/-- STATUS as the host reads it, bit 31 first: reserved 31:17, OVERRUN, reserved 15:12, ERRCODE, reserved 7:4, ERR, RESULT,
DONE, BUSY (10_state.md R44). -/
def Status.word (s : Status) : Word :=
  0#15 ++ BitVec.ofBool s.overrun ++ 0#4 ++ s.errcode.bits ++ 0#4 ++ BitVec.ofBool s.err ++ BitVec.ofBool s.result
    ++ BitVec.ofBool s.done ++ BitVec.ofBool s.busy

/-- Acceptance (30_encoding.md R160): BUSY set; DONE, RESULT, ERR and ERRCODE cleared; OVERRUN kept. -/
def Status.accepted (s : Status) : Status :=
  { s with busy := true, done := false, result := false, err := false, errcode := .none }

/-- Normal completion (30_encoding.md R161): BUSY cleared, DONE set. RESULT, ERR and ERRCODE keep the 0 of acceptance. -/
def Status.completed (s : Status) : Status := { s with busy := false, done := true }

/-- Normal completion of a command with a Boolean result (10_state.md R46). -/
def Status.completedWith (s : Status) (result : Bool) : Status := { s with busy := false, done := true, result := result }

/-- Error completion (60_exceptions.md R501). -/
def Status.failed (s : Status) (e : ErrCode) : Status :=
  { s with busy := false, done := true, result := false, err := true, errcode := e }

/-- A CMD write while BUSY = 1 (30_encoding.md R162): OVERRUN set and nothing else. -/
def Status.overran (s : Status) : Status := { s with overrun := true }

end Sys2Proof.Machine
end

