-- ==== Sys2Proof/Machine/Operands.lean ====
section
/-! DEFINITION. Operand and address forms: pin fields, register addresses, buffer addresses, the channel-encoded word,
the framebuffer request, hex digits (00_scope.md R12; 30_encoding.md R174, R176; the command files). -/

namespace Sys2Proof.Machine

/-! ## Pins (00_scope.md R12) -/

/-- The function-select register that holds pin `p`'s field: GPFSEL(p div 10). -/
def fselReg (p : Nat) : Fin 6 := Fin.ofNat 6 (p / 10)

/-- The place of pin `p`'s field in it: `3 * (p mod 10)`. -/
def fselShift (p : Nat) : Nat := 3 * (p % 10)

/-- The register of a pair that holds pin `p`'s bit: `p div 32`. -/
def pinBank (p : Nat) : Fin 2 := Fin.ofNat 2 (p / 32)

/-- `bitof(p) = 1 << (p mod 32)` (44_controller.md; 41_gpio.md R241). -/
def pinBit (p : Nat) : Word := Word.one (p % 32)

/-- A register of a pair, spread over the 54 pins: bit b of register n is pin 32n + b, and bits past pin 53 are no pin
(60_exceptions.md R522). -/
def bankPins (n : Fin 2) (v : Word) : BitVec 54 := v.setWidth 54 <<< (32 * n.val)

/-- SetFunction's new register value: clear the field, then OR in f (41_gpio.md R240). -/
def fselInsert (v : Word) (p : Nat) (f : BitVec 3) : Word :=
  (v &&& ~~~(0b111#32 <<< fselShift p)) ||| (f.setWidth 32 <<< fselShift p)

/-- Pin `p`'s field in a function-select register value (60_exceptions.md R522). -/
def fselField (v : Word) (p : Nat) : BitVec 3 := v.extractLsb' (fselShift p) 3

/-- FSEL_ALT(fn) (41_gpio.md R246); `fn` is at most 5 wherever the machine uses it (30_encoding.md R147, 00_scope.md R8). -/
def fselAlt (c : Config) (fn : Nat) : BitVec 3 :=
  match fn with
  | 0 => c.fselAlt0
  | 1 => c.fselAlt1
  | 2 => c.fselAlt2
  | 3 => c.fselAlt3
  | 4 => c.fselAlt4
  | _ => c.fselAlt5

/-- The level of a 54-bit field at pin `p`. -/
def pinLevel (b : BitVec 54) (p : Nat) : Bool := b.getLsbD p

/-! ## Bus addresses (30_encoding.md R176) -/

/-- The bus address of a device register (60_exceptions.md R520, R522, R524, R526). DESIGN CHOICE where a base plus an offset passes
2^32 - 1, which 00_scope.md R8 does not exclude: the sum wraps (log 38). -/
def Reg.addr (c : Config) : Reg → Word
  | .mboxRead => c.mboxBase + c.off.mboxRead
  | .mboxStatus => c.mboxBase + c.off.mboxStatus
  | .mboxWrite => c.mboxBase + c.off.mboxWrite
  | .gpfsel n => c.gpioBase + c.off.gpfsel + BitVec.ofNat 32 (4 * n.val)
  | .gpset n => c.gpioBase + c.off.gpset + BitVec.ofNat 32 (4 * n.val)
  | .gpclr n => c.gpioBase + c.off.gpclr + BitVec.ofNat 32 (4 * n.val)
  | .gplev n => c.gpioBase + c.off.gplev + BitVec.ofNat 32 (4 * n.val)
  | .gppud => c.gpioBase + c.off.gppud
  | .gppudclk n => c.gpioBase + c.off.gppudclk + BitVec.ofNat 32 (4 * n.val)
  | .auxEnables => c.auxBase + c.off.auxEnables
  | .auxMuIo => c.auxBase + c.off.auxMuIo
  | .auxMuIer => c.auxBase + c.off.auxMuIer
  | .auxMuIir => c.auxBase + c.off.auxMuIir
  | .auxMuLcr => c.auxBase + c.off.auxMuLcr
  | .auxMuMcr => c.auxBase + c.off.auxMuMcr
  | .auxMuLsr => c.auxBase + c.off.auxMuLsr
  | .auxMuCntl => c.auxBase + c.off.auxMuCntl
  | .auxMuBaud => c.auxBase + c.off.auxMuBaud
  | .systmrCs => c.systmrBase + c.off.systmrCs
  | .systmrClo => c.systmrBase + c.off.systmrClo
  | .systmrChi => c.systmrBase + c.off.systmrChi
  | .systmrCmp n => c.systmrBase + c.off.systmrCmp + BitVec.ofNat 32 (4 * n.val)

/-- The address of buffer word i: `MBOX_BUF_ADDR + 4*i` (40_mailbox.md R200). -/
def bufAddr (c : Config) (i : Nat) : Word := c.mboxBufAddr + BitVec.ofNat 32 (4 * i)

/-- The address of byte k of a UART.PUTS string: `OPND + k` (45_uart.md R413). -/
def strAddr (opnd : Word) (k : Nat) : Word := opnd + BitVec.ofNat 32 k

/-! ## Mailbox and framebuffer -/

/-- The channel-encoded word W (40_mailbox.md R203). -/
def channelWord (c : Config) (ch : BitVec 4) : Word := (c.mboxBufAddr &&& 0xFFFFFFF0#32) ||| ch.setWidth 32

/-- SuccessTest(code) (40_mailbox.md R207). -/
def successTest (c : Config) (code : Word) : Bool :=
  match c.successTest with
  | .highBit => code.bit Config.successBit
  | .equalResponse => code == 0x80000000#32

/-- The 35 words of the framebuffer request, in index order (42_framebuffer.md R280). -/
def fbRequest (c : Config) : List Word :=
  [140#32, Config.requestCode]
    ++ [c.tagSetPhysWh, 8#32, 8#32, c.fbReqWidth, c.fbReqHeight]
    ++ [c.tagSetVirtWh, 8#32, 8#32, c.fbReqVwidth, c.fbReqVheight]
    ++ [c.tagSetVirtOff, 8#32, 8#32, 0#32, 0#32]
    ++ [c.tagSetDepth, 4#32, 4#32, c.fbReqDepth]
    ++ [c.tagSetPixelOrder, 4#32, 4#32, c.fbReqOrder]
    ++ [c.tagAllocBuffer, 8#32, 8#32, c.fbReqAlign, 0#32]
    ++ [c.tagGetPitch, 4#32, 4#32, 0#32]
    ++ [Config.tagEnd]

/-- The buffer word index of a response field (42_framebuffer.md R283). -/
def RespField.index : RespField → Nat
  | .address => 28
  | .width => 5
  | .height => 6
  | .pitch => 33
  | .depth => 20
  | .order => 24
  | .size => 29

/-- The descriptor with one response word stored; the address stays raw until the completion (42_framebuffer.md R290). -/
def RespField.store (f : RespField) (v : Word) (d : FbDesc) : FbDesc :=
  match f with
  | .address => { d with base := v }
  | .width => { d with width := v }
  | .height => { d with height := v }
  | .pitch => { d with pitch := v }
  | .depth => { d with depth := v }
  | .order => { d with order := v }
  | .size => { d with size := v }

/-- FB_BASE from the raw address word (42_framebuffer.md R284). -/
def fbBaseOf (raw : Word) : Word := raw &&& Config.addrMask

/-- The byte address of pixel (row, col), the descriptor's contract with its consumer (42_framebuffer.md R296). The
engine never uses it. -/
def pixelAddr (d : FbDesc) (row col : Nat) : Nat :=
  d.base.toNat + row * d.pitch.toNat + col * (d.depth.toNat / 8)

/-! ## UART -/

/-- The nibble `OPND[4*k+3 : 4*k]` (45_uart.md R414). -/
def nibble (v : Word) (k : Nat) : BitVec 4 := v.extractLsb' (4 * k) 4

/-- HexDigit(d) (45_uart.md R404). -/
def hexDigit (d : BitVec 4) : Byte :=
  if d.toNat ≤ 9 then BitVec.ofNat 8 (0x30 + d.toNat) else BitVec.ofNat 8 (0x41 + (d.toNat - 10))

/-- CR (45_uart.md R403, R413). -/
def asciiCr : Byte := 0x0D#8
/-- LF (45_uart.md R403, R413). -/
def asciiLf : Byte := 0x0A#8

/-- GetChar's normalisation: CR becomes LF (45_uart.md R403). -/
def normalizeCr (b : Byte) : Byte := if b = asciiCr then asciiLf else b

/-- The bytes UART.PUTS sends for one string byte `c` after the byte `prev` (45_uart.md R413). -/
def lineBytes (crSuppress : Bool) (prev c : Byte) : List Byte :=
  if c = asciiLf ∧ ¬(crSuppress = true ∧ prev = asciiCr) then [asciiCr, c] else [c]

/-- The line rate that BAUD_DIV gives (45_uart.md R401); no rule depends on it. -/
def lineRate (clock : Nat) (baudDiv : Word) : Nat := clock / (8 * (baudDiv.toNat + 1))

end Sys2Proof.Machine
end

