-- ==== Sys2Proof/Machine/Ops.lean ====
section
/-! DEFINITION. The named operations on memory, devices and registers: RAM, free values, the devices' reads and writes, the
engine's bus accesses, acceptance, completion, and the error completion that stands where other machines take an
exception (60_exceptions.md R501, R508). -/

namespace Sys2Proof.Machine

/-! ## RAM -/

/-- What an unlisted address reads as: 0 (DESIGN CHOICE, log 6; 70_reset_and_hazards.md R602 gives RAM no value). -/
def Memory.blank : Byte := 0#8

/-- The byte at an address. -/
def Memory.get : Memory → Nat → Byte
  | [], _ => Memory.blank
  | (b, v) :: m, a => if b = a then v else Memory.get m a

/-- The memory with one byte written, in canonical form. -/
def Memory.set : Memory → Nat → Byte → Memory
  | [], a, v => if v = Memory.blank then [] else [(a, v)]
  | (b, w) :: m, a, v =>
    if a < b then (if v = Memory.blank then (b, w) :: m else (a, v) :: (b, w) :: m)
    else if a = b then (if v = Memory.blank then m else (a, v) :: m)
    else (b, w) :: Memory.set m a v

/-- Addresses strictly rising. -/
def Memory.rising : Memory → Bool
  | [] => true
  | [_] => true
  | c :: d :: m => decide (c.1 < d.1) && Memory.rising (d :: m)

/-- The canonical form: addresses strictly rising, all of the 32-bit space, no entry equal to the blank byte. -/
def Memory.wf (m : Memory) : Bool :=
  Memory.rising m && m.all fun c => decide (c.1 < 2 ^ 32) && decide (c.2 ≠ Memory.blank)

/-- Byte k of a word, `v[8k+7 : 8k]` (20_memory.md R104). -/
def wordByte (v : Word) (k : Nat) : Byte := v.extractLsb' (8 * k) 8

/-- The bus address k bytes after `a`. -/
def byteAddr (a : Word) (k : Nat) : Nat := (a + BitVec.ofNat 32 k).toNat

/-- A RAM byte where RAM stands, and otherwise byte k of `f` (20_memory.md R115; log 16). -/
def State.ramOr (s : State) (f : Word) (a : Word) (k : Nat) : Byte :=
  if s.cfg.inRam (byteAddr a k) then Memory.get s.ram (byteAddr a k) else wordByte f k

/-- A RAM word, little-endian (20_memory.md R104). -/
def State.ramWord (s : State) (f : Word) (a : Word) : Word :=
  s.ramOr f a 3 ++ s.ramOr f a 2 ++ s.ramOr f a 1 ++ s.ramOr f a 0

/-- RAM with one byte written; where no RAM stands nothing is stored (log 16). -/
def State.ramSet (s : State) (a : Word) (k : Nat) (v : Byte) : State :=
  if s.cfg.inRam (byteAddr a k) then { s with ram := Memory.set s.ram (byteAddr a k) v } else s

/-- RAM with a word written, little-endian (20_memory.md R104). -/
def State.ramSetWord (s : State) (a v : Word) : State :=
  (((s.ramSet a 0 (wordByte v 0)).ramSet a 1 (wordByte v 1)).ramSet a 2 (wordByte v 2)).ramSet a 3 (wordByte v 3)

/-! ## Free values (93_implementation_defined.md, treatment *any value*; log 7) -/

/-- The next free value: what the environment supplies next, or a value of which nothing is known. -/
def State.freeValue (s : State) : Word :=
  match s.noise with
  | w :: _ => w
  | [] => Config.freeWord s.freeIdx

/-- The state after one free value was used. -/
def State.useFree (s : State) : State :=
  match s.noise with
  | _ :: ws => { s with noise := ws }
  | [] => { s with freeIdx := s.freeIdx + 1 }

/-- A word with one bit given. -/
def setBit (v : Word) (i : Nat) (b : Bool) : Word := if b then v ||| Word.one i else v &&& ~~~(Word.one i)

/-! ## GPIO pads (60_exceptions.md R523) -/

/-- Pin `p`'s function-select field. -/
def State.pinFunction (s : State) (p : Nat) : BitVec 3 := fselField (s.gpio.gpfsel[fselReg p]) p

/-- The pull state of pin `p`; a number past pin 53 is no pin and has none. -/
def Gpio.pullOf (g : Gpio) (p : Nat) : Pull := if h : p < 54 then g.pull[p] else .off

/-- The level of pin `p`'s pad where the rules fix it, apart from the controller peripheral's DATA: output, the latch;
input, what the outside world drives, or the pull; alternate function, the peripheral signal. `none` is a pad that reads
any value. DESIGN CHOICE where a configuration gives two function codes (00_scope.md R7 P20) one value, which R8 does not exclude: a
code that is FSEL_OUTPUT makes an output, one that is only FSEL_INPUT an input, and neither is then an alternate function (log 12). -/
def State.padLevel (s : State) (p : Nat) : Option Bool :=
  if s.pinFunction p = s.cfg.fselOutput then some (pinLevel s.gpio.latch p)
  else if s.pinFunction p = s.cfg.fselInput then
    if pinLevel s.gpio.driven p then some (pinLevel s.gpio.level p)
    else
      match s.gpio.pullOf p with
      | .up => some true
      | .down => some false
      | .off => none
  else some (pinLevel s.gpio.alt p)

/-! ## Controller peripheral (60_exceptions.md R534) -/

/-- The interval since the last edge was at least `us`: the peripheral needs the intervals of 44_controller.md R361
(log 13). -/
def Ctrl.longEnough (c : Ctrl) (now : Nat) (us : Word) : Bool := decide (c.edgeAt + us.toNat ≤ now)

/-- What a new level of LATCH does. A rise starts a latch; while LATCH is high S follows P and k is 0; a fall ends the
pulse, which must have kept the latch interval whatever went before it. -/
def Ctrl.onLatch (c : Ctrl) (now : Nat) (l : Option Bool) : Ctrl :=
  let c1 : Ctrl :=
    if l = some true ∧ c.latchLine ≠ some true then { c with synced := true, edgeAt := now }
    else if l = some false ∧ c.latchLine = some true then
      { c with synced := c.longEnough now Config.latchUs, edgeAt := now }
    else c
  let c2 : Ctrl := if l = some true then { c1 with shift := c.buttons, pos := 0 } else c1
  { c2 with latchLine := l }

/-- What a new level of CLOCK does. A rise while LATCH is low moves on to the next bit; each edge must keep the half-bit
interval. -/
def Ctrl.onClock (c : Ctrl) (now : Nat) (k : Option Bool) : Ctrl :=
  let c1 : Ctrl :=
    if k = some true ∧ c.clockLine = some false ∧ c.latchLine = some false then
      { c with pos := c.pos + 1, synced := c.synced && c.longEnough now Config.halfBitUs, edgeAt := now }
    else if k = some false ∧ c.clockLine = some true ∧ c.latchLine = some false then
      { c with synced := c.synced && c.longEnough now Config.halfBitUs, edgeAt := now }
    else c
  { c1 with clockLine := k }

/-- A floating LATCH or CLOCK line desynchronises the peripheral (log 13). -/
def Ctrl.onFloat (c : Ctrl) : Ctrl :=
  if c.latchLine = none ∨ c.clockLine = none then { c with synced := false } else c

/-- DATA as the peripheral drives it: `NOT S[k]` for k up to 15; any value after that or when it is desynchronised; nothing
when it is unplugged. -/
def Ctrl.data (c : Ctrl) : Option Bool :=
  if c.synced = true ∧ c.pos ≤ 15 then some (!c.shift.getLsbD c.pos) else none

/-- The peripheral sees the pads after any change of them, plugged in or not (log 35). -/
def State.watchLines (s : State) : State :=
  { s with
    ctrl := ((s.ctrl.onLatch s.timer.count (s.padLevel s.cfg.pinLatch)).onClock s.timer.count
      (s.padLevel s.cfg.pinClock)).onFloat }

/-- The level GPLEV reads for pin `p`, with `f` the free value of the read (60_exceptions.md R523, R534). DESIGN CHOICE where a
configuration gives FSEL_INPUT and FSEL_OUTPUT one code, which 00_scope.md R8 does not exclude: PIN_DATA then shows the DATA of a
plugged-in controller, and every other pin its output latch (log 12). -/
def State.readLevel (s : State) (f : Word) (p : Nat) : Bool :=
  if p = s.cfg.pinData ∧ s.ctrl.plugged = true ∧ s.pinFunction p = s.cfg.fselInput then
    s.ctrl.data.getD (f.bit (p % 32))
  else (s.padLevel p).getD (f.bit (p % 32))

/-- GPLEV(n): bit b is the level of pin 32n + b; bits that correspond to no pin read any value (60_exceptions.md R522). -/
def State.levelWord (s : State) (f : Word) (n : Fin 2) : Word :=
  BitVec.ofFnLE fun (b : Fin 32) =>
    if 32 * n.val + b.val < Config.pinCount then s.readLevel f (32 * n.val + b.val) else f.bit b.val

/-! ## Pull resistors (60_exceptions.md R523) -/

/-- The pull state a GPPUD value asks for (R522); values the map does not name leave it free (log 27). DESIGN CHOICE where a
configuration gives two pulls one code: the first of off, down and up that has it (log 27). -/
def pullOfGppud (c : Config) (v : Word) (free : Pull) : Pull :=
  if v = Config.gppudOff then .off else if v = c.gppudDown then .down else if v = c.gppudUp then .up else free

/-- A free pull state, from two free bits. -/
def freePull (b1 b0 : Bool) : Pull :=
  match b1, b0 with
  | false, false => .off
  | false, true => .down
  | true, _ => .up

/-- GPPUD was written at least PUD_WAIT_CYCLES before cycle `at`. -/
def settled (wait : Nat) (pudAt : Option Nat) (t : Nat) : Bool :=
  match pudAt with
  | some w => decide (w + wait ≤ t)
  | none => false

/-- Pin p's pull state after a GPPUDCLK write of bit `new` over bit `old`: with the bit set it takes the GPPUD value, or
any value when the settle time was cut short or broken; with the bit cleared it keeps it, or takes any value when the hold time was
cut short (70_reset_and_hazards.md R622; log 11). -/
def pullAfterClock (c : Config) (now : Nat) (pudAt : Option Nat) (gppud : Word) (clkAt : Nat) (old new : Bool)
    (free pull : Pull) : Pull :=
  if new then (if settled c.pudWaitCycles pudAt now then pullOfGppud c gppud free else free)
  else if old then (if clkAt + c.pudWaitCycles ≤ now then pull else free)
  else pull

/-- The GPPUD write that a clocking write counts its settle time from, if there is one and no host write has broken the time. -/
def Gpio.settleFrom (g : Gpio) : Option Nat := if g.broken then none else g.pudAt

/-- A write of GPPUDCLK(n), with two free words for the pulls that become any value. -/
def State.clockPulls (s : State) (f1 f0 : Word) (n : Fin 2) (v : Word) : Gpio :=
  let g := s.gpio
  { g with
    gppudclk := g.gppudclk.set n.val v n.isLt
    pull := Vector.ofFn fun (p : Fin 54) =>
      if pinBank p.val = n then
        pullAfterClock s.cfg s.cycles g.settleFrom g.gppud g.clkAt[p] (g.gppudclk[n].bit (p.val % 32))
          (v.bit (p.val % 32)) (freePull (f1.bit (p.val % 32)) (f0.bit (p.val % 32))) g.pull[p]
      else g.pull[p]
    clkAt := Vector.ofFn fun (p : Fin 54) =>
      if pinBank p.val = n ∧ v.bit (p.val % 32) = true then s.cycles else g.clkAt[p] }

/-! ## Mailbox, UART and timer reads -/

/-- MBOX_STATUS (60_exceptions.md R521). DESIGN CHOICE where a configuration gives both flags one bit, which P10 does not exclude:
that bit shows FULL (log 33). -/
def State.mboxStatusWord (s : State) (f : Word) : Word :=
  setBit (setBit f s.cfg.mboxEmptyBit.val s.mbox.outbound.isEmpty) s.cfg.mboxFullBit.val
    (decide (s.cfg.mboxFifoDepth ≤ s.mbox.inbound.length))

/-- The UART block is enabled: an AUX_MU_EN_MASK bit of AUX_ENABLES is set (45_uart.md R400, R415). -/
def State.uartEnabled (s : State) : Bool := s.uart.enables &&& s.cfg.auxMuEnMask != 0#32

/-- AUX_MU_LSR (60_exceptions.md R525); any value before the UART is enabled (45_uart.md R415, log 9). -/
def State.lsrWord (s : State) (f : Word) : Word :=
  if s.uartEnabled then
    setBit (setBit f Config.lsrDrBit.val (!s.uart.rx.isEmpty)) Config.lsrTxeBit.val
      (decide (s.uart.tx.length < s.cfg.uartFifoDepth))
  else f

/-- The 64-bit count as CLO and CHI show it (60_exceptions.md R526, R527), with COUNTER_LIMIT past `2^64 - 1`
(43_timer.md R325; log 15). `none` is a reading that is any value. -/
def State.counter (s : State) : Option (BitVec 64) :=
  if s.cfg.timerPresent = false then some 0#64
  else if s.timer.count < 2 ^ 64 then some (BitVec.ofNat 64 s.timer.count)
  else
    match s.cfg.counterLimit with
    | .wraps => some (BitVec.ofNat 64 s.timer.count)
    | .stops => some (BitVec.allOnes 64)
    | .unspecified => none

/-- SYSTMR_CLO: C[31:0]. -/
def State.cloWord (s : State) (f : Word) : Word :=
  match s.counter with
  | some c => c.extractLsb' 0 32
  | none => f

/-- SYSTMR_CHI: C[63:32]. -/
def State.chiWord (s : State) (f : Word) : Word :=
  match s.counter with
  | some c => c.extractLsb' 32 32
  | none => f

/-- The counter agent moves the counter by n; without a timer there is no count (R526, R527). -/
def State.advanceTimer (s : State) (n : Nat) : State :=
  if s.cfg.timerPresent then { s with timer := { s.timer with count := s.timer.count + n } } else s

/-! ## Device registers -/

/-- The value a read of a device register returns, with `f` the free value of the read (60_exceptions.md R521 to R527;
20_memory.md R112). A register the rules give no read reads any value, and AUX_MU_IER, LCR, MCR, CNTL and BAUD, which R525
says no rule reads back, return the stored value (DESIGN CHOICE for a host's read, log 22). -/
def State.devValue (s : State) (f : Word) : Reg → Word
  | .mboxRead => s.mbox.outbound.head?.getD f
  | .mboxStatus => s.mboxStatusWord f
  | .gpfsel n => s.gpio.gpfsel[n]
  | .gplev n => s.levelWord f n
  | .auxEnables => s.uart.enables
  | .auxMuIo =>
    match s.uart.rx with
    | b :: _ => (f.extractLsb' 8 24 ++ b : BitVec 32)
    | [] => f
  | .auxMuIer => s.uart.ier
  | .auxMuLcr => s.uart.lcr
  | .auxMuMcr => s.uart.mcr
  | .auxMuLsr => s.lsrWord f
  | .auxMuCntl => s.uart.cntl
  | .auxMuBaud => s.uart.baud
  | .systmrCs => s.timer.cs
  | .systmrClo => s.cloWord f
  | .systmrChi => s.chiWord f
  | .systmrCmp n => s.timer.cmp[n]
  | .mboxWrite | .gpset _ | .gpclr _ | .gppud | .gppudclk _ | .auxMuIir => f

/-- Whether a read of a device register uses a free value (some bit of it is any value). -/
def State.readsFree (s : State) : Reg → Bool
  | .mboxRead => s.mbox.outbound.isEmpty
  | .systmrClo | .systmrChi => s.counter.isNone
  | .gpfsel _ | .auxEnables | .auxMuIer | .auxMuLcr | .auxMuMcr | .auxMuCntl | .auxMuBaud | .systmrCs | .systmrCmp _ => false
  | .mboxStatus | .gplev _ | .auxMuIo | .auxMuLsr | .mboxWrite | .gpset _ | .gpclr _ | .gppud | .gppudclk _ | .auxMuIir => true

/-- The side effect of a read (20_memory.md R112): MBOX_READ pops the outbound FIFO, AUX_MU_IO the receive FIFO, the latter also
before the UART is enabled (DESIGN CHOICE: 45_uart.md R415 leaves that open, log 34). -/
def State.popRead (s : State) : Reg → State
  | .mboxRead => { s with mbox := { s.mbox with outbound := s.mbox.outbound.tail } }
  | .auxMuIo => { s with uart := { s.uart with rx := s.uart.rx.tail } }
  | .mboxStatus | .mboxWrite | .gpfsel _ | .gpset _ | .gpclr _ | .gplev _ | .gppud | .gppudclk _ | .auxEnables | .auxMuIer
  | .auxMuIir | .auxMuLcr | .auxMuMcr | .auxMuLsr | .auxMuCntl | .auxMuBaud | .systmrCs | .systmrClo | .systmrChi
  | .systmrCmp _ => s

/-- A read of a device register: its value and the state after it. -/
def State.devRead (s : State) (r : Reg) : Word × State :=
  (s.devValue s.freeValue r, (if s.readsFree r then s.useFree else s).popRead r)

/-- The inbound FIFO after a write of MBOX_WRITE: the word is appended; a full FIFO stays as it is (R521; log 8). -/
def Mbox.push (m : Mbox) (depth : Nat) (v : Word) : Mbox :=
  if m.inbound.length < depth then { m with inbound := m.inbound ++ [v] } else m

/-- The transmit FIFO after a write of AUX_MU_IO: bits 7:0 are appended; a full FIFO stays as it is (R525; log 10). -/
def Uart.push (u : Uart) (depth : Nat) (v : Word) : Uart :=
  if u.tx.length < depth then { u with tx := u.tx ++ [v.extractLsb' 0 8] } else u

/-- A write of AUX_MU_IIR: one bit empties the receive FIFO, another the transmit FIFO (R525); which bits the configuration says,
by default 1 and 2. -/
def Uart.clearFifos (u : Uart) (c : Config) (v : Word) : Uart :=
  { u with rx := if v.bit c.iirRxBit.val then [] else u.rx, tx := if v.bit c.iirTxBit.val then [] else u.tx }

/-- A write of a device register (60_exceptions.md R521 to R526; 20_memory.md R112). A read-only register ignores it
(log 22), and AUX_MU_IO takes a byte also before the UART is enabled (DESIGN CHOICE: 45_uart.md R415 leaves that open,
log 34). -/
def State.devWrite (s : State) (r : Reg) (v : Word) : State :=
  match r with
  | .mboxWrite => { s with mbox := s.mbox.push s.cfg.mboxFifoDepth v }
  | .gpfsel n => State.watchLines { s with gpio := { s.gpio with gpfsel := s.gpio.gpfsel.set n.val v n.isLt } }
  | .gpset n => State.watchLines { s with gpio := { s.gpio with latch := s.gpio.latch ||| bankPins n v } }
  | .gpclr n => State.watchLines { s with gpio := { s.gpio with latch := s.gpio.latch &&& ~~~(bankPins n v) } }
  | .gppud => { s with gpio := { s.gpio with gppud := v, pudAt := some s.cycles, broken := false } }
  | .gppudclk n =>
    State.watchLines { s.useFree.useFree with gpio := s.clockPulls s.freeValue s.useFree.freeValue n v }
  | .auxEnables => { s with uart := { s.uart with enables := v } }
  | .auxMuIo => { s with uart := s.uart.push s.cfg.uartFifoDepth v }
  | .auxMuIer => { s with uart := { s.uart with ier := v } }
  | .auxMuIir => { s with uart := s.uart.clearFifos s.cfg v }
  | .auxMuLcr => { s with uart := { s.uart with lcr := v } }
  | .auxMuMcr => { s with uart := { s.uart with mcr := v } }
  | .auxMuCntl => { s with uart := { s.uart with cntl := v } }
  | .auxMuBaud => { s with uart := { s.uart with baud := v } }
  | .systmrCs => { s with timer := { s.timer with cs := v } }
  | .systmrCmp n => { s with timer := { s.timer with cmp := s.timer.cmp.set n.val v n.isLt } }
  | .mboxRead | .mboxStatus | .gplev _ | .auxMuLsr | .systmrClo | .systmrChi => s

/-! ## The engine's bus accesses (00_scope.md R11; 20_memory.md R110, R113) -/

/-- An event is appended to the bus trace. -/
def State.record (s : State) (e : BusEvent) : State := { s with trace := s.trace ++ [e] }

/-- `MemRead(addr r, 4)` of a device register, which is reached by its name and not by its address (DESIGN CHOICE where a
configuration gives two registers one address; log 38). -/
def State.busRead (s : State) (r : Reg) : Word × State :=
  ((s.devRead r).1, (s.devRead r).2.record (.rd (r.addr s.cfg) 4 (s.devRead r).1))

/-- `MemWrite(addr r, 4, v)` of a device register, reached by its name (log 38). -/
def State.busWrite (s : State) (r : Reg) (v : Word) : State := (s.devWrite r v).record (.wr (r.addr s.cfg) 4 v)

/-- RAM stands at every byte of a word. -/
def State.wordInRam (s : State) (a : Word) : Bool :=
  s.cfg.inRam (byteAddr a 0) && s.cfg.inRam (byteAddr a 1) && s.cfg.inRam (byteAddr a 2) && s.cfg.inRam (byteAddr a 3)

/-- `MemRead(a, 4)` of RAM. -/
def State.ramRead (s : State) (a : Word) : Word × State :=
  (s.ramWord s.freeValue a,
    (if s.wordInRam a then s else s.useFree).record (.rd a 4 (s.ramWord s.freeValue a)))

/-- `MemRead(a, 1)` of RAM: the byte, zero-extended in the trace's value (30_encoding.md R176). -/
def State.ramReadByte (s : State) (a : Word) : Byte × State :=
  (s.ramOr s.freeValue a 0,
    (if s.cfg.inRam (byteAddr a 0) then s else s.useFree).record (.rd a 1 ((s.ramOr s.freeValue a 0).setWidth 32)))

/-- `MemWrite(a, 4, v)` of RAM. -/
def State.ramWrite (s : State) (a v : Word) : State := (s.ramSetWord a v).record (.wr a 4 v)

/-- `Spin(PUD_WAIT_CYCLES)`: that many engine cycles pass with no access (00_scope.md R11). -/
def State.busSpin (s : State) : State :=
  { s with cycles := s.cycles + s.cfg.pudWaitCycles }.record (.spin s.cfg.pudWaitCycles)

/-! ## Acceptance, completion, error (30_encoding.md R160, R161; 60_exceptions.md R501) -/

/-- A host write of `w` to CMD (30_encoding.md R160, R162). -/
def State.accept (s : State) (w : Word) : State :=
  if s.regs.status.busy then { s with regs := { s.regs with status := s.regs.status.overran } }
  else { s with regs := { s.regs with status := s.regs.status.accepted }, opnd := s.regs.arg, seq := .decode w }

/-- `raise Error(e)`: the error completion (60_exceptions.md R501). It saves no state, changes no mode and transfers
control nowhere (R508), and there is no return from it (R509): the host goes on with its next CMD write. -/
def State.raiseError (s : State) (e : ErrCode) : State :=
  { s with regs := { s.regs with status := s.regs.status.failed e }, seq := .idle }

/-- The completion step: the command's results, BUSY and DONE, and SEQ (30_encoding.md R161; 10_state.md R46, R47). -/
def State.complete (s : State) : Finish → State
  | .plain => { s with regs := { s.regs with status := s.regs.status.completed }, seq := .idle }
  | .submit =>
    { s with
      regs := { s.regs with status := s.regs.status.completedWith (successTest s.cfg s.loc.code), res0 := s.loc.code }
      seq := .idle }
  | .provision =>
    { s with
      regs :=
        { s.regs with
          status := s.regs.status.completedWith true
          fb := { s.loc.resp with base := fbBaseOf s.loc.resp.base }
          fbValid := true }
      seq := .idle }
  | .now =>
    { s with regs := { s.regs with status := s.regs.status.completed, res0 := s.loc.lo, res1 := s.loc.hi }, seq := .idle }
  | .sample =>
    { s with regs := { s.regs with status := s.regs.status.completed, res0 := s.loc.snap.setWidth 32 }, seq := .idle }
  | .getc =>
    { s with
      regs :=
        { s.regs with status := s.regs.status.completed, res0 := (normalizeCr (s.loc.v.extractLsb' 0 8)).setWidth 32 }
      seq := .idle }
  | .fail e => s.raiseError e

/-! ## Host accesses (10_state.md R41 to R43; 60_exceptions.md R541) -/

/-- Where a program stands in a pull sequence: its next pull write says it. Every sequence opens with its GPPUD write, clocks with a
bit set and clears with 0 (41_gpio.md R241). -/
def pullPhase : List Op → Option PullPhase
  | [] => none
  | .regWrite .gppud _ :: _ => none
  | .regWrite (.gppudclk n) v :: _ => some (if v = 0#32 then .hold n else .settle)
  | _ :: ops => pullPhase ops

/-- Where the engine stands in a pull sequence. -/
def State.pullPhase (s : State) : Option PullPhase :=
  match s.seq with
  | .run _ todo => Sys2Proof.Machine.pullPhase todo
  | _ => none

/-- The pins of bank n that `clocked` has a bit for take any pull state, with two free words. -/
def Gpio.freePulls (g : Gpio) (n : Fin 2) (clocked f1 f0 : Word) : Gpio :=
  { g with
    pull := Vector.ofFn fun (p : Fin 54) =>
      if pinBank p.val = n ∧ clocked.bit (p.val % 32) = true then freePull (f1.bit (p.val % 32)) (f0.bit (p.val % 32))
      else g.pull[p] }

/-- What a host write of GPPUD or GPPUDCLK does besides, from the state `s` before it and `t` after it
(70_reset_and_hazards.md R621, R622; log 11). During the engine's pull sequence it breaks the settle time, so that the clocking write
leaves any pull, or the hold time, so that the clocked pins take any pull; at any other time nothing. -/
def State.breakPull (s t : State) : State :=
  match s.pullPhase with
  | none => t
  | some .settle => { t with gpio := { t.gpio with broken := true } }
  | some (.hold n) =>
    State.watchLines
      { t.useFree.useFree with gpio := t.gpio.freePulls n s.gpio.gppudclk[n] t.freeValue t.useFree.freeValue }

/-- The state in which a clocking write is judged by the waits of 60_exceptions.md R523 alone. -/
def State.unbroken (s : State) : State := { s with gpio := { s.gpio with broken := false } }

/-- A host write of a device register: the engine's write, and what a GPPUD or GPPUDCLK write breaks. The pins a host clocks are judged
by the waits alone. -/
def State.hostDevWrite (s : State) (r : Reg) (v : Word) : State :=
  match r with
  | .gppud => s.breakPull (s.devWrite .gppud v)
  | .gppudclk n => s.breakPull (s.unbroken.devWrite (.gppudclk n) v)
  | r => s.devWrite r v

/-- The offset of a host address in the engine block. -/
def hostOffset (c : Config) (addr : Word) : Nat := (addr - c.engineBase).toNat

/-- An access the spec gives a meaning: 32 bits, aligned, in the 64-byte block (10_state.md R42; 20_memory.md R100,
R108). -/
def hostAccessOk (c : Config) (addr : Word) (width : Nat) : Bool :=
  decide (width = 4) && decide (hostOffset c addr % 4 = 0) && decide (hostOffset c addr < 64)

/-- The value of the host register at an offset (10_state.md R41, R42); CMD, reserved offsets and reserved bits read 0. -/
def HostRegs.read (r : HostRegs) (off : Nat) : Word :=
  match off with
  | 0x04 => r.arg
  | 0x08 => r.status.word
  | 0x0C => r.res0
  | 0x10 => r.res1
  | 0x20 => r.fb.width
  | 0x24 => r.fb.height
  | 0x28 => r.fb.pitch
  | 0x2C => r.fb.depth
  | 0x30 => r.fb.order
  | 0x34 => r.fb.size
  | 0x38 => r.fb.base
  | 0x3C => (BitVec.ofBool r.fbValid).setWidth 32
  | _ => 0#32

/-- A host write at an offset: CMD starts a command, ARG stores, anything else has no effect (10_state.md R42, R43). -/
def State.hostWriteReg (s : State) (off : Nat) (v : Word) : State :=
  match off with
  | 0x00 => s.accept v
  | 0x04 => { s with regs := { s.regs with arg := v } }
  | _ => s

/-! ## Reset (70_reset_and_hazards.md R600, R601) -/

/-- Reset of the engine: its registers 0, SEQ idle, the hidden values 0; the devices, RAM and bus trace stay. -/
def State.engineReset (s : State) : State := { s with regs := {}, seq := .idle, opnd := 0#32, loc := {} }

end Sys2Proof.Machine
end

