-- ==== Sys2Proof/Machine/Agents.lean ====
section
/-! DEFINITION. What the agents other than the engine do (10_state.md R40; 60_exceptions.md R525, R526, R530 to R534, R540,
R541; 70_reset_and_hazards.md R601, R602): one function from an event of the script to the state after it. -/

namespace Sys2Proof.Machine

/-! ## Coprocessor (60_exceptions.md R530, R531) -/

/-- The address part of a request word, `w AND 0xFFFFFFF0` (R531). -/
def requestBase (w : Word) : Word := w &&& 0xFFFFFFF0#32

/-- The address of word i of the buffer at `b`. -/
def requestAddr (b : Word) (i : Nat) : Word := b + BitVec.ofNat 32 (4 * i)

/-- Word i of the buffer at `b`, used only where RAM stands; elsewhere the request counts as broken (log 18). -/
def State.requestWord (s : State) (b : Word) (i : Nat) : Word := s.ramWord 0#32 (requestAddr b i)

/-- RAM stands at word i of the buffer at `b`. -/
def State.requestInRam (s : State) (b : Word) (i : Nat) : Bool := s.wordInRam (requestAddr b i)

/-- The tags from word i on, when they fill exactly n words and end with the end tag; a tag of size S takes `3 + ceil(S/4)`
words (40_mailbox.md R200, R201). A size or identifier word where no RAM stands is no tag (DESIGN CHOICE: the request then
counts as broken; log 18). The first number argument after `n` bounds the number of tags. -/
def State.tagsOf (s : State) (b : Word) (n : Nat) : Nat → Nat → Option (List TagSlot)
  | 0, _ => none
  | fuel + 1, i =>
    if n ≤ i || !s.requestInRam b i then none
    else if s.requestWord b i = Config.tagEnd then (if i + 1 = n then some [] else none)
    else if !s.requestInRam b (i + 1) then none
    else
      let values := ((s.requestWord b (i + 1)).toNat + 3) / 4
      match s.tagsOf b n fuel (i + 3 + values) with
      | some ts => some (⟨i, values⟩ :: ts)
      | none => none

/-- The layout of the request at `b` when it keeps the buffer invariant: its total size and its tags' sizes match the words
they reserve (40_mailbox.md R201). DESIGN CHOICE: a total size past the buffer's capacity, `4 * MBOX_BUF_WORDS`, breaks nothing by
itself, since R200 and R201 do not say that it does (log 18). -/
def State.requestLayout (s : State) (b : Word) : Option Layout :=
  if s.requestInRam b 0 && decide ((s.requestWord b 0).toNat % 4 = 0) then
    match s.tagsOf b ((s.requestWord b 0).toNat / 4) ((s.requestWord b 0).toNat / 4) 2 with
    | some ts => some ⟨(s.requestWord b 0).toNat / 4, ts⟩
    | none => none
  else none

/-- The popped request with its layout, which fixes the write extent (R531; log 18). -/
def State.popRequest (s : State) (w : Word) : Request := ⟨w, s.requestLayout (requestBase w)⟩

/-- The response column of 40_mailbox.md R200 lets word i become v: word 1 and the value words any value, a tag's length word a
value with bit 31 set; nothing else changes. -/
def Layout.answers (l : Layout) (i : Nat) (v : Word) : Bool :=
  decide (i = 1)
    || l.tags.any fun t =>
      (decide (i = t.start + 2) && v.bit 31) || (decide (t.start + 3 ≤ i) && decide (i < t.start + 3 + t.values))

/-- The channel number of a request word (40_mailbox.md R203). -/
def requestChannel (w : Word) : BitVec 4 := w.extractLsb' 0 4

/-- The coprocessor may write v into the word at `a` for this request: one of words 1 to `(s div 4) - 1` of its buffer (R531),
on CH_PROP within the property-tag format (R530); anything when the request broke the invariant (R531). -/
def Request.mayWrite (c : Config) (r : Request) (a v : Word) : Bool :=
  match r.layout with
  | none => true
  | some l =>
    decide ((a - requestBase r.word).toNat % 4 = 0) && decide (4 ≤ (a - requestBase r.word).toNat)
      && decide ((a - requestBase r.word).toNat < 4 * l.words)
      && (decide (requestChannel r.word ≠ c.chProp) || l.answers ((a - requestBase r.word).toNat / 4) v)

/-- The coprocessor pops the head of the inbound FIFO (R530). -/
def State.coPop (s : State) : State :=
  match s.mbox.inbound with
  | w :: ws => { s with mbox := { s.mbox with inbound := ws, held := s.mbox.held ++ [s.popRequest w] } }
  | [] => s

/-- The coprocessor writes a RAM word, where R530 and R531 let it. -/
def State.coWrite (s : State) (a v : Word) : State :=
  if s.mbox.held.any fun r => r.mayWrite s.cfg a v then s.ramSetWord a v else s

/-- The popped requests after a pushed word answered one of them: the oldest of those with this word (DESIGN CHOICE:
70_reset_and_hazards.md R623 has two equal words and does not say which is answered first; log 36). -/
def answered : List Request → Word → List Request
  | [], _ => []
  | r :: rs, w => if r.word = w then rs else r :: answered rs w

/-- The request word of the mailbox command the engine runs (40_mailbox.md R211). -/
def State.ownRequest (s : State) : Option Word :=
  match s.seq with
  | .run (.mboxSubmit ch) _ => some (channelWord s.cfg ch)
  | .run .fbProvision _ => some (channelWord s.cfg s.cfg.chProp)
  | _ => none

/-- The coprocessor may push w: the response to a word it has popped, or a word that is no response to the engine's request
(R530). -/
def State.mayPush (s : State) (w : Word) : Bool :=
  s.mbox.held.any (fun r => decide (r.word = w)) || decide (s.ownRequest ≠ some w)

/-- The coprocessor pushes a word while the outbound FIFO has room (R521, R530). -/
def State.coPush (s : State) (w : Word) : State :=
  if s.mayPush w && decide (s.mbox.outbound.length < s.cfg.mboxFifoDepth) then
    { s with mbox := { s.mbox with outbound := s.mbox.outbound ++ [w], held := answered s.mbox.held w } }
  else s

/-! ## UART line partner (60_exceptions.md R525), which acts the same before the UART is enabled (DESIGN CHOICE: 45_uart.md R415
leaves that open, log 34) -/

/-- The partner removes the head of the transmit FIFO and appends it to TX. -/
def Uart.drain (u : Uart) : Uart :=
  match u.tx with
  | b :: bs => { u with tx := bs, sent := u.sent ++ [b] }
  | [] => u

/-- The partner appends a byte to the receive FIFO, up to its depth. -/
def Uart.receive (u : Uart) (depth : Nat) (b : Byte) : Uart :=
  if u.rx.length < depth then { u with rx := u.rx ++ [b] } else u

/-! ## Pads, controller, timer -/

/-- A 54-bit field with pin p's bit given; a number past pin 53 is no pin. -/
def setPin (b : BitVec 54) (p : Nat) (v : Bool) : BitVec 54 :=
  if v then b ||| (1#54 <<< p) else b &&& ~~~(1#54 <<< p)

/-- The outside world drives pad p, or lets it go (60_exceptions.md R523). -/
def Gpio.drive (g : Gpio) (p : Nat) (l : Option Bool) : Gpio :=
  match l with
  | some b => { g with driven := setPin g.driven p true, level := setPin g.level p b }
  | none => { g with driven := setPin g.driven p false }

/-- The controller peripheral is plugged in or unplugged. It goes on following LATCH and CLOCK while unplugged, and any change of
the plug leaves it desynchronised until the next kept latch (DESIGN CHOICE: 60_exceptions.md R534 says only that it drives
nothing while unplugged; log 35). -/
def Ctrl.plug (c : Ctrl) (now : Nat) (b : Bool) : Ctrl :=
  if b = c.plugged then c else { c with plugged := b, synced := false, edgeAt := now }

/-! ## Reset with any device state (70_reset_and_hazards.md R602) -/

/-- The canonical memory with given cells. -/
def Memory.ofCells (m : Memory) : Memory :=
  m.foldr (fun c acc => if c.1 < 2 ^ 32 then Memory.set acc c.1 c.2 else acc) []

/-- A FIFO holds at most its depth (60_exceptions.md R521, R525). -/
def Mbox.clip (m : Mbox) (depth : Nat) : Mbox :=
  { m with inbound := m.inbound.take depth, outbound := m.outbound.take depth }

/-- A FIFO holds at most its depth (60_exceptions.md R525). -/
def Uart.clip (u : Uart) (depth : Nat) : Uart := { u with rx := u.rx.take depth, tx := u.tx.take depth }

/-- No clock bit was set after the present engine cycle (log 31). -/
def Gpio.clip (g : Gpio) (now : Nat) : Gpio := { g with clkAt := g.clkAt.map (min · now) }

/-- No line edge lies after the counter's value (log 31). -/
def Ctrl.clip (c : Ctrl) (now : Nat) : Ctrl := { c with edgeAt := min c.edgeAt now }

/-! ## Events -/

/-- Whether an event has a meaning: a host access must be an aligned 32-bit access of the engine block (10_state.md R42,
20_memory.md R108). -/
def Event.ok (c : Config) : Event → Bool
  | .hostWrite a n _ => hostAccessOk c a n
  | .hostRead a n => hostAccessOk c a n
  | .engine | .untilHold | .poll | .hostRamWrite _ _ | .hostRamWriteWord _ _ | .hostRamRead _ | .hostDevWrite _ _
  | .hostDevRead _ | .coPop | .coWrite _ _ | .coPush _ | .tick _ | .timerRate _ | .cycles _ | .uartDrain | .uartReceive _
  | .buttons _ | .plug _ | .drive _ _ | .altSignal _ _ | .reset | .resetWith _ _ _ _ _ _ => true

/-- The state after an agent's action. The three markers are no agent's action and change nothing here. TX, what has been
transmitted in the run, stays over both resets, as the bus trace does (DESIGN CHOICE: no rule says; log 31). -/
def State.apply (s : State) : Event → State
  | .engine | .untilHold | .poll => s
  | .hostWrite a _ v => s.hostWriteReg (hostOffset s.cfg a) v
  | .hostRead a _ => { s with obs := s.obs ++ [.reg a (s.regs.read (hostOffset s.cfg a))] }
  | .hostRamWrite a v => s.ramSet a 0 v
  | .hostRamWriteWord a v => s.ramSetWord a v
  | .hostRamRead a =>
    { (if s.cfg.inRam (byteAddr a 0) then s else s.useFree) with obs := s.obs ++ [.ram a (s.ramOr s.freeValue a 0)] }
  | .hostDevWrite r v => s.hostDevWrite r v
  | .hostDevRead r => { (s.devRead r).2 with obs := s.obs ++ [.dev r (s.devRead r).1] }
  | .coPop => s.coPop
  | .coWrite a v => s.coWrite a v
  | .coPush w => s.coPush w
  | .tick n => s.advanceTimer n
  | .timerRate n => { s with timer := { s.timer with rate := n } }
  | .cycles n => { s with cycles := s.cycles + n }
  | .uartDrain => { s with uart := s.uart.drain }
  | .uartReceive b => { s with uart := s.uart.receive s.cfg.uartFifoDepth b }
  | .buttons p => State.watchLines { s with ctrl := { s.ctrl with buttons := p } }
  | .plug b => { s with ctrl := s.ctrl.plug s.timer.count b }
  | .drive p l => State.watchLines { s with gpio := s.gpio.drive p l }
  | .altSignal p l => State.watchLines { s with gpio := { s.gpio with alt := setPin s.gpio.alt p l } }
  | .reset => s.engineReset
  | .resetWith m g u t c ram =>
    { s.engineReset with
      mbox := m.clip s.cfg.mboxFifoDepth, gpio := g.clip s.cycles, timer := t
      uart := { u.clip s.cfg.uartFifoDepth with sent := s.uart.sent }
      ctrl := c.clip t.count
      ram := Memory.ofCells ram }

end Sys2Proof.Machine
end

