-- ==== Sys2Proof/Machine/Engine.lean ====
section
/-! DEFINITION. The engine: the sub-procedures of the command files as programs, its local computations and its steps, and how a
command runs (00_scope.md R11; 30_encoding.md R160, R161; 60_exceptions.md R506). -/

namespace Sys2Proof.Machine

/-! ## Sub-procedures -/

/-- WaitUntil(r, bit, level): a read and its test, which repeats them (00_scope.md R11). -/
def waitUntil (r : Reg) (bit : Fin 32) (level : Bool) : List Op := [.poll r, .compute (.pollTest r bit level)]

/-- SetFunction(p, f) (41_gpio.md R240). -/
def setFunction (p : Nat) (f : BitVec 3) : List Op := [.fselRead p, .fselWrite p f]

/-- PullDisable(p) (41_gpio.md R241). -/
def pullDisable (p : Nat) : List Op :=
  [.regWrite .gppud Config.gppudOff, .spin, .regWrite (.gppudclk (pinBank p)) (pinBit p), .spin,
    .regWrite (.gppudclk (pinBank p)) 0#32]

/-- ConfigurePin(p, f) (41_gpio.md R242). -/
def configurePin (p : Nat) (f : BitVec 3) : List Op := setFunction p f ++ pullDisable p

/-- The match loop of MboxCall: wait for a word, pop it (40_mailbox.md R205). -/
def mboxMatch (c : Config) : List Op :=
  waitUntil .mboxStatus c.mboxEmptyBit false ++ [.mboxReceive, .compute .matchTest]

/-- MboxCall(ch) up to its response code; the caller makes the success test (40_mailbox.md R205). -/
def mboxCall (c : Config) (ch : BitVec 4) : List Op :=
  waitUntil .mboxStatus c.mboxFullBit false ++ [.mboxSend ch] ++ mboxMatch c ++ [.codeRead]

/-- Now() (43_timer.md R320); the retry is added when the high word has changed. -/
def nowOps (u : NowUse) : List Op := [.chiRead, .cloRead, .chiCheck, .compute (.nowTest u)]

/-- The retry of Now() (R320). -/
def nowRetry (u : NowUse) : List Op := [.chiRead, .cloRead, .compute (.nowDone u)]

/-- Delay(n) begins with its first Now() (43_timer.md R322). -/
def delayOps (n : Word) : List Op := nowOps (.delayFirst n)

/-- PutChar(b) (45_uart.md R402). -/
def putChar (b : Byte) : List Op := waitUntil .auxMuLsr Config.lsrTxeBit true ++ [.putByte b]

/-- GetChar() up to its read; the normalisation stands in the completion of UART.GETC (45_uart.md R403, R412). -/
def getChar : List Op := waitUntil .auxMuLsr Config.lsrDrBit true ++ [.rxRead]

/-- The byte read of UART.PUTS at index k of at most len bytes, and what follows it (45_uart.md R413). -/
def strStep (k len : Nat) : List Op := [.strRead k, .compute (.lineTest k len)]

/-! ## Local computations (30_encoding.md R160) -/

/-- What follows a finished Now() with value t (43_timer.md R322, R323): TMR.NOW goes on; Delay's first reading escapes on
zero; its loop ends when `t >= t0 + n` as natural numbers. -/
def afterNow (u : NowUse) (t : BitVec 64) (t0 : BitVec 64) (rest : List Op) : List Op :=
  match u with
  | .result => rest
  | .delayFirst n => if t = 0#64 then rest else nowOps (.delayAgain n) ++ rest
  | .delayAgain n => if t0.toNat + n.toNat ≤ t.toNat then rest else nowOps (.delayAgain n) ++ rest

/-- t0 after a finished Now(): Delay's first reading sets it (43_timer.md R322). -/
def t0After (u : NowUse) (t t0 : BitVec 64) : BitVec 64 :=
  match u with
  | .delayFirst _ => t
  | .result | .delayAgain _ => t0

/-- The reading leaves Delay in its loop (43_timer.md R325). -/
def delayHolds (u : NowUse) (t t0 : BitVec 64) : Bool :=
  match u with
  | .delayAgain n => decide (t.toNat < t0.toNat + n.toNat)
  | .result | .delayFirst _ => false

/-- What UART.PUTS does after reading byte c at index k: a NUL ends the string; else the byte is sent, with a CR before an LF,
and the loop goes on while k + 1 < len (45_uart.md R413). -/
def afterString (crSuppress : Bool) (prev c : Byte) (k len : Nat) (rest : List Op) : List Op :=
  if c = 0#8 then rest
  else
    (lineBytes crSuppress prev c).flatMap putChar ++ (if k + 1 < len then strStep (k + 1) len else []) ++ rest

/-- The seven response reads of FB.PROVISION in order (42_framebuffer.md R292) and its completion. -/
def respReads : List Op :=
  [.respRead .address, .respRead .width, .respRead .height, .respRead .pitch, .respRead .depth, .respRead .order,
    .respRead .size, .finish .provision]

/-- The engine goes on at a program point. -/
def State.goto (s : State) (i : Instr) (todo : List Op) : State := { s with seq := .run i todo }

/-- The hidden values changed. -/
def State.withLoc (s : State) (l : Locals) : State := { s with loc := l }

/-- A finished Now(): the values read stand in hi and lo. -/
def State.finishNow (s : State) (i : Instr) (u : NowUse) (rest : List Op) : State :=
  (s.withLoc { s.loc with t0 := t0After u (s.loc.hi ++ s.loc.lo) s.loc.t0 }).goto i
    (afterNow u (s.loc.hi ++ s.loc.lo) s.loc.t0 rest)

/-- The local computation `c` of command `i`, with `rest` after it: it changes SEQ and the hidden values only. -/
def State.compute (s : State) (i : Instr) (c : Calc) (rest : List Op) : State :=
  match c with
  | .pollTest r bit level => s.goto i (if s.loc.v.bit bit.val = level then rest else waitUntil r bit level ++ rest)
  | .matchTest => s.goto i (if s.loc.v = s.loc.w then rest else mboxMatch s.cfg ++ rest)
  | .codeTest => s.goto i (if successTest s.cfg s.loc.code then rest else [.finish (.fail .provisionFail)])
  | .nowTest u => if s.loc.v = s.loc.hi then s.finishNow i u rest else s.goto i (nowRetry u ++ rest)
  | .nowDone u => s.finishNow i u rest
  | .sampleBit k =>
    (s.withLoc
      { s.loc with snap := if s.loc.v.bit (s.cfg.pinData % 32) then s.loc.snap else s.loc.snap ||| (1#16 <<< k) }).goto i rest
  | .lineTest k len =>
    (s.withLoc { s.loc with prev := s.loc.c }).goto i (afterString s.cfg.crSuppress s.loc.prev s.loc.c k len rest)

/-! ## One engine step -/

/-- A read of a device register into `v`. -/
def State.readInto (s : State) (r : Reg) : State := (s.busRead r).2.withLoc { s.loc with v := (s.busRead r).1 }

/-- The step at the point `op` of command `i`, with `rest` after it; a local computation alone is no step. -/
def State.stepOp (s : State) (i : Instr) (op : Op) (rest : List Op) : State :=
  match op with
  | .compute c => s.compute i c rest
  | .fselRead p => (s.readInto (.gpfsel (fselReg p))).goto i rest
  | .fselWrite p f => (s.busWrite (.gpfsel (fselReg p)) (fselInsert s.loc.v p f)).goto i rest
  | .regWrite r v => (s.busWrite r v).goto i rest
  | .spin => s.busSpin.goto i rest
  | .poll r => (s.readInto r).goto i rest
  | .bufWrite k v => (s.ramWrite (bufAddr s.cfg k) v).goto i rest
  | .mboxSend ch =>
    ((s.busWrite .mboxWrite (channelWord s.cfg ch)).withLoc { s.loc with w := channelWord s.cfg ch }).goto i rest
  | .mboxReceive => (s.readInto .mboxRead).goto i rest
  | .codeRead =>
    let r := s.ramRead (bufAddr s.cfg 1)
    (r.2.withLoc { s.loc with code := r.1 }).goto i rest
  | .respRead f =>
    let r := s.ramRead (bufAddr s.cfg f.index)
    (r.2.withLoc { s.loc with resp := f.store r.1 s.loc.resp }).goto i rest
  | .chiRead =>
    let r := s.busRead .systmrChi
    (r.2.withLoc { s.loc with hi := r.1 }).goto i rest
  | .cloRead =>
    let r := s.busRead .systmrClo
    (r.2.withLoc { s.loc with lo := r.1 }).goto i rest
  | .chiCheck => (s.readInto .systmrChi).goto i rest
  | .sampleRead => (s.readInto (.gplev (pinBank s.cfg.pinData))).goto i rest
  | .enableRead => (s.readInto .auxEnables).goto i rest
  | .enableWrite => (s.busWrite .auxEnables (s.loc.v ||| s.cfg.auxMuEnMask)).goto i rest
  | .rxRead => (s.readInto .auxMuIo).goto i rest
  | .strRead k =>
    let r := s.ramReadByte (strAddr s.opnd k)
    (r.2.withLoc { s.loc with c := r.1 }).goto i rest
  | .putByte b => (s.busWrite .auxMuIo (b.setWidth 32)).goto i rest
  | .putNibble k => (s.busWrite .auxMuIo ((hexDigit (nibble s.opnd k)).setWidth 32)).goto i rest
  | .finish f => s.complete f

/-- The engine holds: the poll just read, or the reading of Delay's loop just made of a counter that does not move, has not
the value its test needs, so the engine's next step is that poll's next read (60_exceptions.md R506). -/
def State.held (s : State) : Bool :=
  match s.seq with
  | .run _ (.compute (.pollTest _ bit level) :: _) => s.loc.v.bit bit.val != level
  | .run _ (.compute (.nowTest u) :: _) =>
    decide (s.timer.rate = 0) && decide (s.loc.v = s.loc.hi) && delayHolds u (s.loc.hi ++ s.loc.lo) s.loc.t0
  | .run _ (.compute (.nowDone u) :: _) => decide (s.timer.rate = 0) && delayHolds u (s.loc.hi ++ s.loc.lo) s.loc.t0
  | _ => false

/-! ## Running -/

/-- The point is a local computation, and no engine step. -/
def Op.isCompute : Op → Bool
  | .compute _ => true
  | _ => false

/-- The counter agent's move before an engine step (60_exceptions.md R526; log 14). -/
def State.tickBefore (s : State) (op : Op) : State := if op.isCompute then s else s.advanceTimer s.timer.rate

/-- The engine's move at a point: its step with the counter agent's move before it, or the local computation that opens its
next step. -/
def State.engineStep (s : State) (i : Instr) (op : Op) (rest : List Op) : State := (s.tickBefore op).stepOp i op rest

/-- The engine's turn given by the marker `engine` is used up by a step, not by the local computation that opens it. -/
def State.spendTurn (s : State) (op : Op) (es : List Event) : State := if op.isCompute then s else { s with script := es }

/-- The command runs on, the script saying whose turn it is before each engine step, until it completes, or it is reset, or
it holds with nothing more to happen, or the script asks for an access the model refuses (log 1). A local computation is made
when the engine's turn has come, so no other agent acts between it and its access (30_encoding.md R160). The first argument
bounds the moves; a command cut short by it goes on at the next `step`. -/
def runLoop : Nat → State → State
  | 0, s => s
  | n + 1, s =>
    match s.seq with
    | .run i (op :: rest) =>
      match s.script with
      | [] =>
        let t := s.engineStep i op rest
        if t.held then t else runLoop n t
      | .poll :: _ =>
        let t := s.engineStep i op rest
        if t.held then t else runLoop n t
      | .untilHold :: es =>
        let t := s.engineStep i op rest
        runLoop n (if t.held then { t with script := es } else t)
      | .engine :: es => runLoop n ((s.spendTurn op es).engineStep i op rest)
      | e :: es => if e.ok s.cfg then runLoop n (State.apply { s with script := es } e) else s
    | _ => s

/-- More moves than any command takes that does not hold (log 20). -/
def runBound (s : State) : Nat := 2 ^ 34 + 8 * s.script.length + 8 * s.mbox.outbound.length

/-- What the engine's first step decides (30_encoding.md R160): an error before any bus access, or the program. -/
inductive Start where
  | refuse (e : ErrCode)
  | program (todo : List Op)
  deriving DecidableEq, Repr

/-- The command's first step, and then its run (30_encoding.md R160). -/
def runCommand (i : Instr) (start : Start) (s : State) : Host.Outcome State Fault Refusal :=
  match start with
  | .refuse e => .next (s.raiseError e)
  | .program todo => .next (runLoop (runBound s) ((s.withLoc {}).goto i todo))

end Sys2Proof.Machine
end

