-- ==== Sys2Proof/Machine/Controller.lean ====
section
/-! DEFINITION. CTRL.INIT and CTRL.SAMPLE (44_controller.md). -/

namespace Sys2Proof.Machine

/-- The pseudocode of CTRL.INIT (44_controller.md R370). -/
def ctrlInitProgram (c : Config) : List Op :=
  configurePin c.pinLatch c.fselOutput ++ configurePin c.pinClock c.fselOutput ++ configurePin c.pinData c.fselInput
    ++ [.finish .plain]

/-- CTRL.INIT (44_controller.md R370). -/
def execCtrlInit (s : State) : Host.Outcome State Fault Refusal :=
  runCommand .ctrlInit (.program (ctrlInitProgram s.cfg)) s

/-- Drive pin p high: `MemWrite(GPSET(p div 32), 4, bitof(p))` (44_controller.md R360). -/
def driveHigh (p : Nat) : Op := .regWrite (.gpset (pinBank p)) (pinBit p)

/-- Drive pin p low: `MemWrite(GPCLR(p div 32), 4, bitof(p))` (44_controller.md R360). -/
def driveLow (p : Nat) : Op := .regWrite (.gpclr (pinBank p)) (pinBit p)

/-- The loop body of CTRL.SAMPLE for bit position i (44_controller.md R371). -/
def sampleBit (c : Config) (i : Nat) : List Op :=
  delayOps Config.halfBitUs ++ [driveLow c.pinClock, .sampleRead, .compute (.sampleBit i)] ++ delayOps Config.halfBitUs
    ++ [driveHigh c.pinClock]

/-- The pseudocode of CTRL.SAMPLE (44_controller.md R371). -/
def sampleProgram (c : Config) : List Op :=
  [driveHigh c.pinClock, driveHigh c.pinLatch] ++ delayOps Config.latchUs ++ [driveLow c.pinLatch]
    ++ (List.range Config.ctrlBits).flatMap (sampleBit c) ++ [.finish .sample]

/-- CTRL.SAMPLE (44_controller.md R371). -/
def execCtrlSample (s : State) : Host.Outcome State Fault Refusal :=
  runCommand .ctrlSample (.program (sampleProgram s.cfg)) s

end Sys2Proof.Machine
end

