-- ==== Sys2Proof/Machine/Framebuffer.lean ====
section
/-! DEFINITION. FB.PROVISION (42_framebuffer.md). -/

namespace Sys2Proof.Machine

/-- The writes of the request words from index i on, in ascending order (42_framebuffer.md R282). -/
def bufWrites (i : Nat) : List Word → List Op
  | [] => []
  | v :: vs => .bufWrite i v :: bufWrites (i + 1) vs

/-- The pseudocode of FB.PROVISION (42_framebuffer.md R290). -/
def provisionProgram (c : Config) : List Op :=
  bufWrites 0 (fbRequest c) ++ mboxCall c c.chProp ++ [.compute .codeTest] ++ respReads

/-- FB.PROVISION: refused with ALREADY_PROVISIONED while the descriptor is valid (30_encoding.md R148). -/
def provisionStart (s : State) : Start :=
  if s.regs.fbValid then .refuse .alreadyProvisioned else .program (provisionProgram s.cfg)

/-- FB.PROVISION (42_framebuffer.md R290). -/
def execFbProvision (s : State) : Host.Outcome State Fault Refusal := runCommand .fbProvision (provisionStart s) s

end Sys2Proof.Machine
end

