-- ==== Sys2Proof/Machine/Gpio.lean ====
section
/-! DEFINITION. GPIO.CFGIN, GPIO.CFGOUT, GPIO.CFGALT (41_gpio.md). -/

namespace Sys2Proof.Machine

/-- ConfigurePin and the end of the command, with the operand check first (41_gpio.md R250 to R252; 30_encoding.md R147). -/
def configureStart (legal : Bool) (p : Nat) (f : BitVec 3) : Start :=
  if legal then .program (configurePin p f ++ [.finish .plain]) else .refuse .illegalOperand

/-- GPIO.CFGIN pin (41_gpio.md R250). -/
def execGpioCfgin (pin : BitVec 6) (s : State) : Host.Outcome State Fault Refusal :=
  runCommand (.gpioCfgin pin) (configureStart (pinOk pin) pin.toNat s.cfg.fselInput) s

/-- GPIO.CFGOUT pin (41_gpio.md R251). -/
def execGpioCfgout (pin : BitVec 6) (s : State) : Host.Outcome State Fault Refusal :=
  runCommand (.gpioCfgout pin) (configureStart (pinOk pin) pin.toNat s.cfg.fselOutput) s

/-- GPIO.CFGALT pin, fn (41_gpio.md R252). -/
def execGpioCfgalt (pin : BitVec 6) (fn : BitVec 3) (s : State) : Host.Outcome State Fault Refusal :=
  runCommand (.gpioCfgalt pin fn) (configureStart (pinOk pin && fnOk fn) pin.toNat (fselAlt s.cfg fn.toNat)) s

end Sys2Proof.Machine
end

