-- ==== Sys2Proof/Machine/Mailbox.lean ====
section
/-! DEFINITION. MBOX.SUBMIT (40_mailbox.md). -/

namespace Sys2Proof.Machine

/-- The pseudocode of MBOX.SUBMIT (40_mailbox.md R210). -/
def submitProgram (c : Config) (ch : BitVec 4) : List Op := mboxCall c ch ++ [.finish .submit]

/-- MBOX.SUBMIT ch (40_mailbox.md R210). -/
def execMboxSubmit (ch : BitVec 4) (s : State) : Host.Outcome State Fault Refusal :=
  runCommand (.mboxSubmit ch) (.program (submitProgram s.cfg ch)) s

end Sys2Proof.Machine
end

