-- ==== Sys2Proof/Machine/Timer.lean ====
section
/-! DEFINITION. TMR.NOW and TMR.DELAY (43_timer.md). -/

namespace Sys2Proof.Machine

/-- The pseudocode of TMR.NOW (43_timer.md R330). -/
def nowProgram : List Op := nowOps .result ++ [.finish .now]

/-- TMR.NOW (43_timer.md R330). -/
def execTmrNow (s : State) : Host.Outcome State Fault Refusal := runCommand .tmrNow (.program nowProgram) s

/-- The pseudocode of TMR.DELAY for OPND = n (43_timer.md R331). -/
def delayProgram (n : Word) : List Op := delayOps n ++ [.finish .plain]

/-- TMR.DELAY (43_timer.md R331). -/
def execTmrDelay (s : State) : Host.Outcome State Fault Refusal := runCommand .tmrDelay (.program (delayProgram s.opnd)) s

end Sys2Proof.Machine
end

