-- ==== Sys2Proof/Machine/Uart.lean ====
section
/-! DEFINITION. UART.INIT, UART.PUTC, UART.GETC, UART.PUTS, UART.PUTHEX (45_uart.md). -/

namespace Sys2Proof.Machine

/-- UartInit() (45_uart.md R400). -/
def uartInitProgram (c : Config) : List Op :=
  configurePin c.uartTxPin (fselAlt c c.uartAltFn) ++ configurePin c.uartRxPin (fselAlt c c.uartAltFn)
    ++ [.enableRead, .enableWrite, .regWrite .auxMuIer c.ierInit, .regWrite .auxMuCntl c.cntlOff,
        .regWrite .auxMuLcr c.lcrInit, .regWrite .auxMuMcr c.mcrInit, .regWrite .auxMuIir c.iirInit,
        .regWrite .auxMuBaud c.baudDiv, .regWrite .auxMuCntl c.cntlOn, .finish .plain]

/-- UART.INIT (45_uart.md R410). -/
def execUartInit (s : State) : Host.Outcome State Fault Refusal :=
  runCommand .uartInit (.program (uartInitProgram s.cfg)) s

/-- UART.PUTC byte (45_uart.md R411). -/
def execUartPutc (byte : Byte) (s : State) : Host.Outcome State Fault Refusal :=
  runCommand (.uartPutc byte) (.program (putChar byte ++ [.finish .plain])) s

/-- UART.GETC (45_uart.md R412). -/
def execUartGetc (s : State) : Host.Outcome State Fault Refusal :=
  runCommand .uartGetc (.program (getChar ++ [.finish .getc])) s

/-- The pseudocode of UART.PUTS for at most `len` bytes (45_uart.md R413); `len = 0` makes no access. -/
def putsProgram (len : Nat) : List Op := (if 0 < len then strStep 0 len else []) ++ [.finish .plain]

/-- UART.PUTS: the operand check first (30_encoding.md R147). -/
def putsStart (opnd : Word) (len : BitVec 16) : Start :=
  if stringOk opnd len then .program (putsProgram len.toNat) else .refuse .illegalOperand

/-- UART.PUTS len (45_uart.md R413). -/
def execUartPuts (len : BitVec 16) (s : State) : Host.Outcome State Fault Refusal :=
  runCommand (.uartPuts len) (putsStart s.opnd len) s

/-- The nibble indices of UART.PUTHEX, 7 down to 0 (45_uart.md R414). -/
def nibbleOrder : List Nat := [7, 6, 5, 4, 3, 2, 1, 0]

/-- PutChar of the hex digit of nibble k (45_uart.md R402, R414). -/
def putDigit (k : Nat) : List Op := waitUntil .auxMuLsr Config.lsrTxeBit true ++ [.putNibble k]

/-- UART.PUTHEX (45_uart.md R414). -/
def execUartPuthex (s : State) : Host.Outcome State Fault Refusal :=
  runCommand .uartPuthex (.program (nibbleOrder.flatMap putDigit ++ [.finish .plain])) s

end Sys2Proof.Machine
end

