-- ==== Sys2Proof/Machine/Dispatch.lean ====
section
/-! DEFINITION. One arm per command: the meaning of the command the engine has decoded (30_encoding.md R144, R160). -/

namespace Sys2Proof.Machine

def exec (i : Instr) (s : State) : Host.Outcome State Fault Refusal :=
  match i with
  | .mboxSubmit ch => Sys2Proof.Machine.execMboxSubmit ch s
  | .fbProvision => Sys2Proof.Machine.execFbProvision s
  | .gpioCfgin pin => Sys2Proof.Machine.execGpioCfgin pin s
  | .gpioCfgout pin => Sys2Proof.Machine.execGpioCfgout pin s
  | .gpioCfgalt pin fn => Sys2Proof.Machine.execGpioCfgalt pin fn s
  | .tmrNow => Sys2Proof.Machine.execTmrNow s
  | .tmrDelay => Sys2Proof.Machine.execTmrDelay s
  | .ctrlInit => Sys2Proof.Machine.execCtrlInit s
  | .ctrlSample => Sys2Proof.Machine.execCtrlSample s
  | .uartInit => Sys2Proof.Machine.execUartInit s
  | .uartPutc byte => Sys2Proof.Machine.execUartPutc byte s
  | .uartGetc => Sys2Proof.Machine.execUartGetc s
  | .uartPuts len => Sys2Proof.Machine.execUartPuts len s
  | .uartPuthex => Sys2Proof.Machine.execUartPuthex s

end Sys2Proof.Machine
end

