-- ==== Sys2Proof/Machine/Step.lean ====
section
/-! DEFINITION. One step of the machine: the agent whose turn the script gives acts, or the engine does (10_state.md R40;
30_encoding.md R160; 60_exceptions.md R506). -/

namespace Sys2Proof.Machine

/-- The engine's turn (30_encoding.md R160): idle it waits (70_reset_and_hazards.md R600); an accepted word is decoded, and is
illegal (R146) or runs as its command; a running command goes on. -/
def engineTurn (s : State) : Host.Outcome State Fault Refusal :=
  match s.seq with
  | .idle => .next s
  | .decode w =>
    match decodeWord w with
    | .ok i => exec i s
    | .error _ => .next (s.raiseError .illegalCommand)
  | .run _ [] => .fault .noProgramPoint
  | .run _ (_ :: _) => .next (runLoop (runBound s) s)

/-- `RD 0x08`: the host reads STATUS (30_encoding.md R171). -/
def State.readStatus (s : State) : State :=
  { s with obs := s.obs ++ [.reg (s.cfg.engineBase + 0x08#32) s.regs.status.word] }

/-- One step. An ill-formed configuration is refused (00_scope.md R8). The head of the script says who moves: another agent,
whose action is the step; or the engine, for one step or until it holds (log 1); or the host in its POLL, which reads STATUS
and is done when DONE = 1, and otherwise lets the engine move before its next read (30_encoding.md R171). An empty script
leaves every step to the engine. -/
def step (s : State) : Host.Outcome State Fault Refusal :=
  if s.cfg.wf = false then .refused .illFormedConfig
  else
    match s.script with
    | [] => engineTurn s
    | .engine :: es =>
      match s.seq with
      | .run _ _ => engineTurn s
      | _ => engineTurn { s with script := es }
    | .untilHold :: es => if s.seq = .idle then .next { s with script := es } else engineTurn s
    | .poll :: es =>
      if s.regs.status.done then .next { s.readStatus with script := es } else engineTurn s.readStatus
    | e :: es => if e.ok s.cfg then .next (State.apply { s with script := es } e) else .refused .hostAccess

/-- The machine with the command word `w` accepted (30_encoding.md R160) and the engine to move: the very next step decodes
and runs it. The host's CMD write and the acceptance stand for what loads a program elsewhere (log 2). -/
def State.withFetchWord (s : State) (_nbits w : Nat) : State :=
  { s with
    regs := { s.regs with status := s.regs.status.accepted }
    opnd := s.regs.arg
    seq := .decode (BitVec.ofNat 32 w)
    script := .engine :: s.script }

end Sys2Proof.Machine
end

