-- ==== Sys2Proof/Machine/HostProgram.lean ====
section
/-! DEFINITION. Host programs: the command syntax, the pseudo-instructions and their expansions, and the boot order
(30_encoding.md R170 to R173; 70_reset_and_hazards.md R610). A host program is a script for the machine. -/

namespace Sys2Proof.Machine

/-- The pseudo-instructions of R171. -/
inductive Pseudo where
  /-- A command mnemonic with the operands that stand in its word; one that uses ARG takes the ARG already there. -/
  | command (i : Instr)
  /-- `TMR.DELAY us`. -/
  | delay (us : Word)
  /-- `UART.PUTHEX value`. -/
  | puthex (value : Word)
  /-- `UART.PUTS addr, len`. -/
  | puts (addr : Word) (len : BitVec 16)
  /-- `LDARG v`. -/
  | ldarg (v : Word)
  deriving DecidableEq, Repr

/-- `WR off, v` (R171). -/
def hostWr (c : Config) (off : Nat) (v : Word) : Event := .hostWrite (c.engineBase + BitVec.ofNat 32 off) 4 v

/-- `RD off` (R171). -/
def hostRd (c : Config) (off : Nat) : Event := .hostRead (c.engineBase + BitVec.ofNat 32 off) 4

/-- The expansion table of R171. -/
def Pseudo.expand (c : Config) : Pseudo → List Event
  | .command i => [hostWr c 0x00 (encode i), .poll]
  | .delay us => [hostWr c 0x04 us, hostWr c 0x00 0x21000000#32, .poll]
  | .puthex value => [hostWr c 0x04 value, hostWr c 0x00 0x44000000#32, .poll]
  | .puts addr len => [hostWr c 0x04 addr, hostWr c 0x00 (0x43000000#32 ||| len.setWidth 32), .poll]
  | .ldarg v => [hostWr c 0x04 v]

/-- The script of a straight-line host program. -/
def hostScript (c : Config) (p : List Pseudo) : List Event := p.flatMap (Pseudo.expand c)

/-- The boot order, with one turn of the polling loop (70_reset_and_hazards.md R610). -/
def bootProgram (n : Word) : List Pseudo :=
  [.command .uartInit, .command .ctrlInit, .command .fbProvision, .command .ctrlSample, .delay n]

/-! ## Command syntax (R170) -/

/-- An operand as written: a number, or `ALT0` to `ALT5`. -/
inductive AsmOperand where
  | num (n : Nat)
  | alt (n : Nat)
  deriving DecidableEq, Repr

/-- The value of a digit in base 16. -/
def digitValue (ch : Char) : Option Nat :=
  if '0' ≤ ch ∧ ch ≤ '9' then some (ch.toNat - '0'.toNat)
  else if 'A' ≤ ch ∧ ch ≤ 'F' then some (ch.toNat - 'A'.toNat + 10)
  else if 'a' ≤ ch ∧ ch ≤ 'f' then some (ch.toNat - 'a'.toNat + 10)
  else none

/-- A row of digits in a base, read onto `acc`. -/
def digitsValue (base acc : Nat) : List Char → Option Nat
  | [] => some acc
  | ch :: cs =>
    match digitValue ch with
    | some d => if d < base then digitsValue base (base * acc + d) cs else none
    | none => none

/-- A number is decimal, or hexadecimal with a `0x` prefix; a function may be written `ALT0` to `ALT5` (R170). -/
def asmOperand : List Char → Option AsmOperand
  | [] => none
  | ['A', 'L', 'T', d] => (digitsValue 6 0 [d]).map .alt
  | '0' :: 'x' :: c :: cs => (digitsValue 16 0 (c :: cs)).map .num
  | cs => (digitsValue 10 0 cs).map .num

/-- An operand that fits its field; only a function operand may be written with ALT. -/
def asmField (w : Nat) : AsmOperand → Option (BitVec w)
  | .num n => if n < 2 ^ w then some (BitVec.ofNat w n) else none
  | .alt _ => none

/-- A function operand (R170). -/
def asmFn : AsmOperand → Option (BitVec 3)
  | .num n => if n < 8 then some (BitVec.ofNat 3 n) else none
  | .alt n => if n < 6 then some (BitVec.ofNat 3 n) else none

/-- A line of a host program, from its mnemonic and operands (R170, R171). -/
def assemble : String → List AsmOperand → Option Pseudo
  | "MBOX.SUBMIT", [ch] => (asmField 4 ch).map fun c => .command (.mboxSubmit c)
  | "FB.PROVISION", [] => some (.command .fbProvision)
  | "GPIO.CFGIN", [pin] => (asmField 6 pin).map fun p => .command (.gpioCfgin p)
  | "GPIO.CFGOUT", [pin] => (asmField 6 pin).map fun p => .command (.gpioCfgout p)
  | "GPIO.CFGALT", [pin, fn] =>
    match asmField 6 pin, asmFn fn with
    | some p, some f => some (.command (.gpioCfgalt p f))
    | _, _ => none
  | "TMR.NOW", [] => some (.command .tmrNow)
  | "TMR.DELAY", [] => some (.command .tmrDelay)
  | "TMR.DELAY", [us] => (asmField 32 us).map .delay
  | "CTRL.INIT", [] => some (.command .ctrlInit)
  | "CTRL.SAMPLE", [] => some (.command .ctrlSample)
  | "UART.INIT", [] => some (.command .uartInit)
  | "UART.PUTC", [b] => (asmField 8 b).map fun v => .command (.uartPutc v)
  | "UART.GETC", [] => some (.command .uartGetc)
  | "UART.PUTS", [addr, len] =>
    match asmField 32 addr, asmField 16 len with
    | some a, some l => some (.puts a l)
    | _, _ => none
  | "UART.PUTHEX", [] => some (.command .uartPuthex)
  | "UART.PUTHEX", [v] => (asmField 32 v).map .puthex
  | "LDARG", [v] => (asmField 32 v).map .ldarg
  | _, _ => none

end Sys2Proof.Machine
end

