-- ==== Sys2Proof/Safety.lean ====
section
/-! DEFINITION. What claims about the machine are stated with: undisturbed runs, the states commands start in, the invariant
of the reachable states, and what each command may change. -/

namespace Sys2Proof.Machine

/-! ## Where a command starts, and how it runs undisturbed -/

/-- No agent but the timer counter moves while the engine runs: the script is empty, or the host is in its POLL. -/
def State.quiet (s : State) : Bool :=
  match s.script with
  | [] => true
  | .poll :: _ => true
  | _ => false

/-- STATUS as acceptance leaves it: BUSY, and OVERRUN as it was (30_encoding.md R160). -/
def State.accepted (s : State) : Prop :=
  s.regs.status = { busy := true, overrun := s.regs.status.overrun }

/-- STATUS after a normal completion without a Boolean result, or with RESULT = 0 (30_encoding.md R161). -/
def State.doneStatus (s : State) : Status := { done := true, overrun := s.regs.status.overrun }

/-- STATUS after a normal completion with RESULT = r (10_state.md R46). -/
def State.resultStatus (s : State) (r : Bool) : Status := { done := true, result := r, overrun := s.regs.status.overrun }

/-- STATUS after an error completion (60_exceptions.md R501). -/
def State.errorStatus (s : State) (e : ErrCode) : Status :=
  { done := true, err := true, errcode := e, overrun := s.regs.status.overrun }

/-- RAM stands under the whole mailbox buffer that the engine uses, words 0 to 34 (70_reset_and_hazards.md R611). -/
def State.bufferInRam (s : State) : Prop := ∀ i < 35, s.wordInRam (bufAddr s.cfg i) = true

/-! ## The invariant of the machine -/

/-- The status word keeps 10_state.md R45, first three clauses. -/
structure Status.Ok (s : Status) : Prop where
  busy_clear : s.busy = true → s.done = false ∧ s.result = false ∧ s.err = false ∧ s.errcode = .none
  err_iff    : s.err = true ↔ s.errcode ≠ .none
  err_result : s.err = true → s.result = false

/-- The program of a running command ends in a completion. -/
def endsInFinish (todo : List Op) : Bool :=
  match todo.getLast? with
  | some (.finish _) => true
  | _ => false

/-- What holds at reset and is kept by every step. -/
structure Inv (s : State) : Prop where
  /-- RAM is in canonical form. -/
  ram_wf      : Memory.wf s.ram = true
  /-- 10_state.md R45. -/
  status_ok   : s.regs.status.Ok
  /-- 10_state.md R60: idle exactly when BUSY = 0. -/
  idle_iff    : s.seq = .idle ↔ s.regs.status.busy = false
  /-- 10_state.md R51: an unset descriptor reads 0. -/
  fb_unset    : s.regs.fbValid = false → s.regs.fb = {}
  /-- 60_exceptions.md R521: the mailbox FIFOs hold at most MBOX_FIFO_DEPTH words. -/
  inbound_le  : s.mbox.inbound.length ≤ s.cfg.mboxFifoDepth
  outbound_le : s.mbox.outbound.length ≤ s.cfg.mboxFifoDepth
  /-- 60_exceptions.md R525: the UART FIFOs hold at most UART_FIFO_DEPTH bytes. -/
  rx_le       : s.uart.rx.length ≤ s.cfg.uartFifoDepth
  tx_le       : s.uart.tx.length ≤ s.cfg.uartFifoDepth
  /-- The last edge the controller peripheral saw is not in the future (log 13). -/
  edge_le     : s.ctrl.edgeAt ≤ s.timer.count
  /-- No pin's clock bit was set after the present engine cycle (log 11). -/
  clk_le      : ∀ p : Fin 54, s.gpio.clkAt[p] ≤ s.cycles
  /-- A running command still has its completion to make. -/
  run_ends    : ∀ i todo, s.seq = .run i todo → endsInFinish todo = true
  /-- 60_exceptions.md R500: an error that a running command may still raise has a code from 1 to 4. -/
  fail_code   : ∀ i todo, s.seq = .run i todo → .finish (.fail .none) ∉ todo
  /-- 10_state.md R50: a command that may still write the descriptor runs only while it is unset. -/
  fb_once     : ∀ i todo, s.seq = .run i todo → .finish .provision ∈ todo → s.regs.fbValid = false

/-! ## Pulls -/

end Sys2Proof.Machine

namespace Sys2Proof

/-- A GPPUD value asks for one pull (60_exceptions.md R522): 0 for off, the configured codes for down and up, where these differ from
the codes before them (log 27). -/
def Config.namesPull (c : Config) (g : Word) : Machine.Pull → Prop
  | .off => g = 0#32
  | .down => g = c.gppudDown ∧ g ≠ 0#32
  | .up => g = c.gppudUp ∧ g ≠ 0#32 ∧ g ≠ c.gppudDown

end Sys2Proof

namespace Sys2Proof.Machine

/-! ## Scripts without a reset -/

/-- The event is no reset (70_reset_and_hazards.md R601, R602). -/
def Event.notReset : Event → Bool
  | .reset | .resetWith _ _ _ _ _ _ => false
  | _ => true

/-- No reset is among the actions to come. -/
def State.noReset (s : State) : Bool := s.script.all Event.notReset

/-- The event is no reset that gives the devices any value (70_reset_and_hazards.md R602). -/
def Event.keepsDevices : Event → Bool
  | .resetWith _ _ _ _ _ _ => false
  | _ => true

/-- No reset that gives the devices any value is among the actions to come. -/
def State.noDeviceReset (s : State) : Bool := s.script.all Event.keepsDevices

/-! ## What a command may change -/

end Sys2Proof.Machine

namespace Sys2Proof

/-- The commands that write RES0 (10_state.md R47). -/
def Instr.writesRes0 : Instr → Bool
  | .mboxSubmit _ | .tmrNow | .ctrlSample | .uartGetc => true
  | _ => false

/-- The commands that write RES1 (10_state.md R47). -/
def Instr.writesRes1 : Instr → Bool
  | .tmrNow => true
  | _ => false

/-- The commands that access the mailbox device (40_mailbox.md R211). -/
def Instr.usesMailbox : Instr → Bool
  | .mboxSubmit _ | .fbProvision => true
  | _ => false

/-- The commands that write GPIO registers. -/
def Instr.usesGpio : Instr → Bool
  | .gpioCfgin _ | .gpioCfgout _ | .gpioCfgalt _ _ | .ctrlInit | .ctrlSample | .uartInit => true
  | _ => false

/-- The commands that access the AUX block. -/
def Instr.usesUart : Instr → Bool
  | .uartInit | .uartPutc _ | .uartGetc | .uartPuts _ | .uartPuthex => true
  | _ => false

/-- The commands that write RAM. -/
def Instr.writesRam : Instr → Bool
  | .fbProvision => true
  | _ => false

end Sys2Proof

namespace Sys2Proof.Machine

/-! ## What the commands send and store -/

/-- The bytes UART.PUTS sends for the string bytes it may read, `prev` being the byte before: a NUL ends the string, and an LF
goes out with a CR before it unless CR_SUPPRESS is set and the byte before it is a CR (45_uart.md R413). -/
def putsOutput (crSuppress : Bool) (prev : Byte) : List Byte → List Byte
  | [] => []
  | c :: cs =>
    if c = 0x00#8 then []
    else if c = 0x0A#8 ∧ ¬(crSuppress = true ∧ prev = 0x0D#8) then 0x0D#8 :: c :: putsOutput crSuppress c cs
    else c :: putsOutput crSuppress c cs

/-- The n bytes of RAM from `a` on. -/
def State.ramBytes (s : State) (a : Word) (n : Nat) : List Byte :=
  (List.range n).map fun k => Memory.get s.ram (byteAddr (strAddr a k) 0)

/-- The 8 upper-case hex digits of a value, most significant first: `0x30 + d` for d up to 9, and `0x41 + (d - 10)` from 10 on
(45_uart.md R404, R414). -/
def hexDigits (v : Word) : List Byte :=
  [7, 6, 5, 4, 3, 2, 1, 0].map fun k =>
    BitVec.ofNat 8
      (if v.toNat / 16 ^ k % 16 ≤ 9 then 0x30 + v.toNat / 16 ^ k % 16 else 0x41 + (v.toNat / 16 ^ k % 16 - 10))

/-- The buffer words after the coprocessor's writes of (index, value) pairs, in order. -/
def afterWrites (buf : List Word) : List (Nat × Word) → List Word
  | [] => buf
  | (i, v) :: ws => afterWrites (buf.set i v) ws

/-- The bus trace of ConfigurePin(p, f) from a function-select value v0 (41_gpio.md R243). -/
def configureTrace (c : Config) (p : Nat) (f : BitVec 3) (v0 : Word) : List BusEvent :=
  [.rd ((Reg.gpfsel (fselReg p)).addr c) 4 v0, .wr ((Reg.gpfsel (fselReg p)).addr c) 4 (fselInsert v0 p f),
    .wr (Reg.gppud.addr c) 4 0#32, .spin c.pudWaitCycles, .wr ((Reg.gppudclk (pinBank p)).addr c) 4 (pinBit p),
    .spin c.pudWaitCycles, .wr ((Reg.gppudclk (pinBank p)).addr c) 4 0#32]

/-! ## Bus traces of the sub-procedures -/

/-- The event without the value read at address `a`: MBOX_STATUS and AUX_MU_LSR have bits of any value (60_exceptions.md
R521, R525). -/
def BusEvent.maskRead (a : Word) : BusEvent → BusEvent
  | .rd b n v => if b = a then .rd b n 0#32 else .rd b n v
  | .wr b n v => .wr b n v
  | .spin c => .spin c

/-- The events without the values read at address `a`. -/
def maskTrace (a : Word) (l : List BusEvent) : List BusEvent := l.map (BusEvent.maskRead a)

/-- Now() with its three reads, and the two of the retry when the high word changed (43_timer.md R326). -/
def nowTrace (c : Config) (hi lo hi2 hi' lo' : Word) : List BusEvent :=
  [.rd (Reg.systmrChi.addr c) 4 hi, .rd (Reg.systmrClo.addr c) 4 lo, .rd (Reg.systmrChi.addr c) 4 hi2]
    ++ (if hi2 = hi then [] else [.rd (Reg.systmrChi.addr c) 4 hi', .rd (Reg.systmrClo.addr c) 4 lo'])

/-- The value Now() returns from these reads (43_timer.md R320). -/
def nowValue (hi lo hi2 hi' lo' : Word) : BitVec 64 := if hi2 = hi then hi ++ lo else hi' ++ lo'

/-- The three reads of Now() on a degenerate timer (60_exceptions.md R527). -/
def zeroNow (c : Config) : List BusEvent := nowTrace c 0#32 0#32 0#32 0#32 0#32

/-- MboxCall(ch) that pops these words and then reads this code, with the status values left out (40_mailbox.md R212). -/
def mboxTrace (c : Config) (ch : BitVec 4) (popped : List Word) (code : Word) : List BusEvent :=
  [.rd (Reg.mboxStatus.addr c) 4 0#32, .wr (Reg.mboxWrite.addr c) 4 (channelWord c ch)]
    ++ popped.flatMap (fun r => [.rd (Reg.mboxStatus.addr c) 4 0#32, .rd (Reg.mboxRead.addr c) 4 r])
    ++ [.rd (bufAddr c 1) 4 code]

/-- PutChar of each of these bytes with one LSR read each, the LSR values left out (45_uart.md R402). -/
def putTrace (c : Config) (bs : List Byte) : List BusEvent :=
  bs.flatMap fun b => [.rd (Reg.auxMuLsr.addr c) 4 0#32, .wr (Reg.auxMuIo.addr c) 4 (b.setWidth 32)]

/-- UART.PUTS from index k of the string at `a` on, with one LSR read for each byte sent (45_uart.md R413). -/
def putsTrace (c : Config) (a : Word) (prev : Byte) (k : Nat) : List Byte → List BusEvent
  | [] => []
  | b :: bs =>
    .rd (a + BitVec.ofNat 32 k) 1 (b.setWidth 32) ::
      (if b = 0x00#8 then []
       else
        putTrace c (if b = 0x0A#8 ∧ ¬(c.crSuppress = true ∧ prev = 0x0D#8) then [0x0D#8, b] else [b])
          ++ putsTrace c a b (k + 1) bs)

/-- The GPIO events of one bit of CTRL.SAMPLE on a degenerate timer, `v` being the GPLEV value read (44_controller.md
R373). -/
def sampleBitTrace (c : Config) (v : Word) : List BusEvent :=
  zeroNow c
    ++ [.wr ((Reg.gpclr (pinBank c.pinClock)).addr c) 4 (pinBit c.pinClock), .rd ((Reg.gplev (pinBank c.pinData)).addr c) 4 v]
    ++ zeroNow c ++ [.wr ((Reg.gpset (pinBank c.pinClock)).addr c) 4 (pinBit c.pinClock)]

/-! ## Agents of a framebuffer answer -/

/-- The coprocessor's writes of (word index, value) pairs into the mailbox buffer (60_exceptions.md R530). -/
def answerWrites (c : Config) (ws : List (Nat × Word)) : List Event := ws.map fun w => .coWrite (bufAddr c w.1) w.2

/-- The script of an answered framebuffer request: the engine moves until it waits for the answer, then the coprocessor pops the
request, writes its answer and pushes the request word back (60_exceptions.md R530). -/
def answerScript (c : Config) (ws : List (Nat × Word)) : List Event :=
  [.untilHold, .coPop] ++ answerWrites c ws ++ [.coPush (channelWord c c.chProp)]

/-- The descriptor FB.PROVISION latches from the buffer words (42_framebuffer.md R283, R284, R290). -/
def descOf (buf : List Word) : FbDesc :=
  { width := buf.getD 5 0#32, height := buf.getD 6 0#32, pitch := buf.getD 33 0#32, depth := buf.getD 20 0#32
    order := buf.getD 24 0#32, size := buf.getD 29 0#32, base := fbBaseOf (buf.getD 28 0#32) }

/-- A write of (word index, value) that the property-tag format lets the coprocessor make into the framebuffer request: the
response code, a value word of one of the seven tags, or a tag's length word with bit 31 set (40_mailbox.md R200;
42_framebuffer.md R280; 60_exceptions.md R530). -/
def fbAnswerOk (w : Nat × Word) : Prop :=
  w.1 = 1 ∨ w.1 ∈ [5, 6, 10, 11, 15, 16, 20, 24, 28, 29, 33] ∨ w.1 ∈ [4, 9, 14, 19, 23, 27, 32] ∧ w.2.bit 31 = true

/-- The coprocessor's guarantee for the words it leaves on success: `size >= width * height * (depth div 8)` and `pitch >= width *
(depth div 8)`, over words 5, 6, 20, 29 and 33. An assumption on the coprocessor that a claim may make; the machine does not
(60_exceptions.md R532; 42_framebuffer.md R295). -/
def fbGuarantee (buf : List Word) : Prop :=
  (buf.getD 5 0#32).toNat * (buf.getD 6 0#32).toNat * ((buf.getD 20 0#32).toNat / 8) ≤ (buf.getD 29 0#32).toNat ∧
    (buf.getD 5 0#32).toNat * ((buf.getD 20 0#32).toNat / 8) ≤ (buf.getD 33 0#32).toNat

/-- The bus trace of FB.PROVISION with `buf` the buffer words when it is answered and one poll before the answer, the status values
left out: 35 writes, the MboxCall, and on success the seven reads (42_framebuffer.md R282, R292, R294). -/
def provisionTrace (c : Config) (buf : List Word) : List BusEvent :=
  (fbRequest c).zipIdx.map (fun w => .wr (c.mboxBufAddr + BitVec.ofNat 32 (4 * w.2)) 4 w.1)
    ++ [.rd (Reg.mboxStatus.addr c) 4 0#32, .wr (Reg.mboxWrite.addr c) 4 (channelWord c c.chProp),
        .rd (Reg.mboxStatus.addr c) 4 0#32]
    ++ [.rd (Reg.mboxStatus.addr c) 4 0#32, .rd (Reg.mboxRead.addr c) 4 (channelWord c c.chProp),
        .rd (c.mboxBufAddr + 4#32) 4 (buf.getD 1 0#32)]
    ++ (if successTest c (buf.getD 1 0#32) = true then
          [28, 5, 6, 33, 20, 24, 29].map fun i => .rd (c.mboxBufAddr + BitVec.ofNat 32 (4 * i)) 4 (buf.getD i 0#32)
        else [])

/-- An access of the bus trace is a 32-bit one at a multiple of 4, or the 1-byte read of UART.PUTS (20_memory.md R106,
R110). -/
def BusEvent.aligned : BusEvent → Prop
  | .rd a n _ => n = 4 ∧ a.toNat % 4 = 0 ∨ n = 1
  | .wr a n _ => n = 4 ∧ a.toNat % 4 = 0
  | .spin _ => True

/-! ## Requests in RAM -/

/-- The tags fill the buffer at `b` from word i to its end tag in word n - 1: each has its identifier at its start, then its size S,
and takes `3 + ceil(S/4)` words (40_mailbox.md R200, R201). -/
def State.tagsFill (s : State) (b : Word) (n : Nat) : Nat → List TagSlot → Prop
  | i, [] => i + 1 = n ∧ s.requestInRam b i = true ∧ s.requestWord b i = 0#32
  | i, t :: ts =>
    t.start = i ∧ s.requestInRam b i = true ∧ s.requestInRam b (i + 1) = true ∧ s.requestWord b i ≠ 0#32 ∧
      t.values = ((s.requestWord b (i + 1)).toNat + 3) / 4 ∧ s.tagsFill b n (i + 3 + t.values) ts

/-- The request at `b` keeps the buffer invariant with this layout: its word 0 is 4 times its number of words, and its tags fill
it (40_mailbox.md R201). -/
def State.keepsInvariant (s : State) (b : Word) (l : Layout) : Prop :=
  s.requestInRam b 0 = true ∧ (s.requestWord b 0).toNat = 4 * l.words ∧ s.tagsFill b l.words 2 l.tags

/-- FB.PROVISION starts undisturbed but for a coprocessor that answers its request, from the moment the engine waits for it, with
these writes of (word index, value) in the property-tag format (60_exceptions.md R530, R531). -/
structure AnsweredRequest (s : State) (ws : List (Nat × Word)) : Prop where
  script_eq      : s.script = answerScript s.cfg ws
  accepted       : s.accepted
  cfg_wf         : s.cfg.wf = true
  flags_differ   : s.cfg.mboxFullBit ≠ s.cfg.mboxEmptyBit
  inbound_empty  : s.mbox.inbound = []
  outbound_empty : s.mbox.outbound = []
  ram_wf         : Memory.wf s.ram = true
  buffer_in_ram  : s.bufferInRam
  fb_unset       : s.regs.fbValid = false
  answers_ok     : ∀ w ∈ ws, fbAnswerOk w

/-! ## Holds -/

/-- Command i, run from s, holds in t: BUSY and the results are as they were, and while no other agent moves the next step leaves
it holding, with the devices but the counter and RAM as they are (60_exceptions.md R506). -/
def HoldsAt (i : Instr) (s t : State) : Prop :=
  exec i s = .next t ∧ (∃ todo, t.seq = .run i todo) ∧ t.regs = s.regs ∧
    ∃ t', step t = .next t' ∧ t'.seq = t.seq ∧ t'.regs = t.regs ∧ t'.mbox = t.mbox ∧ t'.gpio = t.gpio ∧ t'.uart = t.uart ∧
      t'.ctrl = t.ctrl ∧ t'.ram = t.ram

/-- The state with another value in ARG. -/
def State.withArg (s : State) (v : Word) : State := { s with regs := { s.regs with arg := v } }

end Sys2Proof.Machine
end

