-- ==== Sys2Proof/Certificates/Slice0/Obligations.lean ====
section
/-! DEFINITION. The statements for the provers. A docstring names the rule of spec/ each one formalises; where a statement also
rests on a choice of the model, it names the log entry. "Quiet" states are those in which no agent but the timer counter moves
while the command runs (log 1); "accepted" states are those acceptance leaves (30_encoding.md R160). -/

section
open Sys2Proof Sys2Proof.Machine

/-! ## Encoding -/

/-- Decoding a command's encoding gives the command back, for every operand value (30_encoding.md R142, R143, R145). -/
def Obligations.DecodeEncodeRoundTrip : Prop := ∀ i : Instr, decodeWord (encode i) = .ok i

/-- A word that decodes is the encoding of the command it decodes to, so no bit of it is ignored (30_encoding.md R142, R146). -/
def Obligations.DecodedWordReencodes : Prop := ∀ (w : Word) (i : Instr), decodeWord w = .ok i → encode i = w

/-- No word selects two rows of the opcode map, and a decoded word selects the row with its command's mnemonic
(30_encoding.md R144, R145). -/
def Obligations.OpcodeRowsDisjoint : Prop :=
  (opcodeTable.Pairwise fun r r' => ∀ w : Word, ¬(r.selects w = true ∧ r'.selects w = true)) ∧
    ∀ (w : Word) (i : Instr), decodeWord w = .ok i →
      ∃ r ∈ opcodeTable, r.selects w = true ∧ r.mnemonic = i.mnemonic

/-- Exactly the words that no command encodes to are illegal; those with an unlisted opcode, or with a listed opcode and a nonzero
reserved bit, are among them; an accepted illegal word completes with ILLEGAL_COMMAND and with no bus access (30_encoding.md
R146). -/
def Obligations.IllegalWords : Prop :=
  (∀ w : Word, (∃ e, decodeWord w = .error e) ↔ ∀ i : Instr, encode i ≠ w) ∧
    (∀ w : Word,
      fieldOp w ∉ [0x01#8, 0x02#8, 0x10#8, 0x11#8, 0x12#8, 0x20#8, 0x21#8, 0x30#8, 0x31#8, 0x40#8, 0x41#8, 0x42#8, 0x43#8,
        0x44#8] →
      decodeWord w = .error (.unlistedOpcode (fieldOp w))) ∧
    (∀ (r : OpRow) (w : Word), r ∈ opcodeTable → fieldOp w = fieldOp r.pattern → w &&& r.mask ≠ r.pattern →
      decodeWord w = .error (.reservedBits (fieldOp w))) ∧
    ∀ (s : State) (w : Word) (e : DecodeReject), s.cfg.wf = true → s.accepted → s.seq = .decode w → decodeWord w = .error e →
      s.script = [] → step s = .next { s with regs := { s.regs with status := s.errorStatus .illegalCommand }, seq := .idle }

/-- The encoding examples of 30_encoding.md R173, and one word of each remaining family, decode to their commands. -/
def Obligations.WrittenWordsDecode : Prop :=
  decodeWord 0x01000008#32 = .ok (.mboxSubmit 8#4) ∧ decodeWord 0x1200050E#32 = .ok (.gpioCfgalt 14#6 5#3) ∧
    decodeWord 0x11000009#32 = .ok (.gpioCfgout 9#6) ∧ decodeWord 0x1000000A#32 = .ok (.gpioCfgin 10#6) ∧
    decodeWord 0x41000041#32 = .ok (.uartPutc 0x41#8) ∧ decodeWord 0x43000003#32 = .ok (.uartPuts 3#16) ∧
    decodeWord 0x10000035#32 = .ok (.gpioCfgin 53#6) ∧ decodeWord 0x10000036#32 = .ok (.gpioCfgin 54#6) ∧
    decodeWord 0x02000000#32 = .ok .fbProvision ∧ decodeWord 0x21000000#32 = .ok .tmrDelay ∧
    decodeWord 0x31000000#32 = .ok .ctrlSample ∧ decodeWord 0x12000040#32 = .error (.reservedBits 0x12#8)

/-! ## The command cycle -/

/-- An accepted word that decodes runs as its command at the engine's next turn, whichever way the script gives the turn (a POLL
reads STATUS first); and the placed word of `withFetchWord` is such a word (30_encoding.md R160, R171; logs 1 and 2). -/
def Obligations.StepRunsDecodedCommand : Prop :=
  (∀ (s : State) (w : Word) (i : Instr), s.cfg.wf = true → s.seq = .decode w → decodeWord w = .ok i →
    (s.script = [] → step s = exec i s) ∧
    (∀ es, s.script = .engine :: es → step s = exec i { s with script := es }) ∧
    (∀ es, s.script = .untilHold :: es → step s = exec i s) ∧
    (∀ es, s.script = .poll :: es → s.regs.status.done = false → step s = exec i s.readStatus)) ∧
  ∀ (s : State) (nbits w : Nat) (i : Instr), s.cfg.wf = true → decodeTableWord nbits w = some i →
    step (s.withFetchWord nbits w) =
      exec i
        { s with
          regs := { s.regs with status := { busy := true, overrun := s.regs.status.overrun } }
          opnd := s.regs.arg
          seq := .decode (BitVec.ofNat 32 w) }

/-- POLL reads STATUS until DONE = 1: with DONE = 1 the read ends it, and with DONE = 0 the engine has its turn and the POLL goes on,
also over an idle engine, whose turn changes nothing (30_encoding.md R171; log 1: one engine turn between two reads). -/
def Obligations.PollRepeatsUntilDone : Prop :=
  ∀ (s t : State) (es : List Event), s.cfg.wf = true → s.script = .poll :: es →
    t = { s with obs := s.obs ++ [.reg (s.cfg.engineBase + 0x08#32) s.regs.status.word] } →
    (s.regs.status.done = true → step s = .next { t with script := es }) ∧
    (s.regs.status.done = false → step s = engineTurn t ∧ (s.seq = .idle → step s = .next t))

/-- A CMD write to an idle engine is accepted: BUSY is set, DONE, RESULT, ERR and ERRCODE are cleared, OVERRUN is kept, ARG is
latched, and nothing else changes (30_encoding.md R160, 10_state.md R61). -/
def Obligations.HostCommandAccepted : Prop :=
  ∀ (s : State) (w : Word) (es : List Event), s.cfg.wf = true → s.script = .hostWrite s.cfg.engineBase 4 w :: es →
    s.regs.status.busy = false →
    step s =
      .next
        { s with
          script := es
          regs := { s.regs with status := { busy := true, overrun := s.regs.status.overrun } }
          opnd := s.regs.arg
          seq := .decode w }

/-- A CMD write to a busy engine sets OVERRUN and changes nothing else, between commands' steps and inside a running command; and
OVERRUN stays set until reset (30_encoding.md R162, 60_exceptions.md R504). -/
def Obligations.BusyCommandWriteOnlyOverruns : Prop :=
  (∀ (s : State) (w : Word) (es : List Event), s.cfg.wf = true → s.script = .hostWrite s.cfg.engineBase 4 w :: es →
    s.regs.status.busy = true →
    step s =
      .next { s with script := es, regs := { s.regs with status := { s.regs.status with overrun := true } } }) ∧
  (∀ (s : State) (w : Word) (es : List Event) (i : Instr) (op : Op) (rest : List Op) (n : Nat),
    s.seq = .run i (op :: rest) → s.script = .hostWrite s.cfg.engineBase 4 w :: es → s.regs.status.busy = true →
    runLoop (n + 1) s =
      runLoop n { s with script := es, regs := { s.regs with status := { s.regs.status with overrun := true } } }) ∧
  ∀ s s' : State, s.noReset = true → step s = .next s' → s.regs.status.overrun = true → s'.regs.status.overrun = true

/-- In the engine block, a host write to a read-only register or a reserved offset has no effect, a host read of CMD or of a
reserved offset returns 0, and an access that is not an aligned 32-bit one is refused (10_state.md R42). -/
def Obligations.HostAccessRule : Prop :=
  ∀ (s : State) (off : Nat) (es : List Event), s.cfg.wf = true → off < 64 →
    (∀ v, off % 4 = 0 → off ≠ 0x00 → off ≠ 0x04 →
      s.script = .hostWrite (s.cfg.engineBase + BitVec.ofNat 32 off) 4 v :: es → step s = .next { s with script := es }) ∧
    (off ∈ [0x00, 0x14, 0x18, 0x1C] → s.script = .hostRead (s.cfg.engineBase + BitVec.ofNat 32 off) 4 :: es →
      step s = .next
        { s with script := es, obs := s.obs ++ [.reg (s.cfg.engineBase + BitVec.ofNat 32 off) 0#32] }) ∧
    (∀ n, ¬(n = 4 ∧ off % 4 = 0) →
      (∀ v, s.script = .hostWrite (s.cfg.engineBase + BitVec.ofNat 32 off) n v :: es → step s = .refused .hostAccess) ∧
      (s.script = .hostRead (s.cfg.engineBase + BitVec.ofNat 32 off) n :: es → step s = .refused .hostAccess))

/-- A host read of each register returns its content, and a host write of ARG stores its value whether or not the engine is busy
(10_state.md R41, R43). -/
def Obligations.HostRegisterAccess : Prop :=
  (∀ (s : State) (off : Nat) (v : Word) (es : List Event), s.cfg.wf = true →
    (off, v) ∈
      [(0x04, s.regs.arg), (0x08, s.regs.status.word), (0x0C, s.regs.res0), (0x10, s.regs.res1), (0x20, s.regs.fb.width),
        (0x24, s.regs.fb.height), (0x28, s.regs.fb.pitch), (0x2C, s.regs.fb.depth), (0x30, s.regs.fb.order),
        (0x34, s.regs.fb.size), (0x38, s.regs.fb.base), (0x3C, if s.regs.fbValid then 1#32 else 0#32)] →
    s.script = .hostRead (s.cfg.engineBase + BitVec.ofNat 32 off) 4 :: es →
    step s = .next
      { s with script := es, obs := s.obs ++ [.reg (s.cfg.engineBase + BitVec.ofNat 32 off) v] }) ∧
  ∀ (s : State) (v : Word) (es : List Event), s.cfg.wf = true →
    s.script = .hostWrite (s.cfg.engineBase + 4#32) 4 v :: es →
    step s = .next { s with script := es, regs := { s.regs with arg := v } }

/-- The bits of STATUS stand where 10_state.md R44 puts them, every reserved bit reads 0, and the error codes have the values of
60_exceptions.md R500. -/
def Obligations.StatusWordFields : Prop :=
  (ErrCode.none.bits = 0#4 ∧ ErrCode.illegalCommand.bits = 1#4 ∧ ErrCode.illegalOperand.bits = 2#4 ∧
    ErrCode.provisionFail.bits = 3#4 ∧ ErrCode.alreadyProvisioned.bits = 4#4) ∧
  ∀ s : Status,
    s.word.bit 0 = s.busy ∧ s.word.bit 1 = s.done ∧ s.word.bit 2 = s.result ∧ s.word.bit 3 = s.err ∧
      s.word.extractLsb' 8 4 = s.errcode.bits ∧ s.word.bit 16 = s.overrun ∧
      ∀ i, i < 32 → (4 ≤ i ∧ i ≤ 7) ∨ (12 ≤ i ∧ i ≤ 15) ∨ 17 ≤ i → s.word.bit i = false

/-- A configuration is refused exactly when it breaks a clause of 00_scope.md R8, a range of R7 (P1, P9) or an alignment of
20_memory.md R106. Refusing it for the ranges and alignments too is the model's choice (log 37). -/
def Obligations.IllFormedConfigRefused : Prop :=
  ∀ s : State,
    step s = .refused .illFormedConfig ↔
      ¬(s.cfg.mboxBufAddr.toNat % 16 = 0 ∧ 35 ≤ s.cfg.mboxBufWords ∧
        s.cfg.mboxBufAddr.toNat + 4 * s.cfg.mboxBufWords ≤ 2 ^ 32 ∧
        (s.cfg.pinLatch ≤ 53 ∧ s.cfg.pinData ≤ 53 ∧ s.cfg.pinClock ≤ 53 ∧ s.cfg.uartTxPin ≤ 53 ∧ s.cfg.uartRxPin ≤ 53) ∧
        (s.cfg.pinLatch ≠ s.cfg.pinData ∧ s.cfg.pinData ≠ s.cfg.pinClock ∧ s.cfg.pinLatch ≠ s.cfg.pinClock) ∧
        s.cfg.uartAltFn ≤ 5 ∧ 150 ≤ s.cfg.pudWaitCycles ∧ s.cfg.engineBase.toNat % 64 = 0 ∧ 1 ≤ s.cfg.mboxFifoDepth ∧
        s.cfg.periphBase.toNat % 4096 = 0 ∧
        ∀ w ∈ [s.cfg.mboxBase, s.cfg.gpioBase, s.cfg.auxBase, s.cfg.systmrBase, s.cfg.off.mboxRead, s.cfg.off.mboxStatus,
            s.cfg.off.mboxWrite, s.cfg.off.gpfsel, s.cfg.off.gpset, s.cfg.off.gpclr, s.cfg.off.gplev, s.cfg.off.gppud,
            s.cfg.off.gppudclk, s.cfg.off.auxEnables, s.cfg.off.auxMuIo, s.cfg.off.auxMuIer, s.cfg.off.auxMuIir,
            s.cfg.off.auxMuLcr, s.cfg.off.auxMuMcr, s.cfg.off.auxMuLsr, s.cfg.off.auxMuCntl, s.cfg.off.auxMuBaud,
            s.cfg.off.systmrCs, s.cfg.off.systmrClo, s.cfg.off.systmrChi, s.cfg.off.systmrCmp],
          w.toNat % 4 = 0)

/-- A running command reads only OPND: with another value in ARG it does the same, and ARG keeps that value; and a host write of ARG
inside a running command stores at once and changes nothing else, the command going on as without it (10_state.md R43, R61). -/
def Obligations.ArgNotReadByCommands : Prop :=
  (∀ (i : Instr) (s t : State) (v : Word), s.quiet = true → exec i s = .next t →
    exec i (s.withArg v) = .next (t.withArg v)) ∧
  ∀ (s : State) (v : Word) (es : List Event) (i : Instr) (op : Op) (rest : List Op) (n : Nat),
    s.seq = .run i (op :: rest) → s.script = .hostWrite (s.cfg.engineBase + 4#32) 4 v :: es →
    runLoop (n + 1) s = runLoop n { s with script := es, regs := { s.regs with arg := v } } ∧
      (({ s with script := es } : State).quiet = true →
        runLoop (n + 1) s = (runLoop n { s with script := es }).withArg v)

/-! ## Reset and invariants -/

/-- After reset every engine register reads 0, SEQ is idle, and the engine waits (70_reset_and_hazards.md R600). -/
def Obligations.ResetRegisters : Prop :=
  (∀ off, off < 64 → State.reset.regs.read off = 0#32) ∧ State.reset.regs.status.word = 0#32 ∧
    State.reset.regs.fbValid = false ∧ State.reset.seq = .idle ∧ step State.reset = .next State.reset

/-- Reset at any step, also inside a running command, leaves the engine as R600 says, abandons the command and keeps the accesses
already made (70_reset_and_hazards.md R601). The hidden values are then 0, as at State.reset (the model's choice, log 26). The event
`reset` leaves RAM and the devices as they are, and the event `resetWith` leaves them with any values given that keep the FIFO
depths, the canonical form of RAM and the order of the recorded times (R602; that there are these two, and that the host's
observations, TX, the engine cycles and the rest of the script stay, is the model's choice, log 31). -/
def Obligations.ResetAtAnyStep : Prop :=
  (State.reset.opnd = 0#32 ∧ State.reset.loc = {}) ∧
  (∀ (s : State) (es : List Event), s.cfg.wf = true → s.script = .reset :: es →
    step s = .next { s with script := es, regs := {}, seq := .idle, opnd := 0#32, loc := {} }) ∧
  (∀ (s : State) (es : List Event) (i : Instr) (op : Op) (rest : List Op) (n : Nat),
    s.seq = .run i (op :: rest) → s.script = .reset :: es →
    runLoop (n + 1) s = { s with script := es, regs := {}, seq := .idle, opnd := 0#32, loc := {} }) ∧
  ∀ (s t : State) (es : List Event) (m : Mbox) (g : Gpio) (u : Uart) (c : Timer) (p : Ctrl) (ram : Memory),
    s.script = .resetWith m g u c p ram :: es → m.inbound.length ≤ s.cfg.mboxFifoDepth →
    m.outbound.length ≤ s.cfg.mboxFifoDepth → u.rx.length ≤ s.cfg.uartFifoDepth → u.tx.length ≤ s.cfg.uartFifoDepth →
    (∀ q : Fin 54, g.clkAt[q] ≤ s.cycles) → p.edgeAt ≤ c.count → Memory.wf ram = true →
    t = { s with
      script := es, regs := {}, seq := .idle, opnd := 0#32, loc := {}, mbox := m, gpio := g, uart := { u with sent := s.uart.sent }
      timer := c, ctrl := p, ram := ram } →
    (s.cfg.wf = true → step s = .next t) ∧
      ∀ (i : Instr) (op : Op) (rest : List Op) (n : Nat), s.seq = .run i (op :: rest) → runLoop (n + 1) s = t

/-- The reset state meets the invariant. -/
def Obligations.InvAtReset : Prop := Inv State.reset

/-- Every step keeps the invariant: RAM in canonical form, the STATUS rules of 10_state.md R45, idle exactly when BUSY = 0 (R60),
an unset descriptor reads 0 (R51), FIFOs within their depths (60_exceptions.md R521, R525), a running command ends in a
completion, an error it may still raise has a code from 1 to 4 (R500), it may write the descriptor only while that is unset
(10_state.md R50), and the times the model keeps are not in the future: the controller's last line edge (log 13) and the last
setting of each clock bit (log 11). -/
def Obligations.InvKeptByStep : Prop := ∀ s s' : State, Inv s → step s = .next s' → Inv s'

/-- BUSY = 0 with DONE = 0 never comes back after the first accepted command, until reset (10_state.md R45). -/
def Obligations.StatusUntilReset : Prop :=
  ∀ s s' : State, s.noReset = true → step s = .next s' → (s.regs.status.busy || s.regs.status.done) = true →
    (s'.regs.status.busy || s'.regs.status.done) = true

/-- Once FB_VALID = 1 the descriptor and FB_VALID change only by reset (10_state.md R50, R51). -/
def Obligations.DescriptorImmutable : Prop :=
  ∀ s s' : State, Inv s → s.regs.fbValid = true → s.noReset = true → step s = .next s' →
    s'.regs.fb = s.regs.fb ∧ s'.regs.fbValid = true

/-- No step changes the configuration (log 3), no step takes back a bus access (70_reset_and_hazards.md R601), and every access a
step makes is a 32-bit one at a multiple of 4 or the 1-byte read of UART.PUTS (20_memory.md R106, R110). -/
def Obligations.TraceOnlyGrows : Prop :=
  ∀ s s' : State, step s = .next s' → s'.cfg = s.cfg ∧ ∃ es, s'.trace = s.trace ++ es ∧ ∀ e ∈ es, e.aligned

/-! ## What commands leave alone -/

/-- RES0, RES1 and the descriptor change only at the normal completion of the commands that write them: not by any other command,
not by an error, not while the command is busy; whatever the other agents do but reset (10_state.md R47, R50; 60_exceptions.md
R501). -/
def Obligations.ResultRegisterFrame : Prop :=
  ∀ (i : Instr) (s t : State), s.accepted → s.noReset = true → exec i s = .next t →
    (i.writesRes0 = false → t.regs.res0 = s.regs.res0) ∧
    (i.writesRes1 = false → t.regs.res1 = s.regs.res1) ∧
    (i ≠ .fbProvision → t.regs.fb = s.regs.fb ∧ t.regs.fbValid = s.regs.fbValid) ∧
    (t.regs.status.err = true ∨ t.seq ≠ .idle →
      t.regs.res0 = s.regs.res0 ∧ t.regs.res1 = s.regs.res1 ∧ t.regs.fb = s.regs.fb ∧ t.regs.fbValid = s.regs.fbValid)

/-- A command that runs undisturbed leaves alone every device it does not use, ARG, OPND and OVERRUN, the outside world's part of the
devices, and the timer's registers but the counter (10_state.md R43 to R45, R61; 20_memory.md R101, R113). That no string and no
mailbox buffer lies where a device register stands is the model's choice (log 17). -/
def Obligations.DeviceFrame : Prop :=
  ∀ (i : Instr) (s t : State), s.quiet = true → exec i s = .next t →
    (t.cfg = s.cfg ∧ t.opnd = s.opnd ∧ t.regs.arg = s.regs.arg ∧ t.regs.status.overrun = s.regs.status.overrun ∧ t.obs = s.obs ∧
      t.script = s.script) ∧
    (i.usesMailbox = false → t.mbox = s.mbox) ∧ t.mbox.held = s.mbox.held ∧
    (i.usesGpio = false → t.gpio = s.gpio ∧ t.ctrl = s.ctrl ∧ t.cycles = s.cycles) ∧
    (t.gpio.driven = s.gpio.driven ∧ t.gpio.level = s.gpio.level ∧ t.gpio.alt = s.gpio.alt ∧ t.ctrl.buttons = s.ctrl.buttons ∧
      t.ctrl.plugged = s.ctrl.plugged) ∧
    (i ≠ .ctrlSample → t.gpio.latch = s.gpio.latch) ∧
    (i.usesUart = false → t.uart = s.uart) ∧ t.uart.sent = s.uart.sent ∧
    (t.timer.cs = s.timer.cs ∧ t.timer.cmp = s.timer.cmp ∧ t.timer.rate = s.timer.rate ∧ s.timer.count ≤ t.timer.count)

/-- No command but FB.PROVISION writes RAM, and FB.PROVISION writes only the bytes of buffer words 0 to 34 (40_mailbox.md R212;
42_framebuffer.md R282; 20_memory.md R101). -/
def Obligations.MemoryFrame : Prop :=
  ∀ (i : Instr) (s t : State), s.quiet = true → exec i s = .next t →
    (i.writesRam = false → ∀ a, Memory.get t.ram a = Memory.get s.ram a) ∧
      ∀ a, (∀ j < 35, ∀ k < 4, a ≠ byteAddr (bufAddr s.cfg j) k) → Memory.get t.ram a = Memory.get s.ram a

/-! ## Legality -/

/-- The three cases of ILLEGAL_OPERAND complete in error with no bus access, and every channel number is legal (30_encoding.md
R147). -/
def Obligations.IllegalOperandCompletes : Prop :=
  ∀ s : State, s.accepted →
    (∀ pin : BitVec 6, 53 < pin.toNat →
      exec (.gpioCfgin pin) s = .next { s with regs := { s.regs with status := s.errorStatus .illegalOperand }, seq := .idle } ∧
      exec (.gpioCfgout pin) s = .next { s with regs := { s.regs with status := s.errorStatus .illegalOperand }, seq := .idle }) ∧
    (∀ (pin : BitVec 6) (fn : BitVec 3), 53 < pin.toNat ∨ 5 < fn.toNat →
      exec (.gpioCfgalt pin fn) s =
        .next { s with regs := { s.regs with status := s.errorStatus .illegalOperand }, seq := .idle }) ∧
    (∀ len : BitVec 16, 2 ^ 32 < s.opnd.toNat + len.toNat →
      exec (.uartPuts len) s =
        .next { s with regs := { s.regs with status := s.errorStatus .illegalOperand }, seq := .idle }) ∧
    ∀ (ch : BitVec 4) (t : State), s.quiet = true → exec (.mboxSubmit ch) s = .next t → t.regs.status.errcode = .none

/-- FB.PROVISION while FB_VALID = 1 completes with ALREADY_PROVISIONED and with no bus access (30_encoding.md R148). -/
def Obligations.AlreadyProvisionedCompletes : Prop :=
  ∀ s : State, s.accepted → s.regs.fbValid = true →
    exec .fbProvision s =
      .next { s with regs := { s.regs with status := s.errorStatus .alreadyProvisioned }, seq := .idle }

/-! ## GPIO -/

/-- GPIO.CFGIN, GPIO.CFGOUT and GPIO.CFGALT with legal operands complete: exactly the trace of 41_gpio.md R243, the pin's function
field replaced and nothing else in the function-select registers, the pin's pull off, and no other pin's pull changed
(41_gpio.md R242 to R244, R250 to R252; 60_exceptions.md R523). That last clause needs the invariant of log 11, that no clock bit was
set after the present cycle, which InvKeptByStep keeps. -/
def Obligations.GpioConfigureCompletes : Prop :=
  ∀ (s : State) (i : Instr) (p : Nat) (f : BitVec 3), s.quiet = true → s.accepted → p ≤ 53 →
    (∃ pin : BitVec 6, pin.toNat = p ∧
      (i = .gpioCfgin pin ∧ f = s.cfg.fselInput ∨ i = .gpioCfgout pin ∧ f = s.cfg.fselOutput ∨
        ∃ fn : BitVec 3, fn.toNat ≤ 5 ∧ i = .gpioCfgalt pin fn ∧ f = fselAlt s.cfg fn.toNat)) →
    ∃ t, exec i s = .next t ∧ t.seq = .idle ∧ t.regs = { s.regs with status := s.doneStatus } ∧
      t.trace = s.trace ++ configureTrace s.cfg p f s.gpio.gpfsel[fselReg p] ∧
      t.gpio.gpfsel = s.gpio.gpfsel.set (fselReg p).val (fselInsert s.gpio.gpfsel[fselReg p] p f) (fselReg p).isLt ∧
      t.gpio.gppud = 0#32 ∧ t.gpio.gppudclk = s.gpio.gppudclk.set (pinBank p).val 0#32 (pinBank p).isLt ∧
      t.gpio.latch = s.gpio.latch ∧ t.gpio.pullOf p = .off ∧
      ((∀ q : Fin 54, s.gpio.clkAt[q] ≤ s.cycles) → ∀ q ≤ 53, q ≠ p → t.gpio.pullOf q = s.gpio.pullOf q)

/-- SetFunction's new register value has f in pin p's field and every other bit as before, and doing it twice is doing it once
(41_gpio.md R240, R244, R245). -/
def Obligations.FselInsertOneField : Prop :=
  ∀ (v : Word) (p : Nat) (f : BitVec 3), p ≤ 53 →
    fselInsert v p f = (v &&& ~~~(0b111#32 <<< (3 * (p % 10)))) ||| (f.setWidth 32 <<< (3 * (p % 10))) ∧
      fselField (fselInsert v p f) p = f ∧
      (∀ b < 32, b < 3 * (p % 10) ∨ 3 * (p % 10) + 3 ≤ b → (fselInsert v p f).bit b = v.bit b) ∧
      fselInsert (fselInsert v p f) p f = fselInsert v p f

/-! ## Devices -/

/-- The register map: every device register at its block's base plus its offset, the block bases and the offsets with the defaults of
00_scope.md R7 and 60_exceptions.md R520, R522, R524 and R526 (log 4: the family's), and the words of the mailbox buffer at
MBOX_BUF_ADDR + 4*i with no wrap (40_mailbox.md R200). The default pull codes are those of R522 and the FIFO-clearing bits those of
R524 (log 4, the family's). -/
def Obligations.RegisterMap : Prop :=
  (∀ c : Config, c.off = {} →
    (Reg.mboxRead.addr c = c.mboxBase ∧ Reg.mboxStatus.addr c = c.mboxBase + 0x18#32 ∧
      Reg.mboxWrite.addr c = c.mboxBase + 0x20#32) ∧
    (∀ n : Fin 6, (Reg.gpfsel n).addr c = c.gpioBase + BitVec.ofNat 32 (4 * n.val)) ∧
    ((Reg.gpset 0).addr c = c.gpioBase + 0x1C#32 ∧ (Reg.gpset 1).addr c = c.gpioBase + 0x20#32 ∧
      (Reg.gpclr 0).addr c = c.gpioBase + 0x28#32 ∧ (Reg.gpclr 1).addr c = c.gpioBase + 0x2C#32 ∧
      (Reg.gplev 0).addr c = c.gpioBase + 0x34#32 ∧ (Reg.gplev 1).addr c = c.gpioBase + 0x38#32 ∧
      Reg.gppud.addr c = c.gpioBase + 0x94#32 ∧ (Reg.gppudclk 0).addr c = c.gpioBase + 0x98#32 ∧
      (Reg.gppudclk 1).addr c = c.gpioBase + 0x9C#32) ∧
    (Reg.auxEnables.addr c = c.auxBase + 0x04#32 ∧ Reg.auxMuIo.addr c = c.auxBase + 0x40#32 ∧
      Reg.auxMuIer.addr c = c.auxBase + 0x44#32 ∧ Reg.auxMuIir.addr c = c.auxBase + 0x48#32 ∧
      Reg.auxMuLcr.addr c = c.auxBase + 0x4C#32 ∧ Reg.auxMuMcr.addr c = c.auxBase + 0x50#32 ∧
      Reg.auxMuLsr.addr c = c.auxBase + 0x54#32 ∧ Reg.auxMuCntl.addr c = c.auxBase + 0x60#32 ∧
      Reg.auxMuBaud.addr c = c.auxBase + 0x68#32) ∧
    (Reg.systmrCs.addr c = c.systmrBase ∧ Reg.systmrClo.addr c = c.systmrBase + 0x04#32 ∧
      Reg.systmrChi.addr c = c.systmrBase + 0x08#32) ∧
    ∀ n : Fin 4, (Reg.systmrCmp n).addr c = c.systmrBase + BitVec.ofNat 32 (0x0C + 4 * n.val)) ∧
  (({} : Config).periphBase = 0x3F000000#32 ∧ ({} : Config).mboxBase = 0x3F00B880#32 ∧
    ({} : Config).gpioBase = 0x3F200000#32 ∧ ({} : Config).auxBase = 0x3F215000#32 ∧
    ({} : Config).systmrBase = 0x3F003000#32) ∧
  (({} : Config).gppudDown = 1#32 ∧ ({} : Config).gppudUp = 2#32 ∧ ({} : Config).iirRxBit = 1 ∧ ({} : Config).iirTxBit = 2) ∧
  ∀ (c : Config) (i : Nat), c.wf = true → i < c.mboxBufWords → (bufAddr c i).toNat = c.mboxBufAddr.toNat + 4 * i

/-- A GPPUDCLK write moves a pin's pull state only where its bit is 1, then to the GPPUD value when the settle time was kept; the
clearing write keeps it when the hold time was kept (60_exceptions.md R523; log 11). So a host that writes GPPUD, waits, sets clock
bits, waits and clears them leaves those pins at its GPPUD value, and its GPPUD write alone changes no pull, but during the engine's
hold time. A host write of GPPUD or GPPUDCLK during the engine's pull sequence breaks its settle or its hold time: the pins the engine
then clocks, or has clocked, may have any pull state (70_reset_and_hazards.md R621, R622). -/
def Obligations.PullFollowsClock : Prop :=
  (∀ (s : State) (i : Instr) (q k : Nat) (rest : List Op) (r : Reg) (v : Word), q ≤ 53 →
    s.seq = .run i ((pullDisable q).drop k ++ rest) → (r = .gppud ∨ ∃ n, r = .gppudclk n) →
    (1 ≤ k → k ≤ 2 → (s.hostDevWrite r v).gpio.broken = true) ∧
    (3 ≤ k → k ≤ 4 → ∀ p ≤ 53, pinBank p = pinBank q → s.gpio.gppudclk[pinBank q].bit (p % 32) = true →
      ∀ any : Pull, ∃ ws : List Word, (({ s with noise := ws } : State).hostDevWrite r v).gpio.pullOf p = any)) ∧
  (∀ (s : State) (v : Word) (p : Nat), p ≤ 53 → v.bit (p % 32) = true → s.gpio.broken = true ∨ s.gpio.pudAt = none →
    ∀ any : Pull, ∃ ws : List Word, (({ s with noise := ws } : State).devWrite (.gppudclk (pinBank p)) v).gpio.pullOf p = any) ∧
  (∀ (s : State) (v : Word), (s.devWrite .gppud v).gpio.broken = false ∧ (s.devWrite .gppud v).gpio.pull = s.gpio.pull ∧
    ((∀ n, s.pullPhase ≠ some (.hold n)) → (s.hostDevWrite .gppud v).gpio.pull = s.gpio.pull)) ∧
  (∀ (s : State) (n : Fin 2) (v : Word) (p : Nat), p ≤ 53 →
    (pinBank p ≠ n → (s.devWrite (.gppudclk n) v).gpio.pullOf p = s.gpio.pullOf p) ∧
    (pinBank p = n → v.bit (p % 32) = false → s.gpio.gppudclk[n].bit (p % 32) = false →
      (s.devWrite (.gppudclk n) v).gpio.pullOf p = s.gpio.pullOf p) ∧
    (∀ w, pinBank p = n → v.bit (p % 32) = true → s.gpio.broken = false → s.gpio.pudAt = some w →
      w + s.cfg.pudWaitCycles ≤ s.cycles → ∀ pull, s.cfg.namesPull s.gpio.gppud pull →
      (s.devWrite (.gppudclk n) v).gpio.pullOf p = pull) ∧
    (∀ hp : p < 54, pinBank p = n → v.bit (p % 32) = false → s.gpio.gppudclk[n].bit (p % 32) = true →
      s.gpio.clkAt[p] + s.cfg.pudWaitCycles ≤ s.cycles →
      (s.devWrite (.gppudclk n) v).gpio.pullOf p = s.gpio.pullOf p)) ∧
  ∀ (s : State) (n : Fin 2) (g v : Word) (a b p : Nat) (pull : Pull), s.seq = .idle → s.cfg.pudWaitCycles ≤ a →
    s.cfg.pudWaitCycles ≤ b → p ≤ 53 → pinBank p = n → v.bit (p % 32) = true → s.cfg.namesPull g pull →
    ([.hostDevWrite .gppud g, .cycles a, .hostDevWrite (.gppudclk n) v, .cycles b,
      .hostDevWrite (.gppudclk n) 0#32].foldl State.apply s).gpio.pullOf p = pull

/-- GPSET and GPCLR set and clear the output latch of exactly the pins whose bit is 1 (60_exceptions.md R523, 20_memory.md R112). -/
def Obligations.OutputLatchWrites : Prop :=
  ∀ (s : State) (n : Fin 2) (v : Word) (p : Nat), p ≤ 53 →
    pinLevel (s.devWrite (.gpset n) v).gpio.latch p =
      (pinLevel s.gpio.latch p || (decide (pinBank p = n) && v.bit (p % 32))) ∧
    pinLevel (s.devWrite (.gpclr n) v).gpio.latch p =
      (pinLevel s.gpio.latch p && !(decide (pinBank p = n) && v.bit (p % 32)))

/-- GPLEV reads an output's latch, a driven input's level, an undriven input's pull, an alternate function's signal, and on
PIN_DATA the bit a plugged-in and synchronised controller presents, inverted (60_exceptions.md R523, R534; log 13). -/
def Obligations.LevelReads : Prop :=
  ∀ (s : State) (p : Nat), p ≤ 53 → s.cfg.fselOutput ≠ s.cfg.fselInput →
    (s.pinFunction p = s.cfg.fselOutput →
      (s.busRead (.gplev (pinBank p))).1.bit (p % 32) = pinLevel s.gpio.latch p) ∧
    (s.pinFunction p = s.cfg.fselInput → p ≠ s.cfg.pinData ∨ s.ctrl.plugged = false →
      (pinLevel s.gpio.driven p = true →
        (s.busRead (.gplev (pinBank p))).1.bit (p % 32) = pinLevel s.gpio.level p) ∧
      (pinLevel s.gpio.driven p = false → s.gpio.pullOf p = .up → (s.busRead (.gplev (pinBank p))).1.bit (p % 32) = true) ∧
      (pinLevel s.gpio.driven p = false → s.gpio.pullOf p = .down →
        (s.busRead (.gplev (pinBank p))).1.bit (p % 32) = false)) ∧
    (s.pinFunction p ≠ s.cfg.fselOutput → s.pinFunction p ≠ s.cfg.fselInput →
      (s.busRead (.gplev (pinBank p))).1.bit (p % 32) = pinLevel s.gpio.alt p) ∧
    (s.pinFunction p = s.cfg.fselInput → p = s.cfg.pinData → s.ctrl.plugged = true → s.ctrl.synced = true → s.ctrl.pos ≤ 15 →
      (s.busRead (.gplev (pinBank p))).1.bit (p % 32) = !s.ctrl.shift.getLsbD s.ctrl.pos)

/-- The mailbox device: FULL and EMPTY, the pop of a non-empty outbound FIFO, the push into an inbound FIFO that is not full
(60_exceptions.md R521). -/
def Obligations.MailboxDevice : Prop :=
  ∀ s : State, s.cfg.mboxFullBit ≠ s.cfg.mboxEmptyBit → s.mbox.inbound.length ≤ s.cfg.mboxFifoDepth →
    ((s.busRead .mboxStatus).1.bit s.cfg.mboxFullBit.val = decide (s.mbox.inbound.length = s.cfg.mboxFifoDepth)) ∧
    ((s.busRead .mboxStatus).1.bit s.cfg.mboxEmptyBit.val = decide (s.mbox.outbound = [])) ∧
    (s.busRead .mboxStatus).2.mbox = s.mbox ∧
    (∀ w ws, s.mbox.outbound = w :: ws →
      (s.busRead .mboxRead).1 = w ∧ (s.busRead .mboxRead).2.mbox = { s.mbox with outbound := ws }) ∧
    ∀ v, s.mbox.inbound.length < s.cfg.mboxFifoDepth →
      (s.busWrite .mboxWrite v).mbox = { s.mbox with inbound := s.mbox.inbound ++ [v] }

/-- The enabled UART: data ready, transmitter empty, the read that pops, the write that appends, the FIFO-clearing write, and the
order of TX (60_exceptions.md R525). -/
def Obligations.UartDevice : Prop :=
  ∀ s : State, s.uartEnabled = true →
    ((s.busRead .auxMuLsr).1.bit 0 = decide (s.uart.rx ≠ [])) ∧
    ((s.busRead .auxMuLsr).1.bit 5 = decide (s.uart.tx.length < s.cfg.uartFifoDepth)) ∧
    (s.busRead .auxMuLsr).2.uart = s.uart ∧
    (∀ b bs, s.uart.rx = b :: bs →
      (s.busRead .auxMuIo).1.extractLsb' 0 8 = b ∧ (s.busRead .auxMuIo).2.uart = { s.uart with rx := bs }) ∧
    (∀ v, s.uart.tx.length < s.cfg.uartFifoDepth →
      (s.busWrite .auxMuIo v).uart = { s.uart with tx := s.uart.tx ++ [v.extractLsb' 0 8] }) ∧
    (∀ v, (s.busWrite .auxMuIir v).uart =
      { s.uart with
        rx := if v.bit s.cfg.iirRxBit.val then [] else s.uart.rx
        tx := if v.bit s.cfg.iirTxBit.val then [] else s.uart.tx }) ∧
    s.uart.drain.sent ++ s.uart.drain.tx = s.uart.sent ++ s.uart.tx

/-- SYSTMR_CLO and SYSTMR_CHI read the halves of the counter below 2^64, and 0 without a timer (60_exceptions.md R526, R527). -/
def Obligations.TimerReads : Prop :=
  ∀ s : State,
    (s.cfg.timerPresent = true → s.timer.count < 2 ^ 64 →
      (s.busRead .systmrClo).1.toNat = s.timer.count % 2 ^ 32 ∧ (s.busRead .systmrChi).1.toNat = s.timer.count / 2 ^ 32) ∧
    (s.cfg.timerPresent = false → (s.busRead .systmrClo).1 = 0#32 ∧ (s.busRead .systmrChi).1 = 0#32)

/-- The counter never decreases but by a reset that gives the devices any value; a reset of the engine alone leaves it
(60_exceptions.md R526, 70_reset_and_hazards.md R602). It is the unbounded count of log 15, of which CLO and CHI show 64 bits. -/
def Obligations.CounterNeverDecreases : Prop :=
  ∀ s s' : State, s.noDeviceReset = true → step s = .next s' → s.timer.count ≤ s'.timer.count

/-- RAM words are little-endian, and a word reads back as it was written, with no other byte changed (20_memory.md R104). -/
def Obligations.RamLittleEndian : Prop :=
  ∀ (s : State) (a v : Word), Memory.wf s.ram = true → s.wordInRam a = true →
    (∀ k < 4, Memory.get (s.ramWrite a v).ram (byteAddr a k) = v.extractLsb' (8 * k) 8) ∧
    ((s.ramWrite a v).ramRead a).1 = v ∧
    ((s.ramWrite a v).ramReadByte a).1 = v.extractLsb' 0 8 ∧
    (∀ b, (∀ k < 4, b ≠ byteAddr a k) → Memory.get (s.ramWrite a v).ram b = Memory.get s.ram b) ∧
    Memory.wf (s.ramWrite a v).ram = true

/-- The coprocessor pops the head of the inbound FIFO, with the layout of its buffer exactly when the request keeps R201; it writes
only words 1 to `(s div 4) - 1` of the buffers of the requests it holds, on CH_PROP only word 1, value words, and length words with
bit 31 set, and anything for a request that broke the invariant; and it pushes the word of a running mailbox command only when it has
popped it (60_exceptions.md R530, R531; 40_mailbox.md R200, R201). The layout is taken at the pop, a request not wholly in RAM counts
as broken, and the format is checked write by write (log 18); which of two equal requests a push answers is log 36. -/
def Obligations.CoprocessorExtent : Prop :=
  (∀ (s : State) (w : Word) (ws : List Word), s.mbox.inbound = w :: ws →
    ∃ lay : Option Layout,
      s.coPop = { s with mbox := { s.mbox with inbound := ws, held := s.mbox.held ++ [⟨w, lay⟩] } } ∧
        ∀ l, lay = some l ↔ s.keepsInvariant (w &&& 0xFFFFFFF0#32) l) ∧
  (∀ (s : State) (a v : Word) (may : Prop),
    (may ↔ ∃ r ∈ s.mbox.held, r.layout = none ∨
      ∃ (l : Layout) (i : Nat), r.layout = some l ∧ 1 ≤ i ∧ i < l.words ∧ (a - (r.word &&& 0xFFFFFFF0#32)).toNat = 4 * i ∧
        (r.word.extractLsb' 0 4 = s.cfg.chProp → i = 1 ∨ ∃ t ∈ l.tags,
          i = t.start + 2 ∧ v.bit 31 = true ∨ t.start + 3 ≤ i ∧ i < t.start + 3 + t.values)) →
    (may → s.coWrite a v = s.ramSetWord a v) ∧ (¬may → s.coWrite a v = s)) ∧
  (∀ (s : State) (a v : Word) (b : Nat), (∀ r ∈ s.mbox.held, r.layout ≠ none) →
    (∀ r ∈ s.mbox.held, ∀ l, r.layout = some l → ∀ i, 1 ≤ i → i < l.words → ∀ k < 4,
      b ≠ byteAddr ((r.word &&& 0xFFFFFFF0#32) + BitVec.ofNat 32 (4 * i)) k) →
    Memory.get (s.coWrite a v).ram b = Memory.get s.ram b) ∧
  ∀ (s : State) (w : Word),
    ((∃ (ch : BitVec 4) (todo : List Op), s.seq = .run (.mboxSubmit ch) todo ∧ w = channelWord s.cfg ch ∨
        s.seq = .run .fbProvision todo ∧ w = channelWord s.cfg s.cfg.chProp) →
      (∀ r ∈ s.mbox.held, r.word ≠ w) → s.coPush w = s) ∧
    (∀ (before after : List Request) (r : Request), s.mbox.held = before ++ r :: after → r.word = w →
      (∀ q ∈ before, q.word ≠ w) → s.mbox.outbound.length < s.cfg.mboxFifoDepth →
      s.coPush w = { s with mbox := { s.mbox with outbound := s.mbox.outbound ++ [w], held := before ++ after } })

/-! ## Mailbox and framebuffer -/

/-- The channel-encoded word is `(MBOX_BUF_ADDR AND 0xFFFFFFF0) OR zext_32(ch)`, which is `MBOX_BUF_ADDR + ch` with ch in its low four
bits (40_mailbox.md R203). -/
def Obligations.ChannelWordEncodes : Prop :=
  ∀ (c : Config) (ch : BitVec 4), c.wf = true →
    channelWord c ch = (c.mboxBufAddr &&& 0xFFFFFFF0#32) ||| ch.setWidth 32 ∧
      channelWord c ch = c.mboxBufAddr + ch.setWidth 32 ∧ (channelWord c ch).extractLsb' 0 4 = ch

/-- MBOX.SUBMIT completes when the inbound FIFO has room and its word W stands in the outbound FIFO behind any words that differ from
it: those are popped and lost, RESULT is the success test of buffer word 1, RES0 is that word, and the trace is the one of
40_mailbox.md R212 (R205 to R207, R210). -/
def Obligations.MboxSubmitCompletes : Prop :=
  ∀ (s : State) (ch : BitVec 4) (other more : List Word) (code : Word), s.quiet = true → s.accepted →
    s.cfg.mboxFullBit ≠ s.cfg.mboxEmptyBit → s.mbox.inbound.length < s.cfg.mboxFifoDepth →
    s.mbox.outbound = other ++ channelWord s.cfg ch :: more → channelWord s.cfg ch ∉ other →
    s.wordInRam (bufAddr s.cfg 1) = true → code = s.ramWord 0#32 (bufAddr s.cfg 1) →
    ∃ t, exec (.mboxSubmit ch) s = .next t ∧ t.seq = .idle ∧
      t.regs =
        { s.regs with
          res0 := code
          status := s.resultStatus
            (match s.cfg.successTest with
             | .highBit => code.bit 31
             | .equalResponse => decide (code = 0x80000000#32)) } ∧
      t.mbox = { s.mbox with inbound := s.mbox.inbound ++ [channelWord s.cfg ch], outbound := more } ∧
      maskTrace (Reg.mboxStatus.addr s.cfg) t.trace =
        maskTrace (Reg.mboxStatus.addr s.cfg)
          (s.trace ++ mboxTrace s.cfg ch (other ++ [channelWord s.cfg ch]) code)

/-- MBOX.SUBMIT and FB.PROVISION hold, with BUSY = 1 and their results unwritten, at a full inbound FIFO, and when no word equal to W
stands in the outbound FIFO; while no other agent moves, the next step leaves them holding (40_mailbox.md R208, R211;
42_framebuffer.md R290; 60_exceptions.md R506). -/
def Obligations.MailboxHolds : Prop :=
  ∀ (s : State) (i : Instr) (w : Word), s.script = [] → s.accepted → s.cfg.wf = true → s.cfg.mboxFullBit ≠ s.cfg.mboxEmptyBit →
    ((∃ ch, i = .mboxSubmit ch ∧ w = channelWord s.cfg ch) ∨
      i = .fbProvision ∧ s.regs.fbValid = false ∧ w = channelWord s.cfg s.cfg.chProp) →
    (s.cfg.mboxFifoDepth ≤ s.mbox.inbound.length → ∃ t, HoldsAt i s t ∧ t.mbox = s.mbox) ∧
    (s.mbox.inbound.length < s.cfg.mboxFifoDepth → w ∉ s.mbox.outbound →
      ∃ t, HoldsAt i s t ∧ t.mbox = { s.mbox with inbound := s.mbox.inbound ++ [w], outbound := [] })

/-- The framebuffer request keeps the buffer invariant: 35 words, their number of bytes in word 0, each of the seven tags with a size
field of 4 times its value words and an equal request size, and the end tag (42_framebuffer.md R281). -/
def Obligations.RequestKeepsInvariant : Prop :=
  ∀ c : Config, ∃ v1 v2 v3 v4 v5 v6 v7 : List Word,
    fbRequest c =
      [140#32, 0#32] ++ (c.tagSetPhysWh :: BitVec.ofNat 32 (4 * v1.length) :: BitVec.ofNat 32 (4 * v1.length) :: v1)
        ++ (c.tagSetVirtWh :: BitVec.ofNat 32 (4 * v2.length) :: BitVec.ofNat 32 (4 * v2.length) :: v2)
        ++ (c.tagSetVirtOff :: BitVec.ofNat 32 (4 * v3.length) :: BitVec.ofNat 32 (4 * v3.length) :: v3)
        ++ (c.tagSetDepth :: BitVec.ofNat 32 (4 * v4.length) :: BitVec.ofNat 32 (4 * v4.length) :: v4)
        ++ (c.tagSetPixelOrder :: BitVec.ofNat 32 (4 * v5.length) :: BitVec.ofNat 32 (4 * v5.length) :: v5)
        ++ (c.tagAllocBuffer :: BitVec.ofNat 32 (4 * v6.length) :: BitVec.ofNat 32 (4 * v6.length) :: v6)
        ++ (c.tagGetPitch :: BitVec.ofNat 32 (4 * v7.length) :: BitVec.ofNat 32 (4 * v7.length) :: v7) ++ [0#32] ∧
      (fbRequest c).length = 35 ∧ 140 = 4 * (fbRequest c).length ∧
      v1 = [c.fbReqWidth, c.fbReqHeight] ∧ v2 = [c.fbReqVwidth, c.fbReqVheight] ∧ v3 = [0#32, 0#32] ∧ v4 = [c.fbReqDepth] ∧
      v5 = [c.fbReqOrder] ∧ v6 = [c.fbReqAlign, 0#32] ∧ v7 = [0#32]

/-- FB_BASE is the raw address with its top two bits cleared and the others kept (42_framebuffer.md R284). -/
def Obligations.FbBaseMasked : Prop :=
  ∀ raw : Word, fbBaseOf raw = raw &&& 0x3FFFFFFF#32 ∧ (fbBaseOf raw).extractLsb' 30 2 = 0#2 ∧
    (fbBaseOf raw).extractLsb' 0 30 = raw.extractLsb' 0 30

/-- FB.PROVISION with an answering coprocessor completes: the buffer holds the request with the coprocessor's writes; on a code
that passes the success test the seven descriptor words are latched with RESULT = 1 and FB_VALID = 1, and otherwise it fails with
PROVISION_FAIL and the descriptor registers stay as they were; the trace is 35 ascending writes, the MboxCall and, on success only,
the seven reads in order; no other byte of RAM changes (42_framebuffer.md R282 to R284, R290 to R294; 60_exceptions.md R530). The
coprocessor writes in the property-tag format (R530, R531; log 18) and acts when the engine has begun to wait (log 1). -/
def Obligations.FbProvisionWithAnswer : Prop :=
  ∀ (s : State) (ws : List (Nat × Word)) (buf : List Word), AnsweredRequest s ws → buf = afterWrites (fbRequest s.cfg) ws →
    ∃ t, exec .fbProvision s = .next t ∧ t.seq = .idle ∧ t.script = [] ∧
      t.regs =
        (if successTest s.cfg (buf.getD 1 0#32) = true then
          { s.regs with status := s.resultStatus true, fb := descOf buf, fbValid := true }
        else { s.regs with status := s.errorStatus .provisionFail }) ∧
      t.mbox.inbound = [] ∧ t.mbox.outbound = [] ∧
      maskTrace (Reg.mboxStatus.addr s.cfg) t.trace =
        maskTrace (Reg.mboxStatus.addr s.cfg) (s.trace ++ provisionTrace s.cfg buf) ∧
      (∀ j < 35, t.ramWord 0#32 (bufAddr s.cfg j) = buf.getD j 0#32) ∧
      ∀ a, (∀ j < 35, ∀ k < 4, a ≠ byteAddr (bufAddr s.cfg j) k) → Memory.get t.ram a = Memory.get s.ram a

/-- When the coprocessor leaves words that keep its guarantee of 60_exceptions.md R532, the descriptor FB.PROVISION returns has `size >=
width * height * (depth div 8)` and `pitch >= width * (depth div 8)` (42_framebuffer.md R295). The guarantee is an assumption here, on
the coprocessor; the engine checks nothing. -/
def Obligations.ProvisionedDescriptorSizes : Prop :=
  ∀ (s : State) (ws : List (Nat × Word)) (buf : List Word), AnsweredRequest s ws → buf = afterWrites (fbRequest s.cfg) ws →
    successTest s.cfg (buf.getD 1 0#32) = true → fbGuarantee buf →
    ∃ t, exec .fbProvision s = .next t ∧ t.regs.status = s.resultStatus true ∧ t.regs.fbValid = true ∧
      t.regs.fb.width.toNat * t.regs.fb.height.toNat * (t.regs.fb.depth.toNat / 8) ≤ t.regs.fb.size.toNat ∧
      t.regs.fb.width.toNat * (t.regs.fb.depth.toNat / 8) ≤ t.regs.fb.pitch.toNat

/-! ## Timer -/

/-- TMR.NOW completes in every undisturbed state: it reads CHI, CLO and CHI, and CHI and CLO once more when the two CHI values
differ, and returns the last pair read, unchecked (43_timer.md R320, R326, R330). -/
def Obligations.TmrNowReturnsReads : Prop :=
  ∀ s : State, s.quiet = true → s.accepted →
    ∃ t hi lo hi2 hi' lo', exec .tmrNow s = .next t ∧ t.seq = .idle ∧
      t.trace = s.trace ++ nowTrace s.cfg hi lo hi2 hi' lo' ∧
      t.regs =
        { s.regs with
          status := s.doneStatus
          res0 := (nowValue hi lo hi2 hi' lo').extractLsb' 0 32
          res1 := (nowValue hi lo hi2 hi' lo').extractLsb' 32 32 }

/-- With a counter that moves by `rate` before each engine step (log 14) and stays below 2^64, TMR.NOW returns the counter value at
its second read, or after a carry the halves of its fourth and fifth reads; when the counter moves by less than 2^32 during the
command, the result is the counter value at its second or its last read (43_timer.md R320, R321). -/
def Obligations.TmrNowValue : Prop :=
  ∀ s : State, s.quiet = true → s.cfg.timerPresent = true → s.timer.count + 5 * s.timer.rate < 2 ^ 64 →
    ∃ t, exec .tmrNow s = .next t ∧
      (t.regs.res1.toNat * 2 ^ 32 + t.regs.res0.toNat =
        if (s.timer.count + s.timer.rate) / 2 ^ 32 = (s.timer.count + 3 * s.timer.rate) / 2 ^ 32 then
          (s.timer.count + s.timer.rate) / 2 ^ 32 * 2 ^ 32 + (s.timer.count + 2 * s.timer.rate) % 2 ^ 32
        else
          (s.timer.count + 4 * s.timer.rate) / 2 ^ 32 * 2 ^ 32 + (s.timer.count + 5 * s.timer.rate) % 2 ^ 32) ∧
      (4 * s.timer.rate < 2 ^ 32 →
        t.regs.res1.toNat * 2 ^ 32 + t.regs.res0.toNat = s.timer.count + 2 * s.timer.rate ∨
          t.regs.res1.toNat * 2 ^ 32 + t.regs.res0.toNat = s.timer.count + 5 * s.timer.rate)

/-- TMR.DELAY on a running counter completes, after the counter has moved by at least OPND (43_timer.md R322, R331). The counter
moves by `rate` before each engine step (log 14), at least 1 and less than 2^30, and stays below 2^64. -/
def Obligations.TmrDelayCompletes : Prop :=
  ∀ s : State, s.quiet = true → s.accepted → s.cfg.timerPresent = true → 0 < s.timer.rate → 4 * s.timer.rate < 2 ^ 32 →
    s.timer.count + s.opnd.toNat + 16 * s.timer.rate < 2 ^ 64 →
    ∃ t, exec .tmrDelay s = .next t ∧ t.seq = .idle ∧ t.regs = { s.regs with status := s.doneStatus } ∧
      s.timer.count + s.opnd.toNat ≤ t.timer.count

/-- A degenerate timer: without a timer, or with a counter that stands at 0, TMR.NOW returns 0 and TMR.DELAY returns after one Now(),
for every OPND (60_exceptions.md R527; 43_timer.md R323). -/
def Obligations.DegenerateTimer : Prop :=
  ∀ s : State, s.quiet = true → s.accepted → (s.cfg.timerPresent = false ∨ s.timer.count = 0 ∧ s.timer.rate = 0) →
    (∃ t, exec .tmrNow s = .next t ∧ t.seq = .idle ∧ t.trace = s.trace ++ zeroNow s.cfg ∧
      t.regs = { s.regs with status := s.doneStatus, res0 := 0#32, res1 := 0#32 }) ∧
    ∃ t, exec .tmrDelay s = .next t ∧ t.seq = .idle ∧ t.trace = s.trace ++ zeroNow s.cfg ∧
      t.regs = { s.regs with status := s.doneStatus }

/-- A counter stopped at a nonzero value below 2^64: TMR.DELAY of 0 completes after two Now() calls, and of more holds with BUSY =
1, as CTRL.SAMPLE does in the delay of its latch pulse, CLOCK and LATCH written high; while no other agent moves, the next step leaves
them holding (43_timer.md R322, R325; 44_controller.md R371; 60_exceptions.md R506). -/
def Obligations.StoppedTimer : Prop :=
  ∀ (s : State) (hi lo : Word), s.script = [] → s.accepted → s.cfg.wf = true → s.cfg.timerPresent = true → s.timer.rate = 0 →
    0 < s.timer.count → s.timer.count < 2 ^ 64 → (hi ++ lo : BitVec 64) = BitVec.ofNat 64 s.timer.count →
    (s.opnd = 0#32 →
      ∃ t, exec .tmrDelay s = .next t ∧ t.seq = .idle ∧ t.regs = { s.regs with status := s.doneStatus } ∧
        t.trace = s.trace ++ nowTrace s.cfg hi lo hi 0#32 0#32 ++ nowTrace s.cfg hi lo hi 0#32 0#32) ∧
    (s.opnd ≠ 0#32 → ∃ t, HoldsAt .tmrDelay s t ∧ t.timer = s.timer) ∧
    ∃ t, HoldsAt .ctrlSample s t ∧ t.timer = s.timer ∧
      ∀ p ≤ 53, pinLevel t.gpio.latch p =
        if p = s.cfg.pinClock ∨ p = s.cfg.pinLatch then true else pinLevel s.gpio.latch p

/-! ## Controller -/

/-- CTRL.INIT completes: LATCH and CLOCK become outputs and DATA an input, each with its pull off, by three ConfigurePin traces, each
reading what the one before wrote (44_controller.md R370). -/
def Obligations.CtrlInitCompletes : Prop :=
  ∀ (s : State) (g1 g2 g3 : Vector Word 6), s.quiet = true → s.accepted → s.cfg.wf = true →
    g1 = s.gpio.gpfsel.set (fselReg s.cfg.pinLatch).val
      (fselInsert s.gpio.gpfsel[fselReg s.cfg.pinLatch] s.cfg.pinLatch s.cfg.fselOutput) (fselReg s.cfg.pinLatch).isLt →
    g2 = g1.set (fselReg s.cfg.pinClock).val
      (fselInsert g1[fselReg s.cfg.pinClock] s.cfg.pinClock s.cfg.fselOutput) (fselReg s.cfg.pinClock).isLt →
    g3 = g2.set (fselReg s.cfg.pinData).val
      (fselInsert g2[fselReg s.cfg.pinData] s.cfg.pinData s.cfg.fselInput) (fselReg s.cfg.pinData).isLt →
    ∃ t, exec .ctrlInit s = .next t ∧ t.seq = .idle ∧ t.regs = { s.regs with status := s.doneStatus } ∧
      t.gpio.gpfsel = g3 ∧
      (t.pinFunction s.cfg.pinLatch = s.cfg.fselOutput ∧ t.pinFunction s.cfg.pinClock = s.cfg.fselOutput ∧
        t.pinFunction s.cfg.pinData = s.cfg.fselInput) ∧
      (t.gpio.pullOf s.cfg.pinLatch = .off ∧ t.gpio.pullOf s.cfg.pinClock = .off ∧ t.gpio.pullOf s.cfg.pinData = .off) ∧
      t.gpio.latch = s.gpio.latch ∧
      t.trace = s.trace ++ configureTrace s.cfg s.cfg.pinLatch s.cfg.fselOutput s.gpio.gpfsel[fselReg s.cfg.pinLatch]
        ++ configureTrace s.cfg s.cfg.pinClock s.cfg.fselOutput g1[fselReg s.cfg.pinClock]
        ++ configureTrace s.cfg s.cfg.pinData s.cfg.fselInput g2[fselReg s.cfg.pinData]

/-- CTRL.SAMPLE with the pins set up, the controller plugged in and a running counter completes with the buttons in RES0, CLOCK
high and LATCH low, after at least 204 microseconds of counter time (44_controller.md R362, R371; 60_exceptions.md R534, R535;
70_reset_and_hazards.md R630). The counter moves by `rate` before each engine step (log 14), at least 1 and less than 2^30, and
stays below 2^64; the peripheral's interval check is log 13's. -/
def Obligations.CtrlSampleReadsButtons : Prop :=
  ∀ s : State, s.quiet = true → s.accepted → s.cfg.wf = true → s.cfg.fselOutput ≠ s.cfg.fselInput →
    s.pinFunction s.cfg.pinLatch = s.cfg.fselOutput → s.pinFunction s.cfg.pinClock = s.cfg.fselOutput →
    s.pinFunction s.cfg.pinData = s.cfg.fselInput → s.ctrl.plugged = true → s.ctrl.edgeAt ≤ s.timer.count →
    s.cfg.timerPresent = true → 0 < s.timer.rate → 4 * s.timer.rate < 2 ^ 32 → s.timer.count + 204 + 1000 * s.timer.rate < 2 ^ 64 →
    ∃ t, exec .ctrlSample s = .next t ∧ t.seq = .idle ∧
      t.regs = { s.regs with status := s.doneStatus, res0 := s.ctrl.buttons.setWidth 32 } ∧
      t.gpio = { s.gpio with latch := t.gpio.latch } ∧
      (∀ p ≤ 53, pinLevel t.gpio.latch p =
        if p = s.cfg.pinClock then true else if p = s.cfg.pinLatch then false else pinLevel s.gpio.latch p) ∧
      s.timer.count + 204 ≤ t.timer.count

/-- CTRL.SAMPLE without a timer completes at bus speed with exactly the trace of 44_controller.md R373, and bit i of RES0 is the
inverse of the i-th DATA read (R362, R371; 60_exceptions.md R527). -/
def Obligations.CtrlSampleDegenerate : Prop :=
  ∀ s : State, s.quiet = true → s.accepted → s.cfg.timerPresent = false →
    ∃ (t : State) (v : List Word), exec .ctrlSample s = .next t ∧ t.seq = .idle ∧ v.length = 16 ∧
      t.trace = s.trace
        ++ [.wr ((Reg.gpset (pinBank s.cfg.pinClock)).addr s.cfg) 4 (pinBit s.cfg.pinClock),
            .wr ((Reg.gpset (pinBank s.cfg.pinLatch)).addr s.cfg) 4 (pinBit s.cfg.pinLatch)]
        ++ zeroNow s.cfg ++ [.wr ((Reg.gpclr (pinBank s.cfg.pinLatch)).addr s.cfg) 4 (pinBit s.cfg.pinLatch)]
        ++ v.flatMap (sampleBitTrace s.cfg) ∧
      t.regs = { s.regs with status := s.doneStatus, res0 := t.regs.res0 } ∧
      (∀ i < 16, t.regs.res0.bit i = !(v.getD i 0#32).bit (s.cfg.pinData % 32)) ∧ t.regs.res0.toNat < 2 ^ 16

/-! ## UART -/

/-- UART.INIT completes: both pins in their alternate function with their pulls off, the block enabled with the other enable bits
kept, the eight registers written in the order of 45_uart.md R400 (R410). -/
def Obligations.UartInitCompletes : Prop :=
  ∀ (s : State) (f : BitVec 3) (g1 g2 : Vector Word 6), s.quiet = true → s.accepted → s.cfg.wf = true →
    f = fselAlt s.cfg s.cfg.uartAltFn →
    g1 = s.gpio.gpfsel.set (fselReg s.cfg.uartTxPin).val
      (fselInsert s.gpio.gpfsel[fselReg s.cfg.uartTxPin] s.cfg.uartTxPin f) (fselReg s.cfg.uartTxPin).isLt →
    g2 = g1.set (fselReg s.cfg.uartRxPin).val
      (fselInsert g1[fselReg s.cfg.uartRxPin] s.cfg.uartRxPin f) (fselReg s.cfg.uartRxPin).isLt →
    ∃ t, exec .uartInit s = .next t ∧ t.seq = .idle ∧ t.regs = { s.regs with status := s.doneStatus } ∧
      t.gpio.gpfsel = g2 ∧
      (t.gpio.pullOf s.cfg.uartTxPin = .off ∧ t.gpio.pullOf s.cfg.uartRxPin = .off) ∧
      t.uart =
        { s.uart with
          enables := s.uart.enables ||| s.cfg.auxMuEnMask
          ier := s.cfg.ierInit
          lcr := s.cfg.lcrInit
          mcr := s.cfg.mcrInit
          cntl := s.cfg.cntlOn
          baud := s.cfg.baudDiv
          rx := if s.cfg.iirInit.bit s.cfg.iirRxBit.val then [] else s.uart.rx
          tx := if s.cfg.iirInit.bit s.cfg.iirTxBit.val then [] else s.uart.tx } ∧
      t.trace = s.trace ++ configureTrace s.cfg s.cfg.uartTxPin f s.gpio.gpfsel[fselReg s.cfg.uartTxPin]
        ++ configureTrace s.cfg s.cfg.uartRxPin f g1[fselReg s.cfg.uartRxPin]
        ++ [.rd (Reg.auxEnables.addr s.cfg) 4 s.uart.enables,
            .wr (Reg.auxEnables.addr s.cfg) 4 (s.uart.enables ||| s.cfg.auxMuEnMask),
            .wr (Reg.auxMuIer.addr s.cfg) 4 s.cfg.ierInit, .wr (Reg.auxMuCntl.addr s.cfg) 4 s.cfg.cntlOff,
            .wr (Reg.auxMuLcr.addr s.cfg) 4 s.cfg.lcrInit, .wr (Reg.auxMuMcr.addr s.cfg) 4 s.cfg.mcrInit,
            .wr (Reg.auxMuIir.addr s.cfg) 4 s.cfg.iirInit, .wr (Reg.auxMuBaud.addr s.cfg) 4 s.cfg.baudDiv,
            .wr (Reg.auxMuCntl.addr s.cfg) 4 s.cfg.cntlOn]

/-- UART.PUTC with the UART enabled and room in the transmit FIFO sends its byte and adds none (45_uart.md R402, R411). Before the
enable, where LSR reads any value, it completes or holds, and what it does to AUX_MU_IO is the model's choice (R415; logs 9 and 34).
-/
def Obligations.UartPutcCompletes : Prop :=
  ∀ (s : State) (b : Byte), s.quiet = true → s.accepted →
    (s.uartEnabled = true → s.uart.tx.length < s.cfg.uartFifoDepth →
      ∃ t, exec (.uartPutc b) s = .next t ∧ t.seq = .idle ∧ t.regs = { s.regs with status := s.doneStatus } ∧
        t.uart = { s.uart with tx := s.uart.tx ++ [b] } ∧
        maskTrace (Reg.auxMuLsr.addr s.cfg) t.trace = maskTrace (Reg.auxMuLsr.addr s.cfg) (s.trace ++ putTrace s.cfg [b])) ∧
    (s.uartEnabled = false →
      ∃ t, exec (.uartPutc b) s = .next t ∧
        (t.seq = .idle ∧ t.regs = { s.regs with status := s.doneStatus } ∧
            t.uart = { s.uart with
              tx := if s.uart.tx.length < s.cfg.uartFifoDepth then s.uart.tx ++ [b] else s.uart.tx } ∨
          (∃ todo, t.seq = .run (.uartPutc b) todo) ∧ t.regs = s.regs ∧ t.uart = s.uart))

/-- UART.GETC with the UART enabled and a received byte pops it and returns it in RES0, a CR as an LF (45_uart.md R403, R412). Before
the enable, where LSR reads any value, it completes with a byte or holds, and what it does to AUX_MU_IO is the model's choice (R415;
logs 9, 10 and 34). -/
def Obligations.UartGetcCompletes : Prop :=
  ∀ s : State, s.quiet = true → s.accepted →
    (∀ (b : Byte) (bs : List Byte), s.uartEnabled = true → s.uart.rx = b :: bs →
      ∃ (t : State) (v : Word), exec .uartGetc s = .next t ∧ t.seq = .idle ∧
        t.regs = { s.regs with status := s.doneStatus, res0 := (if b = 0x0D#8 then 0x0A#8 else b).setWidth 32 } ∧
        t.uart = { s.uart with rx := bs } ∧ v.extractLsb' 0 8 = b ∧
        maskTrace (Reg.auxMuLsr.addr s.cfg) t.trace =
          maskTrace (Reg.auxMuLsr.addr s.cfg)
            (s.trace ++ [.rd (Reg.auxMuLsr.addr s.cfg) 4 0#32, .rd (Reg.auxMuIo.addr s.cfg) 4 v])) ∧
    (s.uartEnabled = false →
      ∃ t, exec .uartGetc s = .next t ∧
        (t.seq = .idle ∧ t.regs = { s.regs with status := s.doneStatus, res0 := t.regs.res0 } ∧ t.regs.res0.toNat < 256 ∧
            t.regs.res0 ≠ 0x0D#32 ∧
            (∀ b bs, s.uart.rx = b :: bs → t.regs.res0 = (if b = 0x0D#8 then 0x0A#8 else b).setWidth 32) ∧
            t.uart = { s.uart with rx := s.uart.rx.tail } ∨
          (∃ todo, t.seq = .run .uartGetc todo) ∧ t.regs = s.regs ∧ t.uart = s.uart))

/-- UART.PUTS with the UART enabled, of a string in RAM with room for its output, sends the bytes up to the first NUL or the length,
each LF with a CR before it unless a CR stood there already and CR_SUPPRESS is set (45_uart.md R413). UartHolds says what it does
without the room. Before the enable (log 9), where LSR reads any value, it completes or holds (R415). -/
def Obligations.UartPutsCompletes : Prop :=
  ∀ (s : State) (len : BitVec 16), s.quiet = true → s.accepted → s.opnd.toNat + len.toNat ≤ 2 ^ 32 →
    (∀ str out : List Byte, s.uartEnabled = true → (∀ k < len.toNat, s.cfg.inRam (s.opnd.toNat + k) = true) →
      str = s.ramBytes s.opnd len.toNat → out = putsOutput s.cfg.crSuppress 0x00#8 str →
      s.uart.tx.length + out.length ≤ s.cfg.uartFifoDepth →
      ∃ t, exec (.uartPuts len) s = .next t ∧ t.seq = .idle ∧ t.regs = { s.regs with status := s.doneStatus } ∧
        t.uart = { s.uart with tx := s.uart.tx ++ out } ∧
        maskTrace (Reg.auxMuLsr.addr s.cfg) t.trace =
          maskTrace (Reg.auxMuLsr.addr s.cfg) (s.trace ++ putsTrace s.cfg s.opnd 0x00#8 0 str)) ∧
    (s.uartEnabled = false →
      ∃ t, exec (.uartPuts len) s = .next t ∧ t.uart = { s.uart with tx := t.uart.tx } ∧
        (t.seq = .idle ∧ t.regs = { s.regs with status := s.doneStatus } ∨
          (∃ todo, t.seq = .run (.uartPuts len) todo) ∧ t.regs = s.regs))

/-- UART.PUTHEX with the UART enabled and room for eight bytes sends the eight upper-case hex digits of OPND, most significant first;
HexDigit gives `0x30 + d` up to 9 and `0x41 + (d - 10)` from 10 on (45_uart.md R404, R414). UartHolds says what it does without the
room. Before the enable (log 9), where LSR reads any value, it completes or holds (R415). -/
def Obligations.UartPuthexCompletes : Prop :=
  (∀ s : State, s.quiet = true → s.accepted →
    (s.uartEnabled = true → s.uart.tx.length + 8 ≤ s.cfg.uartFifoDepth →
      ∃ t, exec .uartPuthex s = .next t ∧ t.seq = .idle ∧ t.regs = { s.regs with status := s.doneStatus } ∧
        t.uart = { s.uart with tx := s.uart.tx ++ hexDigits s.opnd } ∧
        maskTrace (Reg.auxMuLsr.addr s.cfg) t.trace =
          maskTrace (Reg.auxMuLsr.addr s.cfg) (s.trace ++ putTrace s.cfg (hexDigits s.opnd))) ∧
    (s.uartEnabled = false →
      ∃ t, exec .uartPuthex s = .next t ∧ t.uart = { s.uart with tx := t.uart.tx } ∧
        (t.seq = .idle ∧ t.regs = { s.regs with status := s.doneStatus } ∨
          (∃ todo, t.seq = .run .uartPuthex todo) ∧ t.regs = s.regs))) ∧
  ∀ d : BitVec 4, (d.toNat ≤ 9 → (hexDigit d).toNat = 0x30 + d.toNat) ∧
    (10 ≤ d.toNat → (hexDigit d).toNat = 0x41 + (d.toNat - 10))

/-- With the UART enabled (log 9), UART.PUTC, UART.PUTS and UART.PUTHEX hold when the transmit FIFO has no room for their output, the
bytes that fit sent, and UART.GETC at an empty receive FIFO, with BUSY = 1; while no other agent moves, the next step leaves them
holding (45_uart.md R405, R413, R414; 60_exceptions.md R506). -/
def Obligations.UartHolds : Prop :=
  ∀ s : State, s.script = [] → s.accepted → s.cfg.wf = true → s.uartEnabled = true →
    (∀ b, s.cfg.uartFifoDepth ≤ s.uart.tx.length → ∃ t, HoldsAt (.uartPutc b) s t ∧ t.uart = s.uart) ∧
    (∀ (len : BitVec 16) (out : List Byte), s.opnd.toNat + len.toNat ≤ 2 ^ 32 →
      (∀ k < len.toNat, s.cfg.inRam (s.opnd.toNat + k) = true) →
      out = putsOutput s.cfg.crSuppress 0x00#8 (s.ramBytes s.opnd len.toNat) → out ≠ [] →
      s.cfg.uartFifoDepth < s.uart.tx.length + out.length →
      ∃ t, HoldsAt (.uartPuts len) s t ∧
        t.uart = { s.uart with tx := s.uart.tx ++ out.take (s.cfg.uartFifoDepth - s.uart.tx.length) }) ∧
    (s.cfg.uartFifoDepth < s.uart.tx.length + 8 →
      ∃ t, HoldsAt .uartPuthex s t ∧
        t.uart =
          { s.uart with tx := s.uart.tx ++ (hexDigits s.opnd).take (s.cfg.uartFifoDepth - s.uart.tx.length) }) ∧
    (s.uart.rx = [] → ∃ t, HoldsAt .uartGetc s t ∧ t.uart = s.uart)

/-- A held command resumed by `step` goes on once its condition is true, and only then. The next step of any held poll makes one read
and goes on past it when the read shows the condition, and else leaves it held; and UART.PUTC after the line partner has drained a
byte, UART.GETC after it has delivered one, MBOX.SUBMIT after the coprocessor has answered, and TMR.DELAY after the counter has moved
by OPND, complete (60_exceptions.md R506; 40_mailbox.md R208; 43_timer.md R325; 45_uart.md R405). One step is one turn of the engine
(logs 1 and 20). -/
def Obligations.HeldCommandsResume : Prop :=
  (∀ (s t : State) (i : Instr) (r : Reg) (bit : Fin 32) (level : Bool) (rest : List Op), s.script = [] → s.cfg.wf = true →
    s.seq = .run i (.compute (.pollTest r bit level) :: rest) → s.loc.v.bit bit.val ≠ level →
    (∀ c more, rest ≠ .compute c :: more) → t = (s.advanceTimer s.timer.rate).readInto r →
    (t.loc.v.bit bit.val = level → step s = .next (runLoop (runBound s - 3) (t.goto i rest))) ∧
    (t.loc.v.bit bit.val ≠ level → step s = .next (t.goto i (.compute (.pollTest r bit level) :: rest)))) ∧
  (∀ (s : State) (a b : Byte) (as : List Byte), s.script = [] → s.accepted → s.cfg.wf = true → s.uartEnabled = true →
    s.uart.tx = a :: as → s.uart.tx.length = s.cfg.uartFifoDepth →
    ∃ t u v, HoldsAt (.uartPutc b) s t ∧ step { t with script := [.uartDrain] } = .next u ∧ step u = .next v ∧ v.seq = .idle ∧
      v.regs = { s.regs with status := s.doneStatus } ∧
      v.uart = { s.uart with tx := as ++ [b], sent := s.uart.sent ++ [a] }) ∧
  (∀ (s : State) (b : Byte), s.script = [] → s.accepted → s.cfg.wf = true → s.uartEnabled = true → s.uart.rx = [] →
    0 < s.cfg.uartFifoDepth →
    ∃ t u v, HoldsAt .uartGetc s t ∧ step { t with script := [.uartReceive b] } = .next u ∧ step u = .next v ∧
      v.seq = .idle ∧
      v.regs = { s.regs with status := s.doneStatus, res0 := (if b = 0x0D#8 then 0x0A#8 else b).setWidth 32 } ∧
      v.uart = s.uart) ∧
  (∀ (s : State) (ch : BitVec 4) (w code : Word), s.script = [] → s.accepted → s.cfg.wf = true →
    s.cfg.mboxFullBit ≠ s.cfg.mboxEmptyBit → w = channelWord s.cfg ch → s.mbox.inbound = [] → w ∉ s.mbox.outbound →
    s.wordInRam (bufAddr s.cfg 1) = true → code = s.ramWord 0#32 (bufAddr s.cfg 1) →
    ∃ t u v x, HoldsAt (.mboxSubmit ch) s t ∧ step { t with script := [.coPop, .coPush w] } = .next u ∧ step u = .next v ∧
      step v = .next x ∧ x.seq = .idle ∧
      x.regs = { s.regs with res0 := code, status := s.resultStatus (successTest s.cfg code) } ∧
      x.mbox.inbound = [] ∧ x.mbox.outbound = []) ∧
  ∀ s : State, s.script = [] → s.accepted → s.cfg.wf = true → s.cfg.timerPresent = true → s.timer.rate = 0 →
    0 < s.timer.count → s.opnd ≠ 0#32 → s.timer.count + s.opnd.toNat < 2 ^ 64 →
    ∃ t u v, HoldsAt .tmrDelay s t ∧ step { t with script := [.tick s.opnd.toNat] } = .next u ∧ step u = .next v ∧
      v.seq = .idle ∧ v.regs = { s.regs with status := s.doneStatus } ∧ v.timer.count = s.timer.count + s.opnd.toNat

end
end

