-- ==== Sys2Proof/Laws/State.lean ====
section
/-! SUPPORT. One lemma per field per named update of the state, so that no later proof unfolds a record update. -/

namespace Sys2Proof.Machine

variable (s : State)

/-! `record` appends to the bus trace. -/

@[simp] theorem State.record_cfg (e : BusEvent) : (s.record e).cfg = s.cfg := rfl
@[simp] theorem State.record_regs (e : BusEvent) : (s.record e).regs = s.regs := rfl
@[simp] theorem State.record_seq (e : BusEvent) : (s.record e).seq = s.seq := rfl
@[simp] theorem State.record_opnd (e : BusEvent) : (s.record e).opnd = s.opnd := rfl
@[simp] theorem State.record_loc (e : BusEvent) : (s.record e).loc = s.loc := rfl
@[simp] theorem State.record_mbox (e : BusEvent) : (s.record e).mbox = s.mbox := rfl
@[simp] theorem State.record_gpio (e : BusEvent) : (s.record e).gpio = s.gpio := rfl
@[simp] theorem State.record_uart (e : BusEvent) : (s.record e).uart = s.uart := rfl
@[simp] theorem State.record_timer (e : BusEvent) : (s.record e).timer = s.timer := rfl
@[simp] theorem State.record_ctrl (e : BusEvent) : (s.record e).ctrl = s.ctrl := rfl
@[simp] theorem State.record_ram (e : BusEvent) : (s.record e).ram = s.ram := rfl
@[simp] theorem State.record_cycles (e : BusEvent) : (s.record e).cycles = s.cycles := rfl
@[simp] theorem State.record_obs (e : BusEvent) : (s.record e).obs = s.obs := rfl
@[simp] theorem State.record_script (e : BusEvent) : (s.record e).script = s.script := rfl
@[simp] theorem State.record_noise (e : BusEvent) : (s.record e).noise = s.noise := rfl
@[simp] theorem State.record_freeIdx (e : BusEvent) : (s.record e).freeIdx = s.freeIdx := rfl
@[simp] theorem State.record_trace (e : BusEvent) : (s.record e).trace = s.trace ++ [e] := rfl

/-! `goto` sets SEQ. -/

@[simp] theorem State.goto_cfg (i : Instr) (todo : List Op) : (s.goto i todo).cfg = s.cfg := rfl
@[simp] theorem State.goto_regs (i : Instr) (todo : List Op) : (s.goto i todo).regs = s.regs := rfl
@[simp] theorem State.goto_opnd (i : Instr) (todo : List Op) : (s.goto i todo).opnd = s.opnd := rfl
@[simp] theorem State.goto_loc (i : Instr) (todo : List Op) : (s.goto i todo).loc = s.loc := rfl
@[simp] theorem State.goto_mbox (i : Instr) (todo : List Op) : (s.goto i todo).mbox = s.mbox := rfl
@[simp] theorem State.goto_gpio (i : Instr) (todo : List Op) : (s.goto i todo).gpio = s.gpio := rfl
@[simp] theorem State.goto_uart (i : Instr) (todo : List Op) : (s.goto i todo).uart = s.uart := rfl
@[simp] theorem State.goto_timer (i : Instr) (todo : List Op) : (s.goto i todo).timer = s.timer := rfl
@[simp] theorem State.goto_ctrl (i : Instr) (todo : List Op) : (s.goto i todo).ctrl = s.ctrl := rfl
@[simp] theorem State.goto_ram (i : Instr) (todo : List Op) : (s.goto i todo).ram = s.ram := rfl
@[simp] theorem State.goto_cycles (i : Instr) (todo : List Op) : (s.goto i todo).cycles = s.cycles := rfl
@[simp] theorem State.goto_trace (i : Instr) (todo : List Op) : (s.goto i todo).trace = s.trace := rfl
@[simp] theorem State.goto_obs (i : Instr) (todo : List Op) : (s.goto i todo).obs = s.obs := rfl
@[simp] theorem State.goto_script (i : Instr) (todo : List Op) : (s.goto i todo).script = s.script := rfl
@[simp] theorem State.goto_noise (i : Instr) (todo : List Op) : (s.goto i todo).noise = s.noise := rfl
@[simp] theorem State.goto_freeIdx (i : Instr) (todo : List Op) : (s.goto i todo).freeIdx = s.freeIdx := rfl
@[simp] theorem State.goto_seq (i : Instr) (todo : List Op) : (s.goto i todo).seq = .run i todo := rfl

/-! `withLoc` sets the hidden values. -/

@[simp] theorem State.withLoc_cfg (l : Locals) : (s.withLoc l).cfg = s.cfg := rfl
@[simp] theorem State.withLoc_regs (l : Locals) : (s.withLoc l).regs = s.regs := rfl
@[simp] theorem State.withLoc_seq (l : Locals) : (s.withLoc l).seq = s.seq := rfl
@[simp] theorem State.withLoc_opnd (l : Locals) : (s.withLoc l).opnd = s.opnd := rfl
@[simp] theorem State.withLoc_mbox (l : Locals) : (s.withLoc l).mbox = s.mbox := rfl
@[simp] theorem State.withLoc_gpio (l : Locals) : (s.withLoc l).gpio = s.gpio := rfl
@[simp] theorem State.withLoc_uart (l : Locals) : (s.withLoc l).uart = s.uart := rfl
@[simp] theorem State.withLoc_timer (l : Locals) : (s.withLoc l).timer = s.timer := rfl
@[simp] theorem State.withLoc_ctrl (l : Locals) : (s.withLoc l).ctrl = s.ctrl := rfl
@[simp] theorem State.withLoc_ram (l : Locals) : (s.withLoc l).ram = s.ram := rfl
@[simp] theorem State.withLoc_cycles (l : Locals) : (s.withLoc l).cycles = s.cycles := rfl
@[simp] theorem State.withLoc_trace (l : Locals) : (s.withLoc l).trace = s.trace := rfl
@[simp] theorem State.withLoc_obs (l : Locals) : (s.withLoc l).obs = s.obs := rfl
@[simp] theorem State.withLoc_script (l : Locals) : (s.withLoc l).script = s.script := rfl
@[simp] theorem State.withLoc_noise (l : Locals) : (s.withLoc l).noise = s.noise := rfl
@[simp] theorem State.withLoc_freeIdx (l : Locals) : (s.withLoc l).freeIdx = s.freeIdx := rfl
@[simp] theorem State.withLoc_loc (l : Locals) : (s.withLoc l).loc = l := rfl

/-! `watchLines` lets the controller peripheral see the pads. -/

@[simp] theorem State.watchLines_cfg : (s.watchLines).cfg = s.cfg := rfl
@[simp] theorem State.watchLines_regs : (s.watchLines).regs = s.regs := rfl
@[simp] theorem State.watchLines_seq : (s.watchLines).seq = s.seq := rfl
@[simp] theorem State.watchLines_opnd : (s.watchLines).opnd = s.opnd := rfl
@[simp] theorem State.watchLines_loc : (s.watchLines).loc = s.loc := rfl
@[simp] theorem State.watchLines_mbox : (s.watchLines).mbox = s.mbox := rfl
@[simp] theorem State.watchLines_gpio : (s.watchLines).gpio = s.gpio := rfl
@[simp] theorem State.watchLines_uart : (s.watchLines).uart = s.uart := rfl
@[simp] theorem State.watchLines_timer : (s.watchLines).timer = s.timer := rfl
@[simp] theorem State.watchLines_ram : (s.watchLines).ram = s.ram := rfl
@[simp] theorem State.watchLines_cycles : (s.watchLines).cycles = s.cycles := rfl
@[simp] theorem State.watchLines_trace : (s.watchLines).trace = s.trace := rfl
@[simp] theorem State.watchLines_obs : (s.watchLines).obs = s.obs := rfl
@[simp] theorem State.watchLines_script : (s.watchLines).script = s.script := rfl
@[simp] theorem State.watchLines_noise : (s.watchLines).noise = s.noise := rfl
@[simp] theorem State.watchLines_freeIdx : (s.watchLines).freeIdx = s.freeIdx := rfl

/-! `useFree` draws a free value. -/

@[simp] theorem State.useFree_cfg : (s.useFree).cfg = s.cfg := by
  unfold State.useFree; split <;> rfl
@[simp] theorem State.useFree_regs : (s.useFree).regs = s.regs := by
  unfold State.useFree; split <;> rfl
@[simp] theorem State.useFree_seq : (s.useFree).seq = s.seq := by
  unfold State.useFree; split <;> rfl
@[simp] theorem State.useFree_opnd : (s.useFree).opnd = s.opnd := by
  unfold State.useFree; split <;> rfl
@[simp] theorem State.useFree_loc : (s.useFree).loc = s.loc := by
  unfold State.useFree; split <;> rfl
@[simp] theorem State.useFree_mbox : (s.useFree).mbox = s.mbox := by
  unfold State.useFree; split <;> rfl
@[simp] theorem State.useFree_gpio : (s.useFree).gpio = s.gpio := by
  unfold State.useFree; split <;> rfl
@[simp] theorem State.useFree_uart : (s.useFree).uart = s.uart := by
  unfold State.useFree; split <;> rfl
@[simp] theorem State.useFree_timer : (s.useFree).timer = s.timer := by
  unfold State.useFree; split <;> rfl
@[simp] theorem State.useFree_ctrl : (s.useFree).ctrl = s.ctrl := by
  unfold State.useFree; split <;> rfl
@[simp] theorem State.useFree_ram : (s.useFree).ram = s.ram := by
  unfold State.useFree; split <;> rfl
@[simp] theorem State.useFree_cycles : (s.useFree).cycles = s.cycles := by
  unfold State.useFree; split <;> rfl
@[simp] theorem State.useFree_trace : (s.useFree).trace = s.trace := by
  unfold State.useFree; split <;> rfl
@[simp] theorem State.useFree_obs : (s.useFree).obs = s.obs := by
  unfold State.useFree; split <;> rfl
@[simp] theorem State.useFree_script : (s.useFree).script = s.script := by
  unfold State.useFree; split <;> rfl

/-! `advanceTimer` moves the counter. -/

@[simp] theorem State.advanceTimer_cfg (n : Nat) : (s.advanceTimer n).cfg = s.cfg := by
  unfold State.advanceTimer; split <;> rfl
@[simp] theorem State.advanceTimer_regs (n : Nat) : (s.advanceTimer n).regs = s.regs := by
  unfold State.advanceTimer; split <;> rfl
@[simp] theorem State.advanceTimer_seq (n : Nat) : (s.advanceTimer n).seq = s.seq := by
  unfold State.advanceTimer; split <;> rfl
@[simp] theorem State.advanceTimer_opnd (n : Nat) : (s.advanceTimer n).opnd = s.opnd := by
  unfold State.advanceTimer; split <;> rfl
@[simp] theorem State.advanceTimer_loc (n : Nat) : (s.advanceTimer n).loc = s.loc := by
  unfold State.advanceTimer; split <;> rfl
@[simp] theorem State.advanceTimer_mbox (n : Nat) : (s.advanceTimer n).mbox = s.mbox := by
  unfold State.advanceTimer; split <;> rfl
@[simp] theorem State.advanceTimer_gpio (n : Nat) : (s.advanceTimer n).gpio = s.gpio := by
  unfold State.advanceTimer; split <;> rfl
@[simp] theorem State.advanceTimer_uart (n : Nat) : (s.advanceTimer n).uart = s.uart := by
  unfold State.advanceTimer; split <;> rfl
@[simp] theorem State.advanceTimer_ctrl (n : Nat) : (s.advanceTimer n).ctrl = s.ctrl := by
  unfold State.advanceTimer; split <;> rfl
@[simp] theorem State.advanceTimer_ram (n : Nat) : (s.advanceTimer n).ram = s.ram := by
  unfold State.advanceTimer; split <;> rfl
@[simp] theorem State.advanceTimer_cycles (n : Nat) : (s.advanceTimer n).cycles = s.cycles := by
  unfold State.advanceTimer; split <;> rfl
@[simp] theorem State.advanceTimer_trace (n : Nat) : (s.advanceTimer n).trace = s.trace := by
  unfold State.advanceTimer; split <;> rfl
@[simp] theorem State.advanceTimer_obs (n : Nat) : (s.advanceTimer n).obs = s.obs := by
  unfold State.advanceTimer; split <;> rfl
@[simp] theorem State.advanceTimer_script (n : Nat) : (s.advanceTimer n).script = s.script := by
  unfold State.advanceTimer; split <;> rfl
@[simp] theorem State.advanceTimer_noise (n : Nat) : (s.advanceTimer n).noise = s.noise := by
  unfold State.advanceTimer; split <;> rfl
@[simp] theorem State.advanceTimer_freeIdx (n : Nat) : (s.advanceTimer n).freeIdx = s.freeIdx := by
  unfold State.advanceTimer; split <;> rfl

/-! `ramSet` and `ramSetWord` write RAM. -/

@[simp] theorem State.ramSet_cfg (a : Word) (k : Nat) (v : Byte) : (s.ramSet a k v).cfg = s.cfg := by
  unfold State.ramSet; split <;> rfl
@[simp] theorem State.ramSet_regs (a : Word) (k : Nat) (v : Byte) : (s.ramSet a k v).regs = s.regs := by
  unfold State.ramSet; split <;> rfl
@[simp] theorem State.ramSet_seq (a : Word) (k : Nat) (v : Byte) : (s.ramSet a k v).seq = s.seq := by
  unfold State.ramSet; split <;> rfl
@[simp] theorem State.ramSet_opnd (a : Word) (k : Nat) (v : Byte) : (s.ramSet a k v).opnd = s.opnd := by
  unfold State.ramSet; split <;> rfl
@[simp] theorem State.ramSet_loc (a : Word) (k : Nat) (v : Byte) : (s.ramSet a k v).loc = s.loc := by
  unfold State.ramSet; split <;> rfl
@[simp] theorem State.ramSet_mbox (a : Word) (k : Nat) (v : Byte) : (s.ramSet a k v).mbox = s.mbox := by
  unfold State.ramSet; split <;> rfl
@[simp] theorem State.ramSet_gpio (a : Word) (k : Nat) (v : Byte) : (s.ramSet a k v).gpio = s.gpio := by
  unfold State.ramSet; split <;> rfl
@[simp] theorem State.ramSet_uart (a : Word) (k : Nat) (v : Byte) : (s.ramSet a k v).uart = s.uart := by
  unfold State.ramSet; split <;> rfl
@[simp] theorem State.ramSet_timer (a : Word) (k : Nat) (v : Byte) : (s.ramSet a k v).timer = s.timer := by
  unfold State.ramSet; split <;> rfl
@[simp] theorem State.ramSet_ctrl (a : Word) (k : Nat) (v : Byte) : (s.ramSet a k v).ctrl = s.ctrl := by
  unfold State.ramSet; split <;> rfl
@[simp] theorem State.ramSet_cycles (a : Word) (k : Nat) (v : Byte) : (s.ramSet a k v).cycles = s.cycles := by
  unfold State.ramSet; split <;> rfl
@[simp] theorem State.ramSet_trace (a : Word) (k : Nat) (v : Byte) : (s.ramSet a k v).trace = s.trace := by
  unfold State.ramSet; split <;> rfl
@[simp] theorem State.ramSet_obs (a : Word) (k : Nat) (v : Byte) : (s.ramSet a k v).obs = s.obs := by
  unfold State.ramSet; split <;> rfl
@[simp] theorem State.ramSet_script (a : Word) (k : Nat) (v : Byte) : (s.ramSet a k v).script = s.script := by
  unfold State.ramSet; split <;> rfl
@[simp] theorem State.ramSet_noise (a : Word) (k : Nat) (v : Byte) : (s.ramSet a k v).noise = s.noise := by
  unfold State.ramSet; split <;> rfl
@[simp] theorem State.ramSet_freeIdx (a : Word) (k : Nat) (v : Byte) : (s.ramSet a k v).freeIdx = s.freeIdx := by
  unfold State.ramSet; split <;> rfl

@[simp] theorem State.ramSetWord_cfg (a v : Word) : (s.ramSetWord a v).cfg = s.cfg := by
  simp [State.ramSetWord]
@[simp] theorem State.ramSetWord_regs (a v : Word) : (s.ramSetWord a v).regs = s.regs := by
  simp [State.ramSetWord]
@[simp] theorem State.ramSetWord_seq (a v : Word) : (s.ramSetWord a v).seq = s.seq := by
  simp [State.ramSetWord]
@[simp] theorem State.ramSetWord_opnd (a v : Word) : (s.ramSetWord a v).opnd = s.opnd := by
  simp [State.ramSetWord]
@[simp] theorem State.ramSetWord_loc (a v : Word) : (s.ramSetWord a v).loc = s.loc := by
  simp [State.ramSetWord]
@[simp] theorem State.ramSetWord_mbox (a v : Word) : (s.ramSetWord a v).mbox = s.mbox := by
  simp [State.ramSetWord]
@[simp] theorem State.ramSetWord_gpio (a v : Word) : (s.ramSetWord a v).gpio = s.gpio := by
  simp [State.ramSetWord]
@[simp] theorem State.ramSetWord_uart (a v : Word) : (s.ramSetWord a v).uart = s.uart := by
  simp [State.ramSetWord]
@[simp] theorem State.ramSetWord_timer (a v : Word) : (s.ramSetWord a v).timer = s.timer := by
  simp [State.ramSetWord]
@[simp] theorem State.ramSetWord_ctrl (a v : Word) : (s.ramSetWord a v).ctrl = s.ctrl := by
  simp [State.ramSetWord]
@[simp] theorem State.ramSetWord_cycles (a v : Word) : (s.ramSetWord a v).cycles = s.cycles := by
  simp [State.ramSetWord]
@[simp] theorem State.ramSetWord_trace (a v : Word) : (s.ramSetWord a v).trace = s.trace := by
  simp [State.ramSetWord]
@[simp] theorem State.ramSetWord_obs (a v : Word) : (s.ramSetWord a v).obs = s.obs := by
  simp [State.ramSetWord]
@[simp] theorem State.ramSetWord_script (a v : Word) : (s.ramSetWord a v).script = s.script := by
  simp [State.ramSetWord]
@[simp] theorem State.ramSetWord_noise (a v : Word) : (s.ramSetWord a v).noise = s.noise := by
  simp [State.ramSetWord]
@[simp] theorem State.ramSetWord_freeIdx (a v : Word) : (s.ramSetWord a v).freeIdx = s.freeIdx := by
  simp [State.ramSetWord]

/-! `raiseError`, the error completion. -/

@[simp] theorem State.raiseError_cfg (e : ErrCode) : (s.raiseError e).cfg = s.cfg := rfl
@[simp] theorem State.raiseError_opnd (e : ErrCode) : (s.raiseError e).opnd = s.opnd := rfl
@[simp] theorem State.raiseError_loc (e : ErrCode) : (s.raiseError e).loc = s.loc := rfl
@[simp] theorem State.raiseError_mbox (e : ErrCode) : (s.raiseError e).mbox = s.mbox := rfl
@[simp] theorem State.raiseError_gpio (e : ErrCode) : (s.raiseError e).gpio = s.gpio := rfl
@[simp] theorem State.raiseError_uart (e : ErrCode) : (s.raiseError e).uart = s.uart := rfl
@[simp] theorem State.raiseError_timer (e : ErrCode) : (s.raiseError e).timer = s.timer := rfl
@[simp] theorem State.raiseError_ctrl (e : ErrCode) : (s.raiseError e).ctrl = s.ctrl := rfl
@[simp] theorem State.raiseError_ram (e : ErrCode) : (s.raiseError e).ram = s.ram := rfl
@[simp] theorem State.raiseError_cycles (e : ErrCode) : (s.raiseError e).cycles = s.cycles := rfl
@[simp] theorem State.raiseError_trace (e : ErrCode) : (s.raiseError e).trace = s.trace := rfl
@[simp] theorem State.raiseError_obs (e : ErrCode) : (s.raiseError e).obs = s.obs := rfl
@[simp] theorem State.raiseError_script (e : ErrCode) : (s.raiseError e).script = s.script := rfl
@[simp] theorem State.raiseError_noise (e : ErrCode) : (s.raiseError e).noise = s.noise := rfl
@[simp] theorem State.raiseError_freeIdx (e : ErrCode) : (s.raiseError e).freeIdx = s.freeIdx := rfl
@[simp] theorem State.raiseError_seq (e : ErrCode) : (s.raiseError e).seq = .idle := rfl
@[simp] theorem State.raiseError_regs (e : ErrCode) : (s.raiseError e).regs = { s.regs with status := s.regs.status.failed e } := rfl

/-! `complete`, the completion step. -/

@[simp] theorem State.complete_cfg (f : Finish) : (s.complete f).cfg = s.cfg := by
  cases f <;> rfl
@[simp] theorem State.complete_opnd (f : Finish) : (s.complete f).opnd = s.opnd := by
  cases f <;> rfl
@[simp] theorem State.complete_loc (f : Finish) : (s.complete f).loc = s.loc := by
  cases f <;> rfl
@[simp] theorem State.complete_mbox (f : Finish) : (s.complete f).mbox = s.mbox := by
  cases f <;> rfl
@[simp] theorem State.complete_gpio (f : Finish) : (s.complete f).gpio = s.gpio := by
  cases f <;> rfl
@[simp] theorem State.complete_uart (f : Finish) : (s.complete f).uart = s.uart := by
  cases f <;> rfl
@[simp] theorem State.complete_timer (f : Finish) : (s.complete f).timer = s.timer := by
  cases f <;> rfl
@[simp] theorem State.complete_ctrl (f : Finish) : (s.complete f).ctrl = s.ctrl := by
  cases f <;> rfl
@[simp] theorem State.complete_ram (f : Finish) : (s.complete f).ram = s.ram := by
  cases f <;> rfl
@[simp] theorem State.complete_cycles (f : Finish) : (s.complete f).cycles = s.cycles := by
  cases f <;> rfl
@[simp] theorem State.complete_trace (f : Finish) : (s.complete f).trace = s.trace := by
  cases f <;> rfl
@[simp] theorem State.complete_obs (f : Finish) : (s.complete f).obs = s.obs := by
  cases f <;> rfl
@[simp] theorem State.complete_script (f : Finish) : (s.complete f).script = s.script := by
  cases f <;> rfl
@[simp] theorem State.complete_noise (f : Finish) : (s.complete f).noise = s.noise := by
  cases f <;> rfl
@[simp] theorem State.complete_freeIdx (f : Finish) : (s.complete f).freeIdx = s.freeIdx := by
  cases f <;> rfl
@[simp] theorem State.complete_seq (f : Finish) : (s.complete f).seq = .idle := by
  cases f <;> rfl

/-! `accept`, the acceptance of a CMD write. -/

@[simp] theorem State.accept_cfg (w : Word) : (s.accept w).cfg = s.cfg := by
  unfold State.accept; split <;> rfl
@[simp] theorem State.accept_loc (w : Word) : (s.accept w).loc = s.loc := by
  unfold State.accept; split <;> rfl
@[simp] theorem State.accept_mbox (w : Word) : (s.accept w).mbox = s.mbox := by
  unfold State.accept; split <;> rfl
@[simp] theorem State.accept_gpio (w : Word) : (s.accept w).gpio = s.gpio := by
  unfold State.accept; split <;> rfl
@[simp] theorem State.accept_uart (w : Word) : (s.accept w).uart = s.uart := by
  unfold State.accept; split <;> rfl
@[simp] theorem State.accept_timer (w : Word) : (s.accept w).timer = s.timer := by
  unfold State.accept; split <;> rfl
@[simp] theorem State.accept_ctrl (w : Word) : (s.accept w).ctrl = s.ctrl := by
  unfold State.accept; split <;> rfl
@[simp] theorem State.accept_ram (w : Word) : (s.accept w).ram = s.ram := by
  unfold State.accept; split <;> rfl
@[simp] theorem State.accept_cycles (w : Word) : (s.accept w).cycles = s.cycles := by
  unfold State.accept; split <;> rfl
@[simp] theorem State.accept_trace (w : Word) : (s.accept w).trace = s.trace := by
  unfold State.accept; split <;> rfl
@[simp] theorem State.accept_obs (w : Word) : (s.accept w).obs = s.obs := by
  unfold State.accept; split <;> rfl
@[simp] theorem State.accept_script (w : Word) : (s.accept w).script = s.script := by
  unfold State.accept; split <;> rfl
@[simp] theorem State.accept_noise (w : Word) : (s.accept w).noise = s.noise := by
  unfold State.accept; split <;> rfl
@[simp] theorem State.accept_freeIdx (w : Word) : (s.accept w).freeIdx = s.freeIdx := by
  unfold State.accept; split <;> rfl

/-! `engineReset` resets the engine. -/

@[simp] theorem State.engineReset_cfg : (s.engineReset).cfg = s.cfg := rfl
@[simp] theorem State.engineReset_mbox : (s.engineReset).mbox = s.mbox := rfl
@[simp] theorem State.engineReset_gpio : (s.engineReset).gpio = s.gpio := rfl
@[simp] theorem State.engineReset_uart : (s.engineReset).uart = s.uart := rfl
@[simp] theorem State.engineReset_timer : (s.engineReset).timer = s.timer := rfl
@[simp] theorem State.engineReset_ctrl : (s.engineReset).ctrl = s.ctrl := rfl
@[simp] theorem State.engineReset_ram : (s.engineReset).ram = s.ram := rfl
@[simp] theorem State.engineReset_cycles : (s.engineReset).cycles = s.cycles := rfl
@[simp] theorem State.engineReset_trace : (s.engineReset).trace = s.trace := rfl
@[simp] theorem State.engineReset_obs : (s.engineReset).obs = s.obs := rfl
@[simp] theorem State.engineReset_script : (s.engineReset).script = s.script := rfl
@[simp] theorem State.engineReset_noise : (s.engineReset).noise = s.noise := rfl
@[simp] theorem State.engineReset_freeIdx : (s.engineReset).freeIdx = s.freeIdx := rfl
@[simp] theorem State.engineReset_seq : (s.engineReset).seq = .idle := rfl
@[simp] theorem State.engineReset_regs : (s.engineReset).regs = {} := rfl
@[simp] theorem State.engineReset_opnd : (s.engineReset).opnd = 0#32 := rfl
@[simp] theorem State.engineReset_loc : (s.engineReset).loc = {} := rfl

end Sys2Proof.Machine
end

