-- ==== Sys2Proof/Laws/Memory.lean ====
section
/-! SUPPORT. Laws of RAM: the canonical form is kept, a read after a write, words and bytes (20_memory.md R104, R105). -/

namespace Sys2Proof.Machine

/-! ## One byte -/

theorem Memory.rising_cons (c : Host.Cell) (m : Memory) :
    Memory.rising (c :: m) = true ↔ (∀ d ∈ m, c.1 < d.1) ∧ Memory.rising m = true := by
  induction m generalizing c with
  | nil => simp [Memory.rising]
  | cons d m ih =>
    simp only [Memory.rising, Bool.and_eq_true, decide_eq_true_eq, List.mem_cons, forall_eq_or_imp]
    constructor
    · rintro ⟨hcd, hr⟩
      exact ⟨⟨hcd, fun e he => lt_trans hcd ((ih d).1 hr |>.1 e he)⟩, hr⟩
    · rintro ⟨⟨hcd, -⟩, hr⟩
      exact ⟨hcd, hr⟩

theorem Memory.get_of_lt (m : Memory) (a : Nat) (h : ∀ d ∈ m, a < d.1) : Memory.get m a = Memory.blank := by
  induction m with
  | nil => rfl
  | cons c m ih =>
    have hc := h c (by simp)
    simp only [Memory.get]
    rw [if_neg (by omega), ih fun d hd => h d (by simp [hd])]

/-- A write leaves every other address alone, whatever the memory. -/
theorem Memory.get_set_ne (m : Memory) (a b : Nat) (v : Byte) (h : b ≠ a) :
    Memory.get (Memory.set m a v) b = Memory.get m b := by
  induction m with
  | nil => by_cases hv : v = Memory.blank <;> simp [Memory.set, Memory.get, hv, Ne.symm h]
  | cons c m ih =>
    obtain ⟨k, w⟩ := c
    simp only [Memory.set]
    split
    · split
      · rfl
      · simp [Memory.get, Ne.symm h]
    · split
      · subst_vars
        split <;> simp [Memory.get, Ne.symm h]
      · simp only [Memory.get, ih]

/-- A read after a write to the same address gives the value written. -/
theorem Memory.get_set_same (m : Memory) (a : Nat) (v : Byte) (h : Memory.rising m = true) :
    Memory.get (Memory.set m a v) a = v := by
  induction m with
  | nil => by_cases hv : v = Memory.blank <;> simp [Memory.set, Memory.get, hv]
  | cons c m ih =>
    obtain ⟨k, w⟩ := c
    obtain ⟨hlt, hr⟩ := (Memory.rising_cons _ _).1 h
    simp only [Memory.set]
    split
    · rename_i hk
      split
      · rename_i hv
        rw [hv]
        exact Memory.get_of_lt _ _ fun d hd => by
          rcases List.mem_cons.1 hd with rfl | hd
          · exact hk
          · exact lt_trans hk (hlt d hd)
      · simp [Memory.get]
    · split
      · subst_vars
        split
        · rename_i hv
          rw [hv]
          exact Memory.get_of_lt _ _ hlt
        · simp [Memory.get]
      · rename_i h1 h2
        simp only [Memory.get, if_neg (Ne.symm h2), ih hr]

theorem Memory.mem_set (m : Memory) (a : Nat) (v : Byte) (c : Host.Cell) (h : c ∈ Memory.set m a v) :
    c ∈ m ∨ (c = (a, v) ∧ v ≠ Memory.blank) := by
  induction m with
  | nil =>
    simp only [Memory.set] at h
    split at h
    · simp at h
    · rename_i hv
      simp only [List.mem_singleton] at h
      exact .inr ⟨h, hv⟩
  | cons d m ih =>
    obtain ⟨k, w⟩ := d
    simp only [Memory.set] at h
    split at h
    · split at h
      · exact .inl h
      · rcases List.mem_cons.1 h with rfl | h
        · exact .inr ⟨rfl, by assumption⟩
        · exact .inl h
    · split at h
      · split at h
        · exact .inl (List.mem_cons_of_mem _ h)
        · rcases List.mem_cons.1 h with rfl | h
          · exact .inr ⟨rfl, by assumption⟩
          · exact .inl (List.mem_cons_of_mem _ h)
      · rcases List.mem_cons.1 h with rfl | h
        · exact .inl (by simp)
        · rcases ih h with h | h
          · exact .inl (List.mem_cons_of_mem _ h)
          · exact .inr h

theorem Memory.rising_set (m : Memory) (a : Nat) (v : Byte) (h : Memory.rising m = true) :
    Memory.rising (Memory.set m a v) = true := by
  induction m with
  | nil => by_cases hv : v = Memory.blank <;> simp [Memory.set, Memory.rising, hv]
  | cons c m ih =>
    obtain ⟨k, w⟩ := c
    obtain ⟨hlt, hr⟩ := (Memory.rising_cons _ _).1 h
    simp only [Memory.set]
    split
    · rename_i hk
      split
      · exact h
      · exact (Memory.rising_cons _ _).2 ⟨fun d hd => by
          rcases List.mem_cons.1 hd with rfl | hd
          · exact hk
          · exact lt_trans hk (hlt d hd), h⟩
    · split
      · subst_vars
        split
        · exact hr
        · exact (Memory.rising_cons _ _).2 ⟨hlt, hr⟩
      · rename_i h1 h2
        refine (Memory.rising_cons _ _).2 ⟨fun d hd => ?_, ih hr⟩
        rcases Memory.mem_set m a v d hd with hd | ⟨rfl, -⟩
        · exact hlt d hd
        · exact lt_of_le_of_ne (not_lt.1 h1) (Ne.symm h2)

/-- Every write keeps the canonical form. -/
theorem Memory.wf_set (m : Memory) (a : Nat) (v : Byte) (ha : a < 2 ^ 32) (h : Memory.wf m = true) :
    Memory.wf (Memory.set m a v) = true := by
  simp only [Memory.wf, Bool.and_eq_true, List.all_eq_true, decide_eq_true_eq] at h ⊢
  refine ⟨Memory.rising_set m a v h.1, fun c hc => ?_⟩
  rcases Memory.mem_set m a v c hc with hc | ⟨rfl, hv⟩
  · exact h.2 c hc
  · exact ⟨ha, hv⟩

theorem Memory.wf_rising {m : Memory} (h : Memory.wf m = true) : Memory.rising m = true := by
  simp only [Memory.wf, Bool.and_eq_true] at h
  exact h.1

theorem Memory.wf_ofCells (m : Memory) : Memory.wf (Memory.ofCells m) = true := by
  induction m with
  | nil => rfl
  | cons c m ih =>
    simp only [Memory.ofCells, List.foldr_cons]
    split
    · exact Memory.wf_set _ _ _ ‹_› ih
    · exact ih

theorem Memory.set_of_lt (m : Memory) (c : Host.Cell) (hv : c.2 ≠ Memory.blank) (h : ∀ d ∈ m, c.1 < d.1) :
    Memory.set m c.1 c.2 = c :: m := by
  cases m with
  | nil => simp [Memory.set, hv]
  | cons d m => simp [Memory.set, hv, h d (by simp)]

/-- A memory in canonical form is its own canonical memory. -/
theorem Memory.ofCells_of_wf (m : Memory) (h : Memory.wf m = true) : Memory.ofCells m = m := by
  induction m with
  | nil => rfl
  | cons c m ih =>
    simp only [Memory.wf, Bool.and_eq_true, List.all_eq_true, decide_eq_true_eq, Memory.rising_cons, List.mem_cons,
      forall_eq_or_imp] at h ih
    have hm : Memory.ofCells m = m := ih ⟨h.1.2, h.2.2⟩
    rw [Memory.ofCells, List.foldr_cons, if_pos h.2.1.1]
    exact (congrArg (Memory.set · c.1 c.2) hm).trans (Memory.set_of_lt m c h.2.1.2 h.1.1)

theorem byteAddr_lt (a : Word) (k : Nat) : byteAddr a k < 2 ^ 32 := (a + BitVec.ofNat 32 k).isLt

theorem State.ramSet_wf (s : State) (a : Word) (k : Nat) (v : Byte) (h : Memory.wf s.ram = true) :
    Memory.wf (s.ramSet a k v).ram = true := by
  unfold State.ramSet
  split
  · exact Memory.wf_set _ _ _ (byteAddr_lt a k) h
  · exact h

theorem State.ramSetWord_wf (s : State) (a v : Word) (h : Memory.wf s.ram = true) :
    Memory.wf (s.ramSetWord a v).ram = true :=
  State.ramSet_wf _ _ _ _ (State.ramSet_wf _ _ _ _ (State.ramSet_wf _ _ _ _ (State.ramSet_wf _ _ _ _ h)))

/-! ## Words -/

theorem State.get_ramSet_ne (s : State) (a : Word) (k : Nat) (v : Byte) (b : Nat) (h : b ≠ byteAddr a k) :
    Memory.get (s.ramSet a k v).ram b = Memory.get s.ram b := by
  unfold State.ramSet
  split
  · exact Memory.get_set_ne _ _ _ _ h
  · rfl

/-- A word write leaves every byte outside its four addresses alone. -/
theorem State.get_ramSetWord_ne (s : State) (a v : Word) (b : Nat) (h : ∀ k < 4, b ≠ byteAddr a k) :
    Memory.get (s.ramSetWord a v).ram b = Memory.get s.ram b := by
  unfold State.ramSetWord
  rw [State.get_ramSet_ne _ _ _ _ _ (h 3 (by omega)), State.get_ramSet_ne _ _ _ _ _ (h 2 (by omega)),
    State.get_ramSet_ne _ _ _ _ _ (h 1 (by omega)), State.get_ramSet_ne _ _ _ _ _ (h 0 (by omega))]

theorem State.get_ramSet_same (s : State) (a : Word) (k : Nat) (v : Byte) (hr : Memory.rising s.ram = true)
    (hin : s.cfg.inRam (byteAddr a k) = true) : Memory.get (s.ramSet a k v).ram (byteAddr a k) = v := by
  unfold State.ramSet
  rw [if_pos hin]
  exact Memory.get_set_same _ _ _ hr

theorem State.ramSet_rising (s : State) (a : Word) (k : Nat) (v : Byte) (h : Memory.rising s.ram = true) :
    Memory.rising (s.ramSet a k v).ram = true := by
  unfold State.ramSet
  split
  · exact Memory.rising_set _ _ _ h
  · exact h

theorem State.ramSetWord_rising (s : State) (a v : Word) (h : Memory.rising s.ram = true) :
    Memory.rising (s.ramSetWord a v).ram = true :=
  State.ramSet_rising _ _ _ _ (State.ramSet_rising _ _ _ _ (State.ramSet_rising _ _ _ _ (State.ramSet_rising _ _ _ _ h)))

theorem byteAddr_inj (a : Word) {j k : Nat} (hj : j < 4) (hk : k < 4) (h : byteAddr a j = byteAddr a k) : j = k := by
  simp only [byteAddr] at h
  have := BitVec.eq_of_toNat_eq h
  have h2 := congrArg BitVec.toNat (BitVec.add_right_inj a |>.1 this)
  simp only [BitVec.toNat_ofNat] at h2
  omega

theorem State.wordInRam_byte (s : State) (a : Word) (h : s.wordInRam a = true) {k : Nat} (hk : k < 4) :
    s.cfg.inRam (byteAddr a k) = true := by
  simp only [State.wordInRam, Bool.and_eq_true] at h
  obtain ⟨⟨⟨h0, h1⟩, h2⟩, h3⟩ := h
  match k, hk with
  | 0, _ => exact h0
  | 1, _ => exact h1
  | 2, _ => exact h2
  | 3, _ => exact h3

/-- After a word write each of the four addresses holds its byte of the word (20_memory.md R104). -/
theorem State.get_ramSetWord_byte (s : State) (a v : Word) (hr : Memory.rising s.ram = true)
    (hin : s.wordInRam a = true) {k : Nat} (hk : k < 4) :
    Memory.get (s.ramSetWord a v).ram (byteAddr a k) = wordByte v k := by
  have hb : ∀ j < 4, s.cfg.inRam (byteAddr a j) = true := fun j hj => s.wordInRam_byte a hin hj
  have hne : ∀ j < 4, j ≠ k → byteAddr a k ≠ byteAddr a j := fun j hj hjk h => hjk (byteAddr_inj a hk hj h).symm
  have r1 := State.ramSet_rising s a 0 (wordByte v 0) hr
  have r2 := State.ramSet_rising _ a 1 (wordByte v 1) r1
  have r3 := State.ramSet_rising _ a 2 (wordByte v 2) r2
  unfold State.ramSetWord
  match k, hk with
  | 0, _ =>
    rw [State.get_ramSet_ne _ _ _ _ _ (hne 3 (by omega) (by omega)), State.get_ramSet_ne _ _ _ _ _ (hne 2 (by omega) (by omega)),
      State.get_ramSet_ne _ _ _ _ _ (hne 1 (by omega) (by omega)), State.get_ramSet_same _ _ _ _ hr (hb 0 (by omega))]
  | 1, _ =>
    rw [State.get_ramSet_ne _ _ _ _ _ (hne 3 (by omega) (by omega)), State.get_ramSet_ne _ _ _ _ _ (hne 2 (by omega) (by omega)),
      State.get_ramSet_same _ _ _ _ r1 (by simpa using hb 1 (by omega))]
  | 2, _ =>
    rw [State.get_ramSet_ne _ _ _ _ _ (hne 3 (by omega) (by omega)),
      State.get_ramSet_same _ _ _ _ r2 (by simpa using hb 2 (by omega))]
  | 3, _ => rw [State.get_ramSet_same _ _ _ _ r3 (by simpa using hb 3 (by omega))]

theorem wordByte_append (v : Word) : (wordByte v 3 ++ wordByte v 2 ++ wordByte v 1 ++ wordByte v 0 : BitVec 32) = v := by
  apply BitVec.eq_of_getLsbD_eq
  intro i hi
  simp only [wordByte, BitVec.getLsbD_append, BitVec.getLsbD_extractLsb']
  split
  · simp_all
  · split
    · rw [decide_eq_true (by omega), Bool.true_and]; congr 1; omega
    · split
      · rw [decide_eq_true (by omega), Bool.true_and]; congr 1; omega
      · rw [decide_eq_true (by omega), Bool.true_and]; congr 1; omega

/-- A RAM word where RAM stands does not depend on the free value. -/
theorem State.ramWord_inRam (s : State) (f a : Word) (h : s.wordInRam a = true) :
    s.ramWord f a = (Memory.get s.ram (byteAddr a 3) ++ Memory.get s.ram (byteAddr a 2) ++ Memory.get s.ram (byteAddr a 1)
      ++ Memory.get s.ram (byteAddr a 0) : BitVec 32) := by
  simp [State.ramWord, State.ramOr, s.wordInRam_byte a h]

/-- A word read after a word write to the same address gives the word written (20_memory.md R104). -/
theorem State.ramWord_ramSetWord_same (s : State) (f a v : Word) (hr : Memory.rising s.ram = true)
    (hin : s.wordInRam a = true) : (s.ramSetWord a v).ramWord f a = v := by
  rw [State.ramWord_inRam _ _ _ (by simpa [State.wordInRam] using hin)]
  simp only [State.get_ramSetWord_byte s a v hr hin (show 0 < 4 by omega), State.get_ramSetWord_byte s a v hr hin (show 1 < 4 by omega),
    State.get_ramSetWord_byte s a v hr hin (show 2 < 4 by omega), State.get_ramSetWord_byte s a v hr hin (show 3 < 4 by omega)]
  exact wordByte_append v

/-- A word read does not see a word write elsewhere. -/
theorem State.ramWord_ramSetWord_ne (s : State) (f a b v : Word) (h : ∀ j < 4, ∀ k < 4, byteAddr b j ≠ byteAddr a k) :
    (s.ramSetWord a v).ramWord f b = s.ramWord f b := by
  simp only [State.ramWord, State.ramOr, State.ramSetWord_cfg,
    State.get_ramSetWord_ne s a v _ (fun k hk => h 0 (by omega) k hk), State.get_ramSetWord_ne s a v _ (fun k hk => h 1 (by omega) k hk),
    State.get_ramSetWord_ne s a v _ (fun k hk => h 2 (by omega) k hk), State.get_ramSetWord_ne s a v _ (fun k hk => h 3 (by omega) k hk)]

end Sys2Proof.Machine
end

