-- ==== Sys2Proof/Laws/Bus.lean ====
section
/-! SUPPORT. What each bus access of the engine can do, said once: the fields a device read, a device write, a RAM access or a
Spin leaves alone (20_memory.md R112, R113). -/

namespace Sys2Proof.Machine

variable (s : State)

/-! A device read changes at most the two FIFOs and the free values. -/

@[simp] theorem State.popRead_cfg (r : Reg) : (s.popRead r).cfg = s.cfg := by
  cases r <;> rfl
@[simp] theorem State.popRead_regs (r : Reg) : (s.popRead r).regs = s.regs := by
  cases r <;> rfl
@[simp] theorem State.popRead_seq (r : Reg) : (s.popRead r).seq = s.seq := by
  cases r <;> rfl
@[simp] theorem State.popRead_opnd (r : Reg) : (s.popRead r).opnd = s.opnd := by
  cases r <;> rfl
@[simp] theorem State.popRead_loc (r : Reg) : (s.popRead r).loc = s.loc := by
  cases r <;> rfl
@[simp] theorem State.popRead_gpio (r : Reg) : (s.popRead r).gpio = s.gpio := by
  cases r <;> rfl
@[simp] theorem State.popRead_timer (r : Reg) : (s.popRead r).timer = s.timer := by
  cases r <;> rfl
@[simp] theorem State.popRead_ctrl (r : Reg) : (s.popRead r).ctrl = s.ctrl := by
  cases r <;> rfl
@[simp] theorem State.popRead_ram (r : Reg) : (s.popRead r).ram = s.ram := by
  cases r <;> rfl
@[simp] theorem State.popRead_cycles (r : Reg) : (s.popRead r).cycles = s.cycles := by
  cases r <;> rfl
@[simp] theorem State.popRead_trace (r : Reg) : (s.popRead r).trace = s.trace := by
  cases r <;> rfl
@[simp] theorem State.popRead_obs (r : Reg) : (s.popRead r).obs = s.obs := by
  cases r <;> rfl
@[simp] theorem State.popRead_script (r : Reg) : (s.popRead r).script = s.script := by
  cases r <;> rfl
@[simp] theorem State.popRead_noise (r : Reg) : (s.popRead r).noise = s.noise := by
  cases r <;> rfl
@[simp] theorem State.popRead_freeIdx (r : Reg) : (s.popRead r).freeIdx = s.freeIdx := by
  cases r <;> rfl

@[simp] theorem State.devRead_cfg (r : Reg) : ((s.devRead r).2).cfg = s.cfg := by
  unfold State.devRead; split <;> simp
@[simp] theorem State.devRead_regs (r : Reg) : ((s.devRead r).2).regs = s.regs := by
  unfold State.devRead; split <;> simp
@[simp] theorem State.devRead_seq (r : Reg) : ((s.devRead r).2).seq = s.seq := by
  unfold State.devRead; split <;> simp
@[simp] theorem State.devRead_opnd (r : Reg) : ((s.devRead r).2).opnd = s.opnd := by
  unfold State.devRead; split <;> simp
@[simp] theorem State.devRead_loc (r : Reg) : ((s.devRead r).2).loc = s.loc := by
  unfold State.devRead; split <;> simp
@[simp] theorem State.devRead_gpio (r : Reg) : ((s.devRead r).2).gpio = s.gpio := by
  unfold State.devRead; split <;> simp
@[simp] theorem State.devRead_timer (r : Reg) : ((s.devRead r).2).timer = s.timer := by
  unfold State.devRead; split <;> simp
@[simp] theorem State.devRead_ctrl (r : Reg) : ((s.devRead r).2).ctrl = s.ctrl := by
  unfold State.devRead; split <;> simp
@[simp] theorem State.devRead_ram (r : Reg) : ((s.devRead r).2).ram = s.ram := by
  unfold State.devRead; split <;> simp
@[simp] theorem State.devRead_cycles (r : Reg) : ((s.devRead r).2).cycles = s.cycles := by
  unfold State.devRead; split <;> simp
@[simp] theorem State.devRead_trace (r : Reg) : ((s.devRead r).2).trace = s.trace := by
  unfold State.devRead; split <;> simp
@[simp] theorem State.devRead_obs (r : Reg) : ((s.devRead r).2).obs = s.obs := by
  unfold State.devRead; split <;> simp
@[simp] theorem State.devRead_script (r : Reg) : ((s.devRead r).2).script = s.script := by
  unfold State.devRead; split <;> simp

/-! A device write changes the devices and the free values only. -/

@[simp] theorem State.devWrite_cfg (r : Reg) (v : Word) : (s.devWrite r v).cfg = s.cfg := by
  cases r <;> simp [State.devWrite]
@[simp] theorem State.devWrite_regs (r : Reg) (v : Word) : (s.devWrite r v).regs = s.regs := by
  cases r <;> simp [State.devWrite]
@[simp] theorem State.devWrite_seq (r : Reg) (v : Word) : (s.devWrite r v).seq = s.seq := by
  cases r <;> simp [State.devWrite]
@[simp] theorem State.devWrite_opnd (r : Reg) (v : Word) : (s.devWrite r v).opnd = s.opnd := by
  cases r <;> simp [State.devWrite]
@[simp] theorem State.devWrite_loc (r : Reg) (v : Word) : (s.devWrite r v).loc = s.loc := by
  cases r <;> simp [State.devWrite]
@[simp] theorem State.devWrite_ram (r : Reg) (v : Word) : (s.devWrite r v).ram = s.ram := by
  cases r <;> simp [State.devWrite]
@[simp] theorem State.devWrite_cycles (r : Reg) (v : Word) : (s.devWrite r v).cycles = s.cycles := by
  cases r <;> simp [State.devWrite]
@[simp] theorem State.devWrite_trace (r : Reg) (v : Word) : (s.devWrite r v).trace = s.trace := by
  cases r <;> simp [State.devWrite]
@[simp] theorem State.devWrite_obs (r : Reg) (v : Word) : (s.devWrite r v).obs = s.obs := by
  cases r <;> simp [State.devWrite]
@[simp] theorem State.devWrite_script (r : Reg) (v : Word) : (s.devWrite r v).script = s.script := by
  cases r <;> simp [State.devWrite]

/-! What a host write breaks changes the pulls, the free values and what the controller sees. -/

@[simp] theorem State.breakPull_cfg (t : State) : (s.breakPull t).cfg = t.cfg := by unfold State.breakPull; split <;> simp
@[simp] theorem State.breakPull_regs (t : State) : (s.breakPull t).regs = t.regs := by unfold State.breakPull; split <;> simp
@[simp] theorem State.breakPull_seq (t : State) : (s.breakPull t).seq = t.seq := by unfold State.breakPull; split <;> simp
@[simp] theorem State.breakPull_opnd (t : State) : (s.breakPull t).opnd = t.opnd := by unfold State.breakPull; split <;> simp
@[simp] theorem State.breakPull_loc (t : State) : (s.breakPull t).loc = t.loc := by unfold State.breakPull; split <;> simp
@[simp] theorem State.breakPull_mbox (t : State) : (s.breakPull t).mbox = t.mbox := by unfold State.breakPull; split <;> simp
@[simp] theorem State.breakPull_uart (t : State) : (s.breakPull t).uart = t.uart := by unfold State.breakPull; split <;> simp
@[simp] theorem State.breakPull_timer (t : State) : (s.breakPull t).timer = t.timer := by unfold State.breakPull; split <;> simp
@[simp] theorem State.breakPull_ram (t : State) : (s.breakPull t).ram = t.ram := by unfold State.breakPull; split <;> simp
@[simp] theorem State.breakPull_cycles (t : State) : (s.breakPull t).cycles = t.cycles := by unfold State.breakPull; split <;> simp
@[simp] theorem State.breakPull_trace (t : State) : (s.breakPull t).trace = t.trace := by unfold State.breakPull; split <;> simp
@[simp] theorem State.breakPull_obs (t : State) : (s.breakPull t).obs = t.obs := by unfold State.breakPull; split <;> simp
@[simp] theorem State.breakPull_script (t : State) : (s.breakPull t).script = t.script := by unfold State.breakPull; split <;> simp

/-- Outside the engine's pull sequence a host write breaks nothing. -/
theorem State.breakPull_none (t : State) (h : s.pullPhase = none) : s.breakPull t = t := by simp [State.breakPull, h]

/-- While the engine settles, a host write breaks the settle time. -/
theorem State.breakPull_settle (t : State) (h : s.pullPhase = some .settle) :
    s.breakPull t = { t with gpio := { t.gpio with broken := true } } := by simp [State.breakPull, h]

/-- While the engine holds, a host write frees the pulls of the clocked pins. -/
theorem State.breakPull_hold (t : State) (n : Fin 2) (h : s.pullPhase = some (.hold n)) :
    (s.breakPull t).gpio = t.gpio.freePulls n s.gpio.gppudclk[n] t.freeValue t.useFree.freeValue := by simp [State.breakPull, h]

/-- An idle engine is in no pull sequence. -/
theorem State.pullPhase_idle (h : s.seq = .idle) : s.pullPhase = none := by simp [State.pullPhase, h]

/-! A host write of a device register changes the devices and the free values only. -/

@[simp] theorem State.hostDevWrite_cfg (r : Reg) (v : Word) : (s.hostDevWrite r v).cfg = s.cfg := by
  cases r <;> simp [State.hostDevWrite, State.unbroken]
@[simp] theorem State.hostDevWrite_regs (r : Reg) (v : Word) : (s.hostDevWrite r v).regs = s.regs := by
  cases r <;> simp [State.hostDevWrite, State.unbroken]
@[simp] theorem State.hostDevWrite_seq (r : Reg) (v : Word) : (s.hostDevWrite r v).seq = s.seq := by
  cases r <;> simp [State.hostDevWrite, State.unbroken]
@[simp] theorem State.hostDevWrite_opnd (r : Reg) (v : Word) : (s.hostDevWrite r v).opnd = s.opnd := by
  cases r <;> simp [State.hostDevWrite, State.unbroken]
@[simp] theorem State.hostDevWrite_loc (r : Reg) (v : Word) : (s.hostDevWrite r v).loc = s.loc := by
  cases r <;> simp [State.hostDevWrite, State.unbroken]
@[simp] theorem State.hostDevWrite_ram (r : Reg) (v : Word) : (s.hostDevWrite r v).ram = s.ram := by
  cases r <;> simp [State.hostDevWrite, State.unbroken]
@[simp] theorem State.hostDevWrite_cycles (r : Reg) (v : Word) : (s.hostDevWrite r v).cycles = s.cycles := by
  cases r <;> simp [State.hostDevWrite, State.unbroken]
@[simp] theorem State.hostDevWrite_trace (r : Reg) (v : Word) : (s.hostDevWrite r v).trace = s.trace := by
  cases r <;> simp [State.hostDevWrite, State.unbroken]
@[simp] theorem State.hostDevWrite_obs (r : Reg) (v : Word) : (s.hostDevWrite r v).obs = s.obs := by
  cases r <;> simp [State.hostDevWrite, State.unbroken]
@[simp] theorem State.hostDevWrite_script (r : Reg) (v : Word) : (s.hostDevWrite r v).script = s.script := by
  cases r <;> simp [State.hostDevWrite, State.unbroken]

/-! The engine's accesses add their event to the trace. -/

@[simp] theorem State.busRead_cfg (r : Reg) : ((s.busRead r).2).cfg = s.cfg := by
  simp [State.busRead]
@[simp] theorem State.busRead_regs (r : Reg) : ((s.busRead r).2).regs = s.regs := by
  simp [State.busRead]
@[simp] theorem State.busRead_seq (r : Reg) : ((s.busRead r).2).seq = s.seq := by
  simp [State.busRead]
@[simp] theorem State.busRead_opnd (r : Reg) : ((s.busRead r).2).opnd = s.opnd := by
  simp [State.busRead]
@[simp] theorem State.busRead_loc (r : Reg) : ((s.busRead r).2).loc = s.loc := by
  simp [State.busRead]
@[simp] theorem State.busRead_gpio (r : Reg) : ((s.busRead r).2).gpio = s.gpio := by
  simp [State.busRead]
@[simp] theorem State.busRead_timer (r : Reg) : ((s.busRead r).2).timer = s.timer := by
  simp [State.busRead]
@[simp] theorem State.busRead_ctrl (r : Reg) : ((s.busRead r).2).ctrl = s.ctrl := by
  simp [State.busRead]
@[simp] theorem State.busRead_ram (r : Reg) : ((s.busRead r).2).ram = s.ram := by
  simp [State.busRead]
@[simp] theorem State.busRead_cycles (r : Reg) : ((s.busRead r).2).cycles = s.cycles := by
  simp [State.busRead]
@[simp] theorem State.busRead_obs (r : Reg) : ((s.busRead r).2).obs = s.obs := by
  simp [State.busRead]
@[simp] theorem State.busRead_script (r : Reg) : ((s.busRead r).2).script = s.script := by
  simp [State.busRead]

theorem State.busRead_trace (r : Reg) :
    (s.busRead r).2.trace = s.trace ++ [.rd (r.addr s.cfg) 4 (s.busRead r).1] := by
  simp [State.busRead]

@[simp] theorem State.busWrite_cfg (r : Reg) (v : Word) : (s.busWrite r v).cfg = s.cfg := by
  simp [State.busWrite]
@[simp] theorem State.busWrite_regs (r : Reg) (v : Word) : (s.busWrite r v).regs = s.regs := by
  simp [State.busWrite]
@[simp] theorem State.busWrite_seq (r : Reg) (v : Word) : (s.busWrite r v).seq = s.seq := by
  simp [State.busWrite]
@[simp] theorem State.busWrite_opnd (r : Reg) (v : Word) : (s.busWrite r v).opnd = s.opnd := by
  simp [State.busWrite]
@[simp] theorem State.busWrite_loc (r : Reg) (v : Word) : (s.busWrite r v).loc = s.loc := by
  simp [State.busWrite]
@[simp] theorem State.busWrite_ram (r : Reg) (v : Word) : (s.busWrite r v).ram = s.ram := by
  simp [State.busWrite]
@[simp] theorem State.busWrite_cycles (r : Reg) (v : Word) : (s.busWrite r v).cycles = s.cycles := by
  simp [State.busWrite]
@[simp] theorem State.busWrite_obs (r : Reg) (v : Word) : (s.busWrite r v).obs = s.obs := by
  simp [State.busWrite]
@[simp] theorem State.busWrite_script (r : Reg) (v : Word) : (s.busWrite r v).script = s.script := by
  simp [State.busWrite]

theorem State.busWrite_trace (r : Reg) (v : Word) :
    (s.busWrite r v).trace = s.trace ++ [.wr (r.addr s.cfg) 4 v] := by
  simp [State.busWrite]

@[simp] theorem State.ramRead_cfg (a : Word) : ((s.ramRead a).2).cfg = s.cfg := by
  unfold State.ramRead; split <;> simp
@[simp] theorem State.ramRead_regs (a : Word) : ((s.ramRead a).2).regs = s.regs := by
  unfold State.ramRead; split <;> simp
@[simp] theorem State.ramRead_seq (a : Word) : ((s.ramRead a).2).seq = s.seq := by
  unfold State.ramRead; split <;> simp
@[simp] theorem State.ramRead_opnd (a : Word) : ((s.ramRead a).2).opnd = s.opnd := by
  unfold State.ramRead; split <;> simp
@[simp] theorem State.ramRead_loc (a : Word) : ((s.ramRead a).2).loc = s.loc := by
  unfold State.ramRead; split <;> simp
@[simp] theorem State.ramRead_mbox (a : Word) : ((s.ramRead a).2).mbox = s.mbox := by
  unfold State.ramRead; split <;> simp
@[simp] theorem State.ramRead_gpio (a : Word) : ((s.ramRead a).2).gpio = s.gpio := by
  unfold State.ramRead; split <;> simp
@[simp] theorem State.ramRead_uart (a : Word) : ((s.ramRead a).2).uart = s.uart := by
  unfold State.ramRead; split <;> simp
@[simp] theorem State.ramRead_timer (a : Word) : ((s.ramRead a).2).timer = s.timer := by
  unfold State.ramRead; split <;> simp
@[simp] theorem State.ramRead_ctrl (a : Word) : ((s.ramRead a).2).ctrl = s.ctrl := by
  unfold State.ramRead; split <;> simp
@[simp] theorem State.ramRead_ram (a : Word) : ((s.ramRead a).2).ram = s.ram := by
  unfold State.ramRead; split <;> simp
@[simp] theorem State.ramRead_cycles (a : Word) : ((s.ramRead a).2).cycles = s.cycles := by
  unfold State.ramRead; split <;> simp
@[simp] theorem State.ramRead_obs (a : Word) : ((s.ramRead a).2).obs = s.obs := by
  unfold State.ramRead; split <;> simp
@[simp] theorem State.ramRead_script (a : Word) : ((s.ramRead a).2).script = s.script := by
  unfold State.ramRead; split <;> simp

theorem State.ramRead_trace (a : Word) : (s.ramRead a).2.trace = s.trace ++ [.rd a 4 (s.ramRead a).1] := by
  unfold State.ramRead; split <;> simp

@[simp] theorem State.ramReadByte_cfg (a : Word) : ((s.ramReadByte a).2).cfg = s.cfg := by
  unfold State.ramReadByte; split <;> simp
@[simp] theorem State.ramReadByte_regs (a : Word) : ((s.ramReadByte a).2).regs = s.regs := by
  unfold State.ramReadByte; split <;> simp
@[simp] theorem State.ramReadByte_seq (a : Word) : ((s.ramReadByte a).2).seq = s.seq := by
  unfold State.ramReadByte; split <;> simp
@[simp] theorem State.ramReadByte_opnd (a : Word) : ((s.ramReadByte a).2).opnd = s.opnd := by
  unfold State.ramReadByte; split <;> simp
@[simp] theorem State.ramReadByte_loc (a : Word) : ((s.ramReadByte a).2).loc = s.loc := by
  unfold State.ramReadByte; split <;> simp
@[simp] theorem State.ramReadByte_mbox (a : Word) : ((s.ramReadByte a).2).mbox = s.mbox := by
  unfold State.ramReadByte; split <;> simp
@[simp] theorem State.ramReadByte_gpio (a : Word) : ((s.ramReadByte a).2).gpio = s.gpio := by
  unfold State.ramReadByte; split <;> simp
@[simp] theorem State.ramReadByte_uart (a : Word) : ((s.ramReadByte a).2).uart = s.uart := by
  unfold State.ramReadByte; split <;> simp
@[simp] theorem State.ramReadByte_timer (a : Word) : ((s.ramReadByte a).2).timer = s.timer := by
  unfold State.ramReadByte; split <;> simp
@[simp] theorem State.ramReadByte_ctrl (a : Word) : ((s.ramReadByte a).2).ctrl = s.ctrl := by
  unfold State.ramReadByte; split <;> simp
@[simp] theorem State.ramReadByte_ram (a : Word) : ((s.ramReadByte a).2).ram = s.ram := by
  unfold State.ramReadByte; split <;> simp
@[simp] theorem State.ramReadByte_cycles (a : Word) : ((s.ramReadByte a).2).cycles = s.cycles := by
  unfold State.ramReadByte; split <;> simp
@[simp] theorem State.ramReadByte_obs (a : Word) : ((s.ramReadByte a).2).obs = s.obs := by
  unfold State.ramReadByte; split <;> simp
@[simp] theorem State.ramReadByte_script (a : Word) : ((s.ramReadByte a).2).script = s.script := by
  unfold State.ramReadByte; split <;> simp

theorem State.ramReadByte_trace (a : Word) :
    (s.ramReadByte a).2.trace = s.trace ++ [.rd a 1 ((s.ramReadByte a).1.setWidth 32)] := by
  unfold State.ramReadByte; split <;> simp

@[simp] theorem State.ramWrite_cfg (a v : Word) : (s.ramWrite a v).cfg = s.cfg := by
  simp [State.ramWrite]
@[simp] theorem State.ramWrite_regs (a v : Word) : (s.ramWrite a v).regs = s.regs := by
  simp [State.ramWrite]
@[simp] theorem State.ramWrite_seq (a v : Word) : (s.ramWrite a v).seq = s.seq := by
  simp [State.ramWrite]
@[simp] theorem State.ramWrite_opnd (a v : Word) : (s.ramWrite a v).opnd = s.opnd := by
  simp [State.ramWrite]
@[simp] theorem State.ramWrite_loc (a v : Word) : (s.ramWrite a v).loc = s.loc := by
  simp [State.ramWrite]
@[simp] theorem State.ramWrite_mbox (a v : Word) : (s.ramWrite a v).mbox = s.mbox := by
  simp [State.ramWrite]
@[simp] theorem State.ramWrite_gpio (a v : Word) : (s.ramWrite a v).gpio = s.gpio := by
  simp [State.ramWrite]
@[simp] theorem State.ramWrite_uart (a v : Word) : (s.ramWrite a v).uart = s.uart := by
  simp [State.ramWrite]
@[simp] theorem State.ramWrite_timer (a v : Word) : (s.ramWrite a v).timer = s.timer := by
  simp [State.ramWrite]
@[simp] theorem State.ramWrite_ctrl (a v : Word) : (s.ramWrite a v).ctrl = s.ctrl := by
  simp [State.ramWrite]
@[simp] theorem State.ramWrite_cycles (a v : Word) : (s.ramWrite a v).cycles = s.cycles := by
  simp [State.ramWrite]
@[simp] theorem State.ramWrite_obs (a v : Word) : (s.ramWrite a v).obs = s.obs := by
  simp [State.ramWrite]
@[simp] theorem State.ramWrite_script (a v : Word) : (s.ramWrite a v).script = s.script := by
  simp [State.ramWrite]
@[simp] theorem State.ramWrite_noise (a v : Word) : (s.ramWrite a v).noise = s.noise := by
  simp [State.ramWrite]
@[simp] theorem State.ramWrite_freeIdx (a v : Word) : (s.ramWrite a v).freeIdx = s.freeIdx := by
  simp [State.ramWrite]

theorem State.ramWrite_trace (a v : Word) : (s.ramWrite a v).trace = s.trace ++ [.wr a 4 v] := by
  simp [State.ramWrite]

@[simp] theorem State.busSpin_cfg : (s.busSpin).cfg = s.cfg := by
  rfl
@[simp] theorem State.busSpin_regs : (s.busSpin).regs = s.regs := by
  rfl
@[simp] theorem State.busSpin_seq : (s.busSpin).seq = s.seq := by
  rfl
@[simp] theorem State.busSpin_opnd : (s.busSpin).opnd = s.opnd := by
  rfl
@[simp] theorem State.busSpin_loc : (s.busSpin).loc = s.loc := by
  rfl
@[simp] theorem State.busSpin_mbox : (s.busSpin).mbox = s.mbox := by
  rfl
@[simp] theorem State.busSpin_gpio : (s.busSpin).gpio = s.gpio := by
  rfl
@[simp] theorem State.busSpin_uart : (s.busSpin).uart = s.uart := by
  rfl
@[simp] theorem State.busSpin_timer : (s.busSpin).timer = s.timer := by
  rfl
@[simp] theorem State.busSpin_ctrl : (s.busSpin).ctrl = s.ctrl := by
  rfl
@[simp] theorem State.busSpin_ram : (s.busSpin).ram = s.ram := by
  rfl
@[simp] theorem State.busSpin_obs : (s.busSpin).obs = s.obs := by
  rfl
@[simp] theorem State.busSpin_script : (s.busSpin).script = s.script := by
  rfl
@[simp] theorem State.busSpin_noise : (s.busSpin).noise = s.noise := by
  rfl
@[simp] theorem State.busSpin_freeIdx : (s.busSpin).freeIdx = s.freeIdx := by
  rfl

theorem State.busSpin_trace : s.busSpin.trace = s.trace ++ [.spin s.cfg.pudWaitCycles] := rfl

theorem State.busSpin_cycles : s.busSpin.cycles = s.cycles + s.cfg.pudWaitCycles := rfl

/-! Which device a read or a write can change. -/

theorem State.devRead_mbox (r : Reg) (h : r ≠ .mboxRead) : (s.devRead r).2.mbox = s.mbox := by
  unfold State.devRead
  cases r <;> first | exact absurd rfl h | (simp only [State.popRead]; split <;> simp)

theorem State.devRead_uart (r : Reg) (h : r ≠ .auxMuIo) : (s.devRead r).2.uart = s.uart := by
  unfold State.devRead
  cases r <;> first | exact absurd rfl h | (simp only [State.popRead]; split <;> simp)

/-- A read of MBOX_READ pops the outbound FIFO (60_exceptions.md R521). -/
theorem State.devRead_mboxRead : (s.devRead .mboxRead).2.mbox = { s.mbox with outbound := s.mbox.outbound.tail } := by
  unfold State.devRead
  simp only [State.popRead]
  split <;> simp

/-- A read of AUX_MU_IO pops the receive FIFO (60_exceptions.md R525). -/
theorem State.devRead_auxMuIo : (s.devRead .auxMuIo).2.uart = { s.uart with rx := s.uart.rx.tail } := by
  unfold State.devRead
  simp only [State.popRead]
  split <;> simp

/-- A register of the GPIO block. -/
def Reg.isGpio : Reg → Bool
  | .gpfsel _ | .gpset _ | .gpclr _ | .gplev _ | .gppud | .gppudclk _ => true
  | _ => false

/-- A register of the AUX block. -/
def Reg.isUart : Reg → Bool
  | .auxEnables | .auxMuIo | .auxMuIer | .auxMuIir | .auxMuLcr | .auxMuMcr | .auxMuLsr | .auxMuCntl | .auxMuBaud => true
  | _ => false

/-- A register of the system timer. -/
def Reg.isTimer : Reg → Bool
  | .systmrCs | .systmrClo | .systmrChi | .systmrCmp _ => true
  | _ => false

theorem State.devWrite_mbox (r : Reg) (v : Word) (h : r ≠ .mboxWrite) : (s.devWrite r v).mbox = s.mbox := by
  cases r <;> first | exact absurd rfl h | simp [State.devWrite]

theorem State.devWrite_gpio (r : Reg) (v : Word) (h : r.isGpio = false) : (s.devWrite r v).gpio = s.gpio := by
  cases r <;> simp_all [Reg.isGpio, State.devWrite]

theorem State.devWrite_ctrl (r : Reg) (v : Word) (h : r.isGpio = false) : (s.devWrite r v).ctrl = s.ctrl := by
  cases r <;> simp_all [Reg.isGpio, State.devWrite]

theorem State.devWrite_uart (r : Reg) (v : Word) (h : r.isUart = false) : (s.devWrite r v).uart = s.uart := by
  cases r <;> simp_all [Reg.isUart, State.devWrite]

theorem State.devWrite_timer (r : Reg) (v : Word) (h : r.isTimer = false) : (s.devWrite r v).timer = s.timer := by
  cases r <;> simp_all [Reg.isTimer, State.devWrite]

theorem State.busRead_mbox (r : Reg) (h : r ≠ .mboxRead) : (s.busRead r).2.mbox = s.mbox := by
  simp [State.busRead, s.devRead_mbox r h]

theorem State.busRead_uart (r : Reg) (h : r ≠ .auxMuIo) : (s.busRead r).2.uart = s.uart := by
  simp [State.busRead, s.devRead_uart r h]

theorem State.busWrite_mbox (r : Reg) (v : Word) (h : r ≠ .mboxWrite) : (s.busWrite r v).mbox = s.mbox := by
  simp [State.busWrite, s.devWrite_mbox r v h]

theorem State.busWrite_gpio (r : Reg) (v : Word) (h : r.isGpio = false) : (s.busWrite r v).gpio = s.gpio := by
  simp [State.busWrite, s.devWrite_gpio r v h]

theorem State.busWrite_ctrl (r : Reg) (v : Word) (h : r.isGpio = false) : (s.busWrite r v).ctrl = s.ctrl := by
  simp [State.busWrite, s.devWrite_ctrl r v h]

theorem State.busWrite_uart (r : Reg) (v : Word) (h : r.isUart = false) : (s.busWrite r v).uart = s.uart := by
  simp [State.busWrite, s.devWrite_uart r v h]

theorem State.busWrite_timer (r : Reg) (v : Word) (h : r.isTimer = false) : (s.busWrite r v).timer = s.timer := by
  simp [State.busWrite, s.devWrite_timer r v h]

/-! ## Alignment of bus addresses (20_memory.md R106) -/

theorem add_aligned {a b : Word} (ha : a.toNat % 4 = 0) (hb : b.toNat % 4 = 0) : (a + b).toNat % 4 = 0 := by
  rw [BitVec.toNat_add]; omega

theorem four_mul_aligned (n : Nat) : (BitVec.ofNat 32 (4 * n)).toNat % 4 = 0 := by
  rw [BitVec.toNat_ofNat]; omega

/-- Every device register address is a multiple of 4 (20_memory.md R106). -/
theorem Reg.addr_aligned {c : Config} (h : c.wf = true) (r : Reg) : (r.addr c).toNat % 4 = 0 := by
  simp only [Config.wf, Config.aligned, Word.aligned, RegOffsets.all, Bool.and_eq_true, List.all_cons, List.all_nil,
    decide_eq_true_eq, Bool.and_true] at h
  cases r <;> simp only [Reg.addr] <;> first
    | exact add_aligned (add_aligned (by omega) (by omega)) (four_mul_aligned _)
    | exact add_aligned (by omega) (by omega)

/-- Every buffer word is at a multiple of 4 (R106). -/
theorem bufAddr_aligned {c : Config} (h : c.wf = true) (i : Nat) : (bufAddr c i).toNat % 4 = 0 := by
  simp only [Config.wf, Config.clauses, Bool.and_eq_true, decide_eq_true_eq] at h
  exact add_aligned (by omega) (four_mul_aligned i)

end Sys2Proof.Machine
end

