-- ==== Sys2Proof/Laws/Engine.lean ====
section
/-! SUPPORT. What one engine step and a run of the engine can do, said once: frames of `stepOp`, the unfolding of `runLoop` for
undisturbed states, and its induction principles. -/

namespace Sys2Proof.Machine

variable (s : State)

/-! ## A read into `v` -/

@[simp] theorem State.readInto_cfg (r : Reg) : (s.readInto r).cfg = s.cfg := by simp [State.readInto]
@[simp] theorem State.readInto_regs (r : Reg) : (s.readInto r).regs = s.regs := by simp [State.readInto]
@[simp] theorem State.readInto_opnd (r : Reg) : (s.readInto r).opnd = s.opnd := by simp [State.readInto]
@[simp] theorem State.readInto_gpio (r : Reg) : (s.readInto r).gpio = s.gpio := by simp [State.readInto]
@[simp] theorem State.readInto_timer (r : Reg) : (s.readInto r).timer = s.timer := by simp [State.readInto]
@[simp] theorem State.readInto_ctrl (r : Reg) : (s.readInto r).ctrl = s.ctrl := by simp [State.readInto]
@[simp] theorem State.readInto_ram (r : Reg) : (s.readInto r).ram = s.ram := by simp [State.readInto]
@[simp] theorem State.readInto_cycles (r : Reg) : (s.readInto r).cycles = s.cycles := by simp [State.readInto]
@[simp] theorem State.readInto_obs (r : Reg) : (s.readInto r).obs = s.obs := by simp [State.readInto]
@[simp] theorem State.readInto_script (r : Reg) : (s.readInto r).script = s.script := by simp [State.readInto]
@[simp] theorem State.readInto_loc (r : Reg) : (s.readInto r).loc = { s.loc with v := (s.busRead r).1 } := by simp [State.readInto]
@[simp] theorem State.readInto_mbox (r : Reg) : (s.readInto r).mbox = (s.busRead r).2.mbox := by simp [State.readInto]
@[simp] theorem State.readInto_uart (r : Reg) : (s.readInto r).uart = (s.busRead r).2.uart := by simp [State.readInto]

theorem State.readInto_trace (r : Reg) : (s.readInto r).trace = s.trace ++ [.rd (r.addr s.cfg) 4 (s.busRead r).1] := by
  simp [State.readInto, State.busRead_trace]

/-! ## Local computations -/

/-- A local computation changes SEQ and the hidden values only (30_encoding.md R160). -/
theorem State.compute_eq (i : Instr) (c : Calc) (rest : List Op) :
    ∃ l todo, s.compute i c rest = { s with seq := .run i todo, loc := l } := by
  cases c with
  | nowTest u =>
    simp only [State.compute]
    split
    · exact ⟨_, _, rfl⟩
    · exact ⟨s.loc, _, rfl⟩
  | pollTest | matchTest | codeTest => exact ⟨s.loc, _, rfl⟩
  | _ => exact ⟨_, _, rfl⟩

@[simp] theorem State.compute_cfg (i : Instr) (c : Calc) (rest : List Op) : (s.compute i c rest).cfg = s.cfg := by
  obtain ⟨l, todo, h⟩ := s.compute_eq i c rest; rw [h]
@[simp] theorem State.compute_regs (i : Instr) (c : Calc) (rest : List Op) : (s.compute i c rest).regs = s.regs := by
  obtain ⟨l, todo, h⟩ := s.compute_eq i c rest; rw [h]
@[simp] theorem State.compute_opnd (i : Instr) (c : Calc) (rest : List Op) : (s.compute i c rest).opnd = s.opnd := by
  obtain ⟨l, todo, h⟩ := s.compute_eq i c rest; rw [h]
@[simp] theorem State.compute_mbox (i : Instr) (c : Calc) (rest : List Op) : (s.compute i c rest).mbox = s.mbox := by
  obtain ⟨l, todo, h⟩ := s.compute_eq i c rest; rw [h]
@[simp] theorem State.compute_gpio (i : Instr) (c : Calc) (rest : List Op) : (s.compute i c rest).gpio = s.gpio := by
  obtain ⟨l, todo, h⟩ := s.compute_eq i c rest; rw [h]
@[simp] theorem State.compute_uart (i : Instr) (c : Calc) (rest : List Op) : (s.compute i c rest).uart = s.uart := by
  obtain ⟨l, todo, h⟩ := s.compute_eq i c rest; rw [h]
@[simp] theorem State.compute_timer (i : Instr) (c : Calc) (rest : List Op) : (s.compute i c rest).timer = s.timer := by
  obtain ⟨l, todo, h⟩ := s.compute_eq i c rest; rw [h]
@[simp] theorem State.compute_ctrl (i : Instr) (c : Calc) (rest : List Op) : (s.compute i c rest).ctrl = s.ctrl := by
  obtain ⟨l, todo, h⟩ := s.compute_eq i c rest; rw [h]
@[simp] theorem State.compute_ram (i : Instr) (c : Calc) (rest : List Op) : (s.compute i c rest).ram = s.ram := by
  obtain ⟨l, todo, h⟩ := s.compute_eq i c rest; rw [h]
@[simp] theorem State.compute_cycles (i : Instr) (c : Calc) (rest : List Op) : (s.compute i c rest).cycles = s.cycles := by
  obtain ⟨l, todo, h⟩ := s.compute_eq i c rest; rw [h]
@[simp] theorem State.compute_trace (i : Instr) (c : Calc) (rest : List Op) : (s.compute i c rest).trace = s.trace := by
  obtain ⟨l, todo, h⟩ := s.compute_eq i c rest; rw [h]
@[simp] theorem State.compute_obs (i : Instr) (c : Calc) (rest : List Op) : (s.compute i c rest).obs = s.obs := by
  obtain ⟨l, todo, h⟩ := s.compute_eq i c rest; rw [h]
@[simp] theorem State.compute_script (i : Instr) (c : Calc) (rest : List Op) : (s.compute i c rest).script = s.script := by
  obtain ⟨l, todo, h⟩ := s.compute_eq i c rest; rw [h]

/-! ## One engine step -/

@[simp] theorem State.stepOp_cfg (i : Instr) (op : Op) (rest : List Op) : (s.stepOp i op rest).cfg = s.cfg := by
  cases op <;> simp [State.stepOp]

@[simp] theorem State.stepOp_opnd (i : Instr) (op : Op) (rest : List Op) : (s.stepOp i op rest).opnd = s.opnd := by
  cases op <;> simp [State.stepOp]

@[simp] theorem State.stepOp_obs (i : Instr) (op : Op) (rest : List Op) : (s.stepOp i op rest).obs = s.obs := by
  cases op <;> simp [State.stepOp]

@[simp] theorem State.stepOp_script (i : Instr) (op : Op) (rest : List Op) : (s.stepOp i op rest).script = s.script := by
  cases op <;> simp [State.stepOp]

theorem State.stepOp_regs (i : Instr) (op : Op) (rest : List Op) (h : ∀ f, op ≠ .finish f) :
    (s.stepOp i op rest).regs = s.regs := by
  cases op <;> first | exact absurd rfl (h _) | simp [State.stepOp]

/-- An engine step adds at most one event to the bus trace; a local computation and the completion add none (30_encoding.md
R160, R161). -/
theorem State.stepOp_trace (i : Instr) (op : Op) (rest : List Op) :
    (s.stepOp i op rest).trace = s.trace ∨ ∃ e, (s.stepOp i op rest).trace = s.trace ++ [e] := by
  cases op with
  | finish f => exact .inl (by simp [State.stepOp])
  | compute c => exact .inl (by simp [State.stepOp])
  | _ =>
    right
    exact ⟨_, by
      simp [State.stepOp, State.readInto_trace, State.busRead_trace, State.busWrite_trace, State.ramRead_trace,
        State.ramReadByte_trace, State.ramWrite_trace, State.busSpin_trace]; rfl⟩

/-! Where a move of the engine leaves the sequencer. -/

/-- Points that hold no completion. -/
def NoFinish (ops : List Op) : Prop := ∀ f, Op.finish f ∉ ops

theorem noFinish_nil : NoFinish [] := fun f h => by simp at h

theorem nowOps_noFinish (u : NowUse) : NoFinish (nowOps u) := fun f h => by simp [nowOps] at h

theorem nowRetry_noFinish (u : NowUse) : NoFinish (nowRetry u) := fun f h => by simp [nowRetry] at h

theorem afterNow_eq (u : NowUse) (t t0 : BitVec 64) (rest : List Op) :
    ∃ pre, afterNow u t t0 rest = pre ++ rest ∧ NoFinish pre := by
  cases u with
  | result => exact ⟨[], rfl, noFinish_nil⟩
  | delayFirst n =>
    simp only [afterNow]
    split
    · exact ⟨[], rfl, noFinish_nil⟩
    · exact ⟨_, rfl, nowOps_noFinish _⟩
  | delayAgain n =>
    simp only [afterNow]
    split
    · exact ⟨[], rfl, noFinish_nil⟩
    · exact ⟨_, rfl, nowOps_noFinish _⟩

theorem afterString_eq (cr : Bool) (prev c : Byte) (k len : Nat) (rest : List Op) :
    ∃ pre, afterString cr prev c k len rest = pre ++ rest ∧ NoFinish pre := by
  unfold afterString
  split
  · exact ⟨[], rfl, noFinish_nil⟩
  · refine ⟨_, rfl, fun f h => ?_⟩
    rcases List.mem_append.1 h with h | h
    · simp [putChar, waitUntil] at h
    · split at h <;> simp [strStep] at h

/-- Where a local computation leads: on, or to the failure of FB.PROVISION (42_framebuffer.md R293). -/
theorem State.compute_seq (i : Instr) (c : Calc) (rest : List Op) :
    ∃ todo, (s.compute i c rest).seq = .run i todo ∧
      ((∃ pre, todo = pre ++ rest ∧ NoFinish pre) ∨ c = .codeTest ∧ todo = [.finish (.fail .provisionFail)]) := by
  cases c with
  | pollTest r bit level =>
    refine ⟨_, rfl, .inl ?_⟩
    split
    · exact ⟨[], rfl, noFinish_nil⟩
    · exact ⟨_, rfl, fun f h => by simp [waitUntil] at h⟩
  | matchTest =>
    refine ⟨_, rfl, .inl ?_⟩
    split
    · exact ⟨[], rfl, noFinish_nil⟩
    · exact ⟨_, rfl, fun f h => by simp [mboxMatch, waitUntil] at h⟩
  | codeTest =>
    refine ⟨_, rfl, ?_⟩
    split
    · exact .inl ⟨[], rfl, noFinish_nil⟩
    · exact .inr ⟨rfl, rfl⟩
  | nowTest u =>
    simp only [State.compute]
    split
    · obtain ⟨pre, h, hp⟩ := afterNow_eq u (s.loc.hi ++ s.loc.lo) s.loc.t0 rest
      exact ⟨_, rfl, .inl ⟨pre, h, hp⟩⟩
    · exact ⟨_, rfl, .inl ⟨_, rfl, nowRetry_noFinish u⟩⟩
  | nowDone u =>
    obtain ⟨pre, h, hp⟩ := afterNow_eq u (s.loc.hi ++ s.loc.lo) s.loc.t0 rest
    exact ⟨_, rfl, .inl ⟨pre, h, hp⟩⟩
  | sampleBit k => exact ⟨_, rfl, .inl ⟨[], rfl, noFinish_nil⟩⟩
  | lineTest k len =>
    obtain ⟨pre, h, hp⟩ := afterString_eq s.cfg.crSuppress s.loc.prev s.loc.c k len rest
    exact ⟨_, rfl, .inl ⟨pre, h, hp⟩⟩

theorem State.stepOp_seq (i : Instr) (op : Op) (rest : List Op) :
    (∃ f, op = .finish f ∧ (s.stepOp i op rest).seq = .idle) ∨
      ((∀ f, op ≠ .finish f) ∧ ∃ todo, (s.stepOp i op rest).seq = .run i todo ∧
        ((∃ pre, todo = pre ++ rest ∧ NoFinish pre) ∨ op = .compute .codeTest ∧ todo = [.finish (.fail .provisionFail)])) := by
  cases op with
  | finish f => exact .inl ⟨f, rfl, by simp [State.stepOp]⟩
  | compute c =>
    obtain ⟨todo, h, ht⟩ := s.compute_seq i c rest
    refine .inr ⟨by simp, todo, h, ht.imp id fun hc => ⟨by rw [hc.1], hc.2⟩⟩
  | _ =>
    right
    exact ⟨by simp, rest, by simp [State.stepOp], .inl ⟨[], rfl, noFinish_nil⟩⟩

/-! ## A move of the engine -/

/-- A local computation takes no step, so the counter does not move. -/
theorem State.engineStep_compute (i : Instr) (c : Calc) (rest : List Op) : s.engineStep i (.compute c) rest = s.compute i c rest := rfl

@[simp] theorem State.tickBefore_compute (c : Calc) : s.tickBefore (.compute c) = s := rfl

/-- Before a step the counter moves by its rate (60_exceptions.md R526; log 14). -/
theorem State.tickBefore_step (op : Op) (h : op.isCompute = false) : s.tickBefore op = s.advanceTimer s.timer.rate := by
  simp [State.tickBefore, h]

/-- The counter's move before a step, for every field but the timer. -/
theorem State.tickBefore_eq (op : Op) : ∃ n, s.tickBefore op = s.advanceTimer n := by
  unfold State.tickBefore
  split
  · refine ⟨0, ?_⟩
    unfold State.advanceTimer
    split <;> rfl
  · exact ⟨_, rfl⟩

@[simp] theorem State.tickBefore_cfg (op : Op) : (s.tickBefore op).cfg = s.cfg := by
  obtain ⟨n, h⟩ := s.tickBefore_eq op; simp [h]
@[simp] theorem State.tickBefore_regs (op : Op) : (s.tickBefore op).regs = s.regs := by
  obtain ⟨n, h⟩ := s.tickBefore_eq op; simp [h]
@[simp] theorem State.tickBefore_seq (op : Op) : (s.tickBefore op).seq = s.seq := by
  obtain ⟨n, h⟩ := s.tickBefore_eq op; simp [h]
@[simp] theorem State.tickBefore_opnd (op : Op) : (s.tickBefore op).opnd = s.opnd := by
  obtain ⟨n, h⟩ := s.tickBefore_eq op; simp [h]
@[simp] theorem State.tickBefore_loc (op : Op) : (s.tickBefore op).loc = s.loc := by
  obtain ⟨n, h⟩ := s.tickBefore_eq op; simp [h]
@[simp] theorem State.tickBefore_mbox (op : Op) : (s.tickBefore op).mbox = s.mbox := by
  obtain ⟨n, h⟩ := s.tickBefore_eq op; simp [h]
@[simp] theorem State.tickBefore_gpio (op : Op) : (s.tickBefore op).gpio = s.gpio := by
  obtain ⟨n, h⟩ := s.tickBefore_eq op; simp [h]
@[simp] theorem State.tickBefore_uart (op : Op) : (s.tickBefore op).uart = s.uart := by
  obtain ⟨n, h⟩ := s.tickBefore_eq op; simp [h]
@[simp] theorem State.tickBefore_ctrl (op : Op) : (s.tickBefore op).ctrl = s.ctrl := by
  obtain ⟨n, h⟩ := s.tickBefore_eq op; simp [h]
@[simp] theorem State.tickBefore_ram (op : Op) : (s.tickBefore op).ram = s.ram := by
  obtain ⟨n, h⟩ := s.tickBefore_eq op; simp [h]
@[simp] theorem State.tickBefore_cycles (op : Op) : (s.tickBefore op).cycles = s.cycles := by
  obtain ⟨n, h⟩ := s.tickBefore_eq op; simp [h]
@[simp] theorem State.tickBefore_trace (op : Op) : (s.tickBefore op).trace = s.trace := by
  obtain ⟨n, h⟩ := s.tickBefore_eq op; simp [h]
@[simp] theorem State.tickBefore_obs (op : Op) : (s.tickBefore op).obs = s.obs := by
  obtain ⟨n, h⟩ := s.tickBefore_eq op; simp [h]
@[simp] theorem State.tickBefore_script (op : Op) : (s.tickBefore op).script = s.script := by
  obtain ⟨n, h⟩ := s.tickBefore_eq op; simp [h]

/-- An engine step has the counter agent's move before it (60_exceptions.md R526; log 14). -/
theorem State.engineStep_step (i : Instr) (op : Op) (rest : List Op) (h : op.isCompute = false) :
    s.engineStep i op rest = (s.advanceTimer s.timer.rate).stepOp i op rest := by
  rw [State.engineStep, s.tickBefore_step op h]

@[simp] theorem State.engineStep_cfg (i : Instr) (op : Op) (rest : List Op) : (s.engineStep i op rest).cfg = s.cfg := by
  simp [State.engineStep]

@[simp] theorem State.engineStep_script (i : Instr) (op : Op) (rest : List Op) : (s.engineStep i op rest).script = s.script := by
  simp [State.engineStep]

@[simp] theorem State.engineStep_opnd (i : Instr) (op : Op) (rest : List Op) : (s.engineStep i op rest).opnd = s.opnd := by
  simp [State.engineStep]

@[simp] theorem State.engineStep_obs (i : Instr) (op : Op) (rest : List Op) : (s.engineStep i op rest).obs = s.obs := by
  simp [State.engineStep]

@[simp] theorem State.engineStep_quiet (i : Instr) (op : Op) (rest : List Op) : (s.engineStep i op rest).quiet = s.quiet := by
  simp [State.quiet]

/-- The turn's marker is used up, or the point was a local computation. -/
theorem State.spendTurn_eq (op : Op) (es : List Event) : s.spendTurn op es = s ∨ s.spendTurn op es = { s with script := es } := by
  unfold State.spendTurn
  split
  · exact .inl rfl
  · exact .inr rfl

@[simp] theorem State.held_idle (h : s.seq = .idle) : s.held = false := by simp [State.held, h]

/-! ## A run of the engine -/

theorem runLoop_idle (n : Nat) (h : s.seq = .idle) : runLoop n s = s := by
  cases n with
  | zero => rfl
  | succ n => simp [runLoop, h]

/-- An undisturbed run makes one move and goes on unless the engine then holds. -/
theorem runLoop_quiet {i : Instr} {op : Op} {rest : List Op} (n : Nat) (hq : s.quiet = true) (h : s.seq = .run i (op :: rest)) :
    runLoop (n + 1) s =
      if (s.engineStep i op rest).held then s.engineStep i op rest else runLoop n (s.engineStep i op rest) := by
  unfold State.quiet at hq
  split at hq
  · simp only [runLoop, *]
  · simp only [runLoop, *]
  · exact absurd hq (by simp)

/-- Induction over a run: what every engine step keeps, and every event of the script, the whole run keeps. -/
theorem runLoop_induction {P : State → Prop}
    (hstep : ∀ s i op rest, P s → s.seq = .run i (op :: rest) → P (s.engineStep i op rest))
    (hmark : ∀ s e es, P s → s.script = e :: es → P { s with script := es })
    (happly : ∀ s i op rest e es, P s → s.seq = .run i (op :: rest) → s.script = e :: es → e.ok s.cfg = true →
      P (State.apply { s with script := es } e)) :
    ∀ n s, P s → P (runLoop n s) := by
  intro n
  induction n with
  | zero => exact fun s h => h
  | succ n ih =>
    intro s hP
    unfold runLoop
    split
    · rename_i i op rest hseq
      split
      · simp only []
        split
        · exact hstep s i op rest hP hseq
        · exact ih _ (hstep s i op rest hP hseq)
      · simp only []
        split
        · exact hstep s i op rest hP hseq
        · exact ih _ (hstep s i op rest hP hseq)
      · rename_i es hes
        simp only []
        apply ih
        split
        · exact hmark _ _ es (hstep s i op rest hP hseq) (by simpa using hes)
        · exact hstep s i op rest hP hseq
      · rename_i es hes
        apply ih
        rcases s.spendTurn_eq op es with h | h <;> rw [h]
        · exact hstep s i op rest hP hseq
        · exact hstep _ i op rest (hmark s _ es hP hes) hseq
      · rename_i e es _ _ _ hes
        split
        · rename_i hok
          exact ih _ (happly s i op rest e es hP hseq hes hok)
        · exact hP
    · exact hP

/-- Induction over an undisturbed run. -/
theorem runLoop_quiet_induction {P : State → Prop}
    (hstep : ∀ s i op rest, P s → s.seq = .run i (op :: rest) → P (s.engineStep i op rest)) :
    ∀ n s, s.quiet = true → P s → P (runLoop n s) := by
  intro n
  induction n with
  | zero => exact fun s _ h => h
  | succ n ih =>
    intro s hq hP
    by_cases h : ∃ i op rest, s.seq = .run i (op :: rest)
    · obtain ⟨i, op, rest, h⟩ := h
      rw [runLoop_quiet s n hq h]
      split
      · exact hstep s i op rest hP h
      · exact ih _ (by simpa using hq) (hstep s i op rest hP h)
    · unfold runLoop
      split
      · exact absurd ⟨_, _, _, ‹_›⟩ h
      · exact hP

/-! ## What a command's execution answers -/

theorem runCommand_refuse (i : Instr) (e : ErrCode) : runCommand i (.refuse e) s = .next (s.raiseError e) := rfl

theorem runCommand_program (i : Instr) (todo : List Op) :
    runCommand i (.program todo) s = .next (runLoop (runBound s) ((s.withLoc {}).goto i todo)) := rfl

end Sys2Proof.Machine
end

