-- ==== Sys2Proof/Laws/Run.lean ====
section
/-! SUPPORT. How programs run undisturbed: a stretch of plain points, a poll that sees its condition, a poll that does not. -/

namespace Sys2Proof.Machine

variable (s : State)

/-! ## Status bits -/

@[simp] theorem Word.bit_setBit (v : Word) (i j : Nat) (b : Bool) (hi : i < 32) :
    (setBit v i b).bit j = if j = i then b else v.bit j := by
  unfold setBit Word.one Word.bit
  by_cases hj : j < 32
  · split
    · simp only [BitVec.getLsbD_or, BitVec.getLsbD_shiftLeft, BitVec.getLsbD_one]
      by_cases h : j = i
      · subst h; simp [*]
      · simp only [h, if_false]
        have : decide (j < 32 ∧ ¬ j < i) = true ∨ j < i := by by_cases h' : j < i <;> simp [hj, h']
        rcases this with h' | h'
        · have : ¬ (j - i = 0) := by simp at h'; omega
          simp [this]
        · simp [h']
    · simp only [BitVec.getLsbD_and, BitVec.getLsbD_not, BitVec.getLsbD_shiftLeft, BitVec.getLsbD_one]
      by_cases h : j = i
      · subst h; simp [*]
      · have h2 : ¬ (i ≤ j ∧ j - i = 0) := by omega
        by_cases h' : j < i
        · simp [h, h', hj]
        · have : ¬ (j - i = 0) := by omega
          simp [h, hj, this]
  · have h1 : j ≠ i := by omega
    simp only [if_neg h1]
    rw [BitVec.getLsbD_of_ge _ _ (by omega), BitVec.getLsbD_of_ge _ _ (by omega)]

/-- FULL is bit MBOX_FULL_BIT of MBOX_STATUS (60_exceptions.md R521). -/
theorem State.mboxStatus_full (f : Word) :
    (s.mboxStatusWord f).bit s.cfg.mboxFullBit.val = decide (s.cfg.mboxFifoDepth ≤ s.mbox.inbound.length) := by
  simp [State.mboxStatusWord]

/-- EMPTY is bit MBOX_EMPTY_BIT of MBOX_STATUS (60_exceptions.md R521). -/
theorem State.mboxStatus_empty (f : Word) (h : s.cfg.mboxFullBit ≠ s.cfg.mboxEmptyBit) :
    (s.mboxStatusWord f).bit s.cfg.mboxEmptyBit.val = s.mbox.outbound.isEmpty := by
  have : s.cfg.mboxEmptyBit.val ≠ s.cfg.mboxFullBit.val := fun h' => h (Fin.ext h'.symm)
  simp [State.mboxStatusWord, this]

/-- Transmitter empty, bit 5 of AUX_MU_LSR (60_exceptions.md R525). -/
theorem State.lsr_txe (f : Word) (h : s.uartEnabled = true) :
    (s.lsrWord f).bit Config.lsrTxeBit.val = decide (s.uart.tx.length < s.cfg.uartFifoDepth) := by
  simp [State.lsrWord, h]

/-- Data ready, bit 0 of AUX_MU_LSR (60_exceptions.md R525). -/
theorem State.lsr_dr (f : Word) (h : s.uartEnabled = true) :
    (s.lsrWord f).bit Config.lsrDrBit.val = !s.uart.rx.isEmpty := by
  simp [State.lsrWord, h, Config.lsrDrBit, Config.lsrTxeBit]

/-! ## A stretch of plain points -/

/-- A point after which the program always goes on with what follows it. -/
def Op.plain : Op → Bool
  | .compute (.sampleBit _) => true
  | .compute _ | .finish _ => false
  | _ => true

/-- A local computation that a hold can stand before (60_exceptions.md R506). -/
def Op.mayHold : Op → Bool
  | .compute (.pollTest _ _ _) | .compute (.nowTest _) | .compute (.nowDone _) => true
  | _ => false

/-- The engine holds only before the test of a poll or of Delay's loop. -/
theorem State.held_of_seq {i : Instr} {todo : List Op} (h : s.seq = .run i todo)
    (ht : ∀ op ∈ todo.head?, op.mayHold = false) : s.held = false := by
  cases hh : s.held with
  | false => rfl
  | true =>
    unfold State.held at hh
    split at hh
    case h_4 => cases hh
    all_goals
      rename_i h1
      rw [h] at h1
      cases h1
      exact absurd (ht _ rfl) (by simp [Op.mayHold])

theorem State.engineStep_plain_seq (i : Instr) (op : Op) (rest : List Op) (h : op.plain = true) :
    (s.engineStep i op rest).seq = .run i rest := by
  cases op with
  | compute c => cases c <;> first | rfl | exact absurd h (by simp [Op.plain])
  | finish f => exact absurd h (by simp [Op.plain])
  | _ => simp [State.engineStep, State.stepOp]

/-- A stretch of plain points that no hold can stand in: each is followed by no test of a poll, and so is the stretch. -/
def Smooth : List Op → List Op → Bool
  | [], _ => true
  | op :: ops, rest => op.plain && (ops ++ rest).head?.all (fun o => !o.mayHold) && Smooth ops rest

theorem Smooth.append {ops ops' rest : List Op} (h : Smooth ops (ops' ++ rest) = true) (h' : Smooth ops' rest = true) :
    Smooth (ops ++ ops') rest = true := by
  induction ops with
  | nil => exact h'
  | cons op ops ih =>
    simp only [Smooth, Bool.and_eq_true, List.cons_append, List.append_assoc] at h ⊢
    exact ⟨h.1, ih h.2⟩

/-- The state after a stretch of plain points, `rest` being what follows the stretch. -/
def State.runOps (s : State) (i : Instr) : List Op → List Op → State
  | [], _ => s
  | op :: ops, rest => (s.engineStep i op (ops ++ rest)).runOps i ops rest

@[simp] theorem State.runOps_nil (i : Instr) (rest : List Op) : s.runOps i [] rest = s := rfl

@[simp] theorem State.runOps_cons (i : Instr) (op : Op) (ops rest : List Op) :
    s.runOps i (op :: ops) rest = (s.engineStep i op (ops ++ rest)).runOps i ops rest := rfl

theorem State.runOps_append (i : Instr) (ops ops' rest : List Op) :
    s.runOps i (ops ++ ops') rest = (s.runOps i ops (ops' ++ rest)).runOps i ops' rest := by
  induction ops generalizing s with
  | nil => rfl
  | cons op ops ih => simp [ih, List.append_assoc]

@[simp] theorem State.runOps_cfg (i : Instr) (ops rest : List Op) : (s.runOps i ops rest).cfg = s.cfg := by
  induction ops generalizing s with
  | nil => rfl
  | cons op ops ih => simp [ih]

@[simp] theorem State.runOps_script (i : Instr) (ops rest : List Op) : (s.runOps i ops rest).script = s.script := by
  induction ops generalizing s with
  | nil => rfl
  | cons op ops ih => simp [ih]

@[simp] theorem State.runOps_quiet (i : Instr) (ops rest : List Op) : (s.runOps i ops rest).quiet = s.quiet := by
  simp [State.quiet]

theorem State.runOps_seq (i : Instr) (ops rest : List Op) (hp : Smooth ops rest = true) (h : s.seq = .run i (ops ++ rest)) :
    (s.runOps i ops rest).seq = .run i rest := by
  induction ops generalizing s with
  | nil => exact h
  | cons op ops ih =>
    simp only [Smooth, Bool.and_eq_true] at hp
    exact ih _ hp.2 (s.engineStep_plain_seq i op _ hp.1.1)

/-- An undisturbed run goes through a stretch of plain points. -/
theorem runLoop_plain (i : Instr) (ops rest : List Op) (n : Nat) (hp : Smooth ops rest = true) (hq : s.quiet = true)
    (h : s.seq = .run i (ops ++ rest)) : runLoop (n + ops.length) s = runLoop n (s.runOps i ops rest) := by
  induction ops generalizing s with
  | nil => rfl
  | cons op ops ih =>
    simp only [Smooth, Bool.and_eq_true] at hp
    have hseq := s.engineStep_plain_seq i op (ops ++ rest) hp.1.1
    rw [List.length_cons, ← Nat.add_assoc, runLoop_quiet s _ hq h,
      if_neg (by simpa using State.held_of_seq _ hseq fun o ho => by simpa [Option.mem_def.1 ho] using hp.1.2)]
    exact ih _ hp.2 (by simpa using hq) hseq

/-! ## Polls and completions -/

/-- A move that leaves no test of a poll ahead goes on. -/
theorem runLoop_go {i : Instr} {op : Op} {rest todo : List Op} (n : Nat) (hq : s.quiet = true) (h : s.seq = .run i (op :: rest))
    (h' : (s.engineStep i op rest).seq = .run i todo) (ht : ∀ o ∈ todo.head?, o.mayHold = false) :
    runLoop (n + 1) s = runLoop n (s.engineStep i op rest) := by
  rw [runLoop_quiet s n hq h, if_neg (by simpa using State.held_of_seq _ h' ht)]

/-- The state after a WaitUntil that has seen its condition at its first read. -/
def State.polled (s : State) (i : Instr) (r : Reg) (rest : List Op) : State :=
  ((s.advanceTimer s.timer.rate).readInto r).goto i rest

/-- A poll that sees its condition goes on (00_scope.md R11). -/
theorem runLoop_poll (i : Instr) (r : Reg) (bit : Fin 32) (level : Bool) (rest : List Op) (n : Nat) (hq : s.quiet = true)
    (h : s.seq = .run i (waitUntil r bit level ++ rest)) (hr : ∀ o ∈ rest.head?, o.mayHold = false)
    (hv : ((s.advanceTimer s.timer.rate).busRead r).1.bit bit.val = level) :
    runLoop (n + 2) s = runLoop n (s.polled i r rest) := by
  have h1 : s.engineStep i (.poll r) (.compute (.pollTest r bit level) :: rest) =
      s.polled i r (.compute (.pollTest r bit level) :: rest) := rfl
  have h2 : (s.polled i r (.compute (.pollTest r bit level) :: rest)).engineStep i (.compute (.pollTest r bit level)) rest =
      s.polled i r rest := by
    rw [State.engineStep_compute]
    simp only [State.compute, State.polled, State.goto_loc, State.readInto_loc, hv, if_true]
    rfl
  have h' : s.seq = .run i (.poll r :: .compute (.pollTest r bit level) :: rest) := h
  rw [show n + 2 = (n + 1) + 1 from rfl, runLoop_quiet s (n + 1) hq h', if_neg, h1,
    runLoop_quiet _ n (by rw [← h1]; simpa using hq) rfl, if_neg, h2]
  · rw [h2]; simpa using State.held_of_seq (s.polled i r rest) rfl hr
  · rw [h1]; simp [State.held, State.polled, hv]

/-- A poll that does not see its condition holds (60_exceptions.md R506). -/
theorem runLoop_poll_hold (i : Instr) (r : Reg) (bit : Fin 32) (level : Bool) (rest : List Op) (n : Nat) (hq : s.quiet = true)
    (h : s.seq = .run i (waitUntil r bit level ++ rest))
    (hv : ((s.advanceTimer s.timer.rate).busRead r).1.bit bit.val ≠ level) :
    runLoop (n + 1) s = s.polled i r (.compute (.pollTest r bit level) :: rest) := by
  rw [runLoop_quiet s n hq h, if_pos]
  · rfl
  · show (s.polled i r (.compute (.pollTest r bit level) :: rest)).held = true
    simp [State.held, State.polled, hv]

/-- A held poll reads again at the engine's next step, whatever happened since (60_exceptions.md R506). -/
theorem runLoop_poll_again (i : Instr) (r : Reg) (bit : Fin 32) (level : Bool) (rest : List Op) (n : Nat) (hq : s.quiet = true)
    (h : s.seq = .run i (.compute (.pollTest r bit level) :: rest)) (hv : s.loc.v.bit bit.val ≠ level) :
    runLoop (n + 1) s = runLoop n (s.goto i (waitUntil r bit level ++ rest)) := by
  have h1 : s.engineStep i (.compute (.pollTest r bit level)) rest = s.goto i (waitUntil r bit level ++ rest) := by
    rw [State.engineStep_compute]
    simp only [State.compute, if_neg hv]
  rw [runLoop_quiet s n hq h, h1, if_neg]
  simpa using State.held_of_seq (s.goto i (waitUntil r bit level ++ rest)) rfl (by simp [waitUntil, Op.mayHold])

/-- The completion step ends the run. -/
theorem runLoop_finish (i : Instr) (f : Finish) (rest : List Op) (n : Nat) (hq : s.quiet = true)
    (h : s.seq = .run i (.finish f :: rest)) : runLoop (n + 1) s = (s.advanceTimer s.timer.rate).complete f := by
  rw [runLoop_quiet s n hq h, if_neg (by simp [State.engineStep, State.stepOp]), runLoop_idle _ _ (by simp [State.engineStep, State.stepOp])]
  rfl

/-- A run of plain points and a completion. -/
theorem runLoop_plain_finish (i : Instr) (ops : List Op) (f : Finish) (n : Nat) (hp : Smooth ops [.finish f] = true) (hq : s.quiet = true)
    (h : s.seq = .run i (ops ++ [.finish f])) :
    runLoop (n + 1 + ops.length) s =
      ((s.runOps i ops [.finish f]).advanceTimer (s.runOps i ops [.finish f]).timer.rate).complete f := by
  rw [runLoop_plain s i ops [.finish f] (n + 1) hp hq h,
    runLoop_finish _ i f [] n (by simpa using hq) (s.runOps_seq i ops [.finish f] hp h)]

/-- The state in which a command's program starts: its first step has decoded and checked it (30_encoding.md R160). -/
def State.started (s : State) (i : Instr) (todo : List Op) : State := (s.withLoc {}).goto i todo

@[simp] theorem State.started_quiet (i : Instr) (todo : List Op) : (s.started i todo).quiet = s.quiet := rfl

/-- A command whose program is plain points and a completion completes. -/
theorem runCommand_plain (i : Instr) (ops : List Op) (f : Finish) (hp : Smooth ops [.finish f] = true) (hq : s.quiet = true)
    (hl : ops.length < 2 ^ 34) :
    ∃ t, t = (s.started i (ops ++ [.finish f])).runOps i ops [.finish f] ∧
      runCommand i (.program (ops ++ [.finish f])) s = .next ((t.advanceTimer t.timer.rate).complete f) := by
  refine ⟨_, rfl, ?_⟩
  obtain ⟨n, hn⟩ : ∃ n, runBound s = n + 1 + ops.length := ⟨runBound s - 1 - ops.length, by unfold runBound; omega⟩
  rw [runCommand_program, hn]
  exact congrArg _ (runLoop_plain_finish (s.started i _) i ops f n hp hq rfl)

/-- A command whose program runs, whatever fuel is left, to a state with only the completion to make, completes. -/
theorem runCommand_of_run (i : Instr) (todo : List Op) (f : Finish) (k : Nat) (t : State) (hq : t.quiet = true)
    (hseq : t.seq = .run i [.finish f]) (hk : k < runBound s)
    (h : ∀ m, runLoop (m + k) (s.started i todo) = runLoop m t) :
    runCommand i (.program todo) s = .next ((t.advanceTimer t.timer.rate).complete f) := by
  obtain ⟨n, hn⟩ : ∃ n, runBound s = n + 1 + k := ⟨runBound s - 1 - k, by omega⟩
  rw [runCommand_program, hn]
  exact congrArg _ ((h (n + 1)).trans (runLoop_finish t i f [] n hq hseq))

end Sys2Proof.Machine
end

