-- ==== Sys2Proof/Laws/Gpio.lean ====
section
/-! SUPPORT. GPIO: what a pull-clock write does to a pin, what ConfigurePin leaves (41_gpio.md R242 to R244; 60_exceptions.md
R523). -/

namespace Sys2Proof.Machine

variable (s : State)

/-! ## Pin bits -/

theorem pinBit_bit (p j : Nat) (hj : j < 32) : (pinBit p).bit j = decide (j = p % 32) := by
  have hp : p % 32 < 32 := Nat.mod_lt _ (by omega)
  simp only [pinBit, Word.bit, Word.one, BitVec.getLsbD_shiftLeft, BitVec.getLsbD_one, hj, decide_true, Bool.true_and]
  by_cases h : j = p % 32
  · simp [h]
  · by_cases h' : j < p % 32
    · simp [h, h']
    · have : ¬ (j - p % 32 = 0) := by omega
      simp [h, this]

@[simp] theorem Word.bit_zero (j : Nat) : Word.bit 0#32 j = false := by simp [Word.bit]

/-- Two pins with the same bank and the same bit are one pin. -/
theorem pin_eq_of_bank (p q : Nat) (hp : p ≤ 53) (hq : q ≤ 53) (hb : pinBank q = pinBank p) (hm : q % 32 = p % 32) : q = p := by
  have h := congrArg Fin.val hb
  simp only [pinBank, Fin.ofNat] at h
  omega

/-! ## Pull states -/

@[simp] theorem pullAfterClock_untouched (c : Config) (now : Nat) (pudAt : Option Nat) (g : Word) (clkAt : Nat) (free pull : Pull) :
    pullAfterClock c now pudAt g clkAt false false free pull = pull := by
  simp [pullAfterClock]

/-- A GPPUD value that asks for a pull gives it, whatever the free pull. -/
theorem pullOfGppud_names (c : Config) (g : Word) (pull free : Pull) (h : c.namesPull g pull) : pullOfGppud c g free = pull := by
  cases pull with
  | off => simp [pullOfGppud, Config.gppudOff, show g = 0#32 from h]
  | down => simp only [pullOfGppud, Config.gppudOff, if_neg h.2, if_pos h.1]
  | up => simp only [pullOfGppud, Config.gppudOff, if_neg h.2.1, if_neg h.2.2, if_pos h.1]

/-- A pin a host write has freed takes the free pull, and every other pin keeps its own. -/
theorem Gpio.freePulls_pullOf (g : Gpio) (n : Fin 2) (clocked f1 f0 : Word) (p : Nat) (hp : p ≤ 53) :
    (g.freePulls n clocked f1 f0).pullOf p =
      if pinBank p = n ∧ clocked.bit (p % 32) = true then freePull (f1.bit (p % 32)) (f0.bit (p % 32)) else g.pullOf p := by
  simp [Gpio.freePulls, Gpio.pullOf, show p < 54 by omega]

/-! ## ConfigurePin -/

/-- What ConfigurePin leaves (41_gpio.md R242, R243). -/
theorem State.runOps_configurePin (i : Instr) (p : Nat) (f : BitVec 3) (rest : List Op) :
    (s.runOps i (configurePin p f) rest).regs = s.regs ∧
      (s.runOps i (configurePin p f) rest).trace = s.trace ++ configureTrace s.cfg p f s.gpio.gpfsel[fselReg p] ∧
      (s.runOps i (configurePin p f) rest).gpio.gpfsel =
        s.gpio.gpfsel.set (fselReg p).val (fselInsert s.gpio.gpfsel[fselReg p] p f) (fselReg p).isLt ∧
      (s.runOps i (configurePin p f) rest).gpio.gppud = 0#32 ∧
      (s.runOps i (configurePin p f) rest).gpio.gppudclk = s.gpio.gppudclk.set (pinBank p).val 0#32 (pinBank p).isLt ∧
      (s.runOps i (configurePin p f) rest).gpio.latch = s.gpio.latch ∧
      (s.runOps i (configurePin p f) rest).uart = s.uart := by
  simp [configurePin, setFunction, pullDisable, State.engineStep, State.stepOp, State.readInto, State.busRead, State.busWrite, State.busSpin,
    State.devRead, State.devWrite, State.devValue, State.readsFree, State.popRead, State.clockPulls, configureTrace,
    Config.gppudOff]

/-- ConfigurePin leaves the pin's pull off (60_exceptions.md R523). -/
theorem State.runOps_configurePin_pull (i : Instr) (p : Nat) (f : BitVec 3) (rest : List Op) :
    (s.runOps i (configurePin p f) rest).gpio.pullOf p = .off := by
  by_cases hp : p < 54
  · have hb : (pinBit p).bit (p % 32) = true := by rw [pinBit_bit _ _ (Nat.mod_lt _ (by omega))]; simp
    simp [configurePin, setFunction, pullDisable, State.engineStep, State.stepOp, State.readInto, State.busRead, State.busWrite, State.busSpin,
      State.devRead, State.devWrite, State.devValue, State.readsFree, State.popRead, State.clockPulls, Config.gppudOff, Gpio.pullOf,
      hp, pullAfterClock, hb, settled, Gpio.settleFrom, pullOfGppud]
  · simp [Gpio.pullOf, hp]

/-- The hold time of every other pin is over when ConfigurePin clears the clock register, so no other pin's pull changes
(41_gpio.md R244). -/
theorem State.runOps_configurePin_other (i : Instr) (p q : Nat) (f : BitVec 3) (rest : List Op) (hp : p ≤ 53) (hq : q < 54)
    (hne : q ≠ p) (hc : s.gpio.clkAt[q] ≤ s.cycles) :
    (s.runOps i (configurePin p f) rest).gpio.pullOf q = s.gpio.pullOf q := by
  by_cases hb : pinBank q = pinBank p
  · have hm : ¬ q % 32 = p % 32 := fun h => hne (pin_eq_of_bank p q hp (by omega) hb h)
    have h0 : (pinBit p).bit (q % 32) = false := by rw [pinBit_bit _ _ (Nat.mod_lt _ (by omega))]; simp [hm]
    simp [configurePin, setFunction, pullDisable, State.engineStep, State.stepOp, State.readInto, State.busRead, State.busWrite,
      State.busSpin_cycles, State.devRead, State.devWrite, State.devValue, State.readsFree, State.popRead, State.clockPulls,
      Config.gppudOff, Gpio.pullOf, pullAfterClock, hq, hb, h0, hc]
  · simp [configurePin, setFunction, pullDisable, State.engineStep, State.stepOp, State.readInto, State.busRead, State.busWrite,
      State.busSpin, State.devRead, State.devWrite, State.devValue, State.readsFree, State.popRead, State.clockPulls,
      Config.gppudOff, Gpio.pullOf, hq, hb]

end Sys2Proof.Machine
end

