-- ==== Sys2Proof/Laws/Timer.lean ====
section
/-! SUPPORT. The timer: what the reads of CLO and CHI return, how Now() and Delay() run on a running counter (43_timer.md R320,
R322). -/

namespace Sys2Proof.Machine

variable (s : State)

/-! ## The counter -/

/-- The counter moved by n with a timer present (60_exceptions.md R526). -/
theorem State.advanceTimer_present (n : Nat) (h : s.cfg.timerPresent = true) :
    s.advanceTimer n = { s with timer := { s.timer with count := s.timer.count + n } } := by
  simp [State.advanceTimer, h]

theorem State.counter_present (hp : s.cfg.timerPresent = true) (hc : s.timer.count < 2 ^ 64) :
    s.counter = some (BitVec.ofNat 64 s.timer.count) := by
  simp only [State.counter, hp, hc]
  simp

/-- CHI reads the high word of the counter, with no side effect but the trace (60_exceptions.md R526). -/
theorem State.busRead_chi (c : BitVec 64) (h : s.counter = some c) :
    s.busRead .systmrChi =
      (c.extractLsb' 32 32, s.record (.rd (Reg.systmrChi.addr s.cfg) 4 (c.extractLsb' 32 32))) := by
  simp [State.busRead, State.devRead, State.devValue, State.readsFree, State.popRead, State.chiWord, h]

/-- CLO reads the low word of the counter, with no side effect but the trace (60_exceptions.md R526). -/
theorem State.busRead_clo (c : BitVec 64) (h : s.counter = some c) :
    s.busRead .systmrClo =
      (c.extractLsb' 0 32, s.record (.rd (Reg.systmrClo.addr s.cfg) 4 (c.extractLsb' 0 32))) := by
  simp [State.busRead, State.devRead, State.devValue, State.readsFree, State.popRead, State.cloWord, h]

/-! ## Halves of a 64-bit value -/

theorem halves_append (c : BitVec 64) : (c.extractLsb' 32 32 ++ c.extractLsb' 0 32 : BitVec 64) = c := by
  apply BitVec.eq_of_getLsbD_eq
  intro j hj
  simp only [BitVec.getLsbD_append, BitVec.getLsbD_extractLsb']
  split
  · rename_i h; simp [h]
  · rename_i h
    have h1 : j - 32 < 32 := by omega
    simp only [h1, decide_true, Bool.true_and]
    congr 1; omega

theorem high_eq_iff (a b : Nat) (ha : a < 2 ^ 64) (hb : b < 2 ^ 64) :
    (BitVec.ofNat 64 a).extractLsb' 32 32 = (BitVec.ofNat 64 b).extractLsb' 32 32 ↔ a / 2 ^ 32 = b / 2 ^ 32 := by
  rw [← BitVec.toNat_inj]
  simp only [BitVec.extractLsb'_toNat, BitVec.toNat_ofNat, Nat.shiftRight_eq_div_pow]
  rw [Nat.mod_eq_of_lt ha, Nat.mod_eq_of_lt hb, Nat.mod_eq_of_lt (by omega), Nat.mod_eq_of_lt (by omega)]

/-- The halves of two counter values with the same high word make the value the low word is of. -/
theorem halves_mix (a b : Nat) (ha : a < 2 ^ 64) (hb : b < 2 ^ 64) (h : a / 2 ^ 32 = b / 2 ^ 32) :
    ((BitVec.ofNat 64 a).extractLsb' 32 32 ++ (BitVec.ofNat 64 b).extractLsb' 0 32 : BitVec 64) = BitVec.ofNat 64 b := by
  rw [(high_eq_iff a b ha hb).2 h, halves_append]

/-! ## Now() -/

/-- The state after k engine steps at points that read the counter only. -/
def State.atCounter (s : State) (i : Instr) (todo : List Op) (l : Locals) (c : Nat) (tr : List BusEvent) : State :=
  { s with seq := .run i todo, loc := l, timer := { s.timer with count := c }, trace := tr }

@[simp] theorem State.atCounter_quiet (i : Instr) (todo : List Op) (l : Locals) (c : Nat) (tr : List BusEvent) :
    (s.atCounter i todo l c tr).quiet = s.quiet := rfl

/-- The event of a read of CHI at the next engine step. -/
def State.chiEvent (s : State) : BusEvent :=
  .rd (Reg.systmrChi.addr s.cfg) 4 ((BitVec.ofNat 64 (s.timer.count + s.timer.rate)).extractLsb' 32 32)

/-- The event of a read of CLO at the next engine step. -/
def State.cloEvent (s : State) : BusEvent :=
  .rd (Reg.systmrClo.addr s.cfg) 4 ((BitVec.ofNat 64 (s.timer.count + s.timer.rate)).extractLsb' 0 32)

theorem State.engineStep_chiRead (i : Instr) (rest : List Op) (hp : s.cfg.timerPresent = true)
    (hc : s.timer.count + s.timer.rate < 2 ^ 64) :
    s.engineStep i .chiRead rest =
      s.atCounter i rest { s.loc with hi := (BitVec.ofNat 64 (s.timer.count + s.timer.rate)).extractLsb' 32 32 }
        (s.timer.count + s.timer.rate) (s.trace ++ [s.chiEvent]) := by
  unfold State.engineStep
  rw [s.tickBefore_step _ rfl, s.advanceTimer_present _ hp]
  simp only [State.stepOp]
  rw [State.busRead_chi _ _ (State.counter_present _ (by exact hp) (by exact hc))]
  rfl

theorem State.engineStep_cloRead (i : Instr) (rest : List Op) (hp : s.cfg.timerPresent = true)
    (hc : s.timer.count + s.timer.rate < 2 ^ 64) :
    s.engineStep i .cloRead rest =
      s.atCounter i rest { s.loc with lo := (BitVec.ofNat 64 (s.timer.count + s.timer.rate)).extractLsb' 0 32 }
        (s.timer.count + s.timer.rate) (s.trace ++ [s.cloEvent]) := by
  unfold State.engineStep
  rw [s.tickBefore_step _ rfl, s.advanceTimer_present _ hp]
  simp only [State.stepOp]
  rw [State.busRead_clo _ _ (State.counter_present _ (by exact hp) (by exact hc))]
  rfl

theorem State.engineStep_chiCheck (i : Instr) (rest : List Op) (hp : s.cfg.timerPresent = true)
    (hc : s.timer.count + s.timer.rate < 2 ^ 64) :
    s.engineStep i .chiCheck rest =
      s.atCounter i rest { s.loc with v := (BitVec.ofNat 64 (s.timer.count + s.timer.rate)).extractLsb' 32 32 }
        (s.timer.count + s.timer.rate) (s.trace ++ [s.chiEvent]) := by
  unfold State.engineStep
  rw [s.tickBefore_step _ rfl, s.advanceTimer_present _ hp]
  simp only [State.stepOp, State.readInto]
  rw [State.busRead_chi _ _ (State.counter_present _ (by exact hp) (by exact hc))]
  rfl

/-- The hidden values after a finished Now(): `v` is the last CHI read of its check. -/
def Locals.afterNow (l : Locals) (u : NowUse) (hi lo v : Word) : Locals :=
  { l with hi := hi, lo := lo, v := v, t0 := t0After u (hi ++ lo) l.t0 }

/-- The test of Now() when the high word has not changed (43_timer.md R320). -/
theorem State.engineStep_nowTest_same (i : Instr) (u : NowUse) (rest : List Op) (h : s.loc.v = s.loc.hi) :
    s.engineStep i (.compute (.nowTest u)) rest =
      s.atCounter i (Machine.afterNow u (s.loc.hi ++ s.loc.lo) s.loc.t0 rest)
        (s.loc.afterNow u s.loc.hi s.loc.lo s.loc.v) s.timer.count s.trace := by
  rw [State.engineStep_compute]
  simp only [State.compute, if_pos h]
  rfl

/-- The test of Now() when the high word has changed: the retry (R320). -/
theorem State.engineStep_nowTest_changed (i : Instr) (u : NowUse) (rest : List Op) (h : s.loc.v ≠ s.loc.hi) :
    s.engineStep i (.compute (.nowTest u)) rest = s.atCounter i (nowRetry u ++ rest) s.loc s.timer.count s.trace := by
  rw [State.engineStep_compute]
  simp only [State.compute, if_neg h]
  rfl

/-- The end of a retried Now() (R320). -/
theorem State.engineStep_nowDone (i : Instr) (u : NowUse) (rest : List Op) :
    s.engineStep i (.compute (.nowDone u)) rest =
      s.atCounter i (Machine.afterNow u (s.loc.hi ++ s.loc.lo) s.loc.t0 rest)
        (s.loc.afterNow u s.loc.hi s.loc.lo s.loc.v) s.timer.count s.trace := rfl

/-- A running counter holds no Now(), so only the test of a WaitUntil can. -/
theorem State.held_running (t : State) (h : 0 < t.timer.rate)
    (hp : ∀ i r b l rest, t.seq ≠ .run i (.compute (.pollTest r b l) :: rest)) : t.held = false := by
  have h0 : t.timer.rate ≠ 0 := by omega
  unfold State.held
  split
  · rename_i h1; exact absurd h1 (hp _ _ _ _ _)
  · simp [h0]
  · simp [h0]
  · rfl

/-- One move of the engine that does not hold. -/
theorem runLoop_step {i : Instr} {op : Op} {rest : List Op} {t : State} (n : Nat) (hq : s.quiet = true)
    (h : s.seq = .run i (op :: rest)) (ht : s.engineStep i op rest = t) (hh : t.held = false) :
    runLoop (n + 1) s = runLoop n t := by
  rw [runLoop_quiet s n hq h, ht, if_neg (by simp [hh])]

/-- A head of a program that is no test of a WaitUntil. -/
def noPoll (todo : List Op) : Prop := ∀ r b l rest, todo ≠ .compute (.pollTest r b l) :: rest

theorem State.held_atCounter (i : Instr) (todo : List Op) (l : Locals) (c : Nat) (tr : List BusEvent) (h : 0 < s.timer.rate)
    (ht : noPoll todo) : (s.atCounter i todo l c tr).held = false :=
  State.held_running _ h fun j r b lv rest he => ht r b lv rest (by
    have : (s.atCounter i todo l c tr).seq = .run i todo := rfl
    rw [this] at he
    injection he)

theorem noPoll_afterNow (u : NowUse) (t t0 : BitVec 64) (rest : List Op) (h : noPoll rest) : noPoll (afterNow u t t0 rest) := by
  intro r b l rest'
  unfold afterNow
  cases u <;> simp only [] <;> (try split) <;> first | exact h r b l rest' | simp [nowOps]

/-- Now() on a running counter that moves by less than 2^32 meanwhile: three reads, and the counter at the second; or five after a
carry, and the counter at the last (43_timer.md R320, R321). It takes `k` steps in `m` moves. -/
theorem runLoop_now (i : Instr) (u : NowUse) (rest : List Op) (hq : s.quiet = true) (hseq : s.seq = .run i (nowOps u ++ rest))
    (hp : s.cfg.timerPresent = true) (hr : 0 < s.timer.rate) (h4 : 4 * s.timer.rate < 2 ^ 32)
    (hc : s.timer.count + 5 * s.timer.rate < 2 ^ 64) (hrest : noPoll rest) :
    ∃ k m v tr hi lo w,
      (k = 3 ∧ m = 4 ∧ v = s.timer.count + 2 * s.timer.rate ∨ k = 5 ∧ m = 7 ∧ v = s.timer.count + 5 * s.timer.rate) ∧
      (hi ++ lo : BitVec 64) = BitVec.ofNat 64 v ∧
      ∀ n, runLoop (n + m) s =
        runLoop n
          (s.atCounter i (afterNow u (BitVec.ofNat 64 v) s.loc.t0 rest) (s.loc.afterNow u hi lo w)
            (s.timer.count + k * s.timer.rate) (s.trace ++ tr)) := by
  have h1 := s.engineStep_chiRead i ([.cloRead, .chiCheck, .compute (.nowTest u)] ++ rest) hp (by omega)
  set s1 := s.atCounter i ([.cloRead, .chiCheck, .compute (.nowTest u)] ++ rest) _ _ _ with hs1
  have h2 := s1.engineStep_cloRead i ([.chiCheck, .compute (.nowTest u)] ++ rest) hp
    (by simp only [hs1, State.atCounter]; omega)
  set s2 := s1.atCounter i ([.chiCheck, .compute (.nowTest u)] ++ rest) _ _ _ with hs2
  have c2 : s2.timer.count + s2.timer.rate = s.timer.count + 3 * s.timer.rate := by
    simp only [hs2, hs1, State.atCounter]; omega
  have h3 := s2.engineStep_chiCheck i ([.compute (.nowTest u)] ++ rest) hp (by rw [c2]; omega)
  rw [c2] at h3
  set s3 := s2.atCounter i ([.compute (.nowTest u)] ++ rest) _ _ _ with hs3
  have r123 : ∀ n, runLoop (n + 3) s = runLoop n s3 := fun n => by
    rw [runLoop_step s (n + 2) hq hseq h1 (s.held_atCounter i _ _ _ _ hr (by intro r b l rest'; simp)),
      runLoop_step s1 (n + 1) (by exact hq) rfl h2 (s1.held_atCounter i _ _ _ _ hr (by intro r b l rest'; simp)),
      runLoop_step s2 n (by exact hq) rfl h3 (s2.held_atCounter i _ _ _ _ hr (by intro r b l rest'; simp))]
  have hhi : s3.loc.hi = (BitVec.ofNat 64 (s.timer.count + s.timer.rate)).extractLsb' 32 32 := rfl
  have hv3 : s3.loc.v = (BitVec.ofNat 64 (s.timer.count + 3 * s.timer.rate)).extractLsb' 32 32 := rfl
  have hlo : s3.loc.lo = (BitVec.ofNat 64 (s.timer.count + 2 * s.timer.rate)).extractLsb' 0 32 := by
    simp only [hs3, hs2, hs1, State.atCounter]; congr 2; omega
  by_cases hsame : (s.timer.count + s.timer.rate) / 2 ^ 32 = (s.timer.count + 3 * s.timer.rate) / 2 ^ 32
  · have hmid : (s.timer.count + s.timer.rate) / 2 ^ 32 = (s.timer.count + 2 * s.timer.rate) / 2 ^ 32 := by omega
    have hv : (s3.loc.hi ++ s3.loc.lo : BitVec 64) = BitVec.ofNat 64 (s.timer.count + 2 * s.timer.rate) := by
      rw [hhi, hlo]
      exact halves_mix _ _ (by omega) (by omega) hmid
    have h4' := s3.engineStep_nowTest_same i u rest (by
      rw [hv3, hhi]; exact ((high_eq_iff _ _ (by omega) (by omega)).2 hsame).symm)
    refine ⟨3, 4, _, [s.chiEvent, s1.cloEvent, s2.chiEvent], s3.loc.hi, s3.loc.lo, s3.loc.v, .inl ⟨rfl, rfl, rfl⟩, hv,
      fun n => ?_⟩
    rw [show n + 4 = n + 1 + 3 by omega, r123,
      runLoop_step s3 n (by exact hq) rfl h4' (s3.held_atCounter i _ _ _ _ hr (noPoll_afterNow _ _ _ _ hrest)), ← hv]
    simp [hs3, hs2, hs1, State.atCounter, Locals.afterNow]
  · have h4' := s3.engineStep_nowTest_changed i u rest (by
      rw [hv3, hhi]; exact fun h => hsame ((high_eq_iff _ _ (by omega) (by omega)).1 h).symm)
    set s4 := s3.atCounter i (nowRetry u ++ rest) _ _ _ with hs4
    have h5 := s4.engineStep_chiRead i ([.cloRead, .compute (.nowDone u)] ++ rest) hp
      (by simp only [hs4, hs3, hs2, hs1, State.atCounter]; omega)
    set s5 := s4.atCounter i ([.cloRead, .compute (.nowDone u)] ++ rest) _ _ _ with hs5
    have c5 : s5.timer.count + s5.timer.rate = s.timer.count + 5 * s.timer.rate := by
      simp only [hs5, hs4, hs3, hs2, hs1, State.atCounter]; omega
    have h6 := s5.engineStep_cloRead i ([.compute (.nowDone u)] ++ rest) hp (by rw [c5]; omega)
    rw [c5] at h6
    set s6 := s5.atCounter i ([.compute (.nowDone u)] ++ rest) _ _ _ with hs6
    have h7 := s6.engineStep_nowDone i u rest
    have hhi6 : s6.loc.hi = (BitVec.ofNat 64 (s.timer.count + 4 * s.timer.rate)).extractLsb' 32 32 := by
      simp only [hs6, hs5, hs4, hs3, hs2, hs1, State.atCounter]; congr 2; omega
    have hlo6 : s6.loc.lo = (BitVec.ofNat 64 (s.timer.count + 5 * s.timer.rate)).extractLsb' 0 32 := rfl
    have hv : (s6.loc.hi ++ s6.loc.lo : BitVec 64) = BitVec.ofNat 64 (s.timer.count + 5 * s.timer.rate) := by
      rw [hhi6, hlo6]
      have q1 : (s.timer.count + 5 * s.timer.rate) / 2 ^ 32 ≤ (s.timer.count + s.timer.rate) / 2 ^ 32 + 1 := by omega
      have q2 : (s.timer.count + 3 * s.timer.rate) / 2 ^ 32 ≤ (s.timer.count + 4 * s.timer.rate) / 2 ^ 32 :=
        Nat.div_le_div_right (by omega)
      have q3 : (s.timer.count + s.timer.rate) / 2 ^ 32 ≤ (s.timer.count + 3 * s.timer.rate) / 2 ^ 32 :=
        Nat.div_le_div_right (by omega)
      have q4 : (s.timer.count + 4 * s.timer.rate) / 2 ^ 32 ≤ (s.timer.count + 5 * s.timer.rate) / 2 ^ 32 :=
        Nat.div_le_div_right (by omega)
      exact halves_mix _ _ (by omega) (by omega) (by omega)
    refine ⟨5, 7, _, [s.chiEvent, s1.cloEvent, s2.chiEvent, s4.chiEvent, s5.cloEvent], s6.loc.hi, s6.loc.lo, s6.loc.v,
      .inr ⟨rfl, rfl, rfl⟩, hv, fun n => ?_⟩
    rw [show n + 7 = n + 1 + 1 + 1 + 1 + 3 by omega, r123,
      runLoop_step s3 _ (by exact hq) rfl h4' (s3.held_atCounter i _ _ _ _ hr (by intro r b l rest'; simp [nowRetry])),
      runLoop_step s4 _ (by exact hq) rfl h5 (s4.held_atCounter i _ _ _ _ hr (by intro r b l rest'; simp)),
      runLoop_step s5 _ (by exact hq) rfl h6 (s5.held_atCounter i _ _ _ _ hr (by intro r b l rest'; simp)),
      runLoop_step s6 _ (by exact hq) rfl h7 (s6.held_atCounter i _ _ _ _ hr (noPoll_afterNow _ _ _ _ hrest)), hv]
    simp [hs6, hs5, hs4, hs3, hs2, hs1, State.atCounter, Locals.afterNow]

/-! ## Delay() -/

/-- The hidden values a Delay leaves: it changes hi, lo, v and t0 only. -/
def Locals.withTimes (l : Locals) (hi lo v : Word) (t0 : BitVec 64) : Locals := { l with hi := hi, lo := lo, v := v, t0 := t0 }

/-- The loop of Delay(n) on a running counter ends, at or past `t0 + n` (43_timer.md R322), after `k` steps in `m` moves. -/
theorem runLoop_delayAgain (i : Instr) (n : Word) (rest : List Op) (hrest : noPoll rest) (d : Nat) :
    ∀ (s : State), s.quiet = true →
    s.seq = .run i (nowOps (.delayAgain n) ++ rest) → s.cfg.timerPresent = true → 0 < s.timer.rate →
    4 * s.timer.rate < 2 ^ 32 → s.loc.t0.toNat + n.toNat ≤ s.timer.count + d →
    max s.timer.count (s.loc.t0.toNat + n.toNat + s.timer.rate) + 5 * s.timer.rate < 2 ^ 64 →
    ∃ k m hi lo w tr, m ≤ 2 * k ∧ s.loc.t0.toNat + n.toNat ≤ s.timer.count + k * s.timer.rate ∧
      s.timer.count + k * s.timer.rate ≤
        max s.timer.count (s.loc.t0.toNat + n.toNat + s.timer.rate) + 5 * s.timer.rate ∧
      ∀ j, runLoop (j + m) s =
        runLoop j
          (s.atCounter i rest (s.loc.withTimes hi lo w s.loc.t0) (s.timer.count + k * s.timer.rate) (s.trace ++ tr)) := by
  induction d using Nat.strong_induction_on with
  | _ d ih =>
    intro s hq hseq hp hr h4 hd hb
    obtain ⟨k, m, v, tr, hi, lo, w, hk, hv, hrun⟩ := runLoop_now s i (.delayAgain n) rest hq hseq hp hr h4 (by omega) hrest
    have hv64 : v < 2 ^ 64 := by omega
    have hvt : (BitVec.ofNat 64 v).toNat = v := by simpa using hv64
    by_cases hdone : s.loc.t0.toNat + n.toNat ≤ v
    · refine ⟨k, m, hi, lo, w, tr, by omega, ?_, ?_, fun j => ?_⟩
      · rcases hk with ⟨rfl, _, rfl⟩ | ⟨rfl, _, rfl⟩ <;> omega
      · rcases hk with ⟨rfl, _, rfl⟩ | ⟨rfl, _, rfl⟩ <;> omega
      · rw [hrun j]
        simp only [afterNow, hvt, if_pos hdone]
        rfl
    · set s' := s.atCounter i (afterNow (.delayAgain n) (BitVec.ofNat 64 v) s.loc.t0 rest)
        (s.loc.afterNow (.delayAgain n) hi lo w) (s.timer.count + k * s.timer.rate) (s.trace ++ tr) with hs'
      have hcount : s'.timer.count = s.timer.count + k * s.timer.rate := rfl
      have hrate : s'.timer.rate = s.timer.rate := rfl
      have ht0 : s'.loc.t0 = s.loc.t0 := rfl
      have hkr : 3 * s.timer.rate ≤ k * s.timer.rate ∧ k * s.timer.rate ≤ 5 * s.timer.rate ∧
          s.timer.count + k * s.timer.rate ≤ v + s.timer.rate := by
        rcases hk with ⟨rfl, _, rfl⟩ | ⟨rfl, _, rfl⟩ <;> omega
      have hseq' : s'.seq = .run i (nowOps (.delayAgain n) ++ rest) := by
        simp only [hs', State.atCounter, afterNow, hvt, if_neg hdone]
      obtain ⟨k', m', hi', lo', w', tr', hm, h1, h2, h3⟩ := ih (d - 1) (by omega) s' hq hseq' hp hr h4
        (by rw [hcount, ht0]; omega) (by rw [hcount, ht0, hrate]; omega)
      rw [hcount, hrate, ht0] at h1 h2
      have hadd : s.timer.count + (k + k') * s.timer.rate = s.timer.count + k * s.timer.rate + k' * s.timer.rate := by
        rw [Nat.add_mul]; omega
      refine ⟨k + k', m + m', hi', lo', w', tr ++ tr', by omega, ?_, ?_, fun j => ?_⟩
      · rw [hadd]; exact h1
      · rw [hadd]; omega
      · rw [show j + (m + m') = j + m' + m by omega, hrun, h3 j, hadd]
        simp [hs', State.atCounter, Locals.withTimes, Locals.afterNow, t0After]

/-- Delay(n) on a running counter ends after at least n microseconds, and changes nothing but the counter, hi, lo, v, t0 and the
trace (43_timer.md R322). It takes `k` steps in `m` moves. -/
theorem runLoop_delay (i : Instr) (n : Word) (rest : List Op) (hrest : noPoll rest) (hq : s.quiet = true)
    (hseq : s.seq = .run i (delayOps n ++ rest))
    (hp : s.cfg.timerPresent = true) (hr : 0 < s.timer.rate) (h4 : 4 * s.timer.rate < 2 ^ 32)
    (hb : s.timer.count + n.toNat + 11 * s.timer.rate < 2 ^ 64) :
    ∃ k m hi lo w t0 tr, m ≤ 2 * k ∧ s.timer.count + n.toNat ≤ s.timer.count + k * s.timer.rate ∧
      s.timer.count + k * s.timer.rate ≤ s.timer.count + n.toNat + 11 * s.timer.rate ∧
      ∀ j, runLoop (j + m) s =
        runLoop j (s.atCounter i rest (s.loc.withTimes hi lo w t0) (s.timer.count + k * s.timer.rate) (s.trace ++ tr)) := by
  obtain ⟨k, m, v, tr, hi, lo, w, hk, hv, hrun⟩ := runLoop_now s i (.delayFirst n) rest hq hseq hp hr h4 (by omega) hrest
  have hv64 : v < 2 ^ 64 := by omega
  have hvt : (BitVec.ofNat 64 v).toNat = v := by simpa using hv64
  have hne : BitVec.ofNat 64 v ≠ 0#64 := by
    intro h
    have := congrArg BitVec.toNat h
    rw [hvt] at this
    simp at this
    omega
  set s' := s.atCounter i (afterNow (.delayFirst n) (BitVec.ofNat 64 v) s.loc.t0 rest)
    (s.loc.afterNow (.delayFirst n) hi lo w) (s.timer.count + k * s.timer.rate) (s.trace ++ tr) with hs'
  have hcount : s'.timer.count = s.timer.count + k * s.timer.rate := rfl
  have hrate : s'.timer.rate = s.timer.rate := rfl
  have ht0 : s'.loc.t0.toNat = v := by
    simp only [hs', State.atCounter, Locals.afterNow, t0After, hv, hvt]
  have hseq' : s'.seq = .run i (nowOps (.delayAgain n) ++ rest) := by
    simp only [hs', State.atCounter, afterNow, if_neg hne]
  have hkr : s.timer.count + k * s.timer.rate ≤ v + s.timer.rate ∧ v ≤ s.timer.count + k * s.timer.rate ∧
      v ≤ s.timer.count + 5 * s.timer.rate ∧ s.timer.count ≤ v := by
    rcases hk with ⟨rfl, _, rfl⟩ | ⟨rfl, _, rfl⟩ <;> omega
  obtain ⟨k', m', hi', lo', w', tr', hm, h1, h2, h3⟩ := runLoop_delayAgain i n rest hrest (v + n.toNat) s' hq hseq' hp hr h4
    (by rw [hcount, ht0]; omega) (by rw [hcount, ht0, hrate]; omega)
  rw [hcount, hrate, ht0] at h1 h2
  have hadd : s.timer.count + (k + k') * s.timer.rate = s.timer.count + k * s.timer.rate + k' * s.timer.rate := by
    rw [Nat.add_mul]; omega
  refine ⟨k + k', m + m', hi', lo', w', s'.loc.t0, tr ++ tr', by omega, ?_, ?_, fun j => ?_⟩
  · rw [hadd]; omega
  · rw [hadd]; omega
  · rw [show j + (m + m') = j + m' + m by omega, hrun, h3 j, hadd]
    simp [hs', State.atCounter, Locals.withTimes, Locals.afterNow]

end Sys2Proof.Machine
end

