-- ==== Sys2Proof/Laws/Controller.lean ====
section
/-! SUPPORT. The controller peripheral behind LATCH, CLOCK and DATA: what driving a line and reading DATA do, and one bit of
CTRL.SAMPLE (44_controller.md R371; 60_exceptions.md R534). -/

namespace Sys2Proof.Machine

variable (s : State)

/-! ## Output latch bits -/

theorem bankPins_bit (n : Fin 2) (v : Word) (p : Nat) (hp : p ≤ 53) :
    (bankPins n v).getLsbD p = (decide (pinBank p = n) && v.bit (p % 32)) := by
  have hn : pinBank p = n ↔ p / 32 = n.val := by
    constructor
    · intro h
      have := congrArg Fin.val h
      simp only [pinBank, Fin.ofNat] at this
      omega
    · intro h
      apply Fin.ext
      simp only [pinBank, Fin.ofNat]
      omega
  have hlt := n.isLt
  simp only [bankPins, BitVec.getLsbD_shiftLeft, BitVec.getLsbD_setWidth, Word.bit]
  by_cases h : p / 32 = n.val
  · have h1 : ¬ p < 32 * n.val := by omega
    have h2 : p - 32 * n.val = p % 32 := by omega
    have h3 : p < 54 := by omega
    have h4 : p % 32 < 54 := by omega
    simp [hn, h, h1, h2, h3, h4]
  · simp only [hn, h, decide_false, Bool.false_and]
    by_cases h1 : p < 32 * n.val
    · simp [h1]
    · have : 32 ≤ p - 32 * n.val := by omega
      simp [BitVec.getLsbD_of_ge v _ this]

theorem bankPins_pinBit (p q : Nat) (hp : p ≤ 53) (hq : q ≤ 53) :
    (bankPins (pinBank p) (pinBit p)).getLsbD q = decide (q = p) := by
  rw [bankPins_bit _ _ _ hq, pinBit_bit _ _ (Nat.mod_lt _ (by omega))]
  by_cases h : q = p
  · simp [h]
  · by_cases hb : pinBank q = pinBank p
    · have : q % 32 ≠ p % 32 := fun hm => h (pin_eq_of_bank p q hp hq hb hm)
      simp [h, this]
    · simp [h, hb]

/-- The latch with pin p driven to a level. -/
def driveLatch (b : BitVec 54) (p : Nat) (high : Bool) : BitVec 54 :=
  if high then b ||| bankPins (pinBank p) (pinBit p) else b &&& ~~~(bankPins (pinBank p) (pinBit p))

theorem pinLevel_driveLatch (b : BitVec 54) (p q : Nat) (high : Bool) (hp : p ≤ 53) (hq : q ≤ 53) :
    pinLevel (driveLatch b p high) q = if q = p then high else pinLevel b q := by
  have hq' : q < 54 := by omega
  have hb := bankPins_pinBit p q hp hq
  unfold driveLatch pinLevel
  cases high
  · simp only [Bool.false_eq_true, if_false, BitVec.getLsbD_and, BitVec.getLsbD_not, hb, hq']
    by_cases h : q = p <;> simp [h]
  · simp only [if_true, BitVec.getLsbD_or, hb]
    by_cases h : q = p <;> simp [h]

/-! ## Driving a line -/

/-- The engine's write that drives pin p to a level (44_controller.md R360). -/
def driveOp (p : Nat) (high : Bool) : Op := if high then driveHigh p else driveLow p

/-- The peripheral after the engine drove a pin, LATCH and CLOCK being outputs. -/
def Ctrl.follow (c : Ctrl) (now : Nat) (latch clock : Bool) : Ctrl := ((c.onLatch now (some latch)).onClock now (some clock)).onFloat

/-- Driving an output pin changes the latch, and the peripheral follows (60_exceptions.md R523, R534). -/
theorem State.engineStep_drive (i : Instr) (p : Nat) (high : Bool) (rest : List Op)
    (hl : s.pinFunction s.cfg.pinLatch = s.cfg.fselOutput) (hk : s.pinFunction s.cfg.pinClock = s.cfg.fselOutput)
    (hp : s.cfg.timerPresent = true) :
    ∃ e, s.engineStep i (driveOp p high) rest =
      { s with
        seq := .run i rest
        timer := { s.timer with count := s.timer.count + s.timer.rate }
        gpio := { s.gpio with latch := driveLatch s.gpio.latch p high }
        ctrl := s.ctrl.follow (s.timer.count + s.timer.rate)
          (pinLevel (driveLatch s.gpio.latch p high) s.cfg.pinLatch) (pinLevel (driveLatch s.gpio.latch p high) s.cfg.pinClock)
        trace := s.trace ++ [e] } := by
  have hl' : fselField (s.gpio.gpfsel[(fselReg s.cfg.pinLatch).val]) s.cfg.pinLatch = s.cfg.fselOutput := hl
  have hk' : fselField (s.gpio.gpfsel[(fselReg s.cfg.pinClock).val]) s.cfg.pinClock = s.cfg.fselOutput := hk
  cases high
  · refine ⟨.wr ((Reg.gpclr (pinBank p)).addr s.cfg) 4 (pinBit p), ?_⟩
    rw [s.engineStep_step i _ rest rfl, s.advanceTimer_present _ hp]
    simp [driveOp, driveLow, State.stepOp, State.busWrite, State.devWrite,
      State.watchLines, State.record, State.goto, State.padLevel, State.pinFunction, hl', hk', driveLatch, Ctrl.follow]
  · refine ⟨.wr ((Reg.gpset (pinBank p)).addr s.cfg) 4 (pinBit p), ?_⟩
    rw [s.engineStep_step i _ rest rfl, s.advanceTimer_present _ hp]
    simp [driveOp, driveHigh, State.stepOp, State.busWrite, State.devWrite,
      State.watchLines, State.record, State.goto, State.padLevel, State.pinFunction, hl', hk', driveLatch, Ctrl.follow]

/-! ## Reading DATA -/

/-- GPLEV shows the level of a pin at its bit (60_exceptions.md R522). -/
theorem State.levelWord_bit (f : Word) (p : Nat) (hp : p ≤ 53) :
    (s.levelWord f (pinBank p)).bit (p % 32) = s.readLevel f p := by
  have h32 : p % 32 < 32 := Nat.mod_lt _ (by omega)
  have hb : 32 * (pinBank p).val + p % 32 = p := by
    simp only [pinBank, Fin.ofNat]
    omega
  simp only [State.levelWord, Word.bit, BitVec.getLsbD_ofFnLE, h32, dite_true, hb, Config.pinCount]
  rw [if_pos (by omega)]

/-- The DATA read of CTRL.SAMPLE reads the plugged-in peripheral's bit, inverted (60_exceptions.md R534, R535). -/
theorem State.engineStep_sampleRead (i : Instr) (rest : List Op) (hd : s.cfg.pinData ≤ 53)
    (hf : s.pinFunction s.cfg.pinData = s.cfg.fselInput) (hpl : s.ctrl.plugged = true) (hs : s.ctrl.synced = true)
    (hpos : s.ctrl.pos ≤ 15) (hp : s.cfg.timerPresent = true) :
    ∃ t v, s.engineStep i .sampleRead rest = t ∧ t.cfg = s.cfg ∧ t.regs = s.regs ∧ t.seq = .run i rest ∧ t.gpio = s.gpio ∧
      t.ctrl = s.ctrl ∧ t.script = s.script ∧
      t.timer = { s.timer with count := s.timer.count + s.timer.rate } ∧ t.loc = { s.loc with v := v } ∧
      v.bit (s.cfg.pinData % 32) = !s.ctrl.shift.getLsbD s.ctrl.pos := by
  rw [s.engineStep_step i _ rest rfl]
  refine ⟨_, ((s.advanceTimer s.timer.rate).busRead (.gplev (pinBank s.cfg.pinData))).1, rfl, by simp, by simp [State.stepOp],
    by simp [State.stepOp], by simp [State.stepOp], by simp [State.stepOp], by simp, ?_, ?_, ?_⟩
  · simp [State.stepOp, s.advanceTimer_present _ hp]
  · simp [State.stepOp]
  · have h1 : ((s.advanceTimer s.timer.rate).busRead (.gplev (pinBank s.cfg.pinData))).1 =
        (s.advanceTimer s.timer.rate).levelWord (s.advanceTimer s.timer.rate).freeValue (pinBank s.cfg.pinData) := rfl
    rw [h1, State.levelWord_bit _ _ _ hd]
    have hf' : (s.advanceTimer s.timer.rate).pinFunction s.cfg.pinData = s.cfg.fselInput := by
      simpa [State.pinFunction] using hf
    simp [State.readLevel, hf', hpl, Ctrl.data, hs, hpos]

/-- `s[k] <- NOT d` for a DATA reading d (44_controller.md R362, R371). -/
theorem State.engineStep_sampleBit (i : Instr) (k : Nat) (rest : List Op) (b : Bool)
    (h : s.loc.v.bit (s.cfg.pinData % 32) = !b) :
    s.engineStep i (.compute (.sampleBit k)) rest =
      (s.withLoc { s.loc with snap := if b then s.loc.snap ||| (1#16 <<< k) else s.loc.snap }).goto i rest := by
  rw [State.engineStep_compute]
  simp only [State.compute, h]
  cases b <;> rfl

/-! ## One bit of CTRL.SAMPLE -/

/-- Where CTRL.SAMPLE stands before bit j: LATCH low, CLOCK high, the peripheral in step and showing button j, the snapshot holding
the buttons below j. -/
structure SampleAt (s : State) (b : BitVec 16) (j : Nat) : Prop where
  quiet    : s.quiet = true
  present  : s.cfg.timerPresent = true
  rate_pos : 0 < s.timer.rate
  rate_lt  : 4 * s.timer.rate < 2 ^ 32
  latch_le : s.cfg.pinLatch ≤ 53
  clock_le : s.cfg.pinClock ≤ 53
  data_le  : s.cfg.pinData ≤ 53
  distinct : s.cfg.pinLatch ≠ s.cfg.pinClock
  latch_fn : s.pinFunction s.cfg.pinLatch = s.cfg.fselOutput
  clock_fn : s.pinFunction s.cfg.pinClock = s.cfg.fselOutput
  data_fn  : s.pinFunction s.cfg.pinData = s.cfg.fselInput
  plugged  : s.ctrl.plugged = true
  latch_lo : s.ctrl.latchLine = some false
  clock_hi : s.ctrl.clockLine = some true
  synced   : s.ctrl.synced = true
  pos_eq   : s.ctrl.pos = j
  shift_eq : s.ctrl.shift = b
  edge_le  : s.ctrl.edgeAt ≤ s.timer.count
  latch_lv : pinLevel s.gpio.latch s.cfg.pinLatch = false
  clock_lv : pinLevel s.gpio.latch s.cfg.pinClock = true
  snap_eq  : ∀ i < 16, s.loc.snap.getLsbD i = (decide (i < j) && b.getLsbD i)

theorem Ctrl.follow_clock_fall (c : Ctrl) (now : Nat) (hl : c.latchLine = some false) (hc : c.clockLine = some true)
    (hs : c.synced = true) (he : c.edgeAt + 6 ≤ now) :
    c.follow now false false = { c with clockLine := some false, edgeAt := now } := by
  have h6 : c.edgeAt + (Config.halfBitUs).toNat ≤ now := he
  simp [Ctrl.follow, Ctrl.onLatch, Ctrl.onClock, Ctrl.onFloat, hl, hc, hs, Ctrl.longEnough, h6]

theorem Ctrl.follow_clock_rise (c : Ctrl) (now : Nat) (hl : c.latchLine = some false) (hc : c.clockLine = some false)
    (hs : c.synced = true) (he : c.edgeAt + 6 ≤ now) :
    c.follow now false true = { c with clockLine := some true, edgeAt := now, pos := c.pos + 1 } := by
  have h6 : c.edgeAt + (Config.halfBitUs).toNat ≤ now := he
  simp [Ctrl.follow, Ctrl.onLatch, Ctrl.onClock, Ctrl.onFloat, hl, hc, hs, Ctrl.longEnough, h6]

/-- One turn of the loop of CTRL.SAMPLE (44_controller.md R371). -/
theorem runLoop_sampleBit (i : Instr) (j : Nat) (b : BitVec 16) (rest : List Op) (hrest : noPoll rest) (h : SampleAt s b j)
    (hj : j ≤ 15)
    (hseq : s.seq = .run i (sampleBit s.cfg j ++ rest)) (hb : s.timer.count + 12 + 25 * s.timer.rate < 2 ^ 64) :
    ∃ k m t, m ≤ 2 * k ∧ (∀ n, runLoop (n + m) s = runLoop n t) ∧ SampleAt t b (j + 1) ∧ t.seq = .run i rest ∧ t.cfg = s.cfg ∧ t.regs = s.regs ∧
      t.gpio = { s.gpio with latch := t.gpio.latch } ∧ (∀ q ≤ 53, pinLevel t.gpio.latch q = pinLevel s.gpio.latch q) ∧
      t.timer = { s.timer with count := s.timer.count + k * s.timer.rate } ∧
      s.timer.count + 12 ≤ s.timer.count + k * s.timer.rate ∧
      s.timer.count + k * s.timer.rate ≤ s.timer.count + 12 + 25 * s.timer.rate := by
  have hr := h.rate_pos
  -- the first half-bit wait
  obtain ⟨k1, m1, hi1, lo1, w1, t01, tr1, a0, a1, a2, a3⟩ := runLoop_delay s i Config.halfBitUs
    ([driveLow s.cfg.pinClock, .sampleRead, .compute (.sampleBit j)] ++ delayOps Config.halfBitUs ++ [driveHigh s.cfg.pinClock]
      ++ rest) (by intro r b l rest'; simp [driveLow]) h.quiet
    (by rw [hseq]; simp [sampleBit]) h.present h.rate_pos h.rate_lt (by
      show s.timer.count + 6 + 11 * s.timer.rate < 2 ^ 64
      omega)
  have a1' : s.timer.count + 6 ≤ s.timer.count + k1 * s.timer.rate := a1
  have a2' : s.timer.count + k1 * s.timer.rate ≤ s.timer.count + 6 + 11 * s.timer.rate := a2
  set s1 := s.atCounter i
    ([driveLow s.cfg.pinClock, .sampleRead, .compute (.sampleBit j)] ++ delayOps Config.halfBitUs ++ [driveHigh s.cfg.pinClock]
      ++ rest) (s.loc.withTimes hi1 lo1 w1 t01) (s.timer.count + k1 * s.timer.rate) (s.trace ++ tr1) with hs1
  -- CLOCK falls
  obtain ⟨e2, b1⟩ := s1.engineStep_drive i s.cfg.pinClock false
    ([.sampleRead, .compute (.sampleBit j)] ++ delayOps Config.halfBitUs ++ [driveHigh s.cfg.pinClock] ++ rest) h.latch_fn h.clock_fn h.present
  have l1 : pinLevel (driveLatch s1.gpio.latch s.cfg.pinClock false) s1.cfg.pinLatch = false := by
    show pinLevel (driveLatch s.gpio.latch s.cfg.pinClock false) s.cfg.pinLatch = false
    rw [pinLevel_driveLatch _ _ _ _ h.clock_le h.latch_le, if_neg h.distinct]
    exact h.latch_lv
  have l2 : pinLevel (driveLatch s1.gpio.latch s.cfg.pinClock false) s1.cfg.pinClock = false := by
    show pinLevel (driveLatch s.gpio.latch s.cfg.pinClock false) s.cfg.pinClock = false
    rw [pinLevel_driveLatch _ _ _ _ h.clock_le h.clock_le, if_pos rfl]
  rw [l1, l2, Ctrl.follow_clock_fall s1.ctrl (s1.timer.count + s1.timer.rate) h.latch_lo h.clock_hi h.synced (by
    show s.ctrl.edgeAt + 6 ≤ s.timer.count + k1 * s.timer.rate + s.timer.rate
    have := h.edge_le
    omega)] at b1
  set s2 := s1.engineStep i (driveOp s.cfg.pinClock false)
    ([.sampleRead, .compute (.sampleBit j)] ++ delayOps Config.halfBitUs ++ [driveHigh s.cfg.pinClock] ++ rest) with hs2
  -- DATA is read
  have s2cfg : s2.cfg = s.cfg := by rw [b1]; rfl
  have s2pos : s2.ctrl.pos = j := by rw [b1]; exact h.pos_eq
  obtain ⟨s2', v2, c0, c1, c2, c3, c4, c5, c6, c7, c8, c9⟩ := s2.engineStep_sampleRead i
    ([.compute (.sampleBit j)] ++ delayOps Config.halfBitUs ++ [driveHigh s.cfg.pinClock] ++ rest) (by rw [s2cfg]; exact h.data_le)
    (by rw [b1]; exact h.data_fn) (by rw [b1]; exact h.plugged) (by rw [b1]; exact h.synced)
    (by rw [s2pos]; exact hj) (by rw [s2cfg]; exact h.present)
  have s2shift : s2.ctrl.shift.getLsbD s2.ctrl.pos = b.getLsbD j := by rw [s2pos, b1]; exact congrArg (·.getLsbD j) h.shift_eq
  have c10 := s2'.engineStep_sampleBit i j (delayOps Config.halfBitUs ++ [driveHigh s.cfg.pinClock] ++ rest) (b.getLsbD j)
    (by rw [c8, c1, ← s2shift]; exact c9)
  set s3 := (s2'.withLoc { s2'.loc with snap := if b.getLsbD j then s2'.loc.snap ||| (1#16 <<< j) else s2'.loc.snap }).goto i
    (delayOps Config.halfBitUs ++ [driveHigh s.cfg.pinClock] ++ rest) with hs3
  have s3cfg : s3.cfg = s.cfg := by rw [hs3]; exact c1.trans s2cfg
  have s3timer : s3.timer = { s.timer with count := s.timer.count + k1 * s.timer.rate + 2 * s.timer.rate } := by
    show s2'.timer = _
    rw [c7, b1]
    simp only [hs1, State.atCounter, Timer.mk.injEq, and_self, and_true]
    omega
  -- the second half-bit wait
  have s3quiet : s3.quiet = true := by
    have : s3.script = s.script := by
      show s2'.script = _
      rw [c6, b1]; rfl
    unfold State.quiet; rw [this]; exact h.quiet
  have s3count : s3.timer.count = s.timer.count + k1 * s.timer.rate + 2 * s.timer.rate := by rw [s3timer]
  have s3rate : s3.timer.rate = s.timer.rate := by rw [s3timer]
  obtain ⟨k4, m4, hi4, lo4, w4, t04, tr4, d0, d1, d2, d3⟩ := runLoop_delay s3 i Config.halfBitUs
    ([driveHigh s.cfg.pinClock] ++ rest) (by intro r b l rest'; simp [driveHigh]) s3quiet
    (by rw [hs3]; simp) (by rw [s3cfg]; exact h.present) (by rw [s3rate]; exact h.rate_pos) (by rw [s3rate]; exact h.rate_lt) (by
      rw [s3count, s3rate]
      show s.timer.count + k1 * s.timer.rate + 2 * s.timer.rate + 6 + 11 * s.timer.rate < 2 ^ 64
      omega)
  rw [s3count, s3rate] at d1 d2
  have d1' : s.timer.count + k1 * s.timer.rate + 2 * s.timer.rate + 6 ≤
    s.timer.count + k1 * s.timer.rate + 2 * s.timer.rate + k4 * s.timer.rate := d1
  have d2' : s.timer.count + k1 * s.timer.rate + 2 * s.timer.rate + k4 * s.timer.rate ≤
    s.timer.count + k1 * s.timer.rate + 2 * s.timer.rate + 6 + 11 * s.timer.rate := d2
  rw [s3count, s3rate] at d3
  set s4 := s3.atCounter i ([driveHigh s.cfg.pinClock] ++ rest) (s3.loc.withTimes hi4 lo4 w4 t04)
    (s.timer.count + k1 * s.timer.rate + 2 * s.timer.rate + k4 * s.timer.rate) (s3.trace ++ tr4) with hs4
  -- CLOCK rises
  have s4cfg : s4.cfg = s.cfg := s3cfg
  have s4gpio : s4.gpio = { s.gpio with latch := driveLatch s.gpio.latch s.cfg.pinClock false } := by
    show s2'.gpio = _
    rw [c4, b1]
    rfl
  have s4ctrl : s4.ctrl = { s.ctrl with clockLine := some false, edgeAt := s.timer.count + k1 * s.timer.rate + s.timer.rate } := by
    show s2'.ctrl = _
    rw [c5, b1]
    rfl
  have s4fn : ∀ p, s4.pinFunction p = s.pinFunction p := fun p => by unfold State.pinFunction; rw [s4gpio]
  obtain ⟨e5, f1⟩ := s4.engineStep_drive i s.cfg.pinClock true rest (by rw [s4fn, s4cfg]; exact h.latch_fn)
    (by rw [s4fn, s4cfg]; exact h.clock_fn) (by rw [s4cfg]; exact h.present)
  have s4latch : s4.gpio.latch = driveLatch s.gpio.latch s.cfg.pinClock false := by rw [s4gpio]
  have lev : ∀ q ≤ 53, pinLevel (driveLatch s4.gpio.latch s.cfg.pinClock true) q = pinLevel s.gpio.latch q := by
    intro q hq
    rw [pinLevel_driveLatch _ _ _ _ h.clock_le hq, s4latch, pinLevel_driveLatch _ _ _ _ h.clock_le hq]
    split
    · rename_i hqe; rw [hqe]; exact h.clock_lv.symm
    · rfl
  rw [s4cfg, lev _ h.latch_le, lev _ h.clock_le, h.latch_lv, h.clock_lv,
    Ctrl.follow_clock_rise s4.ctrl _ (by rw [s4ctrl]; exact h.latch_lo) (by rw [s4ctrl]) (by rw [s4ctrl]; exact h.synced) (by
      rw [s4ctrl]
      show s.timer.count + k1 * s.timer.rate + s.timer.rate + 6 ≤
        s.timer.count + k1 * s.timer.rate + 2 * s.timer.rate + k4 * s.timer.rate + s3.timer.rate
      omega)] at f1
  set s5 := s4.engineStep i (driveOp s.cfg.pinClock true) rest with hs5
  have hcount : s.timer.count + (k1 + 1 + 1 + k4 + 1) * s.timer.rate =
      s.timer.count + k1 * s.timer.rate + 2 * s.timer.rate + k4 * s.timer.rate + s.timer.rate := by
    simp only [Nat.add_mul]; omega
  have s5timer : s5.timer = { s.timer with count := s.timer.count + (k1 + 1 + 1 + k4 + 1) * s.timer.rate } := by
    rw [f1, hcount]
    simp only [hs4, State.atCounter, s3timer]
  have s5latch : s5.gpio.latch = driveLatch s4.gpio.latch s.cfg.pinClock true := by rw [f1]
  have s5gpio : s5.gpio = { s.gpio with latch := s5.gpio.latch } := by
    have hg : s5.gpio = { s4.gpio with latch := driveLatch s4.gpio.latch s.cfg.pinClock true } := by rw [f1]
    rw [hg]
    simp only [s4gpio]
  have s5cfg : s5.cfg = s.cfg := by rw [f1]
  have s5fn : ∀ p, s5.pinFunction p = s.pinFunction p := fun p => by
    unfold State.pinFunction; rw [s5gpio]
  have s5loc : s5.loc.snap = if b.getLsbD j then s.loc.snap ||| (1#16 <<< j) else s.loc.snap := by
    rw [f1]
    show (if b.getLsbD j then s2'.loc.snap ||| (1#16 <<< j) else s2'.loc.snap) = _
    rw [c8, b1]
    rfl
  have hheld : ∀ (t : State) (todo : List Op), t.seq = .run i todo → 0 < t.timer.rate → noPoll todo → t.held = false :=
    fun t todo he h ho => t.held_running h fun j r b l rest' hj => by
      rw [he] at hj
      injection hj with _ hj
      exact ho _ _ _ _ hj
  refine ⟨k1 + 1 + 1 + k4 + 1, m1 + 3 + m4 + 1, s5, by omega, fun m => ?_, ?_, by rw [f1], s5cfg, ?_, s5gpio, ?_, s5timer, ?_, ?_⟩
  · rw [show m + (m1 + 3 + m4 + 1) = m + 1 + m4 + 1 + 1 + 1 + m1 by omega, a3]
    have hs1seq : s1.seq = .run i (driveOp s.cfg.pinClock false ::
      ([.sampleRead, .compute (.sampleBit j)] ++ delayOps Config.halfBitUs ++ [driveHigh s.cfg.pinClock] ++ rest)) := rfl
    have hs2seq : s2.seq = .run i (.sampleRead ::
        ([.compute (.sampleBit j)] ++ delayOps Config.halfBitUs ++ [driveHigh s.cfg.pinClock] ++ rest)) := by
      rw [b1]; rfl
    have hs4seq : s4.seq = .run i (driveOp s.cfg.pinClock true :: rest) := rfl
    have r2 : 0 < s2'.timer.rate := by rw [c7, b1]; exact hr
    have q2 : s2.quiet = true := by unfold State.quiet; rw [b1]; exact h.quiet
    rw [runLoop_step s1 _ h.quiet hs1seq hs2.symm
        (hheld _ _ hs2seq (by rw [b1]; exact hr) (by intro r b l rest'; simp)),
      runLoop_step s2 _ q2 hs2seq c0 (hheld _ _ c3 r2 (by intro r b l rest'; simp)),
      runLoop_step s2' _ (by unfold State.quiet; rw [c6]; exact q2) (by rw [c3]; rfl) c10
        (hheld _ _ rfl r2 (by intro r b l rest'; simp [delayOps, nowOps])),
      d3, runLoop_step s4 _ s3quiet hs4seq hs5.symm (hheld _ _ (by rw [f1]) (by rw [s5timer]; exact hr) hrest)]
  · exact
      { quiet := by
          have : s5.script = s3.script := by rw [f1]; rfl
          unfold State.quiet; rw [this]; exact s3quiet
        present := by rw [s5cfg]; exact h.present
        rate_pos := by rw [s5timer]; exact h.rate_pos
        rate_lt := by rw [s5timer]; exact h.rate_lt
        latch_le := by rw [s5cfg]; exact h.latch_le
        clock_le := by rw [s5cfg]; exact h.clock_le
        data_le := by rw [s5cfg]; exact h.data_le
        distinct := by rw [s5cfg]; exact h.distinct
        latch_fn := by rw [s5fn, s5cfg]; exact h.latch_fn
        clock_fn := by rw [s5fn, s5cfg]; exact h.clock_fn
        data_fn := by rw [s5fn, s5cfg]; exact h.data_fn
        plugged := by rw [f1, s4ctrl]; exact h.plugged
        latch_lo := by rw [f1, s4ctrl]; exact h.latch_lo
        clock_hi := by rw [f1]
        synced := by rw [f1, s4ctrl]; exact h.synced
        pos_eq := by rw [f1, s4ctrl]; simp [h.pos_eq]
        shift_eq := by rw [f1, s4ctrl]; exact h.shift_eq
        edge_le := by rw [f1]
        latch_lv := by rw [s5latch, s5cfg, lev _ h.latch_le]; exact h.latch_lv
        clock_lv := by rw [s5latch, s5cfg, lev _ h.clock_le]; exact h.clock_lv
        snap_eq := by
          intro n hn
          have hsn := h.snap_eq n hn
          rw [s5loc]
          by_cases hbj : b.getLsbD j = true
          · rw [if_pos hbj, BitVec.getLsbD_or, hsn, BitVec.getLsbD_shiftLeft, BitVec.getLsbD_one]
            by_cases hnj : n = j
            · subst hnj; simp [hbj, hn]
            · by_cases hlt : n < j
              · have : n < j + 1 := by omega
                simp [hlt, this]
              · have h1 : ¬ n < j + 1 := by omega
                have h2 : ¬ (n - j = 0) := by omega
                simp [hlt, h1, h2]
          · rw [if_neg hbj, hsn]
            by_cases hnj : n = j
            · subst hnj; simp at hbj; simp [hbj]
            · have : (n < j) = (n < j + 1) := by apply propext; omega
              simp [this] }
  · rw [f1]
    show s2'.regs = _
    exact c2.trans (by rw [b1]; rfl)
  · intro q hq; rw [s5latch]; exact lev q hq
  · rw [hcount]; omega
  · rw [hcount]; omega

/-- The bits from j on, n of them, ending with the last one (44_controller.md R371). -/
theorem runLoop_sampleBits (i : Instr) (b : BitVec 16) (rest : List Op) (hrest : noPoll rest) : ∀ (n j : Nat) (s : State), j + n = 16 → SampleAt s b j →
    s.seq = .run i ((List.range' j n).flatMap (sampleBit s.cfg) ++ rest) →
    s.timer.count + n * (12 + 25 * s.timer.rate) < 2 ^ 64 →
    ∃ k m t, m ≤ 2 * k ∧ (∀ n, runLoop (n + m) s = runLoop n t) ∧ SampleAt t b 16 ∧ t.seq = .run i rest ∧ t.cfg = s.cfg ∧ t.regs = s.regs ∧
      t.gpio = { s.gpio with latch := t.gpio.latch } ∧ (∀ q ≤ 53, pinLevel t.gpio.latch q = pinLevel s.gpio.latch q) ∧
      t.timer = { s.timer with count := s.timer.count + k * s.timer.rate } ∧
      s.timer.count + n * 12 ≤ s.timer.count + k * s.timer.rate ∧
      s.timer.count + k * s.timer.rate ≤ s.timer.count + n * (12 + 25 * s.timer.rate) := by
  intro n
  induction n with
  | zero =>
    intro j s hj h hseq hb
    obtain rfl : j = 16 := by omega
    exact ⟨0, 0, s, Nat.le_refl _, fun m => rfl, h, by simpa using hseq, rfl, rfl, rfl, fun _ _ => rfl, by simp, by omega, by omega⟩
  | succ n ih =>
    intro j s hj h hseq hb
    rw [Nat.add_mul] at hb
    obtain ⟨k, m, t, h0, h1, h2, h3, h4, h5, h6, h7, h8, h9, h10⟩ :=
      runLoop_sampleBit s i j b ((List.range' (j + 1) n).flatMap (sampleBit s.cfg) ++ rest) (by
        intro r bit l rest'
        cases n with
        | zero => exact hrest r bit l rest'
        | succ n => simp [List.range'_succ, sampleBit, delayOps, nowOps]) h (by omega)
        (by rw [hseq]; simp [List.range'_succ]) (by omega)
    have hc : t.timer.count = s.timer.count + k * s.timer.rate := by rw [h8]
    have hr : t.timer.rate = s.timer.rate := by rw [h8]
    obtain ⟨k', m', t', g0, g1, g2, g3, g4, g5, g6, g7, g8, g9, g10⟩ :=
      ih (j + 1) t (by omega) h2 (by rw [h3, h4]) (by rw [hc, hr]; omega)
    rw [hc, hr] at g8 g9 g10
    refine ⟨k + k', m + m', t', by omega, fun j => ?_, g2, g3, g4.trans h4, g5.trans h5, ?_, fun q hq => (g7 q hq).trans (h7 q hq), ?_, ?_, ?_⟩
    · rw [show j + (m + m') = j + m' + m by omega, h1, g1]
    · rw [g6, h6]
    · rw [g8, h8]
      simp [Nat.add_mul]
      omega
    · rw [Nat.add_mul, Nat.add_mul]; omega
    · rw [Nat.add_mul, Nat.add_mul]; omega

/-! ## The latch pulse -/

/-- LATCH high loads S and clears k (60_exceptions.md R534). -/
theorem Ctrl.follow_latch_rise (c : Ctrl) (now : Nat) :
    ∃ c', c.follow now true true = c' ∧ c'.plugged = c.plugged ∧ c'.buttons = c.buttons ∧ c'.latchLine = some true ∧
      c'.clockLine = some true ∧ c'.shift = c.buttons ∧ c'.pos = 0 ∧ (c'.edgeAt = now ∨ c'.edgeAt = c.edgeAt) := by
  refine ⟨_, rfl, ?_⟩
  by_cases h : c.latchLine = some true <;> simp [Ctrl.follow, Ctrl.onLatch, Ctrl.onClock, Ctrl.onFloat, h]

/-- The fall of LATCH after its interval (60_exceptions.md R534; log 13). -/
theorem Ctrl.follow_latch_fall (c : Ctrl) (now : Nat) (hl : c.latchLine = some true) (hc : c.clockLine = some true)
    (he : c.edgeAt + 12 ≤ now) :
    c.follow now false true = { c with latchLine := some false, synced := true, edgeAt := now } := by
  have h6 : c.edgeAt + (Config.latchUs).toNat ≤ now := he
  simp [Ctrl.follow, Ctrl.onLatch, Ctrl.onClock, Ctrl.onFloat, hl, hc, Ctrl.longEnough, h6]

end Sys2Proof.Machine
end

