-- ==== Sys2Proof/Laws/Coprocessor.lean ====
section
/-! SUPPORT. The coprocessor: which requests keep the buffer invariant, and what it may write for them (40_mailbox.md R201;
60_exceptions.md R530, R531). -/

namespace Sys2Proof.Machine

/-- Tags that fill a buffer start inside it. -/
theorem State.tagsFill_lt (s : State) (b : Word) (n : Nat) (i : Nat) (ts : List TagSlot) (h : s.tagsFill b n i ts) : i < n := by
  induction ts generalizing i with
  | nil => simp only [State.tagsFill] at h; omega
  | cons t ts ih =>
    have := ih _ h.2.2.2.2.2
    omega

/-- The tags found are the tags that fill the buffer. -/
theorem State.tagsOf_eq_some (s : State) (b : Word) (n fuel i : Nat) (ts : List TagSlot) (hf : n ≤ i + fuel) :
    s.tagsOf b n fuel i = some ts ↔ s.tagsFill b n i ts := by
  induction fuel generalizing i ts with
  | zero =>
    simp only [State.tagsOf, reduceCtorEq, false_iff]
    exact fun h => by have := s.tagsFill_lt b n i ts h; omega
  | succ fuel ih =>
    have hr := fun ts' => ih (i + 3 + ((s.requestWord b (i + 1)).toNat + 3) / 4) ts' (by omega)
    constructor
    · intro h
      simp only [State.tagsOf] at h
      split at h
      · cases h
      · rename_i h0
        simp only [Bool.or_eq_true, decide_eq_true_eq, Bool.not_eq_eq_eq_not, Bool.not_true, not_or, Bool.not_eq_false, not_le] at h0
        split at h
        · rename_i h1
          split at h
          · cases h; exact ⟨by assumption, h0.2, h1⟩
          · cases h
        · rename_i h1
          split at h
          · cases h
          · rename_i h2
            split at h
            · rename_i ts' h3
              cases h
              exact ⟨rfl, h0.2, by simpa using h2, h1, rfl, (hr ts').1 h3⟩
            · cases h
    · intro h
      have hi := s.tagsFill_lt b n i ts h
      cases ts with
      | nil =>
        obtain ⟨h0, h1, h2⟩ := h
        simp [State.tagsOf, h1, h2, h0, Config.tagEnd, show ¬ n ≤ i by omega]
      | cons t ts =>
        obtain ⟨rfl, h1, h2, h3, h4, h5⟩ := h
        rw [h4] at h5
        obtain ⟨t1, t2⟩ := t
        simp only at h4 hi h1 h2 h3 hr h5 ⊢
        subst h4
        simp [State.tagsOf, h1, h2, h3, Config.tagEnd, show ¬ n ≤ t1 by omega, (hr ts).2 h5]

/-- A popped request has a layout exactly when it keeps the buffer invariant (40_mailbox.md R201). -/
theorem State.requestLayout_eq_some (s : State) (b : Word) (l : Layout) :
    s.requestLayout b = some l ↔ s.keepsInvariant b l := by
  obtain ⟨n, ts⟩ := l
  unfold State.requestLayout State.keepsInvariant
  have h := fun n ts => s.tagsOf_eq_some b n n 2 ts (by omega)
  constructor
  · intro e
    split at e
    · rename_i h0
      simp only [Bool.and_eq_true, decide_eq_true_eq] at h0
      split at e
      · rename_i ts' h1
        cases e
        exact ⟨h0.1, by simp only; omega, (h _ _).1 h1⟩
      · cases e
    · cases e
  · rintro ⟨h0, h1, h2⟩
    simp only at h1 h2
    have hn : (s.requestWord b 0).toNat / 4 = n := by omega
    rw [if_pos (by simp only [h0, Bool.true_and, decide_eq_true_eq]; omega), hn, (h n ts).2 h2]

/-- What the coprocessor may write for a popped request (60_exceptions.md R530, R531). -/
theorem Request.mayWrite_iff (c : Config) (r : Request) (a v : Word) :
    r.mayWrite c a v = true ↔ r.layout = none ∨
      ∃ (l : Layout) (i : Nat), r.layout = some l ∧ 1 ≤ i ∧ i < l.words ∧ (a - requestBase r.word).toNat = 4 * i ∧
        (requestChannel r.word = c.chProp → l.answers i v = true) := by
  unfold Request.mayWrite
  cases hl : r.layout with
  | none => simp
  | some l =>
    simp only [reduceCtorEq, Option.some.injEq, false_or, Bool.and_eq_true, Bool.or_eq_true, decide_eq_true_eq]
    constructor
    · rintro ⟨⟨⟨h1, h2⟩, h3⟩, h4⟩
      refine ⟨l, (a - requestBase r.word).toNat / 4, rfl, by omega, by omega, by omega, fun hc => ?_⟩
      exact h4.resolve_left (not_not.2 hc)
    · rintro ⟨_, i, rfl, h1, h2, h3, h4⟩
      rw [h3]
      refine ⟨⟨⟨by omega, by omega⟩, by omega⟩, ?_⟩
      rw [show 4 * i / 4 = i by omega]
      exact or_iff_not_imp_left.2 fun h => h4 (not_not.1 h)

end Sys2Proof.Machine
end

