-- ==== Sys2Proof/Laws/Frame.lean ====
section
/-! SUPPORT. Every command as one program: which points each command's program can reach, said once, and what such a point leaves
alone. The frames of the commands follow from these by the induction principles of Laws/Engine.lean. -/

namespace Sys2Proof.Machine

variable (s : State)

/-! ## Every command is one program -/

/-- What each command's first step decides (30_encoding.md R160). -/
def startOf (s : State) : Instr → Start
  | .mboxSubmit ch => .program (submitProgram s.cfg ch)
  | .fbProvision => provisionStart s
  | .gpioCfgin pin => configureStart (pinOk pin) pin.toNat s.cfg.fselInput
  | .gpioCfgout pin => configureStart (pinOk pin) pin.toNat s.cfg.fselOutput
  | .gpioCfgalt pin fn => configureStart (pinOk pin && fnOk fn) pin.toNat (fselAlt s.cfg fn.toNat)
  | .tmrNow => .program nowProgram
  | .tmrDelay => .program (delayProgram s.opnd)
  | .ctrlInit => .program (ctrlInitProgram s.cfg)
  | .ctrlSample => .program (sampleProgram s.cfg)
  | .uartInit => .program (uartInitProgram s.cfg)
  | .uartPutc byte => .program (putChar byte ++ [.finish .plain])
  | .uartGetc => .program (getChar ++ [.finish .getc])
  | .uartPuts len => putsStart s.opnd len
  | .uartPuthex => .program (nibbleOrder.flatMap putDigit ++ [.finish .plain])

theorem exec_eq (i : Instr) : exec i s = runCommand i (startOf s i) s := by cases i <;> rfl

/-! ## The points of a command -/

/-- The registers a command writes by a `regWrite` point. -/
def Reg.fits (i : Instr) : Reg → Bool
  | .gppud | .gppudclk _ => i.usesGpio
  | .gpset _ | .gpclr _ => decide (i = .ctrlSample)
  | .auxMuIer | .auxMuCntl | .auxMuLcr | .auxMuMcr | .auxMuIir | .auxMuBaud => decide (i = .uartInit)
  | _ => false

/-- The registers a command polls. -/
def Reg.pollFits (i : Instr) (r : Reg) : Bool :=
  (decide (r = .mboxStatus) && i.usesMailbox) || (decide (r = .auxMuLsr) && i.usesUart)

/-- The local computation can stand in a program of command `i`. -/
def Calc.fits (i : Instr) : Calc → Bool
  | .pollTest r _ _ => r.pollFits i
  | .matchTest => i.usesMailbox
  | .codeTest => decide (i = .fbProvision)
  | .nowTest _ | .nowDone _ => true
  | .sampleBit _ => decide (i = .ctrlSample)
  | .lineTest _ _ => i.usesUart

/-- The point can stand in a program of command `i`. -/
def Op.fits (i : Instr) : Op → Bool
  | .compute c => c.fits i
  | .fselRead _ | .fselWrite _ _ | .spin => i.usesGpio
  | .regWrite r _ => r.fits i
  | .poll r => r.pollFits i
  | .bufWrite k _ => i.writesRam && decide (k < 35)
  | .mboxSend _ | .mboxReceive => i.usesMailbox
  | .codeRead => i.usesMailbox
  | .respRead _ => decide (i = .fbProvision)
  | .chiRead | .cloRead | .chiCheck => true
  | .sampleRead => decide (i = .ctrlSample)
  | .enableRead | .enableWrite => decide (i = .uartInit)
  | .rxRead | .strRead _ | .putByte _ | .putNibble _ => i.usesUart
  | .finish .plain => true
  | .finish .submit => decide (i.usesMailbox = true ∧ i ≠ .fbProvision)
  | .finish .now => decide (i = .tmrNow)
  | .finish .sample => decide (i = .ctrlSample)
  | .finish .getc => decide (i = .uartGetc)
  | .finish .provision => decide (i = .fbProvision)
  | .finish (.fail e) => decide (i = .fbProvision ∧ e = .provisionFail)

/-- Every point of the list can stand in a program of command `i`. -/
def fitsAll (i : Instr) (ops : List Op) : Prop := ∀ op ∈ ops, op.fits i = true

theorem fitsAll_append {i : Instr} {a b : List Op} : fitsAll i (a ++ b) ↔ fitsAll i a ∧ fitsAll i b := by
  simp only [fitsAll, List.mem_append]
  exact ⟨fun h => ⟨fun o ho => h o (.inl ho), fun o ho => h o (.inr ho)⟩, fun h o ho => ho.elim (h.1 o) (h.2 o)⟩

theorem fitsAll_flatMap {α : Type} {i : Instr} {l : List α} {f : α → List Op} (h : ∀ a ∈ l, fitsAll i (f a)) :
    fitsAll i (l.flatMap f) := fun op hop => by
  obtain ⟨a, ha, ho⟩ := List.mem_flatMap.1 hop
  exact h a ha op ho

theorem fitsAll_nowOps (i : Instr) (u : NowUse) : fitsAll i (nowOps u) := by
  simp [fitsAll, nowOps, Op.fits, Calc.fits]

theorem fitsAll_putChar (i : Instr) (b : Byte) (h : i.usesUart = true) : fitsAll i (putChar b) := by
  simp [fitsAll, putChar, waitUntil, Op.fits, Calc.fits, Reg.pollFits, h]

theorem fitsAll_configurePin (i : Instr) (p : Nat) (f : BitVec 3) (h : i.usesGpio = true) : fitsAll i (configurePin p f) := by
  simp [fitsAll, configurePin, setFunction, pullDisable, Op.fits, Reg.fits, h]

theorem fitsAll_bufWrites (ws : List Word) : ∀ k, k + ws.length ≤ 35 → fitsAll .fbProvision (bufWrites k ws) := by
  induction ws with
  | nil => intro k _; simp [fitsAll, bufWrites]
  | cons w ws ih =>
    intro k hk
    rw [List.length_cons] at hk
    rw [bufWrites]
    intro op hop
    rcases List.mem_cons.1 hop with rfl | hop
    · simp [Op.fits, Instr.writesRam]; omega
    · exact ih (k + 1) (by omega) op hop

theorem fitsAll_delayOps (i : Instr) (n : Word) : fitsAll i (delayOps n) := fitsAll_nowOps i _

theorem fitsAll_finish_plain (i : Instr) : fitsAll i [.finish .plain] := by simp [fitsAll, Op.fits]

theorem fitsAll_submit (c : Config) (ch : BitVec 4) : fitsAll (.mboxSubmit ch) (submitProgram c ch) := by
  simp [fitsAll, submitProgram, mboxCall, mboxMatch, waitUntil, Op.fits, Calc.fits, Reg.pollFits, Instr.usesMailbox]

theorem fitsAll_provision (c : Config) : fitsAll .fbProvision (provisionProgram c) := by
  refine fitsAll_append.2 ⟨fitsAll_append.2 ⟨fitsAll_append.2 ⟨fitsAll_bufWrites _ 0 (by simp [fbRequest]), ?_⟩, ?_⟩, ?_⟩
  · simp [fitsAll, mboxCall, mboxMatch, waitUntil, Op.fits, Calc.fits, Reg.pollFits, Instr.usesMailbox]
  · simp [fitsAll, Op.fits, Calc.fits]
  · simp [fitsAll, respReads, Op.fits]

theorem fitsAll_ctrlInit (c : Config) : fitsAll .ctrlInit (ctrlInitProgram c) :=
  fitsAll_append.2 ⟨fitsAll_append.2 ⟨fitsAll_append.2 ⟨fitsAll_configurePin _ _ _ rfl, fitsAll_configurePin _ _ _ rfl⟩,
    fitsAll_configurePin _ _ _ rfl⟩, fitsAll_finish_plain _⟩

theorem fitsAll_sampleBit (c : Config) (k : Nat) : fitsAll .ctrlSample (sampleBit c k) := by
  refine fitsAll_append.2 ⟨fitsAll_append.2 ⟨fitsAll_append.2 ⟨fitsAll_delayOps _ _, ?_⟩, fitsAll_delayOps _ _⟩, ?_⟩
  · simp [fitsAll, driveLow, Op.fits, Calc.fits, Reg.fits]
  · simp [fitsAll, driveHigh, Op.fits, Reg.fits]

theorem fitsAll_sample (c : Config) : fitsAll .ctrlSample (sampleProgram c) := by
  refine fitsAll_append.2 ⟨fitsAll_append.2 ⟨fitsAll_append.2 ⟨fitsAll_append.2 ⟨?_, fitsAll_delayOps _ _⟩, ?_⟩,
    fitsAll_flatMap fun k _ => fitsAll_sampleBit c k⟩, ?_⟩
  · simp [fitsAll, driveHigh, Op.fits, Reg.fits]
  · simp [fitsAll, driveLow, Op.fits, Reg.fits]
  · simp [fitsAll, Op.fits]

theorem fitsAll_uartInit (c : Config) : fitsAll .uartInit (uartInitProgram c) := by
  refine fitsAll_append.2 ⟨fitsAll_append.2 ⟨fitsAll_configurePin _ _ _ rfl, fitsAll_configurePin _ _ _ rfl⟩, ?_⟩
  simp [fitsAll, Op.fits, Reg.fits]

theorem fitsAll_puts (len : BitVec 16) : fitsAll (.uartPuts len) (putsProgram len.toNat) := by
  have hu : Instr.usesUart (.uartPuts len) = true := rfl
  refine fitsAll_append.2 ⟨?_, fitsAll_finish_plain _⟩
  split <;> simp [fitsAll, strStep, Op.fits, Calc.fits, hu]

theorem fitsAll_puthex : fitsAll .uartPuthex (nibbleOrder.flatMap putDigit ++ [.finish .plain]) := by
  have hu : Instr.usesUart .uartPuthex = true := rfl
  exact fitsAll_append.2 ⟨fitsAll_flatMap fun k _ => by simp [fitsAll, putDigit, waitUntil, Op.fits, Calc.fits, Reg.pollFits, hu], fitsAll_finish_plain _⟩

theorem fitsAll_getc : fitsAll .uartGetc (getChar ++ [.finish .getc]) := by
  have hu : Instr.usesUart .uartGetc = true := rfl
  simp [fitsAll, getChar, waitUntil, Op.fits, Calc.fits, Reg.pollFits, hu]

/-- Every point of a command's program fits the command. -/
theorem startOf_fits (i : Instr) (todo : List Op) (h : startOf s i = .program todo) : fitsAll i todo := by
  cases i with
  | gpioCfgin pin | gpioCfgout pin | gpioCfgalt pin fn =>
    simp only [startOf, configureStart] at h
    split at h
    · injection h with h
      subst h
      exact fitsAll_append.2 ⟨fitsAll_configurePin _ _ _ rfl, fitsAll_finish_plain _⟩
    · exact absurd h (by simp)
  | fbProvision =>
    simp only [startOf, provisionStart] at h
    split at h
    · exact absurd h (by simp)
    · injection h with h
      exact h ▸ fitsAll_provision _
  | uartPuts len =>
    simp only [startOf, putsStart] at h
    split at h
    · injection h with h
      exact h ▸ fitsAll_puts len
    · exact absurd h (by simp)
  | mboxSubmit ch => injection h with h; exact h ▸ fitsAll_submit _ ch
  | tmrNow => injection h with h; subst h; simp [fitsAll, nowProgram, nowOps, Op.fits, Calc.fits]
  | tmrDelay => injection h with h; exact h ▸ fitsAll_append.2 ⟨fitsAll_delayOps _ _, fitsAll_finish_plain _⟩
  | ctrlInit => injection h with h; exact h ▸ fitsAll_ctrlInit _
  | ctrlSample => injection h with h; exact h ▸ fitsAll_sample _
  | uartInit => injection h with h; exact h ▸ fitsAll_uartInit _
  | uartPutc b => injection h with h; exact h ▸ fitsAll_append.2 ⟨fitsAll_putChar _ b rfl, fitsAll_finish_plain _⟩
  | uartGetc => injection h with h; exact h ▸ fitsAll_getc
  | uartPuthex => injection h with h; exact h ▸ fitsAll_puthex

theorem fitsAll_afterNow {i : Instr} {rest : List Op} (u : NowUse) (t t0 : BitVec 64) (h : fitsAll i rest) :
    fitsAll i (afterNow u t t0 rest) := by
  unfold afterNow
  cases u <;> simp only [] <;> (try split) <;> first | exact h | exact fitsAll_append.2 ⟨fitsAll_nowOps _ _, h⟩

/-- A local computation of a command's program leads to points of its program. -/
theorem State.compute_fits (i : Instr) (c : Calc) (rest : List Op) (hc : c.fits i = true) (hr : fitsAll i rest) (todo : List Op)
    (ht : (s.compute i c rest).seq = .run i todo) : fitsAll i todo := by
  cases c with
  | pollTest r b l =>
    simp only [State.compute, State.goto_seq, Seq.run.injEq, true_and] at ht
    subst ht
    split
    · exact hr
    · simp only [Calc.fits] at hc
      exact fitsAll_append.2 ⟨by simp [fitsAll, waitUntil, Op.fits, Calc.fits, hc], hr⟩
  | matchTest =>
    simp only [State.compute, State.goto_seq, Seq.run.injEq, true_and] at ht
    subst ht
    split
    · exact hr
    · simp only [Calc.fits] at hc
      exact fitsAll_append.2 ⟨by simp [fitsAll, mboxMatch, waitUntil, Op.fits, Calc.fits, Reg.pollFits, hc], hr⟩
  | codeTest =>
    simp only [State.compute, State.goto_seq, Seq.run.injEq, true_and] at ht
    subst ht
    split
    · exact hr
    · simp only [Calc.fits, decide_eq_true_eq] at hc
      simp [fitsAll, Op.fits, hc]
  | nowTest u =>
    simp only [State.compute] at ht
    split at ht <;> simp only [State.finishNow, State.goto_seq, Seq.run.injEq, true_and] at ht <;> subst ht
    · exact fitsAll_afterNow _ _ _ hr
    · exact fitsAll_append.2 ⟨by simp [fitsAll, nowRetry, Op.fits, Calc.fits], hr⟩
  | nowDone u =>
    simp only [State.compute, State.finishNow, State.goto_seq, Seq.run.injEq, true_and] at ht
    subst ht
    exact fitsAll_afterNow _ _ _ hr
  | sampleBit k =>
    simp only [State.compute, State.goto_seq, Seq.run.injEq, true_and] at ht
    exact ht ▸ hr
  | lineTest k len =>
    simp only [State.compute, State.goto_seq, Seq.run.injEq, true_and] at ht
    subst ht
    simp only [Calc.fits] at hc
    unfold afterString
    split
    · exact hr
    · refine fitsAll_append.2 ⟨fitsAll_append.2 ⟨fitsAll_flatMap fun b _ => fitsAll_putChar i b hc, ?_⟩, hr⟩
      split <;> simp [fitsAll, strStep, Op.fits, Calc.fits, hc]

/-- A step at a point of a command's program leads to points of its program. -/
theorem State.stepOp_fits (i : Instr) (op : Op) (rest : List Op) (h : fitsAll i (op :: rest)) (todo : List Op)
    (ht : (s.stepOp i op rest).seq = .run i todo) : fitsAll i todo := by
  have hop : op.fits i = true := h op (by simp)
  have hr : fitsAll i rest := fun o ho => h o (List.mem_cons_of_mem _ ho)
  cases op
  case compute c => exact s.compute_fits i c rest hop hr todo ht
  case finish f => simp [State.stepOp] at ht
  all_goals
    simp [State.stepOp] at ht
    subst ht
    exact hr

/-! ## Induction over a command -/

/-- The engine is idle, or runs command `i` at points of its program. -/
def State.At (s : State) (i : Instr) : Prop :=
  ∀ j todo, s.seq = .run j todo → j = i ∧ fitsAll i todo

theorem State.engineStep_at (i : Instr) (op : Op) (rest : List Op) (h : fitsAll i (op :: rest)) :
    (s.engineStep i op rest).At i := by
  intro j todo ht
  have hi : j = i := by
    rcases (s.tickBefore op).stepOp_seq i op rest with ⟨f, _, h1⟩ | ⟨_, todo', h1, _⟩ <;>
      rw [State.engineStep, h1] at ht <;> cases ht
    rfl
  subst hi
  exact ⟨rfl, State.stepOp_fits _ j op rest h todo ht⟩

/-- What every engine step at a point of command `i` keeps, a command that runs undisturbed keeps. -/
theorem exec_quiet_induction {P : State → Prop} {i : Instr} {t : State} (hq : s.quiet = true) (h : exec i s = .next t)
    (hrefuse : ∀ e, startOf s i = .refuse e → P (s.raiseError e)) (hstart : ∀ todo, P ((s.withLoc {}).goto i todo))
    (hstep : ∀ (s : State) op rest, P s → op.fits i = true → s.seq = .run i (op :: rest) → P (s.engineStep i op rest)) : P t := by
  rw [exec_eq] at h
  cases hs : startOf s i with
  | refuse e =>
    rw [hs, runCommand_refuse] at h
    injection h with h
    exact h ▸ hrefuse e hs
  | program todo =>
    rw [hs, runCommand_program] at h
    injection h with h
    subst h
    refine (runLoop_quiet_induction (P := fun u => P u ∧ u.At i) ?_ _ _ (show ((s.withLoc {}).goto i todo).quiet = true from hq) ⟨hstart todo, ?_⟩).1
    · intro u j op rest hu hseq
      obtain ⟨rfl, hf⟩ := hu.2 j _ hseq
      exact ⟨hstep u op rest hu.1 (hf op (by simp)) hseq, u.engineStep_at j op rest hf⟩
    · intro j todo' ht
      cases ht
      exact ⟨rfl, startOf_fits s _ _ hs⟩

/-- No agent's action but a CMD write and a reset changes SEQ. -/
theorem State.apply_seq (e : Event) :
    (State.apply s e).seq = s.seq ∨ ∀ j todo, (State.apply s e).seq ≠ .run j todo := by
  cases e with
  | hostWrite a n v =>
    simp only [State.apply, State.hostWriteReg, State.accept]
    split
    · split
      · exact .inl rfl
      · exact .inr fun j todo h => by simp at h
    · exact .inl rfl
    · exact .inl rfl
  | reset => exact .inr fun j todo h => by simp [State.apply, State.engineReset] at h
  | resetWith m g u t c ram => exact .inr fun j todo h => by simp [State.apply, State.engineReset] at h
  | hostRamRead a => left; simp only [State.apply]; split <;> simp
  | hostDevWrite r v => left; simp [State.apply]
  | coPop => left; simp only [State.apply, State.coPop]; split <;> rfl
  | coWrite a v => left; simp only [State.apply, State.coWrite]; split <;> simp
  | coPush w => left; simp only [State.apply, State.coPush]; split <;> rfl
  | _ => left; simp [State.apply]

/-- What every engine step at a point of command `i` and every other agent's action keeps, the command keeps. -/
theorem exec_induction {P : State → Prop} {i : Instr} {t : State} (h : exec i s = .next t)
    (hrefuse : ∀ e, startOf s i = .refuse e → P (s.raiseError e)) (hstart : ∀ todo, P ((s.withLoc {}).goto i todo))
    (hstep : ∀ (s : State) op rest, P s → op.fits i = true → s.seq = .run i (op :: rest) → P (s.engineStep i op rest))
    (hmark : ∀ (s : State) e es, P s → s.script = e :: es → P { s with script := es })
    (happly : ∀ (s : State) op rest e es, P s → s.seq = .run i (op :: rest) → s.script = e :: es → e.ok s.cfg = true →
      P (State.apply { s with script := es } e)) : P t := by
  rw [exec_eq] at h
  cases hs : startOf s i with
  | refuse e =>
    rw [hs, runCommand_refuse] at h
    injection h with h
    exact h ▸ hrefuse e hs
  | program todo =>
    rw [hs, runCommand_program] at h
    injection h with h
    subst h
    refine (runLoop_induction (P := fun u => P u ∧ u.At i) ?_ ?_ ?_ _ _ ⟨hstart todo, ?_⟩).1
    · intro u j op rest hu hseq
      obtain ⟨rfl, hf⟩ := hu.2 j _ hseq
      exact ⟨hstep u op rest hu.1 (hf op (by simp)) hseq, u.engineStep_at j op rest hf⟩
    · exact fun u e es hu hes => ⟨hmark u e es hu.1 hes, hu.2⟩
    · intro u j op rest e es hu hseq hes hok
      obtain ⟨rfl, hf⟩ := hu.2 j _ hseq
      refine ⟨happly u op rest e es hu.1 hseq hes hok, fun k todo' ht => ?_⟩
      rcases State.apply_seq { u with script := es } e with ha | ha
      · exact hu.2 k todo' (ha ▸ ht)
      · exact absurd ht (ha k todo')
    · intro j todo' ht
      cases ht
      exact ⟨rfl, startOf_fits s _ _ hs⟩

end Sys2Proof.Machine
end

