-- ==== Sys2Proof/Laws/PerInstr.lean ====
section
/-! SUPPORT. Laws of every command as syntax, one lemma per constructor: its word selects the row of the opcode map that has its
mnemonic (30_encoding.md R142, R144). -/

namespace Sys2Proof.Laws.TableRow

/-- The command's word selects a row of the opcode map, and that row has the command's mnemonic. -/
def Statement (i : Instr) : Prop := ∃ r ∈ opcodeTable, r.mnemonic = i.mnemonic ∧ r.selects (encode i) = true

/-- A 16-bit field below a fixed upper half is cleared by the mask of format L. -/
theorem lengthField_masked (high len : BitVec 16) :
    (high ++ len : Word) &&& 0xFFFF0000#32 = (high ++ 0#16 : Word) := by
  have hm : (0xFFFF0000#32 : Word) = (BitVec.allOnes 16 ++ 0#16 : Word) := by decide
  rw [hm]
  apply BitVec.eq_of_getLsbD_eq
  intro i hi
  simp only [BitVec.getLsbD_and, BitVec.getLsbD_append, BitVec.getLsbD_zero]
  by_cases h : i < 16
  · simp [h]
  · simp only [h, if_false, BitVec.getLsbD_allOnes, Bool.and_eq_left_iff_imp, decide_eq_true_eq]
    intro _
    omega

theorem mboxSubmit (ch : BitVec 4) : Statement (.mboxSubmit ch) :=
  ⟨_, List.getElem_mem (l := opcodeTable) (n := 0) (by decide), rfl, by revert ch; decide⟩

theorem fbProvision : Statement .fbProvision :=
  ⟨_, List.getElem_mem (l := opcodeTable) (n := 1) (by decide), rfl, by decide⟩

theorem gpioCfgin (pin : BitVec 6) : Statement (.gpioCfgin pin) :=
  ⟨_, List.getElem_mem (l := opcodeTable) (n := 2) (by decide), rfl, by revert pin; decide⟩

theorem gpioCfgout (pin : BitVec 6) : Statement (.gpioCfgout pin) :=
  ⟨_, List.getElem_mem (l := opcodeTable) (n := 3) (by decide), rfl, by revert pin; decide⟩

theorem gpioCfgalt (pin : BitVec 6) (fn : BitVec 3) : Statement (.gpioCfgalt pin fn) :=
  ⟨_, List.getElem_mem (l := opcodeTable) (n := 4) (by decide), rfl, by revert fn pin; decide +kernel⟩

theorem tmrNow : Statement .tmrNow :=
  ⟨_, List.getElem_mem (l := opcodeTable) (n := 5) (by decide), rfl, by decide⟩

theorem tmrDelay : Statement .tmrDelay :=
  ⟨_, List.getElem_mem (l := opcodeTable) (n := 6) (by decide), rfl, by decide⟩

theorem ctrlInit : Statement .ctrlInit :=
  ⟨_, List.getElem_mem (l := opcodeTable) (n := 7) (by decide), rfl, by decide⟩

theorem ctrlSample : Statement .ctrlSample :=
  ⟨_, List.getElem_mem (l := opcodeTable) (n := 8) (by decide), rfl, by decide⟩

theorem uartInit : Statement .uartInit :=
  ⟨_, List.getElem_mem (l := opcodeTable) (n := 9) (by decide), rfl, by decide⟩

theorem uartPutc (byte : Byte) : Statement (.uartPutc byte) :=
  ⟨_, List.getElem_mem (l := opcodeTable) (n := 10) (by decide), rfl, by revert byte; decide +kernel⟩

theorem uartGetc : Statement .uartGetc :=
  ⟨_, List.getElem_mem (l := opcodeTable) (n := 11) (by decide), rfl, by decide⟩

theorem uartPuts (len : BitVec 16) : Statement (.uartPuts len) :=
  ⟨_, List.getElem_mem (l := opcodeTable) (n := 12) (by decide), rfl, by
    have h := lengthField_masked (0x43#8 ++ 0#8) len
    have hr : (0x43#8 ++ 0#8 ++ 0#16 : Word) = 0x43000000#32 := by decide
    simp only [OpRow.selects, encode, opcodeTable, List.getElem_cons_succ, List.getElem_cons_zero, beq_iff_eq]
    rw [h, hr]⟩

theorem uartPuthex : Statement .uartPuthex :=
  ⟨_, List.getElem_mem (l := opcodeTable) (n := 13) (by decide), rfl, by decide⟩

end Sys2Proof.Laws.TableRow
end

