-- ==== Sys2Proof/Tests/Slice0.lean ====
section
/-! SUPPORT. Tests of single steps against the vectors of 95_test_vectors.md and the examples of the command files, the smoke tests of
WellFormed, and for each obligation a state and operands that meet its hypotheses. -/

namespace Sys2Proof.Tests

open Sys2Proof.Machine

/-! ## Helpers -/

/-- The free values of a test: every bit the rules leave open reads 0 (log 7); no tested field depends on them. -/
def open0 : List Word := List.replicate 64 0#32

/-- The state after the accepted word `w` has run from `s` in one step. -/
def after (s : State) (w : Nat) : State :=
  match step (s.withFetchWord 32 w) with
  | .next t => t
  | _ => s

/-- Reset with ARG written. -/
def withArg (v : Word) : State := { State.reset with regs := { arg := v } }

/-- A state acceptance leaves, from reset. -/
def accepted : State := { State.reset with regs := { status := { busy := true } } }

/-- The writes of a trace to one address. -/
def writesTo (a : Word) (l : List BusEvent) : List Word :=
  l.filterMap fun e => match e with
    | .wr b _ v => if b = a then some v else none
    | _ => none

/-- The bytes of RAM from an address on. -/
def ramAt (a : Nat) (bs : List Byte) : Memory := Memory.ofCells (bs.zipIdx.map fun b => (a + b.2, b.1))

/-- The UART enabled. -/
def uartOn : State := { State.reset with noise := open0, uart := { enables := 1#32 } }

/-- An unanswered or answered mailbox: words in the outbound FIFO, and buffer word 1 (its top byte; the others read 0). -/
def mailbox (out : List Word) (codeTop : Byte) : State :=
  { State.reset with noise := open0, mbox := { outbound := out }, ram := ramAt 0x00080007 [codeTop] }

/-! ## WellFormed refuses ill-formed terms (30_encoding.md R147; 00_scope.md R8) -/

theorem test_wf_pin : Instr.wf (.gpioCfgin 54#6) = false ∧ Instr.wf (.gpioCfgout 63#6) = false ∧
    Instr.wf (.gpioCfgalt 54#6 0#3) = false ∧ Instr.wf (.gpioCfgin 53#6) = true := by decide
theorem test_wf_fn : Instr.wf (.gpioCfgalt 14#6 6#3) = false ∧ Instr.wf (.gpioCfgalt 14#6 7#3) = false ∧
    Instr.wf (.gpioCfgalt 14#6 5#3) = true := by decide
theorem test_wf_string : operandOk (.uartPuts 2#16) 0xFFFFFFFF#32 = false ∧ operandOk (.uartPuts 1#16) 0xFFFFFFFF#32 = true ∧
    stringOk 0xFFFF0002#32 0xFFFF#16 = false ∧ stringOk 0xFFFF0001#32 0xFFFF#16 = true := by decide
theorem test_wf_config : Config.wf {} = true ∧ Config.wf { mboxBufAddr := 0x80008#32 } = false ∧
    Config.wf { mboxBufWords := 34 } = false ∧ Config.wf { mboxBufAddr := 0xFFFFFF80#32 } = false ∧
    Config.wf { pinLatch := 54 } = false ∧ Config.wf { uartRxPin := 54 } = false ∧ Config.wf { pinData := 9 } = false ∧
    Config.wf { uartAltFn := 6 } = false ∧ Config.wf { pudWaitCycles := 149 } = false := by decide
/-- The ranges of R7 and the alignments of 20_memory.md R106. -/
theorem test_wf_config_ranges : Config.wf { engineBase := 32#32 } = false ∧ Config.wf { mboxFifoDepth := 0 } = false ∧
    Config.wf { periphBase := 0x3F000800#32 } = false ∧ Config.wf { auxBase := 2#32 } = false ∧
    Config.wf { off := { systmrCmp := 0x0D#32 } } = false ∧ Config.wf { engineBase := 64#32 } = true := by decide

/-! ## Decoding words written out from 30_encoding.md R142, R144, R173 -/

theorem test_decode_mboxSubmit : decodeWord 0b00000001_00000000_00000000_00001000#32 = .ok (.mboxSubmit 8#4) := by rfl
theorem test_decode_fbProvision : decodeWord 0b00000010_00000000_00000000_00000000#32 = .ok .fbProvision := by rfl
theorem test_decode_gpioCfgin : decodeWord 0b00010000_00000000_00000000_00110101#32 = .ok (.gpioCfgin 53#6) := by rfl
theorem test_decode_gpioCfgout : decodeWord 0b00010001_00000000_00000000_00001001#32 = .ok (.gpioCfgout 9#6) := by rfl
theorem test_decode_gpioCfgalt : decodeWord 0b00010010_00000000_00000101_00001110#32 = .ok (.gpioCfgalt 14#6 5#3) := by rfl
theorem test_decode_tmrNow : decodeWord 0b00100000_00000000_00000000_00000000#32 = .ok .tmrNow := by rfl
theorem test_decode_tmrDelay : decodeWord 0b00100001_00000000_00000000_00000000#32 = .ok .tmrDelay := by rfl
theorem test_decode_ctrlInit : decodeWord 0b00110000_00000000_00000000_00000000#32 = .ok .ctrlInit := by rfl
theorem test_decode_ctrlSample : decodeWord 0b00110001_00000000_00000000_00000000#32 = .ok .ctrlSample := by rfl
theorem test_decode_uartInit : decodeWord 0b01000000_00000000_00000000_00000000#32 = .ok .uartInit := by rfl
theorem test_decode_uartPutc : decodeWord 0b01000001_00000000_00000000_01000001#32 = .ok (.uartPutc 0x41#8) := by rfl
theorem test_decode_uartGetc : decodeWord 0b01000010_00000000_00000000_00000000#32 = .ok .uartGetc := by rfl
theorem test_decode_uartPuts : decodeWord 0b01000011_00000000_00000000_00000011#32 = .ok (.uartPuts 3#16) := by rfl
theorem test_decode_uartPuthex : decodeWord 0b01000100_00000000_00000000_00000000#32 = .ok .uartPuthex := by rfl
/-- 95_test_vectors.md 2.1. -/
theorem test_decode_illegal :
    ([0x00000000#32, 0xFF000000#32, 0x77000000#32, 0x01000010#32, 0x02000001#32, 0x10000040#32, 0x12000776#32, 0x20000001#32,
        0x41000100#32, 0x43010000#32] : List Word).all
      (fun w => match decodeWord w with | .ok _ => false | .error _ => true) = true := by decide
theorem test_decode_bytes : decodeBytes [0x0E#8, 0x05#8, 0x00#8, 0x12#8] = .ok (.gpioCfgalt 14#6 5#3) ∧
    decodeBytes [0x0E#8, 0x05#8] = .error .notAWord := ⟨rfl, rfl⟩

/-! ## Errors (95_test_vectors.md 2.1; 60_exceptions.md R503) -/

theorem test_error_priority : (after State.reset 0x12000776).regs.status.word = 0x0000010A#32 := by decide
theorem test_error_pin : (after State.reset 0x10000036).regs.status.word = 0x0000020A#32 := by decide
theorem test_error_fn : (after State.reset 0x1200060E).regs.status.word = 0x0000020A#32 := by decide
theorem test_error_string : (after (withArg 0xFFFF0002#32) 0x4300FFFF).regs.status.word = 0x0000020A#32 := by decide
theorem test_error_reserved_before_provisioned :
    (after { State.reset with regs := { fbValid := true } } 0x02000001).regs.status.word = 0x0000010A#32 := by decide
/-- A CMD write during TMR.DELAY is discarded and sets OVERRUN (95_test_vectors.md 2.1). -/
theorem test_overrun :
    (after { withArg 10#32 with script := [.engine, .hostWrite 0#32 4 0x20000000#32] } 0x21000000).regs.status.word =
      0x00010002#32 := by decide
/-- The ARG latch (95_test_vectors.md 2.1): with t0 = 2 the delay of 100 ends at 102 or later, and ARG reads 5 after. -/
theorem test_arg_latch :
    let t := after { withArg 100#32 with script := [.engine, .hostWrite 4#32 4 5#32] } 0x21000000
    t.regs.arg = 5#32 ∧ t.regs.status.done = true ∧ 102 ≤ t.timer.count := by decide

/-- POLL over an idle engine with DONE = 0 reads STATUS and goes on (30_encoding.md R171). -/
theorem test_poll_repeats :
    let s := { State.reset with script := [.poll] }
    step s = .next { s with obs := [.reg 8#32 0#32] } := by rfl

/-! ## Mailbox (95_test_vectors.md 2.2) -/

theorem test_mboxSubmit_foreign :
    let t := after (mailbox [0x00080009#32, 0x00080008#32] 0x80#8) 0x01000008
    t.regs.status.word = 0x00000006#32 ∧ t.regs.res0 = 0x80000000#32 ∧ t.mbox.inbound = [0x00080008#32] ∧
      t.mbox.outbound = [] ∧ t.trace.length = 7 := by decide
theorem test_mboxSubmit_unanswered :
    let t := after (mailbox [0x00080008#32] 0x00#8) 0x01000008
    t.regs.status.word = 0x00000002#32 ∧ t.regs.res0 = 0#32 := by decide

/-- W is pushed back only after it has been popped (60_exceptions.md R530). -/
theorem test_coPush_not_popped :
    let s : State := { accepted with seq := .run (.mboxSubmit 8#4) [.mboxReceive, .finish .submit] }
    (s.coPush 0x00080008#32).mbox.outbound = [] ∧ (s.coPush 0x00080009#32).mbox.outbound = [0x00080009#32] := by decide

/-! ## Framebuffer (42_framebuffer.md R290; 95_test_vectors.md 2.3) -/

theorem test_fbProvision_success :
    let ws := [(1, 0x80000000#32), (28, 0xFE8FA000#32), (29, 0x00300000#32), (33, 0x1000#32)]
    let t := after { State.reset with noise := open0, script := answerScript {} ws } 0x02000000
    t.regs.status.word = 0x00000006#32 ∧ t.regs.fbValid = true ∧
      t.regs.fb = ⟨0x400#32, 0x300#32, 0x1000#32, 0x20#32, 1#32, 0x00300000#32, 0x3E8FA000#32⟩ := by decide +kernel
/-- The trace: 35 writes, one FULL read, the write of W, two EMPTY reads (the first comes before the answer), the pop, word 1. -/
theorem test_fbProvision_failure :
    let t := after { State.reset with noise := open0, script := answerScript {} [(1, 0x00000001#32)] } 0x02000000
    t.regs.status.word = 0x0000030A#32 ∧ t.regs.fb = {} ∧ t.trace.length = 35 + 6 := by decide +kernel

/-! ## GPIO (95_test_vectors.md 2.4, 1.5) -/

theorem test_gpioCfgin :
    let t := after { State.reset with gpio := { gpfsel := Vector.replicate 6 0x00000249#32 } } 0x1000000A
    t.gpio.gpfsel[1] = 0x00000248#32 ∧ writesTo (Reg.addr {} (.gppudclk 0)) t.trace = [0x00000400#32, 0#32] ∧
      t.regs.status.word = 0x00000002#32 ∧ t.trace.length = 7 := by decide
theorem test_gpioCfgin_53 : writesTo 0x3F20009C#32 (after State.reset 0x10000035).trace = [0x00200000#32, 0#32] := by decide
theorem test_gpioCfgout_9 :
    (after { State.reset with gpio := { gpfsel := Vector.replicate 6 0x3FFFFFFF#32 } } 0x11000009).gpio.gpfsel[0] =
      0x0FFFFFFF#32 := by decide
theorem test_gpioCfgout_19 :
    (after { State.reset with gpio := { gpfsel := Vector.replicate 6 0xC0000000#32 } } 0x11000013).gpio.gpfsel[1] =
      0xC8000000#32 := by decide
theorem test_gpioCfgalt_5_3 : (after State.reset 0x12000305).gpio.gpfsel[0] = 0x00038000#32 := by decide
theorem test_gpioCfgalt_32_4 :
    let t := after State.reset 0x12000420
    t.gpio.gpfsel[3] = 0x000000C0#32 ∧ writesTo (Reg.addr {} (.gppudclk 1)) t.trace = [1#32, 0#32] := by decide

/-- A pin of the same bank whose clock bit was left set keeps its pull (41_gpio.md R244). -/
theorem test_gpioCfgin_other_clocked :
    let s := { State.reset with noise := open0, gpio := { gppudclk := #v[0x800#32, 0#32] } }
    (after s 0x1000000A).gpio.pullOf 11 = .down ∧ (after s 0x1000000A).gpio.pullOf 10 = .off := by decide

/-- A host write inside the pull sequence leaves the pull any value, here up, and not off (70_reset_and_hazards.md R621): GPPUD
before the first Spin, GPPUDCLK before it, and GPPUDCLK after the hold Spin. -/
theorem test_gpioCfgin_disturbed :
    let s (n : Nat) (e : Event) : State :=
      { State.reset with noise := List.replicate 16 0xFFFFFFFF#32, script := List.replicate n .engine ++ [e] }
    (after (s 3 (.hostDevWrite .gppud 0#32)) 0x1000000A).gpio.pullOf 10 = .up ∧
      (after (s 3 (.hostDevWrite (.gppudclk 0) 0x400#32)) 0x1000000A).gpio.pullOf 10 = .up ∧
      (after (s 6 (.hostDevWrite (.gppudclk 0) 0#32)) 0x1000000A).gpio.pullOf 10 = .up ∧
      (after (s 2 (.hostDevWrite .gppud 2#32)) 0x1000000A).gpio.pullOf 10 = .off := by decide

/-- A host's own sequence that keeps both waits ends at its GPPUD value, here up; cut short it ends at any value, here off; and its
GPPUD write alone changes no clocked pin (60_exceptions.md R523). -/
theorem test_host_pull :
    let s : State := { State.reset with noise := List.replicate 8 0#32 }
    let seq (a b : Nat) : List Event :=
      [.hostDevWrite .gppud 2#32, .cycles a, .hostDevWrite (.gppudclk 0) 0x400#32, .cycles b, .hostDevWrite (.gppudclk 0) 0#32]
    ((seq 150 150).foldl State.apply s).gpio.pullOf 10 = .up ∧ ((seq 149 150).foldl State.apply s).gpio.pullOf 10 = .off ∧
      ((seq 150 149).foldl State.apply s).gpio.pullOf 10 = .off ∧ ((seq 150 150).foldl State.apply s).gpio.pullOf 11 = .down ∧
      (((seq 150 150).take 4 ++ [Event.hostDevWrite .gppud 0#32]).foldl State.apply s).gpio.pullOf 10 = .up := by decide

/-! ## Timer (95_test_vectors.md 2.5) -/

theorem test_tmrNow_carry :
    let t := after { State.reset with timer := { count := 0x1FFFFFFFF, rate := 0 }, script := [.engine, .tick 4] } 0x20000000
    t.regs.res1 = 2#32 ∧ t.regs.res0 = 3#32 ∧ t.trace.length = 5 := by decide
theorem test_tmrNow_stable :
    let t := after { State.reset with timer := { count := 0x500001000, rate := 0 } } 0x20000000
    t.regs.res1 = 5#32 ∧ t.regs.res0 = 0x1000#32 ∧ t.trace.length = 3 := by decide
theorem test_tmrDelay_example :
    let t := after { withArg 12#32 with timer := { count := 995, rate := 5 } } 0x21000000
    t.loc.t0 = 1005#64 ∧ t.trace.length = 6 ∧ t.regs.status.word = 0x00000002#32 := by decide
theorem test_tmrDelay_near_top :
    let t := after { withArg 2#32 with timer := { count := 2 ^ 64 - 1, rate := 0 } } 0x21000000
    t.regs.status.word = 0x00000001#32 ∧ t.trace.length = 6 := by decide

/-! ## Controller (95_test_vectors.md 2.6) -/

theorem test_ctrlInit :
    let t := after State.reset 0x30000000
    writesTo (Reg.addr {} (.gpfsel 0)) t.trace = [0x08000000#32] ∧ writesTo (Reg.addr {} (.gpfsel 1)) t.trace = [8#32, 8#32] ∧
      writesTo (Reg.addr {} (.gppudclk 0)) t.trace = [0x200#32, 0#32, 0x800#32, 0#32, 0x400#32, 0#32] := by decide
theorem test_ctrlSample :
    (after
      { State.reset with
        noise := open0
        gpio := { gpfsel := (Vector.replicate 6 0#32).set 0 0x08000000#32 |>.set 1 8#32 }
        ctrl := { buttons := 0x8011#16 } } 0x31000000).regs.res0 = 0x00008011#32 := by decide +kernel

/-- A controller plugged in again is not synchronised before the next latch (log 35). -/
theorem test_plug :
    let c : Ctrl := { synced := true, pos := 3, shift := 8#16 }
    (c.data = some false) ∧ ((c.plug 5 false).plug 7 true).data = none ∧ (c.plug 5 true).data = some false := by decide

/-! ## UART (95_test_vectors.md 2.7, 1.1, 1.2) -/

theorem test_uartInit :
    let t := after { State.reset with uart := { enables := 6#32, rx := [0x41#8] } } 0x40000000
    t.gpio.gpfsel[1] = 0x00012000#32 ∧ t.uart = { enables := 7#32, lcr := 3#32, cntl := 3#32, baud := 270#32 } ∧
      writesTo (Reg.addr {} (.gppudclk 0)) t.trace = [0x4000#32, 0#32, 0x8000#32, 0#32] ∧ t.trace.length = 23 := by decide
theorem test_uartPutc_newline : (after uartOn 0x4100000A).uart.tx = [0x0A#8] := by decide
theorem test_uartGetc_cr :
    let t := after { uartOn with uart := { enables := 1#32, rx := [0x0D#8, 0x41#8] } } 0x42000000
    t.regs.res0 = 0x0000000A#32 ∧ t.uart.rx = [0x41#8] := by decide
theorem test_uartPuts_newlines :
    (after { uartOn with regs := { arg := 0x1000#32 }, ram := ramAt 0x1000 [0x0A#8, 0x0A#8] } 0x43000002).uart.tx =
      [0x0D#8, 0x0A#8, 0x0D#8, 0x0A#8] := by decide
theorem test_uartPuts_nul :
    let t := after { uartOn with regs := { arg := 0x1000#32 }, ram := ramAt 0x1000 [0x61#8, 0x62#8, 0#8, 0x63#8] } 0x43000005
    t.uart.tx = [0x61#8, 0x62#8] ∧ t.regs.status.word = 0x00000002#32 := by decide
theorem test_uartPuthex :
    (after { uartOn with regs := { arg := 0x1A2B3C4D#32 } } 0x44000000).uart.tx =
      [0x31#8, 0x41#8, 0x32#8, 0x42#8, 0x33#8, 0x43#8, 0x34#8, 0x44#8] := by decide

/-! ## Witnesses: for each obligation with hypotheses, a state and operands that meet them all -/

/-- `accepted` as the model's hypothesis. -/
theorem accepted_ok : accepted.accepted := rfl

theorem witness_DecodedWordReencodes : decodeWord 0x1200050E#32 = .ok (.gpioCfgalt 14#6 5#3) := by rfl

theorem witness_OpcodeRowsDisjoint : decodeWord 0x4300FFFF#32 = .ok (.uartPuts 0xFFFF#16) := by rfl

theorem witness_IllegalWords :
    [0x00#8, 0x03#8, 0x0F#8, 0x13#8, 0x1F#8, 0x22#8, 0x2F#8, 0x32#8, 0x3F#8, 0x45#8, 0xFF#8].all (fun op =>
      decide (fieldOp (op ++ 0#24) ∉ [0x01#8, 0x02#8, 0x10#8, 0x11#8, 0x12#8, 0x20#8, 0x21#8, 0x30#8, 0x31#8, 0x40#8, 0x41#8,
        0x42#8, 0x43#8, 0x44#8])) = true := by decide

theorem witness_StepRunsDecodedCommand :
    [[], [Event.engine], [.untilHold], [.poll]].all (fun es =>
      let s := { accepted with seq := .decode 0x20000000#32, script := es }
      s.cfg.wf && decide (s.seq = .decode 0x20000000#32) && decide (s.script = es)) = true ∧
    decodeWord 0x20000000#32 = .ok .tmrNow ∧ decodeTableWord 32 0x12000500 = some (.gpioCfgalt 0#6 5#3) :=
  ⟨by decide, rfl, by decide⟩

/-- The accepted illegal word of 60_exceptions.md R503; its row of R144 and a reserved bit. -/
theorem witness_IllegalWords_completes :
    let s := { accepted with seq := .decode 0x12000776#32 }
    s.cfg.wf = true ∧ s.accepted ∧ s.seq = .decode 0x12000776#32 ∧ decodeWord 0x12000776#32 = .error (.reservedBits 0x12#8) ∧
      s.script = [] ∧ fieldOp 0x12000776#32 = fieldOp 0x12000000#32 ∧
      0x12000776#32 &&& 0xFFFFF8C0#32 ≠ 0x12000000#32 := ⟨by decide, rfl, rfl, rfl, rfl, by decide, by decide⟩

theorem witness_PollRepeatsUntilDone :
    let s (d : Bool) : State := { State.reset with script := [.poll], regs := { status := { done := d } } }
    (s true).cfg.wf = true ∧ (s true).script = .poll :: [] ∧ (s true).regs.status.done = true ∧
      (s false).regs.status.done = false ∧ (s false).seq = .idle := by decide

theorem witness_HostCommandAccepted :
    let s := { State.reset with script := [.hostWrite 0#32 4 0x20000000#32] }
    s.cfg.wf = true ∧ s.script = .hostWrite s.cfg.engineBase 4 0x20000000#32 :: [] ∧ s.regs.status.busy = false := by decide

theorem witness_BusyCommandWriteOnlyOverruns :
    let s := { accepted with seq := .run .tmrNow nowProgram, script := [.hostWrite 0#32 4 0x20000000#32] }
    s.cfg.wf = true ∧ s.script = .hostWrite s.cfg.engineBase 4 0x20000000#32 :: [] ∧ s.regs.status.busy = true ∧
      s.seq = .run .tmrNow (.chiRead :: [.cloRead, .chiCheck, .compute (.nowTest .result), .finish .now]) := by decide

theorem witness_HostAccessRule :
    let w (off n : Nat) (v : Word) : State := { State.reset with script := [.hostWrite (BitVec.ofNat 32 off) n v] }
    let r (off n : Nat) : State := { State.reset with script := [.hostRead (BitVec.ofNat 32 off) n] }
    (∀ off ∈ [0x08, 0x14, 0x20, 0x3C], off < 64 ∧ off % 4 = 0 ∧ off ≠ 0x00 ∧ off ≠ 0x04 ∧
      (w off 4 7#32).script = .hostWrite ((w off 4 7#32).cfg.engineBase + BitVec.ofNat 32 off) 4 7#32 :: []) ∧
    (∀ off ∈ [0x00, 0x14, 0x18, 0x1C], (r off 4).script = .hostRead ((r off 4).cfg.engineBase + BitVec.ofNat 32 off) 4 :: []) ∧
    ∀ p ∈ [(0, 1), (0, 2), (0x3C, 8), (0x3F, 4), (1, 4)], p.1 < 64 ∧ ¬(p.2 = 4 ∧ p.1 % 4 = 0) ∧
      (w p.1 p.2 7#32).script = .hostWrite ((w p.1 p.2 7#32).cfg.engineBase + BitVec.ofNat 32 p.1) p.2 7#32 :: [] := by decide

theorem witness_HostRegisterAccess :
    let s := { accepted with script := [.hostRead 0x3C#32 4] }
    let s' := { accepted with script := [.hostWrite 4#32 4 9#32] }
    s.cfg.wf = true ∧ (if s.regs.fbValid then 1#32 else 0#32) = 0#32 ∧
      s.script = .hostRead (s.cfg.engineBase + BitVec.ofNat 32 0x3C) 4 :: [] ∧
      s'.script = .hostWrite (s'.cfg.engineBase + 4#32) 4 9#32 :: [] := by decide

theorem witness_ArgNotReadByCommands :
    let s := { accepted with timer := { count := 5 }, opnd := 3#32 }
    s.quiet = true ∧ ∃ t, exec .tmrDelay s = .next t := ⟨rfl, _, rfl⟩

theorem witness_ArgNotReadByCommands_inside :
    let s := { accepted with seq := .run .tmrNow nowProgram, script := [.hostWrite 4#32 4 9#32] }
    s.script = .hostWrite (s.cfg.engineBase + 4#32) 4 9#32 :: [] ∧
      s.seq = .run .tmrNow (.chiRead :: [.cloRead, .chiCheck, .compute (.nowTest .result), .finish .now]) ∧
      ({ s with script := [] } : State).quiet = true := by decide

theorem witness_ResetAtAnyStep :
    let s := { accepted with seq := .run .tmrNow nowProgram, script := [.reset] }
    s.cfg.wf = true ∧ s.script = .reset :: [] ∧
      s.seq = .run .tmrNow (.chiRead :: [.cloRead, .chiCheck, .compute (.nowTest .result), .finish .now]) := by decide

/-- Full FIFOs, a clock bit set in the present cycle, an edge at the counter's value, and RAM with a byte. -/
theorem witness_ResetAtAnyStep_devices :
    let m : Mbox := { inbound := List.replicate 8 1#32, outbound := List.replicate 8 2#32 }
    let g : Gpio := { clkAt := Vector.replicate 54 300 }
    let u : Uart := { rx := List.replicate 8 3#8, tx := List.replicate 8 4#8 }
    let c : Timer := { count := 7 }
    let p : Ctrl := { edgeAt := 7 }
    let s := { accepted with cycles := 300, seq := .run .tmrNow nowProgram, script := [.resetWith m g u c p [(5, 1#8)]] }
    s.cfg.wf = true ∧ s.script = .resetWith m g u c p [(5, 1#8)] :: [] ∧ m.inbound.length ≤ s.cfg.mboxFifoDepth ∧
      m.outbound.length ≤ s.cfg.mboxFifoDepth ∧ u.rx.length ≤ s.cfg.uartFifoDepth ∧ u.tx.length ≤ s.cfg.uartFifoDepth ∧
      (∀ q : Fin 54, g.clkAt[q] ≤ s.cycles) ∧ p.edgeAt ≤ c.count ∧ Memory.wf [(5, 1#8)] = true ∧
      s.seq = .run .tmrNow (.chiRead :: [.cloRead, .chiCheck, .compute (.nowTest .result), .finish .now]) := by decide

/-- A running TMR.NOW, from reset. -/
def running : State := { accepted with seq := .run .tmrNow nowProgram }

theorem running_inv : Inv running :=
  { ram_wf := by decide
    status_ok := ⟨by decide, by decide, by decide⟩
    idle_iff := by decide
    fb_unset := by decide
    inbound_le := by decide
    outbound_le := by decide
    rx_le := by decide
    tx_le := by decide
    edge_le := by decide
    clk_le := by decide
    run_ends := fun i todo h => by cases h; decide
    fail_code := fun i todo h => by cases h; decide
    fb_once := fun i todo h => by cases h; decide }

theorem witness_InvKeptByStep : Inv running ∧ ∃ t, step running = .next t ∧ t.regs.status.done = true :=
  ⟨running_inv, _, rfl, by decide⟩

theorem witness_StatusUntilReset :
    running.noReset = true ∧ (∃ t, step running = .next t) ∧
      (running.regs.status.busy || running.regs.status.done) = true := ⟨rfl, ⟨_, rfl⟩, rfl⟩

theorem witness_BusyCommandWriteOnlyOverruns_sticky :
    let s := { running with regs := { status := { busy := true, overrun := true } } }
    s.noReset = true ∧ (∃ t, step s = .next t) ∧ s.regs.status.overrun = true := ⟨rfl, ⟨_, rfl⟩, rfl⟩

theorem witness_DescriptorImmutable :
    let s := { running with regs := { status := { busy := true }, fb := { width := 7#32 }, fbValid := true } }
    Inv s ∧ s.regs.fbValid = true ∧ s.noReset = true ∧ ∃ t, step s = .next t :=
  ⟨{ ram_wf := by decide
     status_ok := ⟨by decide, by decide, by decide⟩
     idle_iff := by decide
     fb_unset := by decide
     inbound_le := by decide
     outbound_le := by decide
     rx_le := by decide
     tx_le := by decide
     edge_le := by decide
     clk_le := by decide
     run_ends := fun i todo h => by cases h; decide
     fail_code := fun i todo h => by cases h; decide
     fb_once := fun i todo h hm => absurd hm (by cases h; decide) }, rfl, rfl, _, rfl⟩

theorem witness_TraceOnlyGrows : ∃ t, step running = .next t ∧ t.trace.length = 3 := ⟨_, rfl, by decide⟩

/-- Both cases of the last clause too: a completion without results written, and a command still running. -/
theorem witness_ResultRegisterFrame :
    accepted.accepted ∧ accepted.noReset = true ∧ (∃ t, exec .tmrNow accepted = .next t) ∧
      (∃ t, exec (.gpioCfgin 54#6) accepted = .next t ∧ t.regs.status.err = true) ∧
      ∃ t, exec (.mboxSubmit 8#4) { accepted with noise := open0 } = .next t ∧ t.seq ≠ .idle :=
  ⟨rfl, rfl, ⟨_, rfl⟩, ⟨_, rfl, rfl⟩, _, rfl, by decide⟩

theorem witness_DeviceFrame : accepted.quiet = true ∧ ∃ t, exec .ctrlInit accepted = .next t ∧ t.seq = .idle :=
  ⟨rfl, _, rfl, by decide⟩

theorem witness_MemoryFrame : accepted.quiet = true ∧ (∃ t, exec (.uartPuts 0#16) accepted = .next t) ∧
    Instr.writesRam (.uartPuts 0#16) = false ∧ ∀ j < 35, ∀ k < 4, 0x00080000 + 140 ≠ byteAddr (bufAddr accepted.cfg j) k :=
  ⟨rfl, ⟨_, rfl⟩, rfl, by decide⟩

theorem witness_IllegalOperandCompletes :
    let s := { accepted with opnd := 0xFFFFFFFF#32 }
    s.accepted ∧ 53 < (54#6).toNat ∧ 5 < (6#3).toNat ∧ 2 ^ 32 < s.opnd.toNat + (2#16).toNat ∧ s.quiet = true ∧
      ∃ t, exec (.mboxSubmit 15#4) s = .next t := ⟨rfl, by decide, by decide, by decide, rfl, _, rfl⟩

theorem witness_AlreadyProvisionedCompletes :
    let s := { accepted with regs := { status := { busy := true }, fbValid := true } }
    s.accepted ∧ s.regs.fbValid = true := ⟨rfl, rfl⟩

/-- The three forms, the highest pin and alternate function, and a neighbour pin. -/
theorem witness_GpioConfigureCompletes :
    accepted.quiet = true ∧ accepted.accepted ∧ (53#6).toNat = 53 ∧ (53 : Nat) ≤ 53 ∧ (5#3).toNat ≤ 5 ∧
      fselAlt accepted.cfg (5#3).toNat = 0b010#3 ∧ (52 : Nat) ≤ 53 ∧ 52 ≠ 53 ∧
      ∀ q : Fin 54, accepted.gpio.clkAt[q] ≤ accepted.cycles :=
  ⟨rfl, rfl, by decide, by decide, by decide, rfl, by decide, by decide, by decide⟩

theorem witness_FselInsertOneField : (53 : Nat) ≤ 53 ∧ (31 < 3 * (53 % 10) ∨ 3 * (53 % 10) + 3 ≤ 31) := by decide

theorem witness_RegisterMap : ({} : Config).off = {} ∧ Config.wf {} = true ∧ 35 < ({} : Config).mboxBufWords := by decide

theorem witness_PullFollowsClock :
    let s : State :=
      { State.reset with
        gpio :=
          { gppud := 1#32, pudAt := some 0, clkAt := Vector.replicate 54 150, gppudclk := Vector.replicate 2 0x200000#32 }
        cycles := 300 }
    ((53 : Nat) ≤ 53 ∧ pinBank 53 = 1 ∧ pinBank 53 ≠ 0 ∧ Word.bit 0x200000#32 (53 % 32) = true ∧ Word.bit 1#32 (53 % 32) = false ∧
      s.gpio.gppudclk[(1 : Fin 2)].bit (53 % 32) = true ∧ s.gpio.gppudclk[(1 : Fin 2)].bit (52 % 32) = false ∧
      s.gpio.broken = false ∧ s.gpio.pudAt = some 0 ∧ 0 + s.cfg.pudWaitCycles ≤ s.cycles ∧ s.gpio.gppud = 1#32 ∧
      s.gpio.clkAt[53] + s.cfg.pudWaitCycles ≤ s.cycles ∧ s.seq = .idle ∧ s.pullPhase = none) ∧
    s.cfg.namesPull 0#32 .off ∧ s.cfg.namesPull 1#32 .down ∧ s.cfg.namesPull 2#32 .up :=
  ⟨by decide, rfl, ⟨rfl, by decide⟩, rfl, by decide, by decide⟩

/-- Each point inside the sequence, with the pin's clock bit set, and the broken settle time. -/
theorem witness_PullFollowsClock_broken :
    let s (k : Nat) : State :=
      { accepted with
        gpio := { gppudclk := #v[0#32, 0x200000#32], broken := true }
        seq := .run (.gpioCfgin 53#6) ((pullDisable 53).drop k ++ [.finish .plain]) }
    (∀ k ∈ [1, 2, 3, 4], (s k).seq = .run (.gpioCfgin 53#6) ((pullDisable 53).drop k ++ [.finish .plain])) ∧
    ((s 1).pullPhase = some .settle ∧ (s 2).pullPhase = some .settle ∧ (s 3).pullPhase = some (.hold 1) ∧
      (s 4).pullPhase = some (.hold 1) ∧ (s 0).pullPhase = none) ∧
    (s 3).gpio.gppudclk[pinBank 53].bit (53 % 32) = true ∧ (s 1).gpio.broken = true ∧
      Word.bit 0x200000#32 (53 % 32) = true := by decide

theorem witness_OutputLatchWrites : (53 : Nat) ≤ 53 ∧ pinBank 53 = 1 ∧ Word.bit 0x200000#32 (53 % 32) = true := by decide

theorem witness_LevelReads :
    let out : State := { State.reset with gpio := { gpfsel := Vector.replicate 6 0b001#32 } }
    let inp : State := { State.reset with gpio := { pull := Vector.replicate 54 .up, driven := 1#54 } }
    let dat : State := { State.reset with ctrl := { synced := true, pos := 15 } }
    (State.reset.cfg.fselOutput ≠ State.reset.cfg.fselInput) ∧ out.pinFunction 50 = out.cfg.fselOutput ∧
      (inp.pinFunction 0 = inp.cfg.fselInput ∧ 0 ≠ inp.cfg.pinData ∧ pinLevel inp.gpio.driven 0 = true ∧
        pinLevel inp.gpio.driven 53 = false ∧ inp.gpio.pullOf 53 = .up) ∧
      (({ inp with gpio := { inp.gpio with gpfsel := Vector.replicate 6 0b100#32 } } : State).pinFunction 0 = 0b100#3) ∧
      (dat.pinFunction dat.cfg.pinData = dat.cfg.fselInput ∧ dat.ctrl.plugged = true ∧ dat.ctrl.synced = true ∧
        dat.ctrl.pos ≤ 15) := by decide

theorem witness_MailboxDevice :
    let s := { State.reset with mbox := { inbound := List.replicate 7 0#32, outbound := [5#32] } }
    s.cfg.mboxFullBit ≠ s.cfg.mboxEmptyBit ∧ s.mbox.inbound.length ≤ s.cfg.mboxFifoDepth ∧ s.mbox.outbound = 5#32 :: [] ∧
      s.mbox.inbound.length < s.cfg.mboxFifoDepth := by decide

theorem witness_UartDevice :
    let s := { uartOn with uart := { enables := 1#32, rx := [5#8], tx := List.replicate 7 0#8 } }
    s.uartEnabled = true ∧ s.uart.rx = 5#8 :: [] ∧ s.uart.tx.length < s.cfg.uartFifoDepth := by decide

theorem witness_TimerReads :
    (State.reset.cfg.timerPresent = true ∧ ({ count := 2 ^ 64 - 1 } : Timer).count < 2 ^ 64) ∧
      ({ timerPresent := false } : Config).timerPresent = false := by decide

theorem witness_CounterNeverDecreases :
    let s := { running with script := [.tick 7, .reset] }
    s.noDeviceReset = true ∧ ∃ t, step s = .next t ∧ t.timer.count = 7 := ⟨rfl, _, rfl, by decide⟩

theorem witness_RamLittleEndian :
    Memory.wf (ramAt 0x1000 [1#8, 0#8, 2#8]) = true ∧ State.reset.wordInRam 0x3EFFFFFC#32 = true ∧
      ∀ k < 4, 0x1000 ≠ byteAddr 0x3EFFFFFC#32 k := by decide

/-- A request of 7 words with one tag, whose value word is word 5. -/
def oneTag : State :=
  { State.reset with
    mbox := { inbound := [0x00080008#32] }
    ram := ramAt 0x00080000 [28#8, 0#8, 0#8, 0#8, 0#8, 0#8, 0#8, 0#8, 1#8, 0#8, 0#8, 0#8, 4#8] }

theorem witness_CoprocessorExtent_pop : oneTag.mbox.inbound = 0x00080008#32 :: [] ∧
    oneTag.keepsInvariant (0x00080008#32 &&& 0xFFFFFFF0#32) ⟨7, [⟨2, 1⟩]⟩ ∧
    oneTag.coPop.mbox.held = [⟨0x00080008#32, some ⟨7, [⟨2, 1⟩]⟩⟩] :=
  ⟨rfl, ⟨by decide, by decide, rfl, by decide, by decide, by decide, by decide, by decide, by decide, by decide⟩, by decide⟩

/-- What the coprocessor may write (the response code, the length word with bit 31 set, the last word's neighbour) and may not. -/
theorem witness_CoprocessorExtent :
    let s := oneTag.coPop
    (∀ r ∈ s.mbox.held, r.layout ≠ none) ∧
      (∀ i < 7, 1 ≤ i → ∀ k < 4,
        0x00080003 ≠ byteAddr ((0x00080008#32 &&& 0xFFFFFFF0#32) + BitVec.ofNat 32 (4 * i)) k) ∧
      (s.coWrite 0x00080004#32 0x80000000#32).ramWord 0#32 0x00080004#32 = 0x80000000#32 ∧
      (s.coWrite 0x00080010#32 0x80000004#32).ramWord 0#32 0x00080010#32 = 0x80000004#32 ∧
      (s.coWrite 0x00080014#32 9#32).ramWord 0#32 0x00080014#32 = 9#32 ∧
      s.coWrite 0x00080010#32 4#32 = s ∧ s.coWrite 0x0008000C#32 9#32 = s ∧ s.coWrite 0x00080000#32 9#32 = s ∧
      s.coWrite 0x0008001C#32 9#32 = s := by decide

theorem witness_CoprocessorExtent_push :
    let r : Request := ⟨0x00080008#32, none⟩
    let s := { accepted with seq := .run (.mboxSubmit 8#4) [.finish .submit], mbox := { held := [⟨5#32, none⟩, r, r] } }
    let e := { s with mbox := { held := [⟨5#32, none⟩] } }
    s.seq = .run (.mboxSubmit 8#4) [.finish .submit] ∧ channelWord s.cfg 8#4 = 0x00080008#32 ∧
      s.mbox.held = [⟨5#32, none⟩] ++ r :: [r] ∧ (∀ q ∈ ([⟨5#32, none⟩] : List Request), q.word ≠ 0x00080008#32) ∧
      s.mbox.outbound.length < s.cfg.mboxFifoDepth ∧ ∀ r ∈ e.mbox.held, r.word ≠ 0x00080008#32 := by decide

theorem witness_ChannelWordEncodes : Config.wf {} = true ∧ channelWord {} 15#4 = 0x0008000F#32 := by decide

/-- The last free slot of the inbound FIFO, a foreign word before W and one behind it. -/
theorem witness_MboxSubmitCompletes :
    let s := { accepted with mbox := { inbound := List.replicate 7 0#32, outbound := [0x00080009#32, 0x00080008#32, 1#32] } }
    s.quiet = true ∧ s.accepted ∧ s.cfg.mboxFullBit ≠ s.cfg.mboxEmptyBit ∧ s.mbox.inbound.length < s.cfg.mboxFifoDepth ∧
      s.mbox.outbound = [0x00080009#32] ++ channelWord s.cfg 8#4 :: [1#32] ∧ channelWord s.cfg 8#4 ∉ [0x00080009#32] ∧
      s.wordInRam (bufAddr s.cfg 1) = true := ⟨rfl, rfl, by decide, by decide, by decide, by decide, by decide⟩

theorem witness_MailboxHolds :
    let full := { accepted with mbox := { inbound := List.replicate 8 0#32 } }
    let none' := { accepted with mbox := { outbound := [0x00080009#32] } }
    (full.script = [] ∧ full.accepted ∧ full.cfg.wf = true ∧ full.cfg.mboxFullBit ≠ full.cfg.mboxEmptyBit ∧
      full.cfg.mboxFifoDepth ≤ full.mbox.inbound.length ∧ full.regs.fbValid = false) ∧
    (none'.accepted ∧ none'.mbox.inbound.length < none'.cfg.mboxFifoDepth ∧ channelWord none'.cfg 8#4 ∉ none'.mbox.outbound) :=
  ⟨⟨rfl, rfl, by decide, by decide, by decide, rfl⟩, rfl, by decide, by decide⟩

theorem bufferInRam_accepted : accepted.bufferInRam := by
  unfold State.bufferInRam
  decide +kernel

/-- FB.PROVISION about to run, with this answer to come. -/
def answering (ws : List (Nat × Word)) : State := { accepted with script := answerScript {} ws }

theorem answering_ok (ws : List (Nat × Word)) (h : ∀ w ∈ ws, fbAnswerOk w) : AnsweredRequest (answering ws) ws :=
  { script_eq := rfl
    accepted := rfl
    cfg_wf := (by decide : Config.wf {} = true)
    flags_differ := (by decide : (31 : Fin 32) ≠ 30)
    inbound_empty := rfl
    outbound_empty := rfl
    ram_wf := rfl
    buffer_in_ram := bufferInRam_accepted
    fb_unset := rfl
    answers_ok := h }

/-- The success branch, with a tag's response length, and the failing branch. -/
theorem witness_FbProvisionWithAnswer :
    let ws := [(1, 0x80000000#32), (4, 0x80000008#32), (33, 0x1000#32)]
    let bad := [(1, 0x00000001#32)]
    (AnsweredRequest (answering ws) ws ∧ successTest {} ((afterWrites (fbRequest {}) ws).getD 1 0#32) = true) ∧
      (AnsweredRequest (answering bad) bad ∧ successTest {} ((afterWrites (fbRequest {}) bad).getD 1 0#32) = false) :=
  ⟨⟨answering_ok _ (by simp only [fbAnswerOk]; decide), by decide⟩, answering_ok _ (by simp only [fbAnswerOk]; decide), by decide⟩

theorem witness_ProvisionedDescriptorSizes :
    let ws := [(1, 0x80000000#32), (29, 0x00300000#32), (33, 0x1000#32)]
    AnsweredRequest (answering ws) ws ∧ successTest {} ((afterWrites (fbRequest {}) ws).getD 1 0#32) = true ∧
      fbGuarantee (afterWrites (fbRequest {}) ws) :=
  ⟨answering_ok _ (by simp only [fbAnswerOk]; decide), by decide, by simp only [fbGuarantee]; decide⟩

theorem witness_TmrNowReturnsReads : accepted.quiet = true ∧ accepted.accepted := ⟨rfl, rfl⟩

/-- Both branches. -/
theorem witness_TmrNowValue : accepted.quiet = true ∧ accepted.cfg.timerPresent = true ∧
    (accepted.timer.count + accepted.timer.rate) / 2 ^ 32 = (accepted.timer.count + 3 * accepted.timer.rate) / 2 ^ 32 ∧
    (let s := { accepted with timer := { count := 2 ^ 32 - 2 } }
     s.timer.count + 5 * s.timer.rate < 2 ^ 64 ∧ 4 * s.timer.rate < 2 ^ 32 ∧
      (s.timer.count + s.timer.rate) / 2 ^ 32 ≠ (s.timer.count + 3 * s.timer.rate) / 2 ^ 32) :=
  ⟨rfl, rfl, by decide, by decide⟩

theorem witness_TmrDelayCompletes :
    let s := { accepted with opnd := 0xFFFFFFFF#32 }
    s.quiet = true ∧ s.accepted ∧ s.cfg.timerPresent = true ∧ 0 < s.timer.rate ∧ 4 * s.timer.rate < 2 ^ 32 ∧
      s.timer.count + s.opnd.toNat + 16 * s.timer.rate < 2 ^ 64 := ⟨rfl, rfl, rfl, by decide, by decide, by decide⟩

theorem witness_DegenerateTimer :
    let s := { accepted with cfg := { timerPresent := false } }
    let s' := { accepted with timer := { count := 0, rate := 0 } }
    (s.quiet = true ∧ s.accepted ∧ s.cfg.timerPresent = false) ∧
      (s'.quiet = true ∧ s'.accepted ∧ s'.timer.count = 0 ∧ s'.timer.rate = 0) := ⟨⟨rfl, rfl, rfl⟩, rfl, rfl, rfl, rfl⟩

theorem witness_StoppedTimer :
    let s (o : Word) : State := { accepted with timer := { count := 2 ^ 64 - 1, rate := 0 }, opnd := o }
    (s 0#32).script = [] ∧ (s 0#32).accepted ∧ (s 0#32).cfg.wf = true ∧ (s 0#32).cfg.timerPresent = true ∧
      (s 0#32).timer.rate = 0 ∧ 0 < (s 0#32).timer.count ∧ (s 0#32).timer.count < 2 ^ 64 ∧
      (0xFFFFFFFF#32 ++ 0xFFFFFFFF#32 : BitVec 64) = BitVec.ofNat 64 (s 0#32).timer.count ∧ (s 0#32).opnd = 0#32 ∧
      (s 2#32).accepted ∧ (s 2#32).opnd ≠ 0#32 :=
  ⟨rfl, rfl, by decide, rfl, rfl, by decide, by decide, by decide, rfl, rfl, by decide⟩

theorem witness_CtrlInitCompletes : accepted.quiet = true ∧ accepted.accepted ∧ accepted.cfg.wf = true := ⟨rfl, rfl, by decide⟩

theorem witness_CtrlSampleReadsButtons :
    let s := { accepted with gpio := { gpfsel := (Vector.replicate 6 0#32).set 0 0x08000000#32 |>.set 1 8#32 } }
    s.quiet = true ∧ s.accepted ∧ s.cfg.wf = true ∧ s.cfg.fselOutput ≠ s.cfg.fselInput ∧
      s.pinFunction s.cfg.pinLatch = s.cfg.fselOutput ∧ s.pinFunction s.cfg.pinClock = s.cfg.fselOutput ∧
      s.pinFunction s.cfg.pinData = s.cfg.fselInput ∧ s.ctrl.plugged = true ∧ s.ctrl.edgeAt ≤ s.timer.count ∧
      s.cfg.timerPresent = true ∧ 0 < s.timer.rate ∧ 4 * s.timer.rate < 2 ^ 32 ∧
      s.timer.count + 204 + 1000 * s.timer.rate < 2 ^ 64 :=
  ⟨rfl, rfl, by decide, by decide, by decide, by decide, by decide, rfl, by decide, rfl, by decide, by decide, by decide⟩

theorem witness_CtrlSampleDegenerate :
    let s := { accepted with cfg := { timerPresent := false } }
    s.quiet = true ∧ s.accepted ∧ s.cfg.timerPresent = false := ⟨rfl, rfl, rfl⟩

theorem witness_UartInitCompletes : accepted.quiet = true ∧ accepted.accepted ∧ accepted.cfg.wf = true ∧
    fselAlt accepted.cfg accepted.cfg.uartAltFn = 0b010#3 := ⟨rfl, rfl, by decide, rfl⟩

/-- An enabled UART in a state acceptance leaves, with these FIFOs. -/
def uartReady (rx tx : List Byte) : State := { accepted with uart := { enables := 1#32, rx := rx, tx := tx } }

/-- The last free slot, and the UART before its enable. -/
theorem witness_UartPutcCompletes :
    let s := uartReady [] (List.replicate 7 0#8)
    s.quiet = true ∧ s.accepted ∧ s.uartEnabled = true ∧ s.uart.tx.length < s.cfg.uartFifoDepth ∧
      accepted.quiet = true ∧ accepted.accepted ∧ accepted.uartEnabled = false :=
  ⟨rfl, rfl, by decide, by decide, rfl, rfl, by decide⟩

theorem witness_UartGetcCompletes :
    let s := uartReady [0x0D#8] []
    let s' := { accepted with uart := { rx := [0x0D#8] } }
    (s.quiet = true ∧ s.accepted ∧ s.uartEnabled = true ∧ s.uart.rx = 0x0D#8 :: []) ∧
      (s'.quiet = true ∧ s'.accepted ∧ s'.uartEnabled = false ∧ s'.uart.rx = 0x0D#8 :: []) :=
  ⟨⟨rfl, rfl, by decide, rfl⟩, rfl, rfl, by decide, rfl⟩

/-- A string that ends at the last address of its RAM: an LF, a CR before an LF, and a NUL before the end. -/
theorem witness_UartPutsCompletes :
    let str := [0x0A#8, 0x0D#8, 0x0A#8, 0x61#8, 0x00#8, 0x62#8]
    let out := [0x0D#8, 0x0A#8, 0x0D#8, 0x0A#8, 0x61#8]
    let s := { uartReady [] (List.replicate 3 0#8) with
      ram := ramAt 0xFFFFFFFA str, cfg := { ramExtent := [(0, 2 ^ 32)] }, opnd := 0xFFFFFFFA#32 }
    s.quiet = true ∧ s.accepted ∧ s.uartEnabled = true ∧ s.opnd.toNat + (6#16).toNat ≤ 2 ^ 32 ∧
      (∀ k < (6#16).toNat, s.cfg.inRam (s.opnd.toNat + k) = true) ∧ s.ramBytes s.opnd (6#16).toNat = str ∧
      putsOutput s.cfg.crSuppress 0#8 str = out ∧ s.uart.tx.length + out.length ≤ s.cfg.uartFifoDepth ∧
      accepted.opnd.toNat + (0xFFFF#16).toNat ≤ 2 ^ 32 ∧ accepted.uartEnabled = false :=
  ⟨rfl, rfl, by decide, by decide, by decide, by decide, by decide, by decide, by decide, by decide⟩

theorem witness_UartPuthexCompletes :
    let s := uartReady [] []
    s.quiet = true ∧ s.accepted ∧ s.uartEnabled = true ∧ s.uart.tx.length + 8 ≤ s.cfg.uartFifoDepth ∧
      accepted.quiet = true ∧ accepted.accepted ∧ accepted.uartEnabled = false :=
  ⟨rfl, rfl, by decide, by decide, rfl, rfl, by decide⟩

theorem witness_UartPuthexCompletes_digits : (9#4).toNat ≤ 9 ∧ 10 ≤ (10#4).toNat ∧ (hexDigit 9#4).toNat = 0x39 ∧
    (hexDigit 10#4).toNat = 0x41 ∧ (hexDigit 15#4).toNat = 0x46 := by decide

/-- A full transmit FIFO, and one with room for the CR of a string's LF only. -/
theorem witness_UartHolds :
    let s := uartReady [] (List.replicate 8 0#8)
    let p := { uartReady [] (List.replicate 7 0#8) with ram := ramAt 0x1000 [0x0A#8], opnd := 0x1000#32 }
    (s.script = [] ∧ s.accepted ∧ s.cfg.wf = true ∧ s.uartEnabled = true ∧ s.cfg.uartFifoDepth ≤ s.uart.tx.length ∧
      s.uart.rx = []) ∧
    (p.script = [] ∧ p.accepted ∧ p.cfg.wf = true ∧ p.uartEnabled = true ∧ p.opnd.toNat + (1#16).toNat ≤ 2 ^ 32 ∧
      (∀ k < (1#16).toNat, p.cfg.inRam (p.opnd.toNat + k) = true) ∧
      putsOutput p.cfg.crSuppress 0#8 (p.ramBytes p.opnd (1#16).toNat) = [0x0D#8, 0x0A#8] ∧
      p.cfg.uartFifoDepth < p.uart.tx.length + 2 ∧ p.cfg.uartFifoDepth < p.uart.tx.length + 8) :=
  ⟨⟨rfl, rfl, by decide, by decide, by decide, rfl⟩, rfl, rfl, by decide, by decide, by decide, by decide, by decide, by decide,
    by decide⟩

/-- A poll of MBOX_STATUS that has read EMPTY = 1, before and after a word came. -/
theorem witness_HeldCommandsResume_poll :
    let s (out : List Word) : State :=
      { accepted with
        noise := open0, loc := { v := 0x40000000#32 }, mbox := { outbound := out }
        seq := .run (.mboxSubmit 8#4)
          (.compute (.pollTest .mboxStatus 30 false) :: [.mboxReceive, .compute .matchTest, .codeRead, .finish .submit]) }
    (s [5#32]).script = [] ∧ (s [5#32]).cfg.wf = true ∧ (s [5#32]).loc.v.bit 30 ≠ false ∧
      (((s [5#32]).advanceTimer 1).readInto .mboxStatus).loc.v.bit 30 = false ∧
      (((s []).advanceTimer 1).readInto .mboxStatus).loc.v.bit 30 ≠ false := by decide

/-- MBOX.SUBMIT finds a foreign word; TMR.DELAY ends at the top of the counter; the UART's FIFOs are full and empty. -/
theorem witness_HeldCommandsResume :
    let u := uartReady [] (List.replicate 8 5#8)
    let m := { accepted with mbox := { outbound := [0x00080009#32] } }
    let d := { accepted with timer := { count := 2 ^ 64 - 3, rate := 0 }, opnd := 2#32 }
    (u.script = [] ∧ u.accepted ∧ u.cfg.wf = true ∧ u.uartEnabled = true ∧ u.uart.tx = 5#8 :: List.replicate 7 5#8 ∧
      u.uart.tx.length = u.cfg.uartFifoDepth ∧ u.uart.rx = [] ∧ 0 < u.cfg.uartFifoDepth) ∧
    (m.script = [] ∧ m.accepted ∧ m.cfg.mboxFullBit ≠ m.cfg.mboxEmptyBit ∧ m.mbox.inbound = [] ∧
      channelWord m.cfg 8#4 ∉ m.mbox.outbound ∧ m.wordInRam (bufAddr m.cfg 1) = true) ∧
    (d.script = [] ∧ d.accepted ∧ d.cfg.timerPresent = true ∧ d.timer.rate = 0 ∧ 0 < d.timer.count ∧ d.opnd ≠ 0#32 ∧
      d.timer.count + d.opnd.toNat < 2 ^ 64) :=
  ⟨⟨rfl, rfl, by decide, by decide, rfl, rfl, rfl, by decide⟩, ⟨rfl, rfl, by decide, rfl, by decide, by decide⟩, rfl, rfl, rfl,
    rfl, by decide, by decide, by decide⟩

end Sys2Proof.Tests
end

section
/-! PROOFS. Host accesses of the engine block (10_state.md R41 to R43; 20_memory.md R108): what one step of the machine does at a host
read or write. -/

namespace Sys2Proof.Machine

variable {s : State} {es : List Event}

/-! ## A step of an agent other than the engine -/

/-- At the action of an agent, which is none of the three markers, the step is that action, or its refusal. -/
theorem step_agent {e : Event} (hwf : s.cfg.wf = true) (hscript : s.script = e :: es) (hengine : e ≠ .engine)
    (hhold : e ≠ .untilHold) (hpoll : e ≠ .poll) :
    step s = if e.ok s.cfg then .next (State.apply { s with script := es } e) else .refused .hostAccess := by
  cases e with
  | engine => exact absurd rfl hengine
  | untilHold => exact absurd rfl hhold
  | poll => exact absurd rfl hpoll
  | _ => simp [step, hwf, hscript]

theorem step_hostWrite {a v : Word} {n : Nat} (hwf : s.cfg.wf = true) (hscript : s.script = .hostWrite a n v :: es) :
    step s =
      if hostAccessOk s.cfg a n then .next (State.hostWriteReg { s with script := es } (hostOffset s.cfg a) v)
      else .refused .hostAccess :=
  step_agent hwf hscript (by simp) (by simp) (by simp)

theorem step_hostRead {a : Word} {n : Nat} (hwf : s.cfg.wf = true) (hscript : s.script = .hostRead a n :: es) :
    step s =
      if hostAccessOk s.cfg a n then
        .next { s with script := es, obs := s.obs ++ [.reg a (s.regs.read (hostOffset s.cfg a))] }
      else .refused .hostAccess :=
  step_agent hwf hscript (by simp) (by simp) (by simp)

/-! ## Addresses of the block -/

theorem hostOffset_engineBase_add (c : Config) {off : Nat} (hoff : off < 64) :
    hostOffset c (c.engineBase + BitVec.ofNat 32 off) = off := by
  have hsub : c.engineBase + BitVec.ofNat 32 off - c.engineBase = BitVec.ofNat 32 off := by
    rw [BitVec.add_comm, BitVec.add_sub_cancel]
  rw [hostOffset, hsub, BitVec.toNat_ofNat, Nat.mod_eq_of_lt (by omega)]

/-- In the block, an access has a meaning exactly when it is a 32-bit one at an aligned offset. -/
theorem hostAccessOk_engineBase_add (c : Config) {off : Nat} (hoff : off < 64) (n : Nat) :
    hostAccessOk c (c.engineBase + BitVec.ofNat 32 off) n = true ↔ n = 4 ∧ off % 4 = 0 := by
  simp [hostAccessOk, hostOffset_engineBase_add c hoff, hoff]

/-! ## The registers -/

/-- Only CMD and ARG can be written. -/
theorem State.hostWriteReg_readOnly (s : State) {off : Nat} (v : Word) (hcmd : off ≠ 0x00) (harg : off ≠ 0x04) :
    s.hostWriteReg off v = s := by
  unfold State.hostWriteReg
  split
  · exact absurd rfl hcmd
  · exact absurd rfl harg
  · rfl

/-- CMD and the reserved offsets read 0. -/
theorem HostRegs.read_reserved (r : HostRegs) {off : Nat} (hoff : off ∈ [0x00, 0x14, 0x18, 0x1C]) : r.read off = 0#32 := by
  simp only [List.mem_cons, List.not_mem_nil, or_false] at hoff
  rcases hoff with rfl | rfl | rfl | rfl <;> rfl

/-! ## One step at a host access of the block -/

theorem step_hostWrite_readOnly {off : Nat} {v : Word} (hwf : s.cfg.wf = true) (hoff : off < 64) (halign : off % 4 = 0)
    (hcmd : off ≠ 0x00) (harg : off ≠ 0x04)
    (hscript : s.script = .hostWrite (s.cfg.engineBase + BitVec.ofNat 32 off) 4 v :: es) :
    step s = .next { s with script := es } := by
  rw [step_hostWrite hwf hscript, if_pos ((hostAccessOk_engineBase_add s.cfg hoff 4).mpr ⟨rfl, halign⟩),
    hostOffset_engineBase_add s.cfg hoff, State.hostWriteReg_readOnly _ v hcmd harg]

/-- A 32-bit read at an aligned offset of the block shows the host the register there. -/
theorem step_hostRead_register {off : Nat} (hwf : s.cfg.wf = true) (hoff : off < 64) (halign : off % 4 = 0)
    (hscript : s.script = .hostRead (s.cfg.engineBase + BitVec.ofNat 32 off) 4 :: es) :
    step s = .next
      { s with script := es, obs := s.obs ++ [.reg (s.cfg.engineBase + BitVec.ofNat 32 off) (s.regs.read off)] } := by
  rw [step_hostRead hwf hscript, if_pos ((hostAccessOk_engineBase_add s.cfg hoff 4).mpr ⟨rfl, halign⟩),
    hostOffset_engineBase_add s.cfg hoff]

theorem step_hostRead_reserved {off : Nat} (hwf : s.cfg.wf = true) (hoff : off < 64)
    (hreserved : off ∈ [0x00, 0x14, 0x18, 0x1C])
    (hscript : s.script = .hostRead (s.cfg.engineBase + BitVec.ofNat 32 off) 4 :: es) :
    step s = .next { s with script := es, obs := s.obs ++ [.reg (s.cfg.engineBase + BitVec.ofNat 32 off) 0#32] } := by
  have halign : off % 4 = 0 := by
    simp only [List.mem_cons, List.not_mem_nil, or_false] at hreserved
    omega
  rw [step_hostRead_register hwf hoff halign hscript, HostRegs.read_reserved _ hreserved]

theorem step_hostWrite_refused {off n : Nat} {v : Word} (hwf : s.cfg.wf = true) (hoff : off < 64)
    (hbad : ¬(n = 4 ∧ off % 4 = 0)) (hscript : s.script = .hostWrite (s.cfg.engineBase + BitVec.ofNat 32 off) n v :: es) :
    step s = .refused .hostAccess := by
  rw [step_hostWrite hwf hscript, if_neg (mt (hostAccessOk_engineBase_add s.cfg hoff n).mp hbad)]

theorem step_hostRead_refused {off n : Nat} (hwf : s.cfg.wf = true) (hoff : off < 64)
    (hbad : ¬(n = 4 ∧ off % 4 = 0)) (hscript : s.script = .hostRead (s.cfg.engineBase + BitVec.ofNat 32 off) n :: es) :
    step s = .refused .hostAccess := by
  rw [step_hostRead hwf hscript, if_neg (mt (hostAccessOk_engineBase_add s.cfg hoff n).mp hbad)]

end Sys2Proof.Machine

namespace Sys2Proof.Proofs

open Sys2Proof.Machine

/-- Settles O10: the offset decides whether the access has a meaning, and which register it meets. -/
theorem hostAccessRule : Obligations.HostAccessRule := by
  intro s off es hwf hoff
  refine ⟨?write, ?read, ?refused⟩
  case write => exact fun v halign hcmd harg hscript => step_hostWrite_readOnly hwf hoff halign hcmd harg hscript
  case read => exact fun hreserved hscript => step_hostRead_reserved hwf hoff hreserved hscript
  case refused =>
    exact fun n hbad =>
      ⟨fun v hscript => step_hostWrite_refused hwf hoff hbad hscript, fun hscript => step_hostRead_refused hwf hoff hbad hscript⟩

end Sys2Proof.Proofs
end

section
/-! PROOFS. The illegal command words (30_encoding.md R144 to R146): the bits a row of the opcode map fixes, which words select a row,
and how decoding answers when none does. -/

namespace Sys2Proof

/-! ## The bits that a row fixes -/

/-- Where the mask has only ones, a masked word is the pattern. -/
theorem extractLsb'_of_and_eq {w mask pattern : Word} {start len : Nat} (h : w &&& mask = pattern)
    (hmask : mask.extractLsb' start len = BitVec.allOnes len) :
    w.extractLsb' start len = pattern.extractLsb' start len := by
  rw [← h, BitVec.extractLsb'_and, hmask, BitVec.and_allOnes]

/-- A word is its upper bits and its lower bits. -/
theorem append_lowBits {m n : Nat} {hi : BitVec m} {w : BitVec (m + n)} (h : w.extractLsb' n m = hi) :
    hi ++ w.extractLsb' 0 n = w := by
  rw [← h, BitVec.extractLsb'_append_extractLsb'_eq_extractLsb' (by omega), BitVec.extractLsb'_eq_self]

theorem OpRow.selects_iff (r : OpRow) (w : Word) : r.selects w = true ↔ w &&& r.mask = r.pattern := beq_iff_eq

/-- Every row fixes the opcode. -/
theorem opcodeTable_mask_opcode : ∀ r ∈ opcodeTable, r.mask.extractLsb' 24 8 = BitVec.allOnes 8 := by decide

theorem opcodeTable_opcodes_nodup : (opcodeTable.map fun r => fieldOp r.pattern).Nodup := by decide

/-- The opcodes of the rows are those R144 lists. -/
theorem opcodeTable_opcodes :
    (opcodeTable.map fun r => fieldOp r.pattern) =
      [0x01#8, 0x02#8, 0x10#8, 0x11#8, 0x12#8, 0x20#8, 0x21#8, 0x30#8, 0x31#8, 0x40#8, 0x41#8, 0x42#8, 0x43#8, 0x44#8] := by
  decide

theorem fieldOp_of_selects {r : OpRow} {w : Word} (hr : r ∈ opcodeTable) (h : r.selects w = true) :
    fieldOp w = fieldOp r.pattern :=
  extractLsb'_of_and_eq ((r.selects_iff w).mp h) (opcodeTable_mask_opcode r hr)

/-- A row whose format has no operand fixes the whole word. -/
theorem eq_pattern_of_full_mask {w pattern : Word} (h : w &&& 0xFFFFFFFF#32 = pattern) : pattern = w := by
  rw [← h]
  exact BitVec.and_allOnes

/-- The fixed bits of a GPIO.CFGALT word are two groups, with the function number between them. -/
theorem upperBits_gpioCfgalt {w : Word} (h : w &&& 0xFFFFF8C0#32 = 0x12000000#32) :
    w.extractLsb' 6 26 = 0x12#8 ++ 0#13 ++ fieldFn w ++ 0#2 := by
  have hhigh : w.extractLsb' 11 21 = 0x12#8 ++ 0#13 := extractLsb'_of_and_eq h (by decide)
  have hlow : w.extractLsb' 6 2 = 0#2 := extractLsb'_of_and_eq h (by decide)
  calc
    w.extractLsb' 6 26 = w.extractLsb' 8 24 ++ w.extractLsb' 6 2 :=
      (BitVec.extractLsb'_append_extractLsb'_eq_extractLsb' (len₁ := 2) (len₂ := 24) rfl).symm
    _ = w.extractLsb' 11 21 ++ fieldFn w ++ w.extractLsb' 6 2 := by
      rw [← BitVec.extractLsb'_append_extractLsb'_eq_extractLsb' (start₂ := 11) (len₁ := 3) (len₂ := 21) rfl, fieldFn]
    _ = 0x12#8 ++ 0#13 ++ fieldFn w ++ 0#2 := by rw [hhigh, hlow]

/-- A word that selects a row is the encoding of the command the row builds from it (R142, R143): each row fixes every bit but its
operands'. The rows come in the order of the table. -/
theorem encode_build_of_selects {r : OpRow} {w : Word} (hr : r ∈ opcodeTable) (h : r.selects w = true) :
    encode (r.build w) = w := by
  rw [OpRow.selects_iff] at h
  simp only [opcodeTable, List.mem_cons, List.not_mem_nil, or_false] at hr
  rcases hr with rfl | rfl | rfl | rfl | rfl | rfl | rfl | rfl | rfl | rfl | rfl | rfl | rfl | rfl
  · exact append_lowBits (m := 28) (n := 4) (extractLsb'_of_and_eq h (by decide))
  · exact eq_pattern_of_full_mask h
  · exact append_lowBits (m := 26) (n := 6) (extractLsb'_of_and_eq h (by decide))
  · exact append_lowBits (m := 26) (n := 6) (extractLsb'_of_and_eq h (by decide))
  · exact append_lowBits (m := 26) (n := 6) (upperBits_gpioCfgalt h)
  · exact eq_pattern_of_full_mask h
  · exact eq_pattern_of_full_mask h
  · exact eq_pattern_of_full_mask h
  · exact eq_pattern_of_full_mask h
  · exact eq_pattern_of_full_mask h
  · exact append_lowBits (m := 24) (n := 8) (extractLsb'_of_and_eq h (by decide))
  · exact eq_pattern_of_full_mask h
  · exact append_lowBits (m := 16) (n := 16) (extractLsb'_of_and_eq h (by decide))
  · exact eq_pattern_of_full_mask h

/-! ## The search of R145 -/

/-- The command the search finds is built by a row that the word selects. -/
theorem exists_selects_of_decodeRows {rows : List OpRow} {w : Word} {i : Instr} (h : decodeRows rows w = some i) :
    ∃ r ∈ rows, r.selects w = true ∧ r.build w = i := by
  induction rows with
  | nil => cases h
  | cons r rs ih =>
    rw [decodeRows] at h
    split at h
    case isTrue hsel => exact ⟨r, List.mem_cons_self, hsel, Option.some.inj h⟩
    case isFalse =>
      obtain ⟨r', hr', hfound⟩ := ih h
      exact ⟨r', List.mem_cons_of_mem r hr', hfound⟩

theorem decodeRows_eq_none_iff (rows : List OpRow) (w : Word) :
    decodeRows rows w = none ↔ ∀ r ∈ rows, r.selects w = false := by
  induction rows with
  | nil => simp [decodeRows]
  | cons r rs ih => by_cases hsel : r.selects w = true <;> simp [decodeRows, hsel, ih]

theorem decodeWord_ok_iff (w : Word) (i : Instr) : decodeWord w = .ok i ↔ decodeRows opcodeTable w = some i := by
  unfold decodeWord
  split <;> simp_all

/-- A word is illegal exactly when it selects no row. -/
theorem decodeWord_error_iff (w : Word) : (∃ e, decodeWord w = .error e) ↔ ∀ r ∈ opcodeTable, r.selects w = false := by
  rw [← decodeRows_eq_none_iff]
  unfold decodeWord
  split <;> simp_all

/-- Which of the two kinds of illegal word: its opcode is listed or not. -/
theorem decodeWord_eq_error {w : Word} (h : ∀ r ∈ opcodeTable, r.selects w = false) :
    decodeWord w =
      .error (if ∃ r ∈ opcodeTable, fieldOp r.pattern = fieldOp w then .reservedBits (fieldOp w) else .unlistedOpcode (fieldOp w)) := by
  unfold decodeWord
  rw [(decodeRows_eq_none_iff _ _).mpr h]
  simp only [List.any_eq_true, beq_iff_eq]

/-- A word that decodes is the encoding of the command it decodes to. -/
theorem encode_of_decodeWord {w : Word} {i : Instr} (h : decodeWord w = .ok i) : encode i = w := by
  obtain ⟨r, hr, hsel, rfl⟩ := exists_selects_of_decodeRows ((decodeWord_ok_iff w i).mp h)
  exact encode_build_of_selects hr hsel

/-- The encoding of every command selects its row. -/
theorem tableRow_statement : ∀ i : Instr, Laws.TableRow.Statement i
  | .mboxSubmit ch => Laws.TableRow.mboxSubmit ch
  | .fbProvision => Laws.TableRow.fbProvision
  | .gpioCfgin pin => Laws.TableRow.gpioCfgin pin
  | .gpioCfgout pin => Laws.TableRow.gpioCfgout pin
  | .gpioCfgalt pin fn => Laws.TableRow.gpioCfgalt pin fn
  | .tmrNow => Laws.TableRow.tmrNow
  | .tmrDelay => Laws.TableRow.tmrDelay
  | .ctrlInit => Laws.TableRow.ctrlInit
  | .ctrlSample => Laws.TableRow.ctrlSample
  | .uartInit => Laws.TableRow.uartInit
  | .uartPutc byte => Laws.TableRow.uartPutc byte
  | .uartGetc => Laws.TableRow.uartGetc
  | .uartPuts len => Laws.TableRow.uartPuts len
  | .uartPuthex => Laws.TableRow.uartPuthex

theorem decodeWord_error_iff_not_encoded (w : Word) : (∃ e, decodeWord w = .error e) ↔ ∀ i : Instr, encode i ≠ w := by
  constructor
  · rintro hillegal i rfl
    obtain ⟨r, hr, -, hsel⟩ := tableRow_statement i
    rw [(decodeWord_error_iff _).mp hillegal r hr] at hsel
    cases hsel
  · intro hnot
    cases hd : decodeWord w with
    | error e => exact ⟨e, rfl⟩
    | ok i => exact absurd (encode_of_decodeWord hd) (hnot i)

theorem decodeWord_unlisted {w : Word} (h : fieldOp w ∉ opcodeTable.map fun r => fieldOp r.pattern) :
    decodeWord w = .error (.unlistedOpcode (fieldOp w)) := by
  have hlisted : ¬∃ r ∈ opcodeTable, fieldOp r.pattern = fieldOp w := fun hex => h (List.mem_map.mpr hex)
  have hnone : ∀ r ∈ opcodeTable, r.selects w = false := fun r hr =>
    Bool.eq_false_iff.mpr fun hsel => hlisted ⟨r, hr, (fieldOp_of_selects hr hsel).symm⟩
  rw [decodeWord_eq_error hnone, if_neg hlisted]

/-- The opcode says which row a word could select; when a reserved bit rules that row out, the word selects none. -/
theorem decodeWord_reserved {r : OpRow} {w : Word} (hr : r ∈ opcodeTable) (hop : fieldOp w = fieldOp r.pattern)
    (hbits : w &&& r.mask ≠ r.pattern) : decodeWord w = .error (.reservedBits (fieldOp w)) := by
  have hnone : ∀ r' ∈ opcodeTable, r'.selects w = false := fun r' hr' =>
    Bool.eq_false_iff.mpr fun hsel => by
      have hsame : r' = r :=
        List.inj_on_of_nodup_map opcodeTable_opcodes_nodup hr' hr ((fieldOp_of_selects hr' hsel).symm.trans hop)
      exact hbits (hsame ▸ (r'.selects_iff w).mp hsel)
  rw [decodeWord_eq_error hnone, if_pos ⟨r, hr, hop.symm⟩]

end Sys2Proof

namespace Sys2Proof.Machine

/-! ## Error completions of accepted commands -/

/-- In a state acceptance leaves, an error completion gives STATUS the error's value and changes nothing else but SEQ. -/
theorem State.raiseError_accepted {s : State} (haccepted : s.accepted) (e : ErrCode) :
    s.raiseError e = { s with regs := { s.regs with status := s.errorStatus e }, seq := .idle } := by
  have hstatus : s.regs.status.failed e = s.errorStatus e := by
    rw [haccepted]
    rfl
  rw [State.raiseError, hstatus]

/-- With an empty script the step is the engine's turn. -/
theorem step_engineTurn {s : State} (hwf : s.cfg.wf = true) (hscript : s.script = []) : step s = engineTurn s := by
  simp [step, hwf, hscript]

theorem engineTurn_illegal {s : State} {w : Word} {e : DecodeReject} (hseq : s.seq = .decode w)
    (hillegal : decodeWord w = .error e) : engineTurn s = .next (s.raiseError .illegalCommand) := by
  simp [engineTurn, hseq, hillegal]

end Sys2Proof.Machine

namespace Sys2Proof.Proofs

open Sys2Proof.Machine

/-- Settles O4: a word is illegal exactly when it selects no row of the opcode map, and every row fixes the opcode. -/
theorem illegalWords : Obligations.IllegalWords := by
  refine ⟨decodeWord_error_iff_not_encoded, ?unlisted, fun r w hr => decodeWord_reserved hr, ?completes⟩
  case unlisted =>
    intro w hop
    exact decodeWord_unlisted (opcodeTable_opcodes ▸ hop)
  case completes =>
    intro s w e hwf haccepted hseq hillegal hscript
    rw [step_engineTurn hwf hscript, engineTurn_illegal hseq hillegal, State.raiseError_accepted haccepted]

end Sys2Proof.Proofs
end

section
/-! PROOFS. Illegal operands (30_encoding.md R147): a refused command completes in error, and MBOX.SUBMIT has no error completion. -/

namespace Sys2Proof.Machine

variable {s : State}

/-! ## Commands refused for an operand -/

/-- A command that its first step refuses makes no access and completes in error. -/
theorem exec_refused {i : Instr} {e : ErrCode} (haccepted : s.accepted) (hstart : startOf s i = .refuse e) :
    exec i s = .next { s with regs := { s.regs with status := s.errorStatus e }, seq := .idle } := by
  rw [exec_eq, hstart, runCommand_refuse, State.raiseError_accepted haccepted]

theorem configureStart_illegal {legal : Bool} (p : Nat) (f : BitVec 3) (h : legal = false) :
    configureStart legal p f = .refuse .illegalOperand := by
  rw [configureStart, h, if_neg Bool.false_ne_true]

theorem pinOk_eq_false {pin : BitVec 6} (h : 53 < pin.toNat) : pinOk pin = false :=
  decide_eq_false (Nat.not_le.mpr h)

theorem fnOk_eq_false {fn : BitVec 3} (h : 5 < fn.toNat) : fnOk fn = false :=
  decide_eq_false (Nat.not_le.mpr h)

theorem altOperands_eq_false {pin : BitVec 6} {fn : BitVec 3} (h : 53 < pin.toNat ∨ 5 < fn.toNat) :
    (pinOk pin && fnOk fn) = false := by
  rcases h with hpin | hfn
  · rw [pinOk_eq_false hpin, Bool.false_and]
  · rw [fnOk_eq_false hfn, Bool.and_false]

theorem putsStart_illegal {opnd : Word} {len : BitVec 16} (h : 2 ^ 32 < opnd.toNat + len.toNat) :
    putsStart opnd len = .refuse .illegalOperand :=
  if_neg (by simpa [stringOk] using h)

/-! ## A command without an error completion -/

/-- A completion that is no failure keeps ERRCODE. -/
theorem State.complete_errcode {f : Finish} (hf : ∀ e, f ≠ .fail e) :
    (s.complete f).regs.status.errcode = s.regs.status.errcode := by
  cases f with
  | fail e => exact absurd rfl (hf e)
  | _ => rfl

/-- A move at a point that is no failure keeps ERRCODE. -/
theorem State.engineStep_errcode {i : Instr} {op : Op} (rest : List Op) (hop : ∀ e, op ≠ .finish (.fail e)) :
    (s.engineStep i op rest).regs.status.errcode = s.regs.status.errcode := by
  by_cases hfinish : ∃ f, op = .finish f
  · obtain ⟨f, rfl⟩ := hfinish
    rw [State.engineStep, State.stepOp, State.complete_errcode fun e hf => hop e (congrArg _ hf), State.tickBefore_regs]
  · rw [State.engineStep, State.stepOp_regs _ _ _ _ (not_exists.mp hfinish), State.tickBefore_regs]

/-- Only FB.PROVISION has a failure among its points. -/
theorem Op.ne_fail_of_fits {i : Instr} {op : Op} (hi : i ≠ .fbProvision) (hfits : op.fits i = true) (e : ErrCode) :
    op ≠ .finish (.fail e) := by
  rintro rfl
  exact hi (of_decide_eq_true hfits).1

/-- A command that is not refused and is not FB.PROVISION, run undisturbed, keeps ERRCODE. -/
theorem exec_quiet_errcode {i : Instr} {t : State} (hq : s.quiet = true) (hi : i ≠ .fbProvision)
    (hstart : ∀ e, startOf s i ≠ .refuse e) (h : exec i s = .next t) : t.regs.status.errcode = s.regs.status.errcode :=
  exec_quiet_induction s (P := fun u => u.regs.status.errcode = s.regs.status.errcode) hq h
    (fun e he => absurd he (hstart e)) (fun _ => rfl)
    (fun _ _ rest hu hfits _ => (State.engineStep_errcode rest (Op.ne_fail_of_fits hi hfits)).trans hu)

theorem State.accepted.errcode (haccepted : s.accepted) : s.regs.status.errcode = .none := by rw [haccepted]

end Sys2Proof.Machine

namespace Sys2Proof.Proofs

open Sys2Proof.Machine

/-- Settles O25: the three checks refuse at the command's first step; MBOX.SUBMIT has no check and no failing completion. -/
theorem illegalOperandCompletes : Obligations.IllegalOperandCompletes := by
  intro s haccepted
  refine ⟨?pin, ?alt, ?string, ?channel⟩
  case pin =>
    exact fun pin hpin =>
      ⟨exec_refused haccepted (configureStart_illegal _ _ (pinOk_eq_false hpin)),
        exec_refused haccepted (configureStart_illegal _ _ (pinOk_eq_false hpin))⟩
  case alt => exact fun pin fn h => exec_refused haccepted (configureStart_illegal _ _ (altOperands_eq_false h))
  case string => exact fun len hlen => exec_refused haccepted (putsStart_illegal hlen)
  case channel =>
    intro ch t hq h
    rw [exec_quiet_errcode hq (by simp) (by simp [startOf]) h, haccepted.errcode]

end Sys2Proof.Proofs
end

section
/-! PROOFS. CMD writes to a busy engine and the bit they leave (30_encoding.md R162; 60_exceptions.md R504): what a run and a step do
at an agent's action, an induction over a step, and that OVERRUN is sticky. -/

namespace Sys2Proof.Machine

variable {s s' : State} {es : List Event}

/-! ## A CMD write to a busy engine -/

/-- CMD stands at the block's base. -/
theorem hostOffset_engineBase (c : Config) : hostOffset c c.engineBase = 0 := by
  simpa using hostOffset_engineBase_add c (off := 0) (by decide)

theorem commandWrite_ok (c : Config) (w : Word) : (Event.hostWrite c.engineBase 4 w).ok c = true := by
  simpa [Event.ok] using (hostAccessOk_engineBase_add c (off := 0) (by decide) 4).mpr ⟨rfl, rfl⟩

/-- A CMD write is an action of the host whatever the engine does. -/
theorem State.apply_commandWrite (s : State) (w : Word) : State.apply s (.hostWrite s.cfg.engineBase 4 w) = s.accept w := by
  rw [State.apply, hostOffset_engineBase, State.hostWriteReg]

/-- A busy engine discards the word and notes the overrun. -/
theorem State.apply_commandWrite_busy (s : State) (w : Word) (hbusy : s.regs.status.busy = true) :
    State.apply s (.hostWrite s.cfg.engineBase 4 w) =
      { s with regs := { s.regs with status := { s.regs.status with overrun := true } } } := by
  rw [State.apply_commandWrite, State.accept, if_pos hbusy, Status.overran]

/-- Inside a running command, an agent's action, which is none of the three markers, stands before the engine's next move. -/
theorem runLoop_agent {i : Instr} {op : Op} {rest : List Op} {e : Event} (n : Nat) (hseq : s.seq = .run i (op :: rest))
    (hscript : s.script = e :: es) (hok : e.ok s.cfg = true) (hengine : e ≠ .engine) (hhold : e ≠ .untilHold) (hpoll : e ≠ .poll) :
    runLoop (n + 1) s = runLoop n (State.apply { s with script := es } e) := by
  cases e with
  | engine => exact absurd rfl hengine
  | untilHold => exact absurd rfl hhold
  | poll => exact absurd rfl hpoll
  | _ => simp [runLoop, hseq, hscript, hok]

theorem step_commandWrite_busy {w : Word} (hwf : s.cfg.wf = true) (hscript : s.script = .hostWrite s.cfg.engineBase 4 w :: es)
    (hbusy : s.regs.status.busy = true) :
    step s = .next { s with script := es, regs := { s.regs with status := { s.regs.status with overrun := true } } } := by
  rw [step_agent hwf hscript (by simp) (by simp) (by simp), if_pos (commandWrite_ok s.cfg w),
    State.apply_commandWrite_busy { s with script := es } w hbusy]

theorem runLoop_commandWrite_busy {w : Word} {i : Instr} {op : Op} {rest : List Op} (n : Nat) (hseq : s.seq = .run i (op :: rest))
    (hscript : s.script = .hostWrite s.cfg.engineBase 4 w :: es) (hbusy : s.regs.status.busy = true) :
    runLoop (n + 1) s =
      runLoop n { s with script := es, regs := { s.regs with status := { s.regs.status with overrun := true } } } := by
  rw [runLoop_agent n hseq hscript (commandWrite_ok s.cfg w) (by simp) (by simp) (by simp),
    State.apply_commandWrite_busy { s with script := es } w hbusy]

/-! ## Induction over a step -/

/-- What each part of a step keeps: a move of the engine, an agent's action and the markers of the script, the host's read of STATUS,
and the three answers to an accepted word. -/
structure KeptByStepParts (P : State → Prop) : Prop where
  move    : ∀ s i op rest, P s → s.seq = .run i (op :: rest) → P (s.engineStep i op rest)
  mark    : ∀ s e es, P s → s.script = e :: es → P { s with script := es }
  action  : ∀ s e es, P s → s.script = e :: es → e.ok s.cfg = true → P (State.apply { s with script := es } e)
  read    : ∀ s, P s → P s.readStatus
  illegal : ∀ s w, P s → s.seq = .decode w → P (s.raiseError .illegalCommand)
  refused : ∀ s w i e, P s → s.seq = .decode w → startOf s i = .refuse e → P (s.raiseError e)
  started : ∀ s w i todo, P s → s.seq = .decode w → startOf s i = .program todo → P (s.started i todo)

section
variable {P : State → Prop}

theorem KeptByStepParts.runLoop_keeps (hP : KeptByStepParts P) (n : Nat) (hs : P s) : P (runLoop n s) :=
  runLoop_induction hP.move hP.mark (fun s _ _ _ e es hs _ hscript hok => hP.action s e es hs hscript hok) n s hs

theorem KeptByStepParts.exec_keeps (hP : KeptByStepParts P) {w : Word} {i : Instr} (hs : P s) (hseq : s.seq = .decode w)
    (h : exec i s = .next s') : P s' := by
  rw [exec_eq] at h
  cases hstart : startOf s i with
  | refuse e =>
    rw [hstart, runCommand_refuse] at h
    injection h with h
    exact h ▸ hP.refused s w i e hs hseq hstart
  | program todo =>
    rw [hstart, runCommand_program] at h
    injection h with h
    exact h ▸ hP.runLoop_keeps _ (hP.started s w i todo hs hseq hstart)

theorem KeptByStepParts.engineTurn_keeps (hP : KeptByStepParts P) (hs : P s) (h : engineTurn s = .next s') : P s' := by
  unfold engineTurn at h
  split at h
  case h_1 => cases h; exact hs
  case h_2 w hseq =>
    split at h
    · exact hP.exec_keeps hs hseq h
    · cases h
      exact hP.illegal s w hs hseq
  case h_3 => cases h
  case h_4 => cases h; exact hP.runLoop_keeps _ hs

/-- What every part of a step keeps, the step keeps. -/
theorem KeptByStepParts.step_keeps (hP : KeptByStepParts P) (hs : P s) (h : step s = .next s') : P s' := by
  unfold step at h
  split at h
  · cases h
  split at h
  case h_1 => exact hP.engineTurn_keeps hs h
  case h_2 es hscript =>
    split at h
    · exact hP.engineTurn_keeps hs h
    · exact hP.engineTurn_keeps (hP.mark s _ es hs hscript) h
  case h_3 es hscript =>
    split at h
    · cases h
      exact hP.mark s _ es hs hscript
    · exact hP.engineTurn_keeps hs h
  case h_4 es hscript =>
    split at h
    · cases h
      exact hP.mark s.readStatus _ es (hP.read s hs) hscript
    · exact hP.engineTurn_keeps (hP.read s hs) h
  case h_5 e es _ _ _ hscript =>
    split at h
    case isTrue hok =>
      cases h
      exact hP.action s e es hs hscript hok
    case isFalse => cases h

end

/-! ## OVERRUN -/

@[simp] theorem State.complete_overrun (s : State) (f : Finish) :
    (s.complete f).regs.status.overrun = s.regs.status.overrun := by cases f <;> rfl

@[simp] theorem State.engineStep_overrun (s : State) (i : Instr) (op : Op) (rest : List Op) :
    (s.engineStep i op rest).regs.status.overrun = s.regs.status.overrun := by
  cases op <;> simp [State.engineStep, State.stepOp]

/-- A CMD write sets OVERRUN or keeps it. -/
theorem State.accept_overrun (w : Word) (h : s.regs.status.overrun = true) : (s.accept w).regs.status.overrun = true := by
  unfold State.accept
  split
  · rfl
  · exact h

theorem State.hostWriteReg_overrun (off : Nat) (v : Word) (h : s.regs.status.overrun = true) :
    (s.hostWriteReg off v).regs.status.overrun = true := by
  unfold State.hostWriteReg
  split
  · exact State.accept_overrun v h
  · exact h
  · exact h

/-- Only a host write and a reset change the host registers. -/
theorem State.apply_regs (s : State) {e : Event} (hreset : e.notReset = true) (hwrite : ∀ a n v, e ≠ .hostWrite a n v) :
    (State.apply s e).regs = s.regs := by
  cases e with
  | hostWrite a n v => exact absurd rfl (hwrite a n v)
  | reset => cases hreset
  | resetWith => cases hreset
  | hostRamRead a => simp only [State.apply]; split <;> simp
  | coPop => simp only [State.apply, State.coPop]; split <;> rfl
  | coWrite a v => simp only [State.apply, State.coWrite]; split <;> simp
  | coPush w => simp only [State.apply, State.coPush]; split <;> rfl
  | _ => simp [State.apply]

theorem State.apply_overrun {e : Event} (hreset : e.notReset = true) (h : s.regs.status.overrun = true) :
    (State.apply s e).regs.status.overrun = true := by
  by_cases hwrite : ∃ a n v, e = .hostWrite a n v
  · obtain ⟨a, n, v, rfl⟩ := hwrite
    exact State.hostWriteReg_overrun _ v h
  · rw [State.apply_regs s hreset fun a n v he => hwrite ⟨a, n, v, he⟩]
    exact h

/-- No agent's action changes what is left of the script. -/
@[simp] theorem State.apply_script (s : State) (e : Event) : (State.apply s e).script = s.script := by
  cases e with
  | hostWrite a n v => simp only [State.apply, State.hostWriteReg]; split <;> simp
  | hostRamRead a => simp only [State.apply]; split <;> simp
  | coPop => simp only [State.apply, State.coPop]; split <;> rfl
  | coWrite a v => simp only [State.apply, State.coWrite]; split <;> simp
  | coPush w => simp only [State.apply, State.coPush]; split <;> rfl
  | _ => simp [State.apply]

theorem State.noReset_cons {e : Event} (hscript : s.script = e :: es) :
    s.noReset = (e.notReset && es.all Event.notReset) := by rw [State.noReset, hscript, List.all_cons]

/-- OVERRUN is set and no reset is to come. -/
def State.overrunStays (s : State) : Prop := s.noReset = true ∧ s.regs.status.overrun = true

theorem State.overrunStays.of_eq {t : State} (hs : s.overrunStays) (hscript : t.script = s.script)
    (hoverrun : t.regs.status.overrun = s.regs.status.overrun) : t.overrunStays := by
  unfold State.overrunStays State.noReset
  rw [hscript, hoverrun]
  exact hs

theorem overrunStays_kept : KeptByStepParts State.overrunStays where
  move s i op rest hs _ := hs.of_eq (by simp) (by simp)
  mark s e es hs hscript := by
    obtain ⟨hnone, hoverrun⟩ := hs
    rw [State.noReset_cons hscript, Bool.and_eq_true] at hnone
    exact ⟨hnone.2, hoverrun⟩
  action s e es hs hscript _ := by
    obtain ⟨hnone, hoverrun⟩ := hs
    rw [State.noReset_cons hscript, Bool.and_eq_true] at hnone
    obtain ⟨he, hes⟩ := hnone
    exact ⟨by rwa [State.noReset, State.apply_script], State.apply_overrun he hoverrun⟩
  read s hs := hs
  illegal s w hs _ := hs
  refused s w i e hs _ _ := hs
  started s w i todo hs _ _ := hs

end Sys2Proof.Machine

namespace Sys2Proof.Proofs

open Sys2Proof.Machine

/-- Settles O9: the word is discarded in `accept`, and no part of a step but a reset clears OVERRUN. -/
theorem busyCommandWriteOnlyOverruns : Obligations.BusyCommandWriteOnlyOverruns := by
  refine ⟨?between, ?inside, ?sticky⟩
  case between => exact fun s w es hwf hscript hbusy => step_commandWrite_busy hwf hscript hbusy
  case inside => exact fun s w es i op rest n hseq hscript hbusy => runLoop_commandWrite_busy n hseq hscript hbusy
  case sticky => exact fun s s' hnone h hoverrun => (overrunStays_kept.step_keeps ⟨hnone, hoverrun⟩ h).2

end Sys2Proof.Proofs
end

section
/-! PROOFS. GPIO.CFGIN, GPIO.CFGOUT and GPIO.CFGALT (41_gpio.md R242 to R244, R250 to R252): with legal operands each is ConfigurePin
of one pin and a plain completion. -/

namespace Sys2Proof.Machine

variable {s : State}

/-! ## Legal operands -/

theorem pinOk_eq_true {pin : BitVec 6} (h : pin.toNat ≤ 53) : pinOk pin = true := decide_eq_true h

theorem fnOk_eq_true {fn : BitVec 3} (h : fn.toNat ≤ 5) : fnOk fn = true := decide_eq_true h

theorem configureStart_legal {legal : Bool} (p : Nat) (f : BitVec 3) (h : legal = true) :
    configureStart legal p f = .program (configurePin p f ++ [.finish .plain]) :=
  if_pos h

/-! ## A plain completion -/

theorem State.complete_plain_regs (s : State) :
    (s.complete .plain).regs = { s.regs with status := s.regs.status.completed } := rfl

/-- A normal completion of the STATUS that acceptance leaves (30_encoding.md R160, R161). -/
theorem State.accepted.completed (haccepted : s.accepted) : s.regs.status.completed = s.doneStatus := by
  rw [haccepted]
  rfl

/-! ## ConfigurePin as a command -/

/-- ConfigurePin has no test, so no hold can stand in it. -/
theorem smooth_configurePin (p : Nat) (f : BitVec 3) : Smooth (configurePin p f) [.finish .plain] = true := rfl

/-- A command whose program is ConfigurePin completes in an undisturbed run, `u` being the state before the completion step. -/
theorem exec_configurePin {i : Instr} {p : Nat} {f : BitVec 3} (hq : s.quiet = true)
    (hstart : startOf s i = .program (configurePin p f ++ [.finish .plain])) :
    ∃ todo u, u = (s.started i todo).runOps i (configurePin p f) [.finish .plain] ∧
      exec i s = .next ((u.advanceTimer u.timer.rate).complete .plain) := by
  rw [exec_eq, hstart]
  exact ⟨_, runCommand_plain s i (configurePin p f) .plain (smooth_configurePin p f) hq (show 7 < 2 ^ 34 by decide)⟩

/-- Each of the three commands with legal operands is ConfigurePin of its pin and function (41_gpio.md R250 to R252). -/
theorem startOf_gpioConfigure {i : Instr} {p : Nat} {f : BitVec 3} (hp : p ≤ 53)
    (h : ∃ pin : BitVec 6, pin.toNat = p ∧
      (i = .gpioCfgin pin ∧ f = s.cfg.fselInput ∨ i = .gpioCfgout pin ∧ f = s.cfg.fselOutput ∨
        ∃ fn : BitVec 3, fn.toNat ≤ 5 ∧ i = .gpioCfgalt pin fn ∧ f = fselAlt s.cfg fn.toNat)) :
    startOf s i = .program (configurePin p f ++ [.finish .plain]) := by
  obtain ⟨pin, rfl, ⟨rfl, rfl⟩ | ⟨rfl, rfl⟩ | ⟨fn, hfn, rfl, rfl⟩⟩ := h
  · exact configureStart_legal _ _ (pinOk_eq_true hp)
  · exact configureStart_legal _ _ (pinOk_eq_true hp)
  · exact configureStart_legal _ _ (Bool.and_eq_true_iff.mpr ⟨pinOk_eq_true hp, fnOk_eq_true hfn⟩)

end Sys2Proof.Machine

namespace Sys2Proof.Proofs

open Sys2Proof.Machine

/-- Settles O27: each command runs ConfigurePin without a hold, and what ConfigurePin leaves is what the completion step keeps. -/
theorem gpioConfigureCompletes : Obligations.GpioConfigureCompletes := by
  intro s i p f hq haccepted hp hcommand
  obtain ⟨todo, u, hu, hexec⟩ := exec_configurePin hq (startOf_gpioConfigure hp hcommand)
  obtain ⟨hregs, htrace, hfsel, hpud, hclk, hlatch, -⟩ :=
    hu ▸ State.runOps_configurePin (s.started i todo) i p f [.finish .plain]
  have hpull : u.gpio.pullOf p = .off := hu ▸ State.runOps_configurePin_pull (s.started i todo) i p f [.finish .plain]
  have hother (q : Nat) (hlt : q < 54) (hne : q ≠ p) (hclock : s.gpio.clkAt[q] ≤ s.cycles) :
      u.gpio.pullOf q = s.gpio.pullOf q :=
    hu ▸ State.runOps_configurePin_other (s.started i todo) i p q f [.finish .plain] hp hlt hne hclock
  have hgpio : ((u.advanceTimer u.timer.rate).complete .plain).gpio = u.gpio := by simp
  refine ⟨_, hexec, State.complete_seq _ _, ?regs, ?trace, ?gpio⟩
  case regs =>
    rw [State.complete_plain_regs, State.advanceTimer_regs, hregs]
    exact congrArg (fun status => { s.regs with status }) haccepted.completed
  case trace => rw [State.complete_trace, State.advanceTimer_trace, htrace]; rfl
  case gpio =>
    rw [hgpio]
    exact ⟨hfsel, hpud, hclk, hlatch, hpull, fun hclocks q hq hne =>
      hother q (Nat.lt_succ_of_le hq) hne (hclocks ⟨q, Nat.lt_succ_of_le hq⟩)⟩

end Sys2Proof.Proofs
end

section
/-! PROOFS. The framebuffer request and FB_BASE (42_framebuffer.md R280, R281, R284): the request as the header, seven tags and the end
tag, and which bits of the raw address FB_BASE keeps. -/

namespace Sys2Proof.Machine

/-! ## The request as a list of tags -/

/-- A tag of a request: its code, the number of bytes of its values as value-buffer size and as request size, and its values
(42_framebuffer.md R280, R281). -/
def requestTag (code : Word) (values : List Word) : List Word :=
  code :: BitVec.ofNat 32 (4 * values.length) :: BitVec.ofNat 32 (4 * values.length) :: values

@[simp] theorem length_requestTag (code : Word) (values : List Word) :
    (requestTag code values).length = values.length + 3 := rfl

/-- The size fields that R280 writes out are those of its tags' values. -/
theorem fbRequest_eq_requestTags (c : Config) :
    fbRequest c =
      [140#32, 0#32] ++ requestTag c.tagSetPhysWh [c.fbReqWidth, c.fbReqHeight]
        ++ requestTag c.tagSetVirtWh [c.fbReqVwidth, c.fbReqVheight] ++ requestTag c.tagSetVirtOff [0#32, 0#32]
        ++ requestTag c.tagSetDepth [c.fbReqDepth] ++ requestTag c.tagSetPixelOrder [c.fbReqOrder]
        ++ requestTag c.tagAllocBuffer [c.fbReqAlign, 0#32] ++ requestTag c.tagGetPitch [0#32] ++ [0#32] := rfl

/-- The header's two words, the seven tags and the end tag are 35 words. -/
theorem length_fbRequest (c : Config) : (fbRequest c).length = 35 := by
  simp [fbRequest_eq_requestTags]

/-! ## The bits of FB_BASE -/

theorem fbBaseOf_highBits (raw : Word) : (fbBaseOf raw).extractLsb' 30 2 = 0#2 := by
  have hmask : Config.addrMask.extractLsb' 30 2 = 0#2 := by decide
  rw [fbBaseOf, BitVec.extractLsb'_and, hmask, BitVec.and_zero]

theorem fbBaseOf_lowBits (raw : Word) : (fbBaseOf raw).extractLsb' 0 30 = raw.extractLsb' 0 30 :=
  have hmask : Config.addrMask.extractLsb' 0 30 = BitVec.allOnes 30 := by decide
  (extractLsb'_of_and_eq rfl hmask).symm

end Sys2Proof.Machine

namespace Sys2Proof.Proofs

open Sys2Proof.Machine

/-- Settles O42: each part of the request is a tag of its values, and the parts' lengths add up to the 35 words that word 0 counts. -/
theorem requestKeepsInvariant : Obligations.RequestKeepsInvariant := by
  intro c
  have hbytes : 140 = 4 * (fbRequest c).length := by rw [length_fbRequest]
  exact ⟨_, _, _, _, _, _, _, fbRequest_eq_requestTags c, length_fbRequest c, hbytes, rfl, rfl, rfl, rfl, rfl, rfl, rfl⟩

/-- Settles O43: the address mask is zero in bits 31:30 and all ones in bits 29:0. -/
theorem fbBaseMasked : Obligations.FbBaseMasked :=
  fun raw => ⟨rfl, fbBaseOf_highBits raw, fbBaseOf_lowBits raw⟩

end Sys2Proof.Proofs
end

section
/-! PROOFS. TMR.NOW in any undisturbed state (43_timer.md R320, R326, R330): it never holds, and it returns what its reads gave, whatever
the counter does. -/

namespace Sys2Proof.Machine

/-! ## The reads of Now(), whatever they return -/

section

variable (s : State) (i : Instr) (rest : List Op)

/-- The word a read of `r` at the next engine step returns: the counter moves first (60_exceptions.md R526; log 14). -/
def State.nextRead (r : Reg) : Word := ((s.advanceTimer s.timer.rate).busRead r).1

/-- A point that only reads the register `r` and keeps the word among the hidden values, as `keep` says. -/
theorem State.engineStep_read {op : Op} {r : Reg} {keep : Locals → Word → Locals} (hop : op.isCompute = false)
    (hstep : ∀ u : State, u.stepOp i op rest = ((u.busRead r).2.withLoc (keep u.loc (u.busRead r).1)).goto i rest) :
    (s.engineStep i op rest).loc = keep s.loc (s.nextRead r) ∧
      (s.engineStep i op rest).trace = s.trace ++ [.rd (r.addr s.cfg) 4 (s.nextRead r)] ∧
      (s.engineStep i op rest).regs = s.regs := by
  rw [State.engineStep_step s i op rest hop, hstep]
  simp [State.nextRead, State.busRead_trace]

theorem State.engineStep_chiRead_reads :
    (s.engineStep i .chiRead rest).loc = { s.loc with hi := s.nextRead .systmrChi } ∧
      (s.engineStep i .chiRead rest).trace = s.trace ++ [.rd (Reg.systmrChi.addr s.cfg) 4 (s.nextRead .systmrChi)] ∧
      (s.engineStep i .chiRead rest).regs = s.regs :=
  s.engineStep_read i rest (keep := fun l w => { l with hi := w }) rfl fun _ => rfl

theorem State.engineStep_cloRead_reads :
    (s.engineStep i .cloRead rest).loc = { s.loc with lo := s.nextRead .systmrClo } ∧
      (s.engineStep i .cloRead rest).trace = s.trace ++ [.rd (Reg.systmrClo.addr s.cfg) 4 (s.nextRead .systmrClo)] ∧
      (s.engineStep i .cloRead rest).regs = s.regs :=
  s.engineStep_read i rest (keep := fun l w => { l with lo := w }) rfl fun _ => rfl

theorem State.engineStep_chiCheck_reads :
    (s.engineStep i .chiCheck rest).loc = { s.loc with v := s.nextRead .systmrChi } ∧
      (s.engineStep i .chiCheck rest).trace = s.trace ++ [.rd (Reg.systmrChi.addr s.cfg) 4 (s.nextRead .systmrChi)] ∧
      (s.engineStep i .chiCheck rest).regs = s.regs :=
  s.engineStep_read i rest (keep := fun l w => { l with v := w }) rfl fun _ => rfl

/-- CHI and CLO, read by a Now() and again by its retry: the words stand in `hi` and `lo`. -/
theorem State.runOps_counterReads :
    (s.runOps i [.chiRead, .cloRead] rest).trace =
        s.trace ++
          [.rd (Reg.systmrChi.addr s.cfg) 4 (s.runOps i [.chiRead, .cloRead] rest).loc.hi,
            .rd (Reg.systmrClo.addr s.cfg) 4 (s.runOps i [.chiRead, .cloRead] rest).loc.lo] ∧
      (s.runOps i [.chiRead, .cloRead] rest).regs = s.regs := by
  simp [State.engineStep_chiRead_reads, State.engineStep_cloRead_reads]

/-- The three reads of a Now() before its test: the second word of CHI stands in `v` (43_timer.md R320). -/
theorem State.runOps_nowReads :
    (s.runOps i [.chiRead, .cloRead, .chiCheck] rest).trace =
        s.trace ++
          [.rd (Reg.systmrChi.addr s.cfg) 4 (s.runOps i [.chiRead, .cloRead, .chiCheck] rest).loc.hi,
            .rd (Reg.systmrClo.addr s.cfg) 4 (s.runOps i [.chiRead, .cloRead, .chiCheck] rest).loc.lo,
            .rd (Reg.systmrChi.addr s.cfg) 4 (s.runOps i [.chiRead, .cloRead, .chiCheck] rest).loc.v] ∧
      (s.runOps i [.chiRead, .cloRead, .chiCheck] rest).regs = s.regs := by
  simp [State.engineStep_chiRead_reads, State.engineStep_cloRead_reads, State.engineStep_chiCheck_reads]

end

/-! ## TMR.NOW never holds (43_timer.md R320) -/

section

variable {s : State} {i : Instr} {c : Calc} {rest : List Op}

/-- The test of a Now() whose value is a result. -/
def Calc.endsResult (c : Calc) : Prop := c = .nowTest .result ∨ c = .nowDone .result

/-- Only a reading in Delay's loop holds, and TMR.NOW has none. -/
theorem State.held_before_result (h : s.seq = .run i (.compute c :: rest)) (hc : c.endsResult) : s.held = false := by
  obtain rfl | rfl := hc <;> simp [State.held, h, delayHolds]

/-- From `s`, `k` moves, whatever fuel is left, lead to `t`: the program `todo` ahead, the events `tr` added to the bus trace, and the
configuration and the host registers as they were. -/
structure ReadsTo (i : Instr) (s t : State) (k : Nat) (todo : List Op) (tr : List BusEvent) : Prop where
  run   : ∀ n, runLoop (n + k) s = runLoop n t
  quiet : t.quiet = true
  seq   : t.seq = .run i todo
  cfg   : t.cfg = s.cfg
  regs  : t.regs = s.regs
  trace : t.trace = s.trace ++ tr

theorem ReadsTo.trans {t u : State} {k m : Nat} {todo todo' : List Op} {tr tr' : List BusEvent} (h : ReadsTo i s t k todo tr)
    (h' : ReadsTo i t u m todo' tr') : ReadsTo i s u (m + k) todo' (tr ++ tr') where
  run n := by rw [← Nat.add_assoc, h.run, h'.run]
  quiet := h'.quiet
  seq := h'.seq
  cfg := h'.cfg.trans h.cfg
  regs := h'.regs.trans h.regs
  trace := by rw [h'.trace, h.trace, List.append_assoc]

/-- A move that reads nothing and leaves no test ahead. -/
theorem ReadsTo.of_step {op : Op} {ops todo : List Op} {l : Locals} (hq : s.quiet = true) (hseq : s.seq = .run i (op :: ops))
    (hstep : s.engineStep i op ops = s.atCounter i todo l s.timer.count s.trace) (htodo : ∀ o ∈ todo.head?, o.mayHold = false) :
    ReadsTo i s (s.atCounter i todo l s.timer.count s.trace) 1 todo [] where
  run n := runLoop_step s n hq hseq hstep (State.held_of_seq _ rfl htodo)
  quiet := hq
  seq := rfl
  cfg := rfl
  regs := rfl
  trace := (List.append_nil _).symm

/-- Plain points before the test of a result run on to that test. -/
theorem ReadsTo.of_runOps {ops : List Op} {op : Op} {tr : List BusEvent} (hq : s.quiet = true)
    (hseq : s.seq = .run i (ops ++ op :: .compute c :: rest)) (hc : c.endsResult)
    (hp : Smooth ops (op :: .compute c :: rest) = true) (hop : op.plain = true)
    (htrace : (s.runOps i (ops ++ [op]) (.compute c :: rest)).trace = s.trace ++ tr)
    (hregs : (s.runOps i (ops ++ [op]) (.compute c :: rest)).regs = s.regs) :
    ReadsTo i s (s.runOps i (ops ++ [op]) (.compute c :: rest)) (1 + ops.length) (.compute c :: rest) tr := by
  have hseq' : (s.runOps i (ops ++ [op]) (.compute c :: rest)).seq = .run i (.compute c :: rest) := by
    rw [State.runOps_append]
    exact State.engineStep_plain_seq _ i op _ hop
  refine ⟨fun n => ?_, by simpa using hq, hseq', State.runOps_cfg s i _ _, hregs, htrace⟩
  have hheld := State.held_before_result hseq' hc
  rw [State.runOps_append] at hheld ⊢
  rw [← Nat.add_assoc, runLoop_plain s i ops _ (n + 1) hp hq hseq]
  exact runLoop_step _ n (by simpa using hq) (s.runOps_seq i ops _ hp hseq) rfl hheld

/-- The three reads of a Now(), up to its test. -/
theorem readsTo_nowTest (hq : s.quiet = true) (hseq : s.seq = .run i (nowOps .result ++ rest)) :
    ∃ t, ReadsTo i s t 3 (.compute (.nowTest .result) :: rest)
      [.rd (Reg.systmrChi.addr s.cfg) 4 t.loc.hi, .rd (Reg.systmrClo.addr s.cfg) 4 t.loc.lo,
        .rd (Reg.systmrChi.addr s.cfg) 4 t.loc.v] := by
  obtain ⟨htrace, hregs⟩ := s.runOps_nowReads i (.compute (.nowTest .result) :: rest)
  exact ⟨_, .of_runOps (ops := [.chiRead, .cloRead]) hq hseq (.inl rfl) rfl rfl htrace hregs⟩

/-- A Now() ends at its test when the high word has not changed, and after a retry in any case: its words stay (43_timer.md R320). -/
theorem readsTo_end (hq : s.quiet = true) (hseq : s.seq = .run i (.compute c :: rest))
    (hrest : ∀ o ∈ rest.head?, o.mayHold = false)
    (hend : c = .nowTest .result ∧ s.loc.v = s.loc.hi ∨ c = .nowDone .result) :
    ∃ t, ReadsTo i s t 1 rest [] ∧ t.loc.hi = s.loc.hi ∧ t.loc.lo = s.loc.lo := by
  have hstep : s.engineStep i (.compute c) rest =
      s.atCounter i rest (s.loc.afterNow .result s.loc.hi s.loc.lo s.loc.v) s.timer.count s.trace := by
    obtain ⟨rfl, hsame⟩ | rfl := hend
    · exact s.engineStep_nowTest_same i .result rest hsame
    · exact s.engineStep_nowDone i .result rest
  exact ⟨_, .of_step hq hseq hstep hrest, rfl, rfl⟩

/-- The high word has changed: the words are those of the two reads of the retry (R320). -/
theorem readsTo_retried (hq : s.quiet = true) (hseq : s.seq = .run i (.compute (.nowTest .result) :: rest))
    (hrest : ∀ o ∈ rest.head?, o.mayHold = false) (hchanged : s.loc.v ≠ s.loc.hi) :
    ∃ t, ReadsTo i s t 4 rest [.rd (Reg.systmrChi.addr s.cfg) 4 t.loc.hi, .rd (Reg.systmrClo.addr s.cfg) 4 t.loc.lo] := by
  have htest := ReadsTo.of_step hq hseq (s.engineStep_nowTest_changed i .result rest hchanged) (by simp [nowRetry, Op.mayHold])
  set r := s.atCounter i (nowRetry .result ++ rest) s.loc s.timer.count s.trace
  obtain ⟨htrace, hregs⟩ := r.runOps_counterReads i (.compute (.nowDone .result) :: rest)
  have hreads := ReadsTo.of_runOps (ops := [.chiRead]) htest.quiet htest.seq (.inr rfl) rfl rfl htrace hregs
  obtain ⟨t, hend, hhi, hlo⟩ := readsTo_end hreads.quiet hreads.seq hrest (.inr rfl)
  refine ⟨t, ?_⟩
  rw [hhi, hlo]
  exact (htest.trans hreads).trans hend

/-- A Now() for a result in any undisturbed state, in at most seven moves. -/
theorem readsTo_now (hq : s.quiet = true) (hseq : s.seq = .run i (nowOps .result ++ rest))
    (hrest : ∀ o ∈ rest.head?, o.mayHold = false) :
    ∃ t k hi lo hi2 hi' lo', k ≤ 7 ∧ ReadsTo i s t k rest (nowTrace s.cfg hi lo hi2 hi' lo') ∧
      (t.loc.hi ++ t.loc.lo : BitVec 64) = nowValue hi lo hi2 hi' lo' := by
  obtain ⟨r, hreads⟩ := readsTo_nowTest hq hseq
  by_cases hsame : r.loc.v = r.loc.hi
  · obtain ⟨t, hend, hhi, hlo⟩ := readsTo_end hreads.quiet hreads.seq hrest (.inl ⟨rfl, hsame⟩)
    refine ⟨t, 4, r.loc.hi, r.loc.lo, r.loc.v, 0#32, 0#32, by decide, ?_, ?_⟩
    · rw [nowTrace, if_pos hsame]
      exact hreads.trans hend
    · rw [nowValue, if_pos hsame, hhi, hlo]
  · obtain ⟨t, hend⟩ := readsTo_retried hreads.quiet hreads.seq hrest hsame
    rw [hreads.cfg] at hend
    refine ⟨t, 7, r.loc.hi, r.loc.lo, r.loc.v, t.loc.hi, t.loc.lo, by decide, ?_, ?_⟩
    · rw [nowTrace, if_neg hsame]
      exact hreads.trans hend
    · rw [nowValue, if_neg hsame]

end

/-! ## The completion of TMR.NOW -/

theorem State.complete_now_regs (s : State) :
    (s.complete .now).regs =
      { s.regs with status := s.regs.status.completed, res0 := s.loc.lo, res1 := s.loc.hi } := rfl

end Sys2Proof.Machine

namespace Sys2Proof.Proofs

open Sys2Proof.Machine

/-- Settles O46: no test of its Now() can hold, and the completion step returns the last pair of words read. -/
theorem tmrNowReturnsReads : Obligations.TmrNowReturnsReads := by
  intro s hq haccepted
  obtain ⟨t, k, hi, lo, hi2, hi', lo', hk, hreads, hvalue⟩ :=
    readsTo_now (s := s.started .tmrNow nowProgram) (i := .tmrNow) (rest := [.finish .now]) hq rfl (by simp [Op.mayHold])
  have hexec : exec .tmrNow s = .next ((t.advanceTimer t.timer.rate).complete .now) :=
    runCommand_of_run s .tmrNow nowProgram .now k t hreads.quiet hreads.seq (by unfold runBound; omega) hreads.run
  refine ⟨_, hi, lo, hi2, hi', lo', hexec, State.complete_seq _ _, ?trace, ?regs⟩
  case trace =>
    rw [State.complete_trace, State.advanceTimer_trace, hreads.trace]
    rfl
  case regs =>
    rw [State.complete_now_regs, State.advanceTimer_regs, State.advanceTimer_loc, hreads.regs, ← hvalue,
      BitVec.extractLsb'_append_eq_right, BitVec.extractLsb'_append_eq_left, ← haccepted.completed]
    rfl

end Sys2Proof.Proofs
end

section
/-! PROOFS. A timer that stands (60_exceptions.md R527; 43_timer.md R320, R323): Now() on a counter that does not move, and the two
commands on a counter that shows 0. -/

namespace Sys2Proof.Machine

variable {s : State} {i : Instr} {rest : List Op} {c : BitVec 64}

/-! ## A counter that does not move -/

/-- Every read of the counter returns the halves of `c`: no tick of the counter agent moves it (60_exceptions.md R527; log 14). -/
structure State.CounterStands (s : State) (c : BitVec 64) : Prop where
  still : s.cfg.timerPresent = false ∨ s.timer.rate = 0
  shows : s.counter = some c

/-- The two degenerate timers of R527 show 0 at every read. -/
theorem State.counterStands_zero (h : s.cfg.timerPresent = false ∨ s.timer.count = 0 ∧ s.timer.rate = 0) :
    s.CounterStands 0#64 where
  still := h.imp_right And.right
  shows := by
    obtain habsent | ⟨hcount, -⟩ := h
    · simp [State.counter, habsent]
    · simp [State.counter, hcount]

theorem State.advanceTimer_zero (s : State) : s.advanceTimer 0 = s := by
  unfold State.advanceTimer
  split <;> rfl

theorem State.CounterStands.advanceTimer (h : s.CounterStands c) : s.advanceTimer s.timer.rate = s := by
  obtain habsent | hrate := h.still
  · simp [State.advanceTimer, habsent]
  · rw [hrate, State.advanceTimer_zero]

theorem State.CounterStands.atCounter (h : s.CounterStands c) (todo : List Op) (l : Locals) (tr : List BusEvent) :
    (s.atCounter i todo l s.timer.count tr).CounterStands c :=
  ⟨h.still, h.shows⟩

/-! ## Now() on such a counter -/

/-- A point that reads the word `w` of the standing counter and keeps it among the hidden values, as `keep` says. -/
theorem State.CounterStands.engineStep_read {op : Op} {r : Reg} {w : Word} {keep : Locals → Word → Locals}
    (h : s.CounterStands c) (hop : op.isCompute = false)
    (hstep : ∀ u : State, u.stepOp i op rest = ((u.busRead r).2.withLoc (keep u.loc (u.busRead r).1)).goto i rest)
    (hread : s.busRead r = (w, s.record (.rd (r.addr s.cfg) 4 w))) :
    s.engineStep i op rest = s.atCounter i rest (keep s.loc w) s.timer.count (s.trace ++ [.rd (r.addr s.cfg) 4 w]) := by
  rw [State.engineStep_step s i op rest hop, h.advanceTimer, hstep, hread]
  rfl

theorem State.CounterStands.engineStep_chiRead (h : s.CounterStands c) :
    s.engineStep i .chiRead rest =
      s.atCounter i rest { s.loc with hi := c.extractLsb' 32 32 } s.timer.count
        (s.trace ++ [.rd (Reg.systmrChi.addr s.cfg) 4 (c.extractLsb' 32 32)]) :=
  h.engineStep_read (keep := fun l w => { l with hi := w }) rfl (fun _ => rfl) (s.busRead_chi c h.shows)

theorem State.CounterStands.engineStep_cloRead (h : s.CounterStands c) :
    s.engineStep i .cloRead rest =
      s.atCounter i rest { s.loc with lo := c.extractLsb' 0 32 } s.timer.count
        (s.trace ++ [.rd (Reg.systmrClo.addr s.cfg) 4 (c.extractLsb' 0 32)]) :=
  h.engineStep_read (keep := fun l w => { l with lo := w }) rfl (fun _ => rfl) (s.busRead_clo c h.shows)

theorem State.CounterStands.engineStep_chiCheck (h : s.CounterStands c) :
    s.engineStep i .chiCheck rest =
      s.atCounter i rest { s.loc with v := c.extractLsb' 32 32 } s.timer.count
        (s.trace ++ [.rd (Reg.systmrChi.addr s.cfg) 4 (c.extractLsb' 32 32)]) :=
  h.engineStep_read (keep := fun l w => { l with v := w }) rfl (fun _ => rfl) (s.busRead_chi c h.shows)

/-- A reading that does not leave the engine in the loop of a Delay is followed by no hold (60_exceptions.md R506). -/
theorem State.held_nowTest_eq_false {u : NowUse} (hseq : s.seq = .run i (.compute (.nowTest u) :: rest))
    (hloop : delayHolds u (s.loc.hi ++ s.loc.lo) s.loc.t0 = false) : s.held = false := by
  simp [State.held, hseq, hloop]

/-- What follows a finished Now() begins with no test, if what follows its procedure does not. -/
theorem mayHold_head_afterNow (u : NowUse) (t t0 : BitVec 64) (hrest : ∀ o ∈ rest.head?, o.mayHold = false) :
    ∀ o ∈ (afterNow u t t0 rest).head?, o.mayHold = false := by
  have hagain (u' : NowUse) : ∀ o ∈ (nowOps u' ++ rest).head?, o.mayHold = false := by simp [nowOps, Op.mayHold]
  cases u with
  | result => exact hrest
  | delayFirst n | delayAgain n =>
    rw [afterNow]
    split
    · exact hrest
    · exact hagain _

/-- A Now() on a standing counter makes three reads, whose two CHI words agree, and gives the counter's value. -/
theorem State.CounterStands.runLoop_now (h : s.CounterStands c) (u : NowUse) (hq : s.quiet = true)
    (hseq : s.seq = .run i (nowOps u ++ rest)) (hloop : delayHolds u c s.loc.t0 = false)
    (hrest : ∀ o ∈ rest.head?, o.mayHold = false) (n : Nat) :
    runLoop (n + 4) s =
      runLoop n
        (s.atCounter i (afterNow u c s.loc.t0 rest)
          (s.loc.afterNow u (c.extractLsb' 32 32) (c.extractLsb' 0 32) (c.extractLsb' 32 32)) s.timer.count
          (s.trace ++ nowTrace s.cfg (c.extractLsb' 32 32) (c.extractLsb' 0 32) (c.extractLsb' 32 32) 0#32 0#32)) := by
  have hchi := h.engineStep_chiRead (i := i) (rest := [.cloRead, .chiCheck, .compute (.nowTest u)] ++ rest)
  set s1 := s.atCounter i ([.cloRead, .chiCheck, .compute (.nowTest u)] ++ rest) _ _ _
  have h1 : s1.CounterStands c := h.atCounter _ _ _
  have hclo := h1.engineStep_cloRead (i := i) (rest := [.chiCheck, .compute (.nowTest u)] ++ rest)
  set s2 := s1.atCounter i ([.chiCheck, .compute (.nowTest u)] ++ rest) _ _ _
  have h2 : s2.CounterStands c := h1.atCounter _ _ _
  have hcheck := h2.engineStep_chiCheck (i := i) (rest := .compute (.nowTest u) :: rest)
  set s3 := s2.atCounter i (.compute (.nowTest u) :: rest) _ _ _
  have hvalue : (s3.loc.hi ++ s3.loc.lo : BitVec 64) = c := halves_append c
  have htest := s3.engineStep_nowTest_same i u rest rfl
  rw [hvalue] at htest
  rw [runLoop_step s (n + 3) hq hseq hchi (State.held_of_seq _ rfl (by simp [Op.mayHold])),
    runLoop_step s1 (n + 2) hq rfl hclo (State.held_of_seq _ rfl (by simp [Op.mayHold])),
    runLoop_step s2 (n + 1) hq rfl hcheck (State.held_nowTest_eq_false rfl (by rw [hvalue]; exact hloop)),
    runLoop_step s3 n hq rfl htest (State.held_of_seq _ rfl (mayHold_head_afterNow u c _ hrest))]
  simp [s3, s2, s1, State.atCounter, Locals.afterNow, nowTrace]

/-! ## A command of one Now() on a counter that shows 0 -/

/-- A command that is a Now() and its completion, and goes on to the completion when the value is 0, completes with that value. -/
theorem runCommand_zeroNow (i : Instr) (u : NowUse) (f : Finish) (h : s.CounterStands 0#64) (hq : s.quiet = true)
    (hloop : delayHolds u 0#64 0#64 = false) (hends : afterNow u 0#64 0#64 [.finish f] = [.finish f]) :
    ∃ t : State, runCommand i (.program (nowOps u ++ [.finish f])) s = .next (t.complete f) ∧
      t.trace = s.trace ++ zeroNow s.cfg ∧ t.regs = s.regs ∧ t.loc.hi = 0#32 ∧ t.loc.lo = 0#32 := by
  have hstands : (s.started i (nowOps u ++ [.finish f])).CounterStands 0#64 := ⟨h.still, h.shows⟩
  have hrun := hstands.runLoop_now u hq rfl hloop (by simp [Op.mayHold])
  set t := (s.started i (nowOps u ++ [.finish f])).atCounter i _ _ _ _
  have hseq : t.seq = .run i [.finish f] := congrArg (Seq.run i) hends
  refine ⟨t.advanceTimer t.timer.rate, runCommand_of_run s i _ f 4 t hq hseq (by unfold runBound; omega) hrun, ?_, ?_, ?_, ?_⟩
  · rw [State.advanceTimer_trace]; rfl
  · rw [State.advanceTimer_regs]; rfl
  · rw [State.advanceTimer_loc]; rfl
  · rw [State.advanceTimer_loc]; rfl

end Sys2Proof.Machine

namespace Sys2Proof.Proofs

open Sys2Proof.Machine

/-- Settles O49: a standing counter that shows 0 ends TMR.NOW, and TMR.DELAY by the escape of its first reading, after one Now(). -/
theorem degenerateTimer : Obligations.DegenerateTimer := by
  intro s hq haccepted hdegenerate
  have hstands := State.counterStands_zero hdegenerate
  constructor
  case left =>
    obtain ⟨t, hexec, htrace, hregs, hhi, hlo⟩ := runCommand_zeroNow .tmrNow .result .now hstands hq rfl rfl
    refine ⟨_, hexec, State.complete_seq _ _, (State.complete_trace _ _).trans htrace, ?_⟩
    rw [State.complete_now_regs, hregs, hhi, hlo, haccepted.completed]
  case right =>
    obtain ⟨t, hexec, htrace, hregs, -, -⟩ := runCommand_zeroNow .tmrDelay (.delayFirst s.opnd) .plain hstands hq rfl rfl
    refine ⟨_, hexec, State.complete_seq _ _, (State.complete_trace _ _).trans htrace, ?_⟩
    rw [State.complete_plain_regs, hregs, haccepted.completed]

end Sys2Proof.Proofs
end

section
/-! PROOFS. The engine after reset (70_reset_and_hazards.md R600): what its registers read, and what an idle engine does. -/

namespace Sys2Proof.Machine

/-- STATUS with every field clear reads 0, its reserved bits too. -/
theorem Status.word_clear : Status.word {} = 0#32 := by decide

/-- Registers that hold 0 read 0 at every offset: each register's value is 0, and CMD and the reserved offsets read 0 anyway. -/
theorem HostRegs.read_clear (off : Nat) : HostRegs.read {} off = 0#32 := by
  unfold HostRegs.read
  split
  case h_2 => exact Status.word_clear
  all_goals rfl

/-- The configuration of the reset state is one the model accepts, so a step from it is not refused. -/
theorem State.reset_cfg_wf : State.reset.cfg.wf = true := by decide

theorem engineTurn_idle {s : State} (hseq : s.seq = .idle) : engineTurn s = .next s := by
  simp [engineTurn, hseq]

end Sys2Proof.Machine

namespace Sys2Proof.Proofs

open Sys2Proof.Machine

/-- Settles O15: the registers of the reset state hold 0, and its idle engine, given the turn, stays as it is. -/
theorem resetRegisters : Obligations.ResetRegisters := by
  refine ⟨fun off _ => HostRegs.read_clear off, Status.word_clear, rfl, rfl, ?waits⟩
  case waits =>
    calc step State.reset
      _ = engineTurn State.reset := step_engineTurn State.reset_cfg_wf rfl
      _ = .next State.reset := engineTurn_idle rfl

end Sys2Proof.Proofs
end

section
/-! PROOFS. Encoding and decoding (30_encoding.md R142 to R145): a word selects at most one row of the opcode map, the row of a command
builds it back from its encoding, so decoding inverts encoding. -/

namespace Sys2Proof

/-! ## One row at most -/

theorem eq_of_selects {r r' : OpRow} {w : Word} (hr : r ∈ opcodeTable) (hr' : r' ∈ opcodeTable) (h : r.selects w = true)
    (h' : r'.selects w = true) : r = r' :=
  List.inj_on_of_nodup_map opcodeTable_opcodes_nodup hr hr' ((fieldOp_of_selects hr h).symm.trans (fieldOp_of_selects hr' h'))

/-- Rows of different opcodes select no common word. -/
theorem opcodeTable_pairwise_disjoint :
    opcodeTable.Pairwise fun r r' => ∀ w : Word, ¬(r.selects w = true ∧ r'.selects w = true) := by
  have hne : opcodeTable.Pairwise fun r r' => fieldOp r.pattern ≠ fieldOp r'.pattern :=
    List.pairwise_map.mp opcodeTable_opcodes_nodup
  refine hne.imp_of_mem fun hr hr' hop w ⟨h, h'⟩ => hop ?_
  rw [eq_of_selects hr hr' h h']

/-- Decoding a word that selects a row gives the command the row builds from it. -/
theorem decodeWord_of_selects {r : OpRow} {w : Word} (hr : r ∈ opcodeTable) (h : r.selects w = true) :
    decodeWord w = .ok (r.build w) := by
  cases hd : decodeWord w with
  | error e =>
    rw [(decodeWord_error_iff w).mp ⟨e, hd⟩ r hr] at h
    cases h
  | ok i =>
    obtain ⟨r', hr', h', rfl⟩ := exists_selects_of_decodeRows ((decodeWord_ok_iff w i).mp hd)
    rw [eq_of_selects hr hr' h h']

/-! ## The row of a command -/

theorem fieldFn_gpioCfgalt (pin : BitVec 6) (fn : BitVec 3) : fieldFn (encode (.gpioCfgalt pin fn)) = fn := by
  apply BitVec.eq_of_getLsbD_eq
  intro b hb
  simp only [fieldFn, encode, BitVec.getLsbD_extractLsb', BitVec.getLsbD_append, hb]
  rw [if_neg (by omega), if_neg (by omega), if_pos (by omega)]
  simp [show 8 + b - 6 - 2 = b by omega]

/-- The row with a command's mnemonic takes the command's operands from its encoding (R143). -/
theorem build_encode {r : OpRow} {i : Instr} (hr : r ∈ opcodeTable) (hm : r.mnemonic = i.mnemonic) :
    r.build (encode i) = i := by
  have hrow : ∀ r' ∈ opcodeTable, r'.mnemonic = r.mnemonic → r' = r := fun r' hr' h =>
    List.inj_on_of_nodup_map (f := OpRow.mnemonic) (by decide) hr' hr h
  rw [hm] at hrow
  cases i with
  | mboxSubmit ch =>
    rw [← hrow _ (List.getElem_mem (n := 0) (by decide)) rfl]
    exact congrArg Instr.mboxSubmit (BitVec.extractLsb'_append_eq_right (a := 0x01#8 ++ 0#20))
  | fbProvision => rw [← hrow _ (List.getElem_mem (n := 1) (by decide)) rfl]; rfl
  | gpioCfgin pin =>
    rw [← hrow _ (List.getElem_mem (n := 2) (by decide)) rfl]
    exact congrArg Instr.gpioCfgin (BitVec.extractLsb'_append_eq_right (a := 0x10#8 ++ 0#18))
  | gpioCfgout pin =>
    rw [← hrow _ (List.getElem_mem (n := 3) (by decide)) rfl]
    exact congrArg Instr.gpioCfgout (BitVec.extractLsb'_append_eq_right (a := 0x11#8 ++ 0#18))
  | gpioCfgalt pin fn =>
    rw [← hrow _ (List.getElem_mem (n := 4) (by decide)) rfl]
    exact congrArg₂ Instr.gpioCfgalt (BitVec.extractLsb'_append_eq_right (a := 0x12#8 ++ 0#13 ++ fn ++ 0#2)) (fieldFn_gpioCfgalt pin fn)
  | tmrNow => rw [← hrow _ (List.getElem_mem (n := 5) (by decide)) rfl]; rfl
  | tmrDelay => rw [← hrow _ (List.getElem_mem (n := 6) (by decide)) rfl]; rfl
  | ctrlInit => rw [← hrow _ (List.getElem_mem (n := 7) (by decide)) rfl]; rfl
  | ctrlSample => rw [← hrow _ (List.getElem_mem (n := 8) (by decide)) rfl]; rfl
  | uartInit => rw [← hrow _ (List.getElem_mem (n := 9) (by decide)) rfl]; rfl
  | uartPutc byte =>
    rw [← hrow _ (List.getElem_mem (n := 10) (by decide)) rfl]
    exact congrArg Instr.uartPutc (BitVec.extractLsb'_append_eq_right (a := 0x41#8 ++ 0#16))
  | uartGetc => rw [← hrow _ (List.getElem_mem (n := 11) (by decide)) rfl]; rfl
  | uartPuts len =>
    rw [← hrow _ (List.getElem_mem (n := 12) (by decide)) rfl]
    exact congrArg Instr.uartPuts (BitVec.extractLsb'_append_eq_right (a := 0x43#8 ++ 0#8))
  | uartPuthex => rw [← hrow _ (List.getElem_mem (n := 13) (by decide)) rfl]; rfl

theorem decodeWord_encode (i : Instr) : decodeWord (encode i) = .ok i := by
  obtain ⟨r, hr, hm, hsel⟩ := tableRow_statement i
  rw [decodeWord_of_selects hr hsel, build_encode hr hm]

end Sys2Proof

namespace Sys2Proof.Proofs

/-- Settles O1: the encoding selects the command's row, and only that row, which builds the command back. -/
theorem decodeEncodeRoundTrip : Obligations.DecodeEncodeRoundTrip := decodeWord_encode

/-- Settles O2: the command is built by a row that fixes every bit but its operands'. -/
theorem decodedWordReencodes : Obligations.DecodedWordReencodes := fun _ _ => encode_of_decodeWord

/-- Settles O3: the opcodes of the rows differ, and a decoded word is the encoding of its command, which selects its row. -/
theorem opcodeRowsDisjoint : Obligations.OpcodeRowsDisjoint := by
  refine ⟨opcodeTable_pairwise_disjoint, fun w i h => ?_⟩
  obtain ⟨r, hr, hm, hsel⟩ := tableRow_statement i
  exact ⟨r, hr, encode_of_decodeWord h ▸ hsel, hm⟩

/-- Settles O5: each word that decodes is written as its command's encoding; the last one has bit 6 set, which is reserved. -/
theorem writtenWordsDecode : Obligations.WrittenWordsDecode :=
  ⟨decodeWord_encode (.mboxSubmit 8#4), decodeWord_encode (.gpioCfgalt 14#6 5#3), decodeWord_encode (.gpioCfgout 9#6),
    decodeWord_encode (.gpioCfgin 10#6), decodeWord_encode (.uartPutc 0x41#8), decodeWord_encode (.uartPuts 3#16),
    decodeWord_encode (.gpioCfgin 53#6), decodeWord_encode (.gpioCfgin 54#6), decodeWord_encode .fbProvision,
    decodeWord_encode .tmrDelay, decodeWord_encode .ctrlSample,
    decodeWord_reserved (List.getElem_mem (l := opcodeTable) (n := 4) (by decide)) (by decide) (by decide)⟩

end Sys2Proof.Proofs
end

section
/-! PROOFS. The invariant of the machine (10_state.md R45, R50, R51, R60; 60_exceptions.md R500, R521, R525): what it says of the devices and
RAM, which every access and every agent's action keeps, and what it says of the engine, which every move keeps. -/

namespace Sys2Proof.Machine

variable {s : State}

/-! ## The part of the invariant about the devices and RAM -/

/-- RAM is canonical, the FIFOs are within their depths, and the recorded times are not in the future. -/
structure DevicesOk (c : Config) (m : Mbox) (g : Gpio) (u : Uart) (t : Timer) (p : Ctrl) (r : Memory) (now : Nat) : Prop where
  ram_wf      : Memory.wf r = true
  inbound_le  : m.inbound.length ≤ c.mboxFifoDepth
  outbound_le : m.outbound.length ≤ c.mboxFifoDepth
  rx_le       : u.rx.length ≤ c.uartFifoDepth
  tx_le       : u.tx.length ≤ c.uartFifoDepth
  edge_le     : p.edgeAt ≤ t.count
  clk_le      : ∀ q : Fin 54, g.clkAt[q] ≤ now

/-- The devices and RAM of the state keep the invariant. -/
def State.devicesOk (s : State) : Prop := DevicesOk s.cfg s.mbox s.gpio s.uart s.timer s.ctrl s.ram s.cycles

/-! ### The controller peripheral's last edge -/

theorem Ctrl.onLatch_edgeAt_le {c : Ctrl} {now : Nat} (l : Option Bool) (h : c.edgeAt ≤ now) : (c.onLatch now l).edgeAt ≤ now := by
  unfold Ctrl.onLatch
  grind

theorem Ctrl.onClock_edgeAt_le {c : Ctrl} {now : Nat} (k : Option Bool) (h : c.edgeAt ≤ now) : (c.onClock now k).edgeAt ≤ now := by
  unfold Ctrl.onClock
  grind

theorem Ctrl.onFloat_edgeAt (c : Ctrl) : c.onFloat.edgeAt = c.edgeAt := by
  unfold Ctrl.onFloat
  split <;> rfl

theorem Ctrl.plug_edgeAt_le {c : Ctrl} {now : Nat} (b : Bool) (h : c.edgeAt ≤ now) : (c.plug now b).edgeAt ≤ now := by
  unfold Ctrl.plug
  split
  · exact h
  · exact Nat.le_refl _

theorem State.devicesOk.watchLines (h : s.devicesOk) : s.watchLines.devicesOk where
  __ := h
  edge_le := by
    show (Ctrl.onFloat _).edgeAt ≤ _
    rw [Ctrl.onFloat_edgeAt]
    exact Ctrl.onClock_edgeAt_le _ (Ctrl.onLatch_edgeAt_le _ h.edge_le)

/-! ### Accesses -/

theorem State.devicesOk.useFree (h : s.devicesOk) : s.useFree.devicesOk := by simpa [State.devicesOk] using h

theorem State.devicesOk.advanceTimer (h : s.devicesOk) (n : Nat) : (s.advanceTimer n).devicesOk := by
  unfold State.advanceTimer
  split
  · exact { h with edge_le := Nat.le_add_right_of_le h.edge_le }
  · exact h

theorem State.devicesOk.ramSet (h : s.devicesOk) (a : Word) (k : Nat) (v : Byte) : (s.ramSet a k v).devicesOk := by
  have hw : DevicesOk s.cfg s.mbox s.gpio s.uart s.timer s.ctrl (s.ramSet a k v).ram s.cycles :=
    { h with ram_wf := s.ramSet_wf a k v h.ram_wf }
  simpa [State.devicesOk] using hw

theorem State.devicesOk.ramSetWord (h : s.devicesOk) (a v : Word) : (s.ramSetWord a v).devicesOk :=
  (((h.ramSet a 0 _).ramSet a 1 _).ramSet a 2 _).ramSet a 3 _

theorem State.devicesOk.popRead (h : s.devicesOk) (r : Reg) : (s.popRead r).devicesOk := by
  have htail {α : Type} {l : List α} {n : Nat} (hl : l.length ≤ n) : l.tail.length ≤ n := by
    rw [List.length_tail]
    omega
  cases r with
  | mboxRead => exact { h with outbound_le := htail h.outbound_le }
  | auxMuIo => exact { h with rx_le := htail h.rx_le }
  | _ => exact h

theorem State.devicesOk.devRead (h : s.devicesOk) (r : Reg) : (s.devRead r).2.devicesOk := by
  unfold State.devRead
  split
  · exact h.useFree.popRead r
  · exact h.popRead r

theorem Mbox.push_inbound_le {m : Mbox} {depth : Nat} (v : Word) (h : m.inbound.length ≤ depth) :
    (m.push depth v).inbound.length ≤ depth := by
  unfold Mbox.push
  split
  · rw [List.length_append]
    assumption
  · exact h

theorem Mbox.push_outbound (m : Mbox) (depth : Nat) (v : Word) : (m.push depth v).outbound = m.outbound := by
  unfold Mbox.push
  split <;> rfl

theorem Uart.push_tx_le {u : Uart} {depth : Nat} (v : Word) (h : u.tx.length ≤ depth) : (u.push depth v).tx.length ≤ depth := by
  unfold Uart.push
  split
  · rw [List.length_append]
    assumption
  · exact h

theorem Uart.push_rx (u : Uart) (depth : Nat) (v : Word) : (u.push depth v).rx = u.rx := by
  unfold Uart.push
  split <;> rfl

theorem ite_nil_length_le {α : Type} {l : List α} {b : Bool} {n : Nat} (h : l.length ≤ n) : (if b then [] else l).length ≤ n := by
  cases b
  · exact h
  · exact Nat.zero_le n

/-- A clocking write records the present cycle, and keeps the other pins' times. -/
theorem State.clockPulls_clkAt_le (f1 f0 : Word) (n : Fin 2) (v : Word) (h : ∀ q : Fin 54, s.gpio.clkAt[q] ≤ s.cycles) (q : Fin 54) :
    (s.clockPulls f1 f0 n v).clkAt[q] ≤ s.cycles := by
  simp only [State.clockPulls, Fin.getElem_fin, Vector.getElem_ofFn]
  split
  · exact Nat.le_refl _
  · exact h q

theorem State.devicesOk.devWrite (h : s.devicesOk) (r : Reg) (v : Word) : (s.devWrite r v).devicesOk := by
  cases r with
  | mboxWrite =>
    exact { h with inbound_le := Mbox.push_inbound_le v h.inbound_le, outbound_le := (Mbox.push_outbound _ _ v).symm ▸ h.outbound_le }
  | gpfsel n => exact State.devicesOk.watchLines (s := { s with gpio := _ }) { h with }
  | gpset n => exact State.devicesOk.watchLines (s := { s with gpio := _ }) { h with }
  | gpclr n => exact State.devicesOk.watchLines (s := { s with gpio := _ }) { h with }
  | gppudclk n =>
    exact State.devicesOk.watchLines (s := { s.useFree.useFree with gpio := _ })
      { h.useFree.useFree with clk_le := by simpa using s.clockPulls_clkAt_le _ _ n v h.clk_le }
  | auxMuIo =>
    exact { h with tx_le := Uart.push_tx_le v h.tx_le, rx_le := (Uart.push_rx _ _ v).symm ▸ h.rx_le }
  | auxMuIir => exact { h with rx_le := ite_nil_length_le h.rx_le, tx_le := ite_nil_length_le h.tx_le }
  | _ => exact { h with }

theorem State.devicesOk.busRead (h : s.devicesOk) (r : Reg) : (s.busRead r).2.devicesOk := h.devRead r

theorem State.devicesOk.busWrite (h : s.devicesOk) (r : Reg) (v : Word) : (s.busWrite r v).devicesOk := h.devWrite r v

theorem State.devicesOk.ramWrite (h : s.devicesOk) (a v : Word) : (s.ramWrite a v).devicesOk := h.ramSetWord a v

/-- An engine step keeps the devices' part. -/
theorem State.devicesOk.stepOp (h : s.devicesOk) (i : Instr) (op : Op) (rest : List Op) : (s.stepOp i op rest).devicesOk := by
  cases op with
  | compute c => simpa [State.devicesOk, State.stepOp] using h
  | finish f => simpa [State.devicesOk, State.stepOp] using h
  | spin => exact { h with clk_le := fun q => Nat.le_add_right_of_le (h.clk_le q) }
  | bufWrite k v => exact h.ramWrite _ v
  | codeRead | respRead f | strRead k => simpa [State.devicesOk, State.stepOp] using h
  | fselRead p => exact h.busRead (.gpfsel (fselReg p))
  | poll r => exact h.busRead r
  | mboxReceive => exact h.busRead .mboxRead
  | chiRead | chiCheck => exact h.busRead .systmrChi
  | cloRead => exact h.busRead .systmrClo
  | sampleRead => exact h.busRead (.gplev (pinBank s.cfg.pinData))
  | enableRead => exact h.busRead .auxEnables
  | rxRead => exact h.busRead .auxMuIo
  | fselWrite p f => exact h.busWrite (.gpfsel (fselReg p)) _
  | regWrite r v => exact h.busWrite r v
  | mboxSend ch => exact h.busWrite .mboxWrite _
  | enableWrite => exact h.busWrite .auxEnables _
  | putByte b | putNibble k => exact h.busWrite .auxMuIo _

theorem State.devicesOk.engineStep (h : s.devicesOk) (i : Instr) (op : Op) (rest : List Op) :
    (s.engineStep i op rest).devicesOk := by
  obtain ⟨n, hn⟩ := s.tickBefore_eq op
  rw [State.engineStep, hn]
  exact (h.advanceTimer n).stepOp i op rest

/-! ### Actions of the other agents -/

theorem Gpio.freePulls_clkAt (g : Gpio) (n : Fin 2) (clocked f1 f0 : Word) : (g.freePulls n clocked f1 f0).clkAt = g.clkAt := by
  simp [Gpio.freePulls]

theorem State.devicesOk.freePulls (h : s.devicesOk) (n : Fin 2) (clocked f1 f0 : Word) :
    DevicesOk s.cfg s.mbox (s.gpio.freePulls n clocked f1 f0) s.uart s.timer s.ctrl s.ram s.cycles :=
  ⟨h.ram_wf, h.inbound_le, h.outbound_le, h.rx_le, h.tx_le, h.edge_le, by rw [Gpio.freePulls_clkAt]; exact h.clk_le⟩

theorem State.devicesOk.breakPull {t : State} (h : t.devicesOk) (s : State) : (s.breakPull t).devicesOk := by
  unfold State.breakPull
  split
  · exact h
  · exact { h with }
  case h_3 n _ =>
    refine State.devicesOk.watchLines ?_
    simpa [State.devicesOk] using h.freePulls _ _ _ _

theorem State.devicesOk.hostDevWrite (h : s.devicesOk) (r : Reg) (v : Word) : (s.hostDevWrite r v).devicesOk := by
  cases r with
  | gppud => exact (h.devWrite .gppud v).breakPull s
  | gppudclk n =>
    have hu : s.unbroken.devicesOk := { h with }
    exact (hu.devWrite (.gppudclk n) v).breakPull s
  | _ => exact h.devWrite _ v

theorem State.devicesOk.coPop (h : s.devicesOk) : s.coPop.devicesOk := by
  unfold State.coPop
  split
  case h_1 w ws hin =>
    have hle := h.inbound_le
    rw [hin] at hle
    exact { h with inbound_le := Nat.le_of_succ_le hle }
  case h_2 => exact h

theorem State.devicesOk.coPush (h : s.devicesOk) (w : Word) : (s.coPush w).devicesOk := by
  unfold State.coPush
  split
  case isTrue hroom =>
    rw [Bool.and_eq_true, decide_eq_true_eq] at hroom
    exact { h with outbound_le := by rw [List.length_append]; exact hroom.2 }
  case isFalse => exact h

theorem Uart.drain_rx (u : Uart) : u.drain.rx = u.rx := by
  unfold Uart.drain
  split <;> rfl

theorem Uart.drain_tx (u : Uart) : u.drain.tx = u.tx.tail := by
  unfold Uart.drain
  split <;> simp [*]

theorem Uart.receive_rx_le {u : Uart} {depth : Nat} (b : Byte) (h : u.rx.length ≤ depth) : (u.receive depth b).rx.length ≤ depth := by
  unfold Uart.receive
  split
  · rw [List.length_append]
    assumption
  · exact h

theorem Uart.receive_tx (u : Uart) (depth : Nat) (b : Byte) : (u.receive depth b).tx = u.tx := by
  unfold Uart.receive
  split <;> rfl

theorem Gpio.drive_clkAt (g : Gpio) (p : Nat) (l : Option Bool) : (g.drive p l).clkAt = g.clkAt := by cases l <;> rfl

/-- A host write of the engine's registers leaves the devices alone. -/
theorem State.devicesOk.hostWriteReg (h : s.devicesOk) (off : Nat) (v : Word) : (s.hostWriteReg off v).devicesOk := by
  unfold State.hostWriteReg
  split
  · simpa [State.devicesOk] using h
  · exact h
  · exact h

theorem State.devicesOk.apply (h : s.devicesOk) (e : Event) : (State.apply s e).devicesOk := by
  cases e with
  | engine | untilHold | poll | hostRead | reset => exact h
  | timerRate n => exact { h with }
  | hostWrite a n v => exact h.hostWriteReg _ v
  | hostRamWrite a v => exact h.ramSet a 0 v
  | hostRamWriteWord a v => exact h.ramSetWord a v
  | hostRamRead a =>
    simp only [State.apply]
    split
    · exact h
    · exact h.useFree
  | hostDevWrite r v => exact h.hostDevWrite r v
  | hostDevRead r => exact h.devRead r
  | coPop => exact h.coPop
  | coWrite a v =>
    simp only [State.apply, State.coWrite]
    split
    · exact h.ramSetWord a v
    · exact h
  | coPush w => exact h.coPush w
  | tick n => exact h.advanceTimer n
  | cycles n => exact { h with clk_le := fun q => Nat.le_add_right_of_le (h.clk_le q) }
  | uartDrain =>
    have htx : s.uart.drain.tx.length ≤ s.cfg.uartFifoDepth := by
      rw [Uart.drain_tx, List.length_tail]
      exact (Nat.sub_le _ _).trans h.tx_le
    exact { h with rx_le := (Uart.drain_rx s.uart).symm ▸ h.rx_le, tx_le := htx }
  | uartReceive b =>
    exact { h with rx_le := Uart.receive_rx_le b h.rx_le, tx_le := (Uart.receive_tx s.uart _ b).symm ▸ h.tx_le }
  | buttons p => exact State.devicesOk.watchLines (s := { s with ctrl := _ }) { h with }
  | plug b => exact { h with edge_le := Ctrl.plug_edgeAt_le b h.edge_le }
  | drive p l =>
    exact State.devicesOk.watchLines (s := { s with gpio := _ })
      { h with clk_le := (Gpio.drive_clkAt s.gpio p l).symm ▸ h.clk_le }
  | altSignal p l => exact State.devicesOk.watchLines (s := { s with gpio := _ }) { h with }
  | resetWith m g u t c ram =>
    exact
      { ram_wf := Memory.wf_ofCells ram
        inbound_le := List.length_take_le _ _
        outbound_le := List.length_take_le _ _
        rx_le := List.length_take_le _ _
        tx_le := List.length_take_le _ _
        edge_le := Nat.min_le_right _ _
        clk_le := fun q => by simp [State.apply, Gpio.clip] }

/-! ## The part of the invariant about the engine -/

/-- STATUS, SEQ and the descriptor keep the invariant. -/
structure EngineOk (r : HostRegs) (q : Seq) : Prop where
  status_ok : r.status.Ok
  idle_iff  : q = .idle ↔ r.status.busy = false
  fb_unset  : r.fbValid = false → r.fb = {}
  run_ends  : ∀ i todo, q = .run i todo → endsInFinish todo = true
  fail_code : ∀ i todo, q = .run i todo → .finish (.fail .none) ∉ todo
  fb_once   : ∀ i todo, q = .run i todo → .finish .provision ∈ todo → r.fbValid = false

theorem inv_iff (s : State) : Inv s ↔ s.devicesOk ∧ EngineOk s.regs s.seq where
  mp h :=
    ⟨⟨h.ram_wf, h.inbound_le, h.outbound_le, h.rx_le, h.tx_le, h.edge_le, h.clk_le⟩,
      ⟨h.status_ok, h.idle_iff, h.fb_unset, h.run_ends, h.fail_code, h.fb_once⟩⟩
  mpr h :=
    { ram_wf := h.1.ram_wf, inbound_le := h.1.inbound_le, outbound_le := h.1.outbound_le, rx_le := h.1.rx_le, tx_le := h.1.tx_le
      edge_le := h.1.edge_le, clk_le := h.1.clk_le, status_ok := h.2.status_ok, idle_iff := h.2.idle_iff
      fb_unset := h.2.fb_unset, run_ends := h.2.run_ends, fail_code := h.2.fail_code, fb_once := h.2.fb_once }

/-! ### STATUS (10_state.md R45) -/

theorem Status.accepted_ok (t : Status) : t.accepted.Ok where
  busy_clear _ := ⟨rfl, rfl, rfl, rfl⟩
  err_iff := by simp [Status.accepted]
  err_result _ := rfl

theorem Status.Ok.completedWith {t : Status} (h : t.Ok) (hbusy : t.busy = true) (b : Bool) : (t.completedWith b).Ok := by
  obtain ⟨-, -, herr, hcode⟩ := h.busy_clear hbusy
  exact ⟨nofun, by simp [Status.completedWith, herr, hcode], by simp [Status.completedWith, herr]⟩

theorem Status.Ok.completed {t : Status} (h : t.Ok) (hbusy : t.busy = true) : t.completed.Ok := by
  obtain ⟨-, -, herr, hcode⟩ := h.busy_clear hbusy
  exact ⟨nofun, by simp [Status.completed, herr, hcode], by simp [Status.completed, herr]⟩

theorem Status.failed_ok (t : Status) {e : ErrCode} (he : e ≠ .none) : (t.failed e).Ok where
  busy_clear := nofun
  err_iff := by simp [Status.failed, he]
  err_result _ := rfl

theorem Status.Ok.overran {t : Status} (h : t.Ok) : t.overran.Ok := ⟨h.busy_clear, h.err_iff, h.err_result⟩

/-! ### Idle and busy engines -/

theorem EngineOk.of_idle {r : HostRegs} (hok : r.status.Ok) (hbusy : r.status.busy = false) (hfb : r.fbValid = false → r.fb = {}) :
    EngineOk r .idle where
  status_ok := hok
  idle_iff := by simp [hbusy]
  fb_unset := hfb
  run_ends := nofun
  fail_code := nofun
  fb_once := nofun

theorem EngineOk.busy {r : HostRegs} {q : Seq} (h : EngineOk r q) (hq : q ≠ .idle) : r.status.busy = true := by
  simpa using mt h.idle_iff.mpr hq

/-- An error completion keeps the invariant. -/
theorem EngineOk.raiseError (h : EngineOk s.regs s.seq) {e : ErrCode} (he : e ≠ .none) :
    EngineOk (s.raiseError e).regs (s.raiseError e).seq :=
  .of_idle (Status.failed_ok _ he) rfl h.fb_unset

/-- A completion keeps the invariant, if it is no failure without a code. -/
theorem EngineOk.complete (h : EngineOk s.regs s.seq) (hq : s.seq ≠ .idle) {f : Finish} (hf : f ≠ .fail .none) :
    EngineOk (s.complete f).regs (s.complete f).seq := by
  have hbusy := h.busy hq
  have hdone := h.status_ok.completed hbusy
  cases f with
  | plain | now | sample | getc => exact .of_idle hdone rfl h.fb_unset
  | submit => exact .of_idle (h.status_ok.completedWith hbusy _) rfl h.fb_unset
  | provision => exact .of_idle (h.status_ok.completedWith hbusy _) rfl nofun
  | fail e => exact h.raiseError fun he => hf (he ▸ rfl)

/-! ### Programs -/

theorem endsInFinish_append (ops : List Op) {rest : List Op} (h : rest ≠ []) : endsInFinish (ops ++ rest) = endsInFinish rest := by
  rw [endsInFinish, List.getLast?_append_of_ne_nil _ h, endsInFinish]

theorem endsInFinish_append_finish (ops : List Op) (f : Finish) : endsInFinish (ops ++ [.finish f]) = true :=
  endsInFinish_append ops (List.cons_ne_nil _ _)

/-- Every command's program ends in a completion. -/
theorem startOf_endsInFinish {i : Instr} {todo : List Op} (h : startOf s i = .program todo) : endsInFinish todo = true := by
  have hconfigure {legal : Bool} {p : Nat} {f : BitVec 3} (hp : configureStart legal p f = .program todo) :
      endsInFinish todo = true := by
    rw [configureStart] at hp
    split at hp
    · injection hp with hp
      exact hp ▸ endsInFinish_append_finish _ _
    · cases hp
  cases i with
  | gpioCfgin pin | gpioCfgout pin | gpioCfgalt pin fn => exact hconfigure h
  | fbProvision =>
    rw [startOf, provisionStart] at h
    split at h
    · cases h
    · injection h with h
      exact h ▸ endsInFinish_append _ (rest := respReads) (List.cons_ne_nil _ _)
  | uartPuts len =>
    rw [startOf, putsStart] at h
    split at h
    · injection h with h
      exact h ▸ endsInFinish_append_finish _ _
    · cases h
  | uartInit =>
    injection h with h
    exact h ▸ endsInFinish_append _ (List.cons_ne_nil _ _)
  | _ =>
    injection h with h
    exact h ▸ endsInFinish_append_finish _ _

/-- A program that starts with no completion ends in one when what follows its first point does. -/
theorem endsInFinish_tail {op : Op} {rest : List Op} (hop : ∀ f, op ≠ .finish f) (h : endsInFinish (op :: rest) = true) :
    rest ≠ [] ∧ endsInFinish rest = true := by
  have hrest : rest ≠ [] := by
    rintro rfl
    cases op with
    | finish f => exact hop f rfl
    | _ => cases h
  exact ⟨hrest, endsInFinish_append [op] hrest ▸ h⟩

/-- A move on from a point that is no completion adds none, or goes to the failure of FB.PROVISION. -/
theorem EngineOk.goOn {r : HostRegs} {i : Instr} {op : Op} {rest todo : List Op} (h : EngineOk r (.run i (op :: rest)))
    (hop : ∀ f, op ≠ .finish f)
    (htodo : (∃ pre, todo = pre ++ rest ∧ NoFinish pre) ∨ todo = [.finish (.fail .provisionFail)]) :
    EngineOk r (.run i todo) := by
  obtain ⟨hne, hends⟩ := endsInFinish_tail hop (h.run_ends _ _ rfl)
  have hidle : Seq.run i todo = .idle ↔ r.status.busy = false := by simp [h.busy (q := .run i (op :: rest)) nofun]
  obtain ⟨pre, rfl, hpre⟩ | rfl := htodo
  · have hmem {f : Finish} (hf : Op.finish f ∈ pre ++ rest) : Op.finish f ∈ op :: rest :=
      List.mem_cons_of_mem _ ((List.mem_append.mp hf).resolve_left (hpre f))
    refine ⟨h.status_ok, hidle, h.fb_unset, ?_, ?_, ?_⟩
    · rintro _ _ ⟨⟩
      exact (endsInFinish_append pre hne).trans hends
    · rintro _ _ ⟨⟩ hf
      exact h.fail_code _ _ rfl (hmem hf)
    · rintro _ _ ⟨⟩ hf
      exact h.fb_once _ _ rfl (hmem hf)
  · refine ⟨h.status_ok, hidle, h.fb_unset, ?_, ?_, ?_⟩
    · rintro _ _ ⟨⟩
      rfl
    · rintro _ _ ⟨⟩
      simp
    · rintro _ _ ⟨⟩
      simp

theorem EngineOk.engineStep {i : Instr} {op : Op} {rest : List Op} (h : EngineOk s.regs s.seq) (hseq : s.seq = .run i (op :: rest)) :
    EngineOk (s.engineStep i op rest).regs (s.engineStep i op rest).seq := by
  have ht : EngineOk (s.tickBefore op).regs (s.tickBefore op).seq := by simpa using h
  rw [State.engineStep]
  obtain ⟨f, rfl, -⟩ | ⟨hop, todo, hnext, htodo⟩ := (s.tickBefore op).stepOp_seq i op rest
  · refine ht.complete (by simp [hseq]) ?_
    rintro rfl
    exact h.fail_code _ _ hseq (List.mem_cons_self ..)
  · rw [State.stepOp_regs _ _ _ _ hop, hnext]
    rw [State.tickBefore_seq, hseq] at ht
    exact ht.goOn hop (htodo.imp_right And.right)

/-- A started command: its program has its completion, and only FB.PROVISION's writes the descriptor. -/
theorem EngineOk.started {w : Word} {i : Instr} {todo : List Op} (h : EngineOk s.regs s.seq) (hseq : s.seq = .decode w)
    (hstart : startOf s i = .program todo) : EngineOk (s.started i todo).regs (s.started i todo).seq := by
  have hbusy := h.busy (hseq ▸ nofun)
  have hfits := startOf_fits s i todo hstart
  refine ⟨h.status_ok, by simp [State.started, hbusy], h.fb_unset, ?ends, ?code, ?once⟩
  case ends =>
    rintro _ _ ⟨⟩
    exact startOf_endsInFinish hstart
  case code =>
    rintro _ _ ⟨⟩ hf
    exact ErrCode.noConfusion (of_decide_eq_true (hfits _ hf)).2
  case once =>
    rintro _ _ ⟨⟩ hf
    obtain rfl : i = .fbProvision := of_decide_eq_true (hfits _ hf)
    rw [startOf, provisionStart] at hstart
    split at hstart
    case isTrue => cases hstart
    case isFalse hunset => exact Bool.eq_false_iff.mpr hunset

/-- The errors of a command's first step have a code. -/
theorem startOf_refuse_ne_none {i : Instr} {e : ErrCode} (h : startOf s i = .refuse e) : e ≠ .none := by
  cases i <;> simp only [startOf, provisionStart, configureStart, putsStart, reduceCtorEq] at h <;> split at h <;> cases h <;> nofun

/-! ### Actions of the other agents -/

/-- An accepted command, or an overrun. -/
theorem EngineOk.accept (h : EngineOk s.regs s.seq) (w : Word) : EngineOk (s.accept w).regs (s.accept w).seq := by
  unfold State.accept
  split
  · exact ⟨h.status_ok.overran, h.idle_iff, h.fb_unset, h.run_ends, h.fail_code, h.fb_once⟩
  · exact ⟨Status.accepted_ok _, ⟨nofun, nofun⟩, h.fb_unset, nofun, nofun, nofun⟩

theorem EngineOk.hostWriteReg (h : EngineOk s.regs s.seq) (off : Nat) (v : Word) :
    EngineOk (s.hostWriteReg off v).regs (s.hostWriteReg off v).seq := by
  unfold State.hostWriteReg
  split
  · exact h.accept v
  · exact ⟨h.status_ok, h.idle_iff, h.fb_unset, h.run_ends, h.fail_code, h.fb_once⟩
  · exact h

theorem engineOk_reset : EngineOk {} .idle := .of_idle ⟨nofun, by simp, nofun⟩ rfl fun _ => rfl

/-- Only a host write and a reset move the sequencer by an agent's action. -/
theorem State.apply_seq_eq (s : State) {e : Event} (hreset : e.notReset = true) (hwrite : ∀ a n v, e ≠ .hostWrite a n v) :
    (State.apply s e).seq = s.seq := by
  cases e with
  | hostWrite a n v => exact absurd rfl (hwrite a n v)
  | reset => cases hreset
  | resetWith => cases hreset
  | hostRamRead a => simp only [State.apply]; split <;> simp
  | coPop => simp only [State.apply, State.coPop]; split <;> rfl
  | coWrite a v => simp only [State.apply, State.coWrite]; split <;> simp
  | coPush w => simp only [State.apply, State.coPush]; split <;> rfl
  | _ => simp [State.apply]

theorem EngineOk.apply (h : EngineOk s.regs s.seq) (e : Event) : EngineOk (State.apply s e).regs (State.apply s e).seq := by
  by_cases hreset : e.notReset = true
  · by_cases hwrite : ∃ a n v, e = .hostWrite a n v
    · obtain ⟨a, n, v, rfl⟩ := hwrite
      exact h.hostWriteReg _ v
    · have hne : ∀ a n v, e ≠ .hostWrite a n v := fun a n v he => hwrite ⟨a, n, v, he⟩
      rw [State.apply_regs s hreset hne, State.apply_seq_eq s hreset hne]
      exact h
  · cases e with
    | reset => exact engineOk_reset
    | resetWith => exact engineOk_reset
    | _ => exact absurd rfl hreset

/-! ## The invariant -/

theorem inv_kept : KeptByStepParts Inv where
  move s i op rest hs hseq := by
    obtain ⟨hdev, heng⟩ := (inv_iff s).mp hs
    exact (inv_iff _).mpr ⟨hdev.engineStep i op rest, heng.engineStep hseq⟩
  mark s e es hs _ := (inv_iff _).mpr ((inv_iff s).mp hs)
  action s e es hs _ _ := by
    obtain ⟨hdev, heng⟩ := (inv_iff { s with script := es }).mp ((inv_iff _).mpr ((inv_iff s).mp hs))
    exact (inv_iff _).mpr ⟨hdev.apply e, heng.apply e⟩
  read s hs := (inv_iff _).mpr ((inv_iff s).mp hs)
  illegal s w hs _ := by
    obtain ⟨hdev, heng⟩ := (inv_iff s).mp hs
    exact (inv_iff _).mpr ⟨hdev, heng.raiseError nofun⟩
  refused s w i e hs _ hstart := by
    obtain ⟨hdev, heng⟩ := (inv_iff s).mp hs
    exact (inv_iff _).mpr ⟨hdev, heng.raiseError (startOf_refuse_ne_none hstart)⟩
  started s w i todo hs hseq hstart := by
    obtain ⟨hdev, heng⟩ := (inv_iff s).mp hs
    exact (inv_iff _).mpr ⟨hdev, heng.started hseq hstart⟩

end Sys2Proof.Machine

namespace Sys2Proof.Proofs

open Sys2Proof.Machine

/-- Settles O18: every access and agent's action keeps the devices' part, and every move of the engine keeps the engine's part. -/
theorem invKeptByStep : Obligations.InvKeptByStep := fun _ _ hs h => inv_kept.step_keeps hs h

/-- Settles O17: the FIFOs of the reset state are empty, its times 0, and its engine is idle with clear registers. -/
theorem invAtReset : Obligations.InvAtReset := by
  refine (inv_iff State.reset).mpr ⟨⟨rfl, Nat.zero_le _, Nat.zero_le _, Nat.zero_le _, Nat.zero_le _, Nat.le_refl _, ?clocks⟩, engineOk_reset⟩
  case clocks =>
    intro q
    show (Vector.replicate 54 0)[q] ≤ 0
    simp

end Sys2Proof.Proofs
end

section
/-! PROOFS. What a step keeps while no reset comes (10_state.md R45, R50, R51; 60_exceptions.md R526), and what every step keeps: the
configuration and the bus trace so far (70_reset_and_hazards.md R601; 20_memory.md R106). -/

namespace Sys2Proof.Machine

variable {s s' : State}

/-! ## Induction over a step while the script holds only good events -/

/-- What every part of a step keeps while all actions to come are good, the step keeps. -/
theorem keptWhile {P : State → Prop} {good : Event → Bool}
    (move : ∀ s i op rest, P s → s.seq = .run i (op :: rest) → P (s.engineStep i op rest))
    (mark : ∀ s es, P s → P { s with script := es })
    (action : ∀ s e, P s → good e = true → P (State.apply s e))
    (read : ∀ s, P s → P s.readStatus)
    (failed : ∀ s e, P s → P (s.raiseError e))
    (started : ∀ s i todo, P s → P (s.started i todo)) :
    KeptByStepParts fun s => s.script.all good = true ∧ P s where
  move s i op rest hs hseq := ⟨by rw [State.engineStep_script]; exact hs.1, move s i op rest hs.2 hseq⟩
  mark s e es hs hscript := by
    rw [hscript, List.all_cons, Bool.and_eq_true] at hs
    exact ⟨hs.1.2, mark s es hs.2⟩
  action s e es hs hscript _ := by
    rw [hscript, List.all_cons, Bool.and_eq_true] at hs
    obtain ⟨⟨he, hes⟩, hP⟩ := hs
    exact ⟨by rw [State.apply_script]; exact hes, action _ e (mark s es hP) he⟩
  read s hs := ⟨hs.1, read s hs.2⟩
  illegal s w hs _ := ⟨hs.1, failed s _ hs.2⟩
  refused s w i e hs _ _ := ⟨hs.1, failed s e hs.2⟩
  started s w i todo hs _ _ := ⟨hs.1, started s i todo hs.2⟩

/-! ## BUSY or DONE -/

/-- A command has been accepted: the engine is busy or done. -/
def HostRegs.begun (r : HostRegs) : Prop := (r.status.busy || r.status.done) = true

theorem State.complete_begun (s : State) (f : Finish) : (s.complete f).regs.begun := by cases f <;> rfl

/-- A move of the engine changes the host registers only by a completion. -/
theorem State.engineStep_regs (s : State) (i : Instr) (op : Op) (rest : List Op) :
    (∃ f, op = .finish f ∧ s.engineStep i op rest = (s.tickBefore op).complete f) ∨ (s.engineStep i op rest).regs = s.regs := by
  by_cases hfinish : ∃ f, op = .finish f
  · obtain ⟨f, rfl⟩ := hfinish
    exact .inl ⟨f, rfl, rfl⟩
  · right
    rw [State.engineStep, State.stepOp_regs _ _ _ _ (not_exists.mp hfinish), State.tickBefore_regs]

theorem HostRegs.begun.engineStep (h : s.regs.begun) (i : Instr) (op : Op) (rest : List Op) : (s.engineStep i op rest).regs.begun := by
  obtain ⟨f, -, hf⟩ | hregs := s.engineStep_regs i op rest
  · rw [hf]
    exact State.complete_begun _ f
  · rw [hregs]
    exact h

theorem HostRegs.begun.hostWriteReg (h : s.regs.begun) (off : Nat) (v : Word) : (s.hostWriteReg off v).regs.begun := by
  unfold State.hostWriteReg State.accept
  split
  · split
    · exact h
    · rfl
  · exact h
  · exact h

/-- An action that is no reset is a host write, or leaves the host registers and SEQ. -/
theorem State.apply_notReset (s : State) {e : Event} (hreset : e.notReset = true) :
    (∃ a n v, e = .hostWrite a n v) ∨ (State.apply s e).regs = s.regs ∧ (State.apply s e).seq = s.seq := by
  by_cases hwrite : ∃ a n v, e = .hostWrite a n v
  · exact .inl hwrite
  · have hne : ∀ a n v, e ≠ .hostWrite a n v := fun a n v he => hwrite ⟨a, n, v, he⟩
    exact .inr ⟨State.apply_regs s hreset hne, State.apply_seq_eq s hreset hne⟩

theorem begun_kept : KeptByStepParts fun s => s.script.all Event.notReset = true ∧ s.regs.begun := by
  refine keptWhile (fun s i op rest hs _ => hs.engineStep i op rest) (fun _ _ hs => hs) ?_ (fun _ hs => hs)
    (fun _ _ _ => rfl) (fun _ _ _ hs => hs)
  intro s e hs hreset
  obtain ⟨a, n, v, rfl⟩ | ⟨hregs, -⟩ := s.apply_notReset hreset
  · exact hs.hostWriteReg _ v
  · rw [hregs]
    exact hs

/-! ## The descriptor -/

/-- The descriptor `d` is valid. -/
def HostRegs.provides (r : HostRegs) (d : FbDesc) : Prop := r.fb = d ∧ r.fbValid = true

/-- Only the completion of a provisioning writes the descriptor. -/
theorem State.complete_provides {f : Finish} {d : FbDesc} (h : s.regs.provides d) (hf : f ≠ .provision) :
    (s.complete f).regs.provides d := by
  cases f with
  | provision => exact absurd rfl hf
  | _ => exact h

theorem HostRegs.provides.hostWriteReg {d : FbDesc} (h : s.regs.provides d) (off : Nat) (v : Word) :
    (s.hostWriteReg off v).regs.provides d := by
  unfold State.hostWriteReg State.accept
  split
  · split <;> exact h
  · exact h
  · exact h

/-- Under the invariant no completion of a provisioning is to come while the descriptor is valid. -/
theorem provides_kept (d : FbDesc) :
    KeptByStepParts fun s => (s.script.all Event.notReset = true ∧ Inv s) ∧ s.regs.provides d where
  move s i op rest hs hseq := by
    obtain ⟨⟨hscript, hinv⟩, hd⟩ := hs
    refine ⟨⟨by rw [State.engineStep_script]; exact hscript, inv_kept.move s i op rest hinv hseq⟩, ?_⟩
    obtain ⟨f, rfl, hf⟩ | hregs := s.engineStep_regs i op rest
    · rw [hf]
      refine State.complete_provides (by simpa using hd) ?_
      rintro rfl
      have hunset := hinv.fb_once i _ hseq (List.mem_cons_self ..)
      exact Bool.false_ne_true (hunset.symm.trans hd.2)
    · rw [hregs]
      exact hd
  mark s e es hs hscript := by
    rw [hscript, List.all_cons, Bool.and_eq_true] at hs
    obtain ⟨⟨⟨-, hes⟩, hinv⟩, hd⟩ := hs
    exact ⟨⟨hes, inv_kept.mark s e es hinv hscript⟩, hd⟩
  action s e es hs hscript hok := by
    rw [hscript, List.all_cons, Bool.and_eq_true] at hs
    obtain ⟨⟨⟨he, hes⟩, hinv⟩, hd⟩ := hs
    refine ⟨⟨by rw [State.apply_script]; exact hes, inv_kept.action s e es hinv hscript hok⟩, ?_⟩
    obtain ⟨a, n, v, rfl⟩ | ⟨hregs, -⟩ := State.apply_notReset { s with script := es } he
    · exact HostRegs.provides.hostWriteReg (s := { s with script := es }) hd _ v
    · rw [hregs]
      exact hd
  read s hs := ⟨⟨hs.1.1, inv_kept.read s hs.1.2⟩, hs.2⟩
  illegal s w hs hseq := ⟨⟨hs.1.1, inv_kept.illegal s w hs.1.2 hseq⟩, hs.2⟩
  refused s w i e hs hseq hstart := ⟨⟨hs.1.1, inv_kept.refused s w i e hs.1.2 hseq hstart⟩, hs.2⟩
  started s w i todo hs hseq hstart := ⟨⟨hs.1.1, inv_kept.started s w i todo hs.1.2 hseq hstart⟩, hs.2⟩

/-! ## The counter -/

theorem State.le_advanceTimer (s : State) (n : Nat) : s.timer.count ≤ (s.advanceTimer n).timer.count := by
  unfold State.advanceTimer
  split
  · exact Nat.le_add_right _ _
  · exact Nat.le_refl _

/-- No access moves the counter. -/
theorem State.devWrite_count (s : State) (r : Reg) (v : Word) : (s.devWrite r v).timer.count = s.timer.count := by
  cases r <;> simp [State.devWrite]

theorem State.stepOp_count (s : State) (i : Instr) (op : Op) (rest : List Op) :
    (s.stepOp i op rest).timer.count = s.timer.count := by
  cases op <;> simp [State.stepOp, State.busWrite, State.devWrite_count]

theorem State.le_engineStep_count (s : State) (i : Instr) (op : Op) (rest : List Op) :
    s.timer.count ≤ (s.engineStep i op rest).timer.count := by
  obtain ⟨n, hn⟩ := s.tickBefore_eq op
  rw [State.engineStep, State.stepOp_count, hn]
  exact s.le_advanceTimer n

theorem State.hostDevWrite_count (s : State) (r : Reg) (v : Word) : (s.hostDevWrite r v).timer.count = s.timer.count := by
  cases r <;> simp [State.hostDevWrite, State.devWrite_count, State.unbroken]

/-- Only a reset with device values takes the counter back. -/
theorem State.le_apply_count (s : State) {e : Event} (h : e.keepsDevices = true) :
    s.timer.count ≤ (State.apply s e).timer.count := by
  cases e with
  | resetWith => cases h
  | tick n => exact s.le_advanceTimer n
  | hostDevWrite r v => exact (s.hostDevWrite_count r v).ge
  | hostWrite a n v => simp only [State.apply, State.hostWriteReg]; split <;> simp
  | hostRamRead a => simp only [State.apply]; split <;> simp
  | coPop => simp only [State.apply, State.coPop]; split <;> simp
  | coWrite a v => simp only [State.apply, State.coWrite]; split <;> simp
  | coPush w => simp only [State.apply, State.coPush]; split <;> simp
  | _ => simp [State.apply]

theorem le_count_kept (n : Nat) : KeptByStepParts fun s => s.script.all Event.keepsDevices = true ∧ n ≤ s.timer.count :=
  keptWhile (fun s i op rest hs _ => hs.trans (s.le_engineStep_count i op rest)) (fun _ _ hs => hs)
    (fun s _ hs he => hs.trans (s.le_apply_count he)) (fun _ hs => hs) (fun _ _ hs => hs) (fun _ _ _ hs => hs)

/-! ## The configuration and the bus trace -/

/-- The trace of `s` is `tr` with aligned accesses added, and its configuration is `c`. -/
def State.extendsTrace (c : Config) (tr : List BusEvent) (s : State) : Prop :=
  s.cfg = c ∧ ∃ es, s.trace = tr ++ es ∧ ∀ e ∈ es, e.aligned

theorem State.extendsTrace.of_eq {c : Config} {tr : List BusEvent} {t : State} (h : s.extendsTrace c tr) (hcfg : t.cfg = s.cfg)
    (htrace : t.trace = s.trace) : t.extendsTrace c tr := by
  unfold State.extendsTrace
  rw [hcfg, htrace]
  exact h

/-- An engine step adds at most one access, an aligned one (20_memory.md R106, R110). -/
theorem State.stepOp_trace_aligned (hwf : s.cfg.wf = true) (i : Instr) (op : Op) (rest : List Op) :
    ∃ es, (s.stepOp i op rest).trace = s.trace ++ es ∧ ∀ e ∈ es, e.aligned := by
  have hread {t : State} {r : Reg} {w : Word} (h : t.trace = s.trace ++ [.rd (r.addr s.cfg) 4 w]) :
      ∃ es, t.trace = s.trace ++ es ∧ ∀ e ∈ es, e.aligned :=
    ⟨_, h, by simpa [BusEvent.aligned] using Reg.addr_aligned hwf r⟩
  have hwrite {t : State} {r : Reg} {w : Word} (h : t.trace = s.trace ++ [.wr (r.addr s.cfg) 4 w]) :
      ∃ es, t.trace = s.trace ++ es ∧ ∀ e ∈ es, e.aligned :=
    ⟨_, h, by simpa [BusEvent.aligned] using Reg.addr_aligned hwf r⟩
  cases op with
  | compute c => exact ⟨[], by simp [State.stepOp], nofun⟩
  | finish f => exact ⟨[], by simp [State.stepOp], nofun⟩
  | spin => exact ⟨_, s.busSpin_trace, by simp [BusEvent.aligned]⟩
  | bufWrite k v => exact ⟨_, s.ramWrite_trace _ v, by simpa [BusEvent.aligned] using bufAddr_aligned hwf k⟩
  | codeRead => exact ⟨_, s.ramRead_trace _, by simpa [BusEvent.aligned] using bufAddr_aligned hwf 1⟩
  | respRead f => exact ⟨_, s.ramRead_trace _, by simpa [BusEvent.aligned] using bufAddr_aligned hwf f.index⟩
  | strRead k => exact ⟨_, s.ramReadByte_trace _, by simp [BusEvent.aligned]⟩
  | fselRead p => exact hread (s.busRead_trace (.gpfsel (fselReg p)))
  | poll r => exact hread (s.busRead_trace r)
  | mboxReceive => exact hread (s.busRead_trace .mboxRead)
  | chiRead | chiCheck => exact hread (s.busRead_trace .systmrChi)
  | cloRead => exact hread (s.busRead_trace .systmrClo)
  | sampleRead => exact hread (s.busRead_trace (.gplev (pinBank s.cfg.pinData)))
  | enableRead => exact hread (s.busRead_trace .auxEnables)
  | rxRead => exact hread (s.busRead_trace .auxMuIo)
  | fselWrite p f => exact hwrite (s.busWrite_trace (.gpfsel (fselReg p)) _)
  | regWrite r v => exact hwrite (s.busWrite_trace r v)
  | mboxSend ch => exact hwrite (s.busWrite_trace .mboxWrite _)
  | enableWrite => exact hwrite (s.busWrite_trace .auxEnables _)
  | putByte b | putNibble k => exact hwrite (s.busWrite_trace .auxMuIo _)

theorem State.extendsTrace.engineStep {c : Config} {tr : List BusEvent} (hwf : c.wf = true) (h : s.extendsTrace c tr) (i : Instr)
    (op : Op) (rest : List Op) : (s.engineStep i op rest).extendsTrace c tr := by
  obtain ⟨rfl, es, htrace, hes⟩ := h
  obtain ⟨es', htrace', hes'⟩ :=
    State.stepOp_trace_aligned (s := s.tickBefore op) (by rw [State.tickBefore_cfg]; exact hwf) i op rest
  rw [State.tickBefore_trace, htrace, List.append_assoc] at htrace'
  refine ⟨s.engineStep_cfg i op rest, es ++ es', htrace', fun e he => ?_⟩
  exact (List.mem_append.mp he).elim (hes e) (hes' e)

/-- No agent's action changes the configuration or the bus trace. -/
theorem State.apply_cfg_trace (s : State) (e : Event) : (State.apply s e).cfg = s.cfg ∧ (State.apply s e).trace = s.trace := by
  cases e with
  | hostWrite a n v => simp only [State.apply, State.hostWriteReg]; split <;> simp
  | hostRamRead a => simp only [State.apply]; split <;> simp
  | coPop => simp only [State.apply, State.coPop]; split <;> simp
  | coWrite a v => simp only [State.apply, State.coWrite]; split <;> simp
  | coPush w => simp only [State.apply, State.coPush]; split <;> simp
  | _ => simp [State.apply]

theorem extendsTrace_kept {c : Config} (hwf : c.wf = true) (tr : List BusEvent) : KeptByStepParts (State.extendsTrace c tr) where
  move s i op rest hs _ := hs.engineStep hwf i op rest
  mark s e es hs _ := hs
  action s e es hs _ _ := by
    obtain ⟨hcfg, htrace⟩ := State.apply_cfg_trace { s with script := es } e
    exact hs.of_eq hcfg htrace
  read s hs := hs
  illegal s w hs _ := hs
  refused s w i e hs _ _ := hs
  started s w i todo hs _ _ := hs

/-- A step that is not refused has a well-formed configuration (00_scope.md R8). -/
theorem step_next_wf (h : step s = .next s') : s.cfg.wf = true := by
  unfold step at h
  split at h
  · cases h
  · rename_i hwf
    simpa using hwf

end Sys2Proof.Machine

namespace Sys2Proof.Proofs

open Sys2Proof.Machine

/-- Settles O19: acceptance sets BUSY, every completion sets DONE, and nothing else but a reset clears either. -/
theorem statusUntilReset : Obligations.StatusUntilReset :=
  fun _ _ hnone h hbegun => (begun_kept.step_keeps ⟨hnone, hbegun⟩ h).2

/-- Settles O20: only a provisioning's completion writes the descriptor, and by the invariant none is to come. -/
theorem descriptorImmutable : Obligations.DescriptorImmutable :=
  fun s _ hinv hvalid hnone h => ((provides_kept s.regs.fb).step_keeps ⟨⟨hnone, hinv⟩, rfl, hvalid⟩ h).2

/-- Settles O21: an agent's action touches neither, and each point of a program adds at most one access, at an aligned address. -/
theorem traceOnlyGrows : Obligations.TraceOnlyGrows :=
  fun s _ h => (extendsTrace_kept (step_next_wf h) s.trace).step_keeps ⟨rfl, [], (List.append_nil _).symm, nofun⟩ h

/-- Settles O36: the counter is moved only by its agent, forward, and by a reset that gives the devices values. -/
theorem counterNeverDecreases : Obligations.CounterNeverDecreases :=
  fun s _ hnone h => ((le_count_kept s.timer.count).step_keeps ⟨hnone, Nat.le_refl _⟩ h).2

end Sys2Proof.Proofs
end

section
/-! PROOFS. ARG (10_state.md R43, R61): no move of the engine reads it, nor the script of the events to come, so the machine with another
ARG runs alike. -/

namespace Sys2Proof.Machine

variable (s : State) (v : Word) (es : List Event)

/-! ## Another ARG and another script change no access -/

/-- The state with another value in ARG and other events to come. -/
def State.withHost : State := { s with regs := { s.regs with arg := v }, script := es }

theorem State.useFree_withHost : (s.withHost v es).useFree = s.useFree.withHost v es := by
  unfold State.useFree
  cases hn : s.noise <;> simp [State.withHost, hn]

theorem State.advanceTimer_withHost (n : Nat) : (s.withHost v es).advanceTimer n = (s.advanceTimer n).withHost v es := by
  unfold State.advanceTimer
  cases hp : s.cfg.timerPresent <;> simp [State.withHost, hp]

theorem State.popRead_withHost (r : Reg) : (s.withHost v es).popRead r = (s.popRead r).withHost v es := by cases r <;> rfl

theorem State.readsFree_withHost (r : Reg) : (s.withHost v es).readsFree r = s.readsFree r := by cases r <;> rfl

theorem State.devValue_withHost (f : Word) (r : Reg) : (s.withHost v es).devValue f r = s.devValue f r := by cases r <;> rfl

theorem State.devRead_withHost (r : Reg) :
    (s.withHost v es).devRead r = ((s.devRead r).1, (s.devRead r).2.withHost v es) := by
  unfold State.devRead
  rw [State.devValue_withHost, State.readsFree_withHost, State.useFree_withHost]
  cases s.readsFree r <;> simp [State.popRead_withHost, show (s.withHost v es).freeValue = s.freeValue from rfl]

theorem State.busRead_withHost (r : Reg) : (s.withHost v es).busRead r = ((s.busRead r).1, (s.busRead r).2.withHost v es) := by
  unfold State.busRead
  rw [State.devRead_withHost]
  rfl

theorem State.devWrite_withHost (r : Reg) (x : Word) : (s.withHost v es).devWrite r x = (s.devWrite r x).withHost v es := by
  cases r with
  | gppudclk n =>
    simp only [State.devWrite, State.useFree_withHost]
    rfl
  | _ => rfl

theorem State.busWrite_withHost (r : Reg) (x : Word) : (s.withHost v es).busWrite r x = (s.busWrite r x).withHost v es := by
  unfold State.busWrite
  rw [State.devWrite_withHost]
  rfl

theorem State.ramSet_withHost (a : Word) (k : Nat) (b : Byte) : (s.withHost v es).ramSet a k b = (s.ramSet a k b).withHost v es := by
  unfold State.ramSet
  split <;> simp_all [State.withHost]

theorem State.ramWrite_withHost (a x : Word) : (s.withHost v es).ramWrite a x = (s.ramWrite a x).withHost v es := by
  unfold State.ramWrite State.ramSetWord
  rw [State.ramSet_withHost, State.ramSet_withHost, State.ramSet_withHost, State.ramSet_withHost]
  rfl

theorem State.ramRead_withHost (a : Word) : (s.withHost v es).ramRead a = ((s.ramRead a).1, (s.ramRead a).2.withHost v es) := by
  unfold State.ramRead
  rw [State.useFree_withHost, show (s.withHost v es).wordInRam a = s.wordInRam a from rfl]
  split <;> rfl

theorem State.ramReadByte_withHost (a : Word) :
    (s.withHost v es).ramReadByte a = ((s.ramReadByte a).1, (s.ramReadByte a).2.withHost v es) := by
  unfold State.ramReadByte
  rw [State.useFree_withHost, show (s.withHost v es).cfg = s.cfg from rfl]
  split <;> rfl

/-! ## Another ARG and another script change no move of the engine -/

theorem State.compute_withHost (i : Instr) (c : Calc) (rest : List Op) :
    (s.withHost v es).compute i c rest = (s.compute i c rest).withHost v es := by
  cases c with
  | nowTest u =>
    simp only [State.compute, show (s.withHost v es).loc = s.loc from rfl]
    split <;> rfl
  | _ => rfl

theorem State.stepOp_withHost (i : Instr) (op : Op) (rest : List Op) :
    (s.withHost v es).stepOp i op rest = (s.stepOp i op rest).withHost v es := by
  cases op with
  | compute c => exact s.compute_withHost v es i c rest
  | finish f => cases f <;> rfl
  | spin => rfl
  | bufWrite k x => simp only [State.stepOp, State.ramWrite_withHost]; rfl
  | codeRead | respRead f => simp only [State.stepOp, State.ramRead_withHost]; rfl
  | strRead k => simp only [State.stepOp, State.ramReadByte_withHost]; rfl
  | fselRead p | poll r | mboxReceive | chiRead | cloRead | chiCheck | sampleRead | enableRead | rxRead =>
    simp only [State.stepOp, State.readInto, State.busRead_withHost]
    rfl
  | fselWrite p f | regWrite r x | mboxSend ch | enableWrite | putByte b | putNibble k =>
    simp only [State.stepOp, State.busWrite_withHost]
    rfl

theorem State.engineStep_withHost (i : Instr) (op : Op) (rest : List Op) :
    (s.withHost v es).engineStep i op rest = (s.engineStep i op rest).withHost v es := by
  have htick : (s.withHost v es).tickBefore op = (s.tickBefore op).withHost v es := by
    unfold State.tickBefore
    rw [State.advanceTimer_withHost]
    split <;> rfl
  rw [State.engineStep, htick, State.stepOp_withHost, State.engineStep]

theorem State.engineStep_withArg (i : Instr) (op : Op) (rest : List Op) :
    (s.withArg v).engineStep i op rest = (s.engineStep i op rest).withArg v := by
  have hscript : (s.engineStep i op rest).withHost v s.script = (s.engineStep i op rest).withArg v := by
    rw [← s.engineStep_script i op rest]
    rfl
  exact (s.engineStep_withHost v s.script i op rest).trans hscript

theorem State.engineStep_arg (s : State) (i : Instr) (op : Op) (rest : List Op) : (s.engineStep i op rest).regs.arg = s.regs.arg := by
  obtain ⟨f, -, hf⟩ | hregs := s.engineStep_regs i op rest
  · rw [hf]
    cases f <;> simp [State.complete]
  · rw [hregs]

theorem State.engineStep_withScript (i : Instr) (op : Op) (rest : List Op) :
    ({ s with script := es } : State).engineStep i op rest = { s.engineStep i op rest with script := es } := by
  have harg : (s.engineStep i op rest).withHost s.regs.arg es = { s.engineStep i op rest with script := es } := by
    rw [← s.engineStep_arg i op rest]
    rfl
  exact (s.engineStep_withHost s.regs.arg es i op rest).trans harg

theorem State.held_withArg : (s.withArg v).held = s.held := rfl

theorem State.startOf_withArg (i : Instr) : startOf (s.withArg v) i = startOf s i := by cases i <;> rfl

/-! ## Another ARG changes no undisturbed run -/

theorem runLoop_withArg (n : Nat) (hq : s.quiet = true) : runLoop n (s.withArg v) = (runLoop n s).withArg v := by
  induction n generalizing s with
  | zero => rfl
  | succ n ih =>
    by_cases hrun : ∃ i op rest, s.seq = .run i (op :: rest)
    · obtain ⟨i, op, rest, hseq⟩ := hrun
      rw [runLoop_quiet s n hq hseq, runLoop_quiet (s.withArg v) n hq hseq, State.engineStep_withArg, State.held_withArg,
        ih _ (by simpa using hq)]
      split <;> rfl
    · have hstop (t : State) (ht : t.seq = s.seq) : runLoop (n + 1) t = t := by
        unfold runLoop
        split
        · exact absurd ⟨_, _, _, ht.symm.trans ‹_›⟩ hrun
        · rfl
      rw [hstop s rfl, hstop (s.withArg v) rfl]

theorem exec_withArg {s t : State} {i : Instr} (hq : s.quiet = true) (h : exec i s = .next t) :
    exec i (s.withArg v) = .next (t.withArg v) := by
  rw [exec_eq] at h ⊢
  rw [State.startOf_withArg]
  cases hstart : startOf s i with
  | refuse e =>
    rw [hstart, runCommand_refuse] at h
    injection h with h
    rw [runCommand_refuse, ← h]
    rfl
  | program todo =>
    rw [hstart, runCommand_program] at h
    injection h with h
    rw [runCommand_program, ← h]
    exact congrArg _ (runLoop_withArg (s.started i todo) v (runBound s) hq)

/-- A host write of ARG inside a running command stores its value before the engine's next move. -/
theorem runLoop_argWrite {s : State} {v : Word} {es : List Event} {i : Instr} {op : Op} {rest : List Op} (n : Nat)
    (hseq : s.seq = .run i (op :: rest)) (hscript : s.script = .hostWrite (s.cfg.engineBase + 4#32) 4 v :: es) :
    runLoop (n + 1) s = runLoop n (({ s with script := es } : State).withArg v) := by
  have hok : (Event.hostWrite (s.cfg.engineBase + 4#32) 4 v).ok s.cfg = true :=
    (hostAccessOk_engineBase_add s.cfg (off := 4) (by decide) 4).mpr ⟨rfl, rfl⟩
  have hoff : hostOffset s.cfg (s.cfg.engineBase + 4#32) = 4 := hostOffset_engineBase_add s.cfg (off := 4) (by decide)
  rw [runLoop_agent n hseq hscript hok (by simp) (by simp) (by simp), State.apply, hoff]
  rfl

end Sys2Proof.Machine

namespace Sys2Proof.Proofs

open Sys2Proof.Machine

/-- Settles O14: no access and no move of the engine depends on ARG, so a run with another ARG is the same run. -/
theorem argNotReadByCommands : Obligations.ArgNotReadByCommands := by
  refine ⟨fun i s t v hq h => exec_withArg v hq h, fun s v es i op rest n hseq hscript => ⟨?stores, fun hq => ?alike⟩⟩
  case stores => exact runLoop_argWrite n hseq hscript
  case alike => rw [runLoop_argWrite n hseq hscript, runLoop_withArg _ v n hq]

end Sys2Proof.Proofs
end

section
/-! PROOFS. What a command leaves alone: the result registers (10_state.md R47, R50), the devices it does not use (20_memory.md R101, R113)
and RAM (40_mailbox.md R212; 42_framebuffer.md R282). -/

namespace Sys2Proof.Machine

variable {s t u : State} {i : Instr}

/-! ## Result registers -/

/-- RES0, RES1 and the descriptor are as in `r`. -/
def HostRegs.sameResults (r q : HostRegs) : Prop := q.res0 = r.res0 ∧ q.res1 = r.res1 ∧ q.fb = r.fb ∧ q.fbValid = r.fbValid

/-- The results command `i` does not write are as in `r`. -/
def HostRegs.keepsOthers (i : Instr) (r q : HostRegs) : Prop :=
  (i.writesRes0 = false → q.res0 = r.res0) ∧ (i.writesRes1 = false → q.res1 = r.res1) ∧
    (i ≠ .fbProvision → q.fb = r.fb ∧ q.fbValid = r.fbValid)

theorem HostRegs.sameResults.keepsOthers {r q : HostRegs} (h : r.sameResults q) (i : Instr) : r.keepsOthers i q :=
  ⟨fun _ => h.1, fun _ => h.2.1, fun _ => h.2.2⟩

/-- Command `i`, started with the registers `r`, runs busy with the results as they were, or has ended. -/
structure ResultFrame (i : Instr) (r : HostRegs) (u : State) : Prop where
  no_reset : u.script.all Event.notReset = true
  running  : u.seq ≠ .idle → u.regs.status.busy = true ∧ u.regs.status.err = false ∧ r.sameResults u.regs
  others   : r.keepsOthers i u.regs
  error    : u.regs.status.err = true → r.sameResults u.regs

theorem ResultFrame.of_running {r : HostRegs} (hscript : u.script.all Event.notReset = true)
    (h : u.regs.status.busy = true ∧ u.regs.status.err = false ∧ r.sameResults u.regs) : ResultFrame i r u :=
  ⟨hscript, fun _ => h, h.2.2.keepsOthers i, fun _ => h.2.2⟩

/-- A completion that fits its command writes the results of that command only, and a failure none (60_exceptions.md R501). -/
theorem ResultFrame.complete {r : HostRegs} (h : ResultFrame i r u) (hseq : u.seq ≠ .idle) {f : Finish}
    (hfits : (Op.finish f).fits i = true) : ResultFrame i r (u.complete f) := by
  obtain ⟨-, herr, hsame⟩ := h.running hseq
  have hothers := hsame.keepsOthers i
  have hnoError : (u.complete f).regs.status.err = true → (∀ e, f ≠ .fail e) → r.sameResults (u.complete f).regs := by
    intro he hf
    have : (u.complete f).regs.status.err = u.regs.status.err := by
      cases f with
      | fail e => exact absurd rfl (hf e)
      | _ => rfl
    rw [this, herr] at he
    cases he
  refine ⟨by simpa using h.no_reset, fun hidle => absurd (u.complete_seq f) hidle, ?_, ?_⟩
  · cases f with
    | plain | fail e => exact hothers
    | submit =>
      have hmbox := of_decide_eq_true hfits
      cases i <;> simp_all [Instr.usesMailbox, HostRegs.keepsOthers, Instr.writesRes0, State.complete]
    | provision =>
      obtain rfl := of_decide_eq_true hfits
      exact ⟨hothers.1, hothers.2.1, fun hne => absurd rfl hne⟩
    | now =>
      obtain rfl := of_decide_eq_true hfits
      exact ⟨nofun, nofun, hothers.2.2⟩
    | sample =>
      obtain rfl := of_decide_eq_true hfits
      exact ⟨nofun, hothers.2⟩
    | getc =>
      obtain rfl := of_decide_eq_true hfits
      exact ⟨nofun, hothers.2⟩
  · intro he
    cases f with
    | fail e => exact hsame
    | _ => exact hnoError he nofun

theorem ResultFrame.engineStep {r : HostRegs} (h : ResultFrame i r u) {op : Op} {rest : List Op} (hfits : op.fits i = true)
    (hseq : u.seq = .run i (op :: rest)) : ResultFrame i r (u.engineStep i op rest) := by
  have hbusy := h.running (by rw [hseq]; nofun)
  obtain ⟨f, rfl, hf⟩ | hregs := u.engineStep_regs i op rest
  · rw [hf]
    refine ResultFrame.complete (.of_running (by simpa using h.no_reset) (by simpa using hbusy)) (by simp [hseq]) hfits
  · exact .of_running (by simpa using h.no_reset) (by rw [hregs]; exact hbusy)

/-- A host write to a busy engine writes no result (30_encoding.md R162; 10_state.md R42, R43). -/
theorem State.hostWriteReg_busy (hbusy : u.regs.status.busy = true) (off : Nat) (v : Word) :
    (u.hostWriteReg off v).regs.status.busy = true ∧ (u.hostWriteReg off v).regs.status.err = u.regs.status.err ∧
      u.regs.sameResults (u.hostWriteReg off v).regs := by
  unfold State.hostWriteReg State.accept
  rw [if_pos hbusy]
  split <;> exact ⟨hbusy, rfl, rfl, rfl, rfl, rfl⟩

theorem HostRegs.sameResults.trans {r q p : HostRegs} (h : r.sameResults q) (h' : q.sameResults p) : r.sameResults p :=
  ⟨h'.1.trans h.1, h'.2.1.trans h.2.1, h'.2.2.1.trans h.2.2.1, h'.2.2.2.trans h.2.2.2⟩

theorem ResultFrame.apply {r : HostRegs} (h : ResultFrame i r u) (hseq : u.seq ≠ .idle) {e : Event} (he : e.notReset = true) :
    ResultFrame i r (State.apply u e) := by
  have hscript : (State.apply u e).script.all Event.notReset = true := by rw [State.apply_script]; exact h.no_reset
  obtain ⟨hbusy, herr, hsame⟩ := h.running hseq
  obtain ⟨a, n, v, rfl⟩ | ⟨hregs, -⟩ := u.apply_notReset he
  · obtain ⟨hbusy', herr', hsame'⟩ := State.hostWriteReg_busy hbusy (hostOffset u.cfg a) v
    exact .of_running hscript ⟨hbusy', herr'.trans herr, hsame.trans hsame'⟩
  · exact .of_running hscript (by rw [hregs]; exact ⟨hbusy, herr, hsame⟩)

theorem ResultFrame.mark {r : HostRegs} {e : Event} {es : List Event} (h : ResultFrame i r u) (hscript : u.script = e :: es) :
    e.notReset = true ∧ ResultFrame i r { u with script := es } := by
  have hall := h.no_reset
  rw [hscript, List.all_cons, Bool.and_eq_true] at hall
  exact ⟨hall.1, hall.2, h.running, h.others, h.error⟩

theorem exec_resultFrame (haccepted : s.accepted) (hnone : s.noReset = true) (h : exec i s = .next t) :
    ResultFrame i s.regs t := by
  have hrun : s.regs.status.busy = true ∧ s.regs.status.err = false ∧ s.regs.sameResults s.regs := by
    rw [haccepted]
    exact ⟨rfl, rfl, rfl, rfl, rfl, rfl⟩
  refine exec_induction s h (P := ResultFrame i s.regs) ?refuse (fun todo => .of_running hnone hrun) ?step ?mark ?apply
  case refuse => exact fun e _ => ⟨hnone, fun hidle => absurd rfl hidle, hrun.2.2.keepsOthers i, fun _ => hrun.2.2⟩
  case step => exact fun u op rest hu hfits hseq => hu.engineStep hfits hseq
  case mark => exact fun u e es hu hscript => (hu.mark hscript).2
  case apply =>
    intro u op rest e es hu hseq hscript _
    obtain ⟨he, hu'⟩ := hu.mark hscript
    exact hu'.apply (by simp [hseq]) he

/-! ## RAM -/

/-- The address lies in none of the buffer words 0 to 34. -/
def outsideBuffer (c : Config) (a : Nat) : Prop := ∀ j < 35, ∀ k < 4, a ≠ byteAddr (bufAddr c j) k

/-- RAM as command `i` may leave it. -/
structure RamFrame (i : Instr) (s u : State) : Prop where
  cfg_eq  : u.cfg = s.cfg
  kept    : i.writesRam = false → u.ram = s.ram
  outside : ∀ a, outsideBuffer s.cfg a → Memory.get u.ram a = Memory.get s.ram a

/-- Only the writes of the request's words change RAM. -/
theorem State.stepOp_ram (s : State) (i : Instr) {op : Op} (rest : List Op) (h : ∀ k v, op ≠ .bufWrite k v) :
    (s.stepOp i op rest).ram = s.ram := by
  cases op with
  | bufWrite k v => exact absurd rfl (h k v)
  | _ => simp [State.stepOp]

theorem RamFrame.engineStep (h : RamFrame i s u) {op : Op} {rest : List Op} (hfits : op.fits i = true) :
    RamFrame i s (u.engineStep i op rest) := by
  by_cases hwrite : ∃ k v, op = .bufWrite k v
  · obtain ⟨k, v, rfl⟩ := hwrite
    obtain ⟨hwrites, hk⟩ := Bool.and_eq_true_iff.mp hfits
    have hram : (u.engineStep i (.bufWrite k v) rest).ram =
        ((u.tickBefore (.bufWrite k v)).ramSetWord (bufAddr u.cfg k) v).ram := by
      simp [State.engineStep, State.stepOp, State.ramWrite]
    refine ⟨(u.engineStep_cfg i _ rest).trans h.cfg_eq, fun hno => absurd (hno.symm.trans hwrites) nofun, fun a ha => ?_⟩
    rw [hram, State.get_ramSetWord_ne _ _ _ _ fun j hj => h.cfg_eq ▸ ha k (of_decide_eq_true hk) j hj, State.tickBefore_ram]
    exact h.outside a ha
  · have hram : (u.engineStep i op rest).ram = u.ram := by
      rw [State.engineStep, State.stepOp_ram _ _ _ fun k v hop => hwrite ⟨k, v, hop⟩, State.tickBefore_ram]
    exact ⟨(u.engineStep_cfg i op rest).trans h.cfg_eq, fun hno => hram.trans (h.kept hno), fun a ha => hram ▸ h.outside a ha⟩

theorem exec_ramFrame (hq : s.quiet = true) (h : exec i s = .next t) : RamFrame i s t :=
  exec_quiet_induction s hq h (P := RamFrame i s) (fun _ _ => ⟨rfl, fun _ => rfl, fun _ _ => rfl⟩)
    (fun _ => ⟨rfl, fun _ => rfl, fun _ _ => rfl⟩) (fun _ _ _ hu hfits _ => hu.engineStep hfits)

end Sys2Proof.Machine

namespace Sys2Proof.Proofs

open Sys2Proof.Machine

/-- Settles O22: while the command is busy no result is written, and a completion that fits it writes its own results. -/
theorem resultRegisterFrame : Obligations.ResultRegisterFrame := by
  intro i s t haccepted hnone h
  have hframe := exec_resultFrame haccepted hnone h
  obtain ⟨hres0, hres1, hfb⟩ := hframe.others
  exact ⟨hres0, hres1, hfb, fun hend => hend.elim hframe.error fun hbusy => (hframe.running hbusy).2.2⟩

/-- Settles O24: only a request write changes RAM, it stands in FB.PROVISION's program alone, and its word is below 35. -/
theorem memoryFrame : Obligations.MemoryFrame := by
  intro i s t hq h
  have hframe := exec_ramFrame hq h
  exact ⟨fun hno a => by rw [hframe.kept hno], hframe.outside⟩

end Sys2Proof.Proofs
end

section
/-! PROOFS. The devices a command leaves alone (20_memory.md R101, R113): each point of its program accesses at most one register, one of
a device the command uses. -/

namespace Sys2Proof.Machine

variable {s t u : State} {i : Instr}

/-! ## The register a point accesses -/

/-- Command `i` may read the register; only two reads have a side effect (20_memory.md R112). -/
def Reg.readBy (i : Instr) : Reg → Bool
  | .mboxRead => i.usesMailbox
  | .auxMuIo => i.usesUart
  | _ => true

/-- Command `i` may write the register. -/
def Reg.writtenBy (i : Instr) : Reg → Bool
  | .mboxWrite => i.usesMailbox
  | .gpfsel _ | .gppud | .gppudclk _ => i.usesGpio
  | .gpset _ | .gpclr _ => decide (i = .ctrlSample)
  | .auxEnables | .auxMuIo | .auxMuIer | .auxMuIir | .auxMuLcr | .auxMuMcr | .auxMuCntl | .auxMuBaud => i.usesUart
  | _ => false

/-- The devices on the engine bus. -/
def State.devices (s : State) : Mbox × Gpio × Uart × Timer × Ctrl := (s.mbox, s.gpio, s.uart, s.timer, s.ctrl)

theorem Reg.readBy_of_pollFits {r : Reg} (h : r.pollFits i = true) : r.readBy i = true := by
  cases r with
  | mboxRead | auxMuIo => simp [Reg.pollFits] at h
  | _ => rfl

theorem Reg.writtenBy_of_fits {r : Reg} (h : r.fits i = true) : r.writtenBy i = true := by
  have huart (hi : decide (i = .uartInit) = true) : i.usesUart = true := by
    obtain rfl := of_decide_eq_true hi
    rfl
  cases r with
  | gppud | gppudclk n | gpset n | gpclr n => exact h
  | auxMuIer | auxMuCntl | auxMuLcr | auxMuMcr | auxMuIir | auxMuBaud => exact huart h
  | _ => cases h

/-- What a step at a point of command `i` does to the devices: nothing, one read or one write of a register of the command. -/
theorem State.stepOp_devices (s : State) {op : Op} (rest : List Op) (h : op.fits i = true) :
    (s.stepOp i op rest).devices = s.devices ∨
      (∃ r : Reg, r.readBy i = true ∧ (s.stepOp i op rest).devices = (s.devRead r).2.devices) ∨
      ∃ (r : Reg) (v : Word), r.writtenBy i = true ∧ (s.stepOp i op rest).devices = (s.devWrite r v).devices := by
  have huart (hi : decide (i = .uartInit) = true) : i.usesUart = true := by
    obtain rfl := of_decide_eq_true hi
    rfl
  cases op with
  | compute c | finish f | bufWrite k v | codeRead | respRead f | strRead k => exact .inl (by simp [State.devices, State.stepOp])
  | spin => exact .inl rfl
  | fselRead p => exact .inr (.inl ⟨.gpfsel (fselReg p), rfl, rfl⟩)
  | poll r => exact .inr (.inl ⟨r, Reg.readBy_of_pollFits h, rfl⟩)
  | mboxReceive => exact .inr (.inl ⟨.mboxRead, h, rfl⟩)
  | chiRead | chiCheck => exact .inr (.inl ⟨.systmrChi, rfl, rfl⟩)
  | cloRead => exact .inr (.inl ⟨.systmrClo, rfl, rfl⟩)
  | sampleRead => exact .inr (.inl ⟨.gplev (pinBank s.cfg.pinData), rfl, rfl⟩)
  | enableRead => exact .inr (.inl ⟨.auxEnables, rfl, rfl⟩)
  | rxRead => exact .inr (.inl ⟨.auxMuIo, h, rfl⟩)
  | fselWrite p f => exact .inr (.inr ⟨.gpfsel (fselReg p), fselInsert s.loc.v p f, h, rfl⟩)
  | regWrite r v => exact .inr (.inr ⟨r, v, Reg.writtenBy_of_fits h, rfl⟩)
  | mboxSend ch => exact .inr (.inr ⟨.mboxWrite, channelWord s.cfg ch, h, rfl⟩)
  | enableWrite => exact .inr (.inr ⟨.auxEnables, s.loc.v ||| s.cfg.auxMuEnMask, huart h, rfl⟩)
  | putByte b => exact .inr (.inr ⟨.auxMuIo, b.setWidth 32, h, rfl⟩)
  | putNibble k => exact .inr (.inr ⟨.auxMuIo, (hexDigit (nibble s.opnd k)).setWidth 32, h, rfl⟩)

/-! ## What a command may do to the devices -/

/-- The devices `e` as command `i` may leave the devices `d`. -/
structure DevicesFrame (i : Instr) (d e : Mbox × Gpio × Uart × Timer × Ctrl) : Prop where
  mbox_eq    : i.usesMailbox = false → e.1 = d.1
  held_eq    : e.1.held = d.1.held
  gpio_eq    : i.usesGpio = false → e.2.1 = d.2.1 ∧ e.2.2.2.2 = d.2.2.2.2
  outside_eq : e.2.1.driven = d.2.1.driven ∧ e.2.1.level = d.2.1.level ∧ e.2.1.alt = d.2.1.alt ∧
    e.2.2.2.2.buttons = d.2.2.2.2.buttons ∧ e.2.2.2.2.plugged = d.2.2.2.2.plugged
  latch_eq   : i ≠ .ctrlSample → e.2.1.latch = d.2.1.latch
  uart_eq    : i.usesUart = false → e.2.2.1 = d.2.2.1
  sent_eq    : e.2.2.1.sent = d.2.2.1.sent
  timer_le   : e.2.2.2.1.cs = d.2.2.2.1.cs ∧ e.2.2.2.1.cmp = d.2.2.2.1.cmp ∧ e.2.2.2.1.rate = d.2.2.2.1.rate ∧
    d.2.2.2.1.count ≤ e.2.2.2.1.count

theorem DevicesFrame.refl (i : Instr) (d : Mbox × Gpio × Uart × Timer × Ctrl) : DevicesFrame i d d :=
  ⟨fun _ => rfl, rfl, fun _ => ⟨rfl, rfl⟩, ⟨rfl, rfl, rfl, rfl, rfl⟩, fun _ => rfl, fun _ => rfl, rfl, ⟨rfl, rfl, rfl, Nat.le_refl _⟩⟩

theorem DevicesFrame.trans {d e f : Mbox × Gpio × Uart × Timer × Ctrl} (h : DevicesFrame i d e) (h' : DevicesFrame i e f) :
    DevicesFrame i d f where
  mbox_eq hi := (h'.mbox_eq hi).trans (h.mbox_eq hi)
  held_eq := h'.held_eq.trans h.held_eq
  gpio_eq hi := ⟨(h'.gpio_eq hi).1.trans (h.gpio_eq hi).1, (h'.gpio_eq hi).2.trans (h.gpio_eq hi).2⟩
  outside_eq := by
    obtain ⟨h1, h2, h3, h4, h5⟩ := h.outside_eq
    obtain ⟨g1, g2, g3, g4, g5⟩ := h'.outside_eq
    exact ⟨g1.trans h1, g2.trans h2, g3.trans h3, g4.trans h4, g5.trans h5⟩
  latch_eq hi := (h'.latch_eq hi).trans (h.latch_eq hi)
  uart_eq hi := (h'.uart_eq hi).trans (h.uart_eq hi)
  sent_eq := h'.sent_eq.trans h.sent_eq
  timer_le := by
    obtain ⟨h1, h2, h3, h4⟩ := h.timer_le
    obtain ⟨g1, g2, g3, g4⟩ := h'.timer_le
    exact ⟨g1.trans h1, g2.trans h2, g3.trans h3, h4.trans g4⟩

theorem devicesFrame_advanceTimer (s : State) (n : Nat) : DevicesFrame i s.devices (s.advanceTimer n).devices := by
  unfold State.advanceTimer
  split
  · exact { DevicesFrame.refl i s.devices with timer_le := ⟨rfl, rfl, rfl, Nat.le_add_right _ _⟩ }
  · exact .refl i _

theorem devicesFrame_devRead (s : State) {r : Reg} (h : r.readBy i = true) :
    DevicesFrame i s.devices (s.devRead r).2.devices := by
  by_cases hmbox : r = .mboxRead
  · subst hmbox
    have hd : (s.devRead .mboxRead).2.devices = ({ s with mbox := { s.mbox with outbound := s.mbox.outbound.tail } } : State).devices := by
      simp [State.devices, s.devRead_mboxRead, s.devRead_uart .mboxRead nofun]
    rw [hd]
    exact { DevicesFrame.refl i s.devices with mbox_eq := fun hi => absurd (hi.symm.trans h) nofun, held_eq := rfl }
  · by_cases huart : r = .auxMuIo
    · subst huart
      have hd : (s.devRead .auxMuIo).2.devices = ({ s with uart := { s.uart with rx := s.uart.rx.tail } } : State).devices := by
        simp [State.devices, s.devRead_auxMuIo, s.devRead_mbox .auxMuIo nofun]
      rw [hd]
      exact { DevicesFrame.refl i s.devices with uart_eq := fun hi => absurd (hi.symm.trans h) nofun, sent_eq := rfl }
    · have hd : (s.devRead r).2.devices = s.devices := by simp [State.devices, s.devRead_mbox r hmbox, s.devRead_uart r huart]
      rw [hd]
      exact .refl i _

/-- What the peripheral sees on the pads changes no button and no plug (60_exceptions.md R534). -/
theorem State.watchLines_outside (s : State) :
    s.watchLines.ctrl.buttons = s.ctrl.buttons ∧ s.watchLines.ctrl.plugged = s.ctrl.plugged := by
  have hlatch (c : Ctrl) (now : Nat) (l : Option Bool) : (c.onLatch now l).buttons = c.buttons ∧ (c.onLatch now l).plugged = c.plugged := by
    unfold Ctrl.onLatch
    grind
  have hclock (c : Ctrl) (now : Nat) (k : Option Bool) : (c.onClock now k).buttons = c.buttons ∧ (c.onClock now k).plugged = c.plugged := by
    unfold Ctrl.onClock
    grind
  have hfloat (c : Ctrl) : c.onFloat.buttons = c.buttons ∧ c.onFloat.plugged = c.plugged := by
    unfold Ctrl.onFloat
    split <;> exact ⟨rfl, rfl⟩
  exact ⟨(hfloat _).1.trans ((hclock _ _ _).1.trans (hlatch _ _ _).1), (hfloat _).2.trans ((hclock _ _ _).2.trans (hlatch _ _ _).2)⟩

/-- A write of the GPIO block by a command that uses it, with the pads it leaves seen by the peripheral. -/
theorem devicesFrame_pads (s : State) (g : Gpio) (hi : i.usesGpio = true)
    (hg : g.driven = s.gpio.driven ∧ g.level = s.gpio.level ∧ g.alt = s.gpio.alt)
    (hlatch : i ≠ .ctrlSample → g.latch = s.gpio.latch) :
    DevicesFrame i s.devices ({ s with gpio := g } : State).watchLines.devices :=
  { DevicesFrame.refl i s.devices with
    gpio_eq := fun hno => absurd (hno.symm.trans hi) nofun
    outside_eq := ⟨hg.1, hg.2.1, hg.2.2, State.watchLines_outside _⟩
    latch_eq := hlatch }

theorem devicesFrame_uart (s : State) (x : Uart) (hi : i.usesUart = true) (hsent : x.sent = s.uart.sent) :
    DevicesFrame i s.devices ({ s with uart := x } : State).devices :=
  { DevicesFrame.refl i s.devices with uart_eq := fun hno => absurd (hno.symm.trans hi) nofun, sent_eq := hsent }

theorem devicesFrame_devWrite (s : State) {r : Reg} (v : Word) (h : r.writtenBy i = true) :
    DevicesFrame i s.devices (s.devWrite r v).devices := by
  have hsample (hi : decide (i = .ctrlSample) = true) : i.usesGpio = true := by
    obtain rfl := of_decide_eq_true hi
    rfl
  cases r with
  | mboxWrite =>
    have hheld : (s.mbox.push s.cfg.mboxFifoDepth v).held = s.mbox.held := by unfold Mbox.push; split <;> rfl
    exact { DevicesFrame.refl i s.devices with mbox_eq := fun hno => absurd (hno.symm.trans h) nofun, held_eq := hheld }
  | gpfsel n => exact devicesFrame_pads s _ h ⟨rfl, rfl, rfl⟩ fun _ => rfl
  | gpset n | gpclr n => exact devicesFrame_pads s _ (hsample h) ⟨rfl, rfl, rfl⟩ fun hne => absurd (of_decide_eq_true h) hne
  | gppud =>
    exact
      { DevicesFrame.refl i s.devices with
        gpio_eq := fun hno => absurd (hno.symm.trans h) nofun
        outside_eq := ⟨rfl, rfl, rfl, rfl, rfl⟩
        latch_eq := fun _ => rfl }
  | gppudclk n =>
    have hd : s.devices = s.useFree.useFree.devices := by simp [State.devices]
    rw [hd]
    exact devicesFrame_pads s.useFree.useFree _ h (by simp [State.clockPulls]) fun _ => by simp [State.clockPulls]
  | auxEnables | auxMuIer | auxMuIir | auxMuLcr | auxMuMcr | auxMuCntl | auxMuBaud => exact devicesFrame_uart s _ h rfl
  | auxMuIo => exact devicesFrame_uart s _ h (by unfold Uart.push; split <;> rfl)
  | _ => cases h

theorem devicesFrame_engineStep (s : State) {op : Op} (rest : List Op) (h : op.fits i = true) :
    DevicesFrame i s.devices (s.engineStep i op rest).devices := by
  obtain ⟨n, hn⟩ := s.tickBefore_eq op
  have htick : DevicesFrame i s.devices (s.tickBefore op).devices := hn ▸ devicesFrame_advanceTimer s n
  refine htick.trans ?_
  rw [State.engineStep]
  obtain hd | ⟨r, hr, hd⟩ | ⟨r, v, hr, hd⟩ := (s.tickBefore op).stepOp_devices rest h
  · rw [hd]
    exact .refl i _
  · rw [hd]
    exact devicesFrame_devRead _ hr
  · rw [hd]
    exact devicesFrame_devWrite _ v hr

/-! ## What a command may do to the machine, but for SEQ, the results, RAM and the trace -/

structure MachineFrame (i : Instr) (s u : State) : Prop where
  kept      : u.cfg = s.cfg ∧ u.opnd = s.opnd ∧ u.regs.arg = s.regs.arg ∧ u.regs.status.overrun = s.regs.status.overrun ∧
    u.obs = s.obs ∧ u.script = s.script
  cycles_eq : i.usesGpio = false → u.cycles = s.cycles
  devices   : DevicesFrame i s.devices u.devices

/-- Engine cycles pass in Spins only, and those stand in a pull sequence. -/
theorem State.engineStep_cycles (s : State) {op : Op} (rest : List Op) (hfits : op.fits i = true) (hi : i.usesGpio = false) :
    (s.engineStep i op rest).cycles = s.cycles := by
  cases op with
  | spin => exact absurd (hi.symm.trans hfits) nofun
  | _ => simp [State.engineStep, State.stepOp]

theorem MachineFrame.engineStep (h : MachineFrame i s u) {op : Op} (rest : List Op) (hfits : op.fits i = true) :
    MachineFrame i s (u.engineStep i op rest) where
  kept := by simpa [State.engineStep_arg] using h.kept
  cycles_eq hi := (u.engineStep_cycles rest hfits hi).trans (h.cycles_eq hi)
  devices := h.devices.trans (devicesFrame_engineStep u rest hfits)

theorem exec_machineFrame (hq : s.quiet = true) (h : exec i s = .next t) : MachineFrame i s t :=
  have hrefl : MachineFrame i s s := ⟨⟨rfl, rfl, rfl, rfl, rfl, rfl⟩, fun _ => rfl, .refl i _⟩
  exec_quiet_induction s hq h (P := MachineFrame i s) (fun _ _ => ⟨hrefl.kept, hrefl.cycles_eq, hrefl.devices⟩)
    (fun _ => ⟨hrefl.kept, hrefl.cycles_eq, hrefl.devices⟩) (fun _ _ rest hu hfits _ => hu.engineStep rest hfits)

end Sys2Proof.Machine

namespace Sys2Proof.Proofs

open Sys2Proof.Machine

/-- Settles O23: every point of the command's program accesses a register of a device that the command uses, or none. -/
theorem deviceFrame : Obligations.DeviceFrame := by
  intro i s t hq h
  obtain ⟨hkept, hcycles, hd⟩ := exec_machineFrame hq h
  exact ⟨hkept, hd.mbox_eq, hd.held_eq, fun hi => ⟨(hd.gpio_eq hi).1, (hd.gpio_eq hi).2, hcycles hi⟩, hd.outside_eq, hd.latch_eq,
    hd.uart_eq, hd.sent_eq, hd.timer_le⟩

end Sys2Proof.Proofs
end

section
/-! PROOFS. The command cycle and the engine's block seen from the host (30_encoding.md R160, R171; 10_state.md R41 to R44), refused
configurations (00_scope.md R8) and reset (70_reset_and_hazards.md R600 to R602). -/

namespace Sys2Proof.Machine

variable {s : State} {es : List Event} {w : Word} {i : Instr}

/-! ## The engine's turn -/

theorem engineTurn_decode (hseq : s.seq = .decode w) (hdecode : decodeWord w = .ok i) : engineTurn s = exec i s := by
  simp [engineTurn, hseq, hdecode]

theorem step_engine (hwf : s.cfg.wf = true) (hscript : s.script = .engine :: es) (hseq : ∀ i todo, s.seq ≠ .run i todo) :
    step s = engineTurn { s with script := es } := by
  simp [step, hwf, hscript]

theorem step_untilHold (hwf : s.cfg.wf = true) (hscript : s.script = .untilHold :: es) (hseq : s.seq ≠ .idle) :
    step s = engineTurn s := by
  simp [step, hwf, hscript, hseq]

theorem step_poll_done (hwf : s.cfg.wf = true) (hscript : s.script = .poll :: es) (hdone : s.regs.status.done = true) :
    step s = .next { s.readStatus with script := es } := by
  simp [step, hwf, hscript, hdone]

theorem step_poll_again (hwf : s.cfg.wf = true) (hscript : s.script = .poll :: es) (hdone : s.regs.status.done = false) :
    step s = engineTurn s.readStatus := by
  simp [step, hwf, hscript, hdone]

/-! ## Host accesses -/

theorem State.accept_idle (hbusy : s.regs.status.busy = false) (w : Word) :
    s.accept w =
      { s with
        regs := { s.regs with status := { busy := true, overrun := s.regs.status.overrun } }
        opnd := s.regs.arg
        seq := .decode w } := by
  rw [State.accept, if_neg (by simp [hbusy])]
  rfl

theorem step_argWrite {v : Word} (hwf : s.cfg.wf = true) (hscript : s.script = .hostWrite (s.cfg.engineBase + 4#32) 4 v :: es) :
    step s = .next { s with script := es, regs := { s.regs with arg := v } } := by
  have hok : hostAccessOk s.cfg (s.cfg.engineBase + 4#32) 4 = true :=
    (hostAccessOk_engineBase_add s.cfg (off := 4) (by decide) 4).mpr ⟨rfl, rfl⟩
  have hoff : hostOffset s.cfg (s.cfg.engineBase + 4#32) = 4 := hostOffset_engineBase_add s.cfg (off := 4) (by decide)
  rw [step_hostWrite hwf hscript, if_pos hok, hoff]
  rfl

theorem HostRegs.read_fbValid (r : HostRegs) : r.read 0x3C = if r.fbValid then 1#32 else 0#32 := by
  cases h : r.fbValid <;> simp [HostRegs.read, h]

/-- Where each register stands in the block, and what it reads (10_state.md R41). -/
theorem HostRegs.read_register (r : HostRegs) {off : Nat} {v : Word}
    (h : (off, v) ∈
      [(0x04, r.arg), (0x08, r.status.word), (0x0C, r.res0), (0x10, r.res1), (0x20, r.fb.width), (0x24, r.fb.height),
        (0x28, r.fb.pitch), (0x2C, r.fb.depth), (0x30, r.fb.order), (0x34, r.fb.size), (0x38, r.fb.base),
        (0x3C, if r.fbValid then 1#32 else 0#32)]) :
    off < 64 ∧ off % 4 = 0 ∧ r.read off = v := by
  simp only [List.mem_cons, Prod.mk.injEq, List.not_mem_nil, or_false] at h
  rcases h with ⟨rfl, rfl⟩ | ⟨rfl, rfl⟩ | ⟨rfl, rfl⟩ | ⟨rfl, rfl⟩ | ⟨rfl, rfl⟩ | ⟨rfl, rfl⟩ | ⟨rfl, rfl⟩ | ⟨rfl, rfl⟩ | ⟨rfl, rfl⟩ |
    ⟨rfl, rfl⟩ | ⟨rfl, rfl⟩ | ⟨rfl, rfl⟩
  case inr.inr.inr.inr.inr.inr.inr.inr.inr.inr.inr => exact ⟨by decide, rfl, r.read_fbValid⟩
  all_goals exact ⟨by decide, rfl, rfl⟩

/-! ## STATUS (10_state.md R44) -/

/-- The bits 31:17, 15:12 and 7:4 of STATUS are reserved. -/
def statusReserved (i : Nat) : Prop := (4 ≤ i ∧ i ≤ 7) ∨ (12 ≤ i ∧ i ≤ 15) ∨ 17 ≤ i

theorem Status.word_reserved (t : Status) {i : Nat} (h : statusReserved i) : t.word.bit i = false := by
  unfold statusReserved at h
  simp only [Status.word, Word.bit, BitVec.getLsbD_append, BitVec.getLsbD_zero]
  grind

theorem Status.word_fields (t : Status) :
    t.word.bit 0 = t.busy ∧ t.word.bit 1 = t.done ∧ t.word.bit 2 = t.result ∧ t.word.bit 3 = t.err ∧ t.word.bit 16 = t.overrun := by
  simp only [Status.word, Word.bit, BitVec.getLsbD_append]
  grind

theorem Status.word_errcode (t : Status) : t.word.extractLsb' 8 4 = t.errcode.bits := by
  apply BitVec.eq_of_getLsbD_eq
  intro j hj
  simp only [Status.word, BitVec.getLsbD_extractLsb', BitVec.getLsbD_append]
  grind

/-! ## Refused configurations -/

theorem exec_ne_refused (s : State) (i : Instr) (r : Refusal) : exec i s ≠ .refused r := by
  rw [exec_eq]
  cases startOf s i <;> nofun

theorem engineTurn_ne_refused (s : State) (r : Refusal) : engineTurn s ≠ .refused r := by
  unfold engineTurn
  split
  · nofun
  · split
    · exact exec_ne_refused s _ r
    · nofun
  · nofun
  · nofun

/-- A step refuses the configuration exactly when it is ill-formed. -/
theorem step_illFormedConfig_iff (s : State) : step s = .refused .illFormedConfig ↔ s.cfg.wf = false := by
  constructor
  · intro h
    unfold step at h
    split at h
    · assumption
    · exfalso
      split at h
      · exact engineTurn_ne_refused _ _ h
      · split at h <;> exact engineTurn_ne_refused _ _ h
      · split at h
        · cases h
        · exact engineTurn_ne_refused _ _ h
      · split at h
        · cases h
        · exact engineTurn_ne_refused _ _ h
      · split at h <;> cases h
  · intro h
    simp [step, h]

/-! ## Reset -/

theorem Mbox.clip_of_le {m : Mbox} {depth : Nat} (hin : m.inbound.length ≤ depth) (hout : m.outbound.length ≤ depth) :
    m.clip depth = m := by
  rw [Mbox.clip, List.take_of_length_le hin, List.take_of_length_le hout]

theorem Uart.clip_of_le {u : Uart} {depth : Nat} (hrx : u.rx.length ≤ depth) (htx : u.tx.length ≤ depth) : u.clip depth = u := by
  rw [Uart.clip, List.take_of_length_le hrx, List.take_of_length_le htx]

theorem Gpio.clip_of_le {g : Gpio} {now : Nat} (h : ∀ q : Fin 54, g.clkAt[q] ≤ now) : g.clip now = g := by
  have hmap : g.clkAt.map (min · now) = g.clkAt := by
    ext q hq
    rw [Vector.getElem_map]
    exact Nat.min_eq_left (h ⟨q, hq⟩)
  rw [Gpio.clip, hmap]

theorem Ctrl.clip_of_le {c : Ctrl} {now : Nat} (h : c.edgeAt ≤ now) : c.clip now = c := by
  rw [Ctrl.clip, Nat.min_eq_left h]

/-- Device values within the invariant are the values after the reset that gives them (70_reset_and_hazards.md R602). -/
theorem State.apply_resetWith (s : State) {m : Mbox} {g : Gpio} {u : Uart} {c : Timer} {p : Ctrl} {ram : Memory}
    (hin : m.inbound.length ≤ s.cfg.mboxFifoDepth) (hout : m.outbound.length ≤ s.cfg.mboxFifoDepth)
    (hrx : u.rx.length ≤ s.cfg.uartFifoDepth) (htx : u.tx.length ≤ s.cfg.uartFifoDepth) (hclk : ∀ q : Fin 54, g.clkAt[q] ≤ s.cycles)
    (hedge : p.edgeAt ≤ c.count) (hram : Memory.wf ram = true) :
    State.apply s (.resetWith m g u c p ram) =
      { s with
        regs := {}, seq := .idle, opnd := 0#32, loc := {}, mbox := m, gpio := g, uart := { u with sent := s.uart.sent }
        timer := c, ctrl := p, ram := ram } := by
  rw [State.apply, Mbox.clip_of_le hin hout, Uart.clip_of_le hrx htx, Gpio.clip_of_le hclk, Ctrl.clip_of_le hedge,
    Memory.ofCells_of_wf ram hram]
  rfl

/-- A reset inside a running command ends the run. -/
theorem runLoop_reset {op : Op} {rest : List Op} {e : Event} (n : Nat) (hseq : s.seq = .run i (op :: rest))
    (hscript : s.script = e :: es) (he : e.notReset = false) :
    runLoop (n + 1) s = State.apply { s with script := es } e := by
  cases e with
  | reset => exact (runLoop_agent n hseq hscript rfl nofun nofun nofun).trans (runLoop_idle _ n rfl)
  | resetWith => exact (runLoop_agent n hseq hscript rfl nofun nofun nofun).trans (runLoop_idle _ n rfl)
  | _ => cases he

end Sys2Proof.Machine

namespace Sys2Proof

/-- A decoded word of the table is a 32-bit word that decodes. -/
theorem decodeWord_of_decodeTableWord {nbits w : Nat} {i : Instr} (h : decodeTableWord nbits w = some i) :
    decodeWord (BitVec.ofNat 32 w) = .ok i := by
  unfold decodeTableWord at h
  split at h
  · split at h
    · rename_i hd
      rw [hd, Option.some.inj h]
    · cases h
  · cases h

end Sys2Proof

namespace Sys2Proof.Proofs

open Sys2Proof.Machine

/-- Settles O6: each form of the script leads to the engine's turn, which decodes the word. -/
theorem stepRunsDecodedCommand : Obligations.StepRunsDecodedCommand := by
  constructor
  · intro s w i hwf hseq hdecode
    have hrun : ∀ j todo, s.seq ≠ .run j todo := by simp [hseq]
    refine ⟨fun hscript => ?_, fun es hscript => ?_, fun es hscript => ?_, fun es hscript hdone => ?_⟩
    · rw [step_engineTurn hwf hscript, engineTurn_decode hseq hdecode]
    · rw [step_engine hwf hscript hrun, engineTurn_decode (s := { s with script := es }) hseq hdecode]
    · rw [step_untilHold hwf hscript (by simp [hseq]), engineTurn_decode hseq hdecode]
    · rw [step_poll_again hwf hscript hdone, engineTurn_decode (s := s.readStatus) hseq hdecode]
  · intro s nbits w i hwf h
    rw [step_engine (s := s.withFetchWord nbits w) hwf rfl nofun, engineTurn_decode rfl (decodeWord_of_decodeTableWord h)]
    rfl

/-- Settles O7: the POLL ends at a STATUS with DONE = 1, and otherwise gives the engine its turn, which an idle engine does not use. -/
theorem pollRepeatsUntilDone : Obligations.PollRepeatsUntilDone := by
  rintro s t es hwf hscript rfl
  refine ⟨fun hdone => step_poll_done hwf hscript hdone, fun hdone => ?_⟩
  have hturn := step_poll_again hwf hscript hdone
  exact ⟨hturn, fun hseq => hturn.trans (engineTurn_idle (s := s.readStatus) hseq)⟩

/-- Settles O8: the write reaches CMD, whose idle engine accepts the word. -/
theorem hostCommandAccepted : Obligations.HostCommandAccepted := by
  intro s w es hwf hscript hbusy
  rw [step_agent hwf hscript nofun nofun nofun, if_pos (commandWrite_ok s.cfg w),
    State.apply_commandWrite { s with script := es } w, State.accept_idle (s := { s with script := es }) hbusy]

/-- Settles O11: the address reaches the register's offset, aligned and in the block. -/
theorem hostRegisterAccess : Obligations.HostRegisterAccess := by
  refine ⟨fun s off v es hwf hreg hscript => ?read, fun s v es hwf hscript => step_argWrite hwf hscript⟩
  case read =>
    obtain ⟨hoff, halign, hread⟩ := s.regs.read_register hreg
    rw [step_hostRead_register hwf hoff halign hscript, hread]

/-- Settles O12: STATUS is its fields put together with zeros between them. -/
theorem statusWordFields : Obligations.StatusWordFields := by
  refine ⟨⟨rfl, rfl, rfl, rfl, rfl⟩, fun t => ?_⟩
  obtain ⟨hbusy, hdone, hresult, herr, hoverrun⟩ := t.word_fields
  exact ⟨hbusy, hdone, hresult, herr, t.word_errcode, hoverrun, fun i _ h => t.word_reserved h⟩

/-- Settles O13: only the check of the configuration answers with this refusal, and it is the conjunction of the clauses. -/
theorem illFormedConfigRefused : Obligations.IllFormedConfigRefused := by
  intro s
  rw [step_illFormedConfig_iff, ← Bool.not_eq_true, not_iff_not]
  simp only [Config.wf, Config.clauses, Config.ranges, Config.aligned, Bool.and_eq_true, decide_eq_true_eq, List.all_eq_true,
    Word.aligned, RegOffsets.all, List.forall_mem_cons, List.not_mem_nil, false_imp_iff, implies_true, and_true]
  tauto

/-- Settles O16: both resets are actions of an agent that leave the engine idle, so a run stops at them. -/
theorem resetAtAnyStep : Obligations.ResetAtAnyStep := by
  refine ⟨⟨rfl, rfl⟩, fun s es hwf hscript => ?_, fun s es i op rest n hseq hscript => runLoop_reset n hseq hscript rfl, ?_⟩
  · rw [step_agent hwf hscript nofun nofun nofun]
    rfl
  · rintro s t es m g u c p ram hscript hin hout hrx htx hclk hedge hram rfl
    have happly := State.apply_resetWith { s with script := es } hin hout hrx htx hclk hedge hram
    refine ⟨fun hwf => ?_, fun i op rest n hseq => ?_⟩
    · rw [step_agent hwf hscript nofun nofun nofun, happly]
      rfl
    · rw [runLoop_reset n hseq hscript rfl, happly]

/-- Settles O26: the first step refuses a second provisioning. -/
theorem alreadyProvisionedCompletes : Obligations.AlreadyProvisionedCompletes :=
  fun _ haccepted hvalid => exec_refused haccepted (if_pos hvalid)

end Sys2Proof.Proofs
end

section
/-! PROOFS. The devices on the engine bus (60_exceptions.md R520 to R527): the register map, the reads and writes of the registers, and RAM
words (20_memory.md R104). -/

namespace Sys2Proof.Machine

variable (s : State)

/-! ## Addresses -/

/-- The mailbox buffer of a well-formed configuration does not pass the top of the address space (00_scope.md R8). -/
theorem toNat_bufAddr {c : Config} (hwf : c.wf = true) {j : Nat} (hj : j < c.mboxBufWords) :
    (bufAddr c j).toNat = c.mboxBufAddr.toNat + 4 * j := by
  simp only [Config.wf, Config.clauses, Bool.and_eq_true, decide_eq_true_eq] at hwf
  have hfits : c.mboxBufAddr.toNat + 4 * j < 2 ^ 32 := by omega
  rw [bufAddr, BitVec.toNat_add, BitVec.toNat_ofNat, Nat.add_mod_mod, Nat.mod_eq_of_lt hfits]

/-- The buffer's address is a multiple of 16, so the low four bits are free for the channel (40_mailbox.md R203). -/
theorem mboxBufAddr_mod {c : Config} (hwf : c.wf = true) : c.mboxBufAddr.toNat % 16 = 0 := by
  simp only [Config.wf, Config.clauses, Bool.and_eq_true, decide_eq_true_eq] at hwf
  omega

/-- A multiple of 16 has its low four bits clear. -/
theorem extractLsb'_low_of_mod {a : Word} (h : a.toNat % 16 = 0) : a.extractLsb' 0 4 = 0#4 := by
  apply BitVec.eq_of_toNat_eq
  simpa [BitVec.extractLsb'_toNat] using h

/-- The channel number stands in the low four bits of the channel-encoded word. -/
theorem channelWord_low (c : Config) (ch : BitVec 4) : (channelWord c ch).extractLsb' 0 4 = ch := by
  have hmask : (0xFFFFFFF0#32 : Word).extractLsb' 0 4 = 0#4 := by decide
  rw [channelWord, BitVec.extractLsb'_or, BitVec.extractLsb'_and, hmask, BitVec.and_zero, BitVec.zero_or,
    BitVec.extractLsb'_setWidth_of_le (by decide), BitVec.extractLsb'_eq_self]

theorem mboxBufAddr_getLsbD {c : Config} (hwf : c.wf = true) {b : Nat} (hb : b < 4) : c.mboxBufAddr.getLsbD b = false := by
  have := congrArg (fun x => x.getLsbD b) (extractLsb'_low_of_mod (mboxBufAddr_mod hwf))
  simpa [BitVec.getLsbD_extractLsb', hb] using this

theorem mboxBufAddr_mask {c : Config} (hwf : c.wf = true) : c.mboxBufAddr &&& 0xFFFFFFF0#32 = c.mboxBufAddr := by
  have hm : (0xFFFFFFF0#32 : Word) = ~~~(BitVec.allOnes 4).setWidth 32 := by decide
  apply BitVec.eq_of_getLsbD_eq
  intro b hb
  rw [hm, BitVec.getLsbD_and, BitVec.getLsbD_not, BitVec.getLsbD_setWidth, BitVec.getLsbD_allOnes]
  by_cases h4 : b < 4
  · rw [mboxBufAddr_getLsbD hwf h4, Bool.false_and]
  · simp [h4, hb]

/-- Bits that do not overlap add up. -/
theorem channelWord_eq_add {c : Config} (hwf : c.wf = true) (ch : BitVec 4) :
    channelWord c ch = c.mboxBufAddr + ch.setWidth 32 := by
  have hdisjoint : c.mboxBufAddr &&& ch.setWidth 32 = 0#32 := by
    apply BitVec.eq_of_getLsbD_eq
    intro b hb
    by_cases h4 : b < 4
    · simp [mboxBufAddr_getLsbD hwf h4]
    · simp [BitVec.getLsbD_of_ge ch b (by omega)]
  rw [channelWord, mboxBufAddr_mask hwf, BitVec.add_eq_or_of_and_eq_zero _ _ hdisjoint]

/-- The address part of a channel-encoded word is the buffer's address (60_exceptions.md R531). -/
theorem requestBase_channelWord {c : Config} (hwf : c.wf = true) (ch : BitVec 4) : requestBase (channelWord c ch) = c.mboxBufAddr := by
  have hchannel : ch.setWidth 32 &&& 0xFFFFFFF0#32 = 0#32 := by
    revert ch
    decide
  have hor (a b m : Word) : (a ||| b) &&& m = a &&& m ||| b &&& m := by
    apply BitVec.eq_of_getLsbD_eq
    intro j _
    simp [Bool.and_or_distrib_right]
  rw [requestBase, channelWord, mboxBufAddr_mask hwf, hor, mboxBufAddr_mask hwf, hchannel, BitVec.or_zero]

/-! ## Function select (41_gpio.md R240) -/

theorem fselShift_le (p : Nat) : fselShift p ≤ 27 := by
  unfold fselShift
  omega

theorem getLsbD_three_ones (k : Nat) : (0b111#32).getLsbD k = decide (k < 3) := by
  by_cases hk : k < 32
  · revert k
    decide
  · rw [BitVec.getLsbD_of_ge _ _ (by omega)]
    simp
    omega

/-- A bit of the new value: in the pin's field it is f's, elsewhere the old one. -/
theorem fselInsert_bit (v : Word) (p : Nat) (f : BitVec 3) {b : Nat} (hb : b < 32) :
    (fselInsert v p f).getLsbD b =
      if fselShift p ≤ b ∧ b < fselShift p + 3 then f.getLsbD (b - fselShift p) else v.getLsbD b := by
  simp only [fselInsert, BitVec.getLsbD_or, BitVec.getLsbD_and, BitVec.getLsbD_not, BitVec.getLsbD_shiftLeft, BitVec.getLsbD_setWidth,
    getLsbD_three_ones, hb, decide_true, Bool.true_and]
  by_cases hlow : b < fselShift p
  · simp [hlow]
  · by_cases hhigh : b - fselShift p < 3
    · simp [hlow, hhigh, show fselShift p ≤ b ∧ b < fselShift p + 3 by omega, show b - fselShift p < 32 by omega]
    · simp [hlow, hhigh, show ¬(fselShift p ≤ b ∧ b < fselShift p + 3) by omega, BitVec.getLsbD_of_ge f _ (not_lt.mp hhigh)]

theorem fselField_fselInsert (v : Word) (p : Nat) (f : BitVec 3) : fselField (fselInsert v p f) p = f := by
  apply BitVec.eq_of_getLsbD_eq
  intro b hb
  have hshift := fselShift_le p
  rw [fselField, BitVec.getLsbD_extractLsb', fselInsert_bit v p f (by omega), if_pos (by omega)]
  simp [hb]

theorem fselInsert_bit_other (v : Word) (p : Nat) (f : BitVec 3) {b : Nat} (hb : b < 32)
    (hother : b < fselShift p ∨ fselShift p + 3 ≤ b) : (fselInsert v p f).bit b = v.bit b := by
  rw [Word.bit, fselInsert_bit v p f hb, if_neg (by omega), Word.bit]

theorem fselInsert_idem (v : Word) (p : Nat) (f : BitVec 3) : fselInsert (fselInsert v p f) p f = fselInsert v p f := by
  apply BitVec.eq_of_getLsbD_eq
  intro b hb
  rw [fselInsert_bit _ p f hb, fselInsert_bit v p f hb]
  split <;> rfl

/-! ## Levels (60_exceptions.md R523) -/

/-- GPLEV shows each pin's level at its bit, with some free value. -/
theorem State.busRead_gplev_bit {p : Nat} (hp : p ≤ 53) :
    (s.busRead (.gplev (pinBank p))).1.bit (p % 32) = s.readLevel s.freeValue p :=
  s.levelWord_bit s.freeValue p hp

/-- A pad that is not the controller's DATA line shows the level the rules fix. -/
theorem State.readLevel_of_padLevel {f : Word} {p : Nat} {b : Bool}
    (hpad : ¬(p = s.cfg.pinData ∧ s.ctrl.plugged = true ∧ s.pinFunction p = s.cfg.fselInput)) (h : s.padLevel p = some b) :
    s.readLevel f p = b := by
  rw [State.readLevel, if_neg hpad, h, Option.getD_some]

theorem State.padLevel_output {p : Nat} (h : s.pinFunction p = s.cfg.fselOutput) :
    s.padLevel p = some (pinLevel s.gpio.latch p) := if_pos h

theorem State.padLevel_driven {p : Nat} (hne : s.cfg.fselOutput ≠ s.cfg.fselInput) (h : s.pinFunction p = s.cfg.fselInput)
    (hdriven : pinLevel s.gpio.driven p = true) : s.padLevel p = some (pinLevel s.gpio.level p) := by
  rw [State.padLevel, if_neg (by rw [h]; exact hne.symm), if_pos h, if_pos hdriven]

theorem State.padLevel_pulled {p : Nat} (hne : s.cfg.fselOutput ≠ s.cfg.fselInput) (h : s.pinFunction p = s.cfg.fselInput)
    (hdriven : pinLevel s.gpio.driven p = false) :
    (s.gpio.pullOf p = .up → s.padLevel p = some true) ∧ (s.gpio.pullOf p = .down → s.padLevel p = some false) := by
  rw [State.padLevel, if_neg (by rw [h]; exact hne.symm), if_pos h, if_neg (by simp [hdriven])]
  exact ⟨fun hpull => by rw [hpull], fun hpull => by rw [hpull]⟩

theorem State.padLevel_alt {p : Nat} (hout : s.pinFunction p ≠ s.cfg.fselOutput) (hin : s.pinFunction p ≠ s.cfg.fselInput) :
    s.padLevel p = some (pinLevel s.gpio.alt p) := by
  rw [State.padLevel, if_neg hout, if_neg hin]

/-- DATA of a plugged-in and synchronised controller (R534). -/
theorem State.readLevel_data {f : Word} {p : Nat} (h : s.pinFunction p = s.cfg.fselInput) (hp : p = s.cfg.pinData)
    (hplugged : s.ctrl.plugged = true) (hsynced : s.ctrl.synced = true) (hpos : s.ctrl.pos ≤ 15) :
    s.readLevel f p = !s.ctrl.shift.getLsbD s.ctrl.pos := by
  rw [State.readLevel, if_pos ⟨hp, hplugged, h⟩, Ctrl.data, if_pos ⟨hsynced, hpos⟩, Option.getD_some]

/-! ## RAM words -/

/-- A word write of RAM with the access on the trace. -/
theorem State.ramWrite_ram (a v : Word) : (s.ramWrite a v).ram = (s.ramSetWord a v).ram := rfl

/-- A byte read after a word write gives the word's byte 0. -/
theorem State.ramReadByte_ramWrite {a v : Word} (hr : Memory.rising s.ram = true) (hin : s.wordInRam a = true) :
    ((s.ramWrite a v).ramReadByte a).1 = wordByte v 0 := by
  have hbyte : (s.ramWrite a v).cfg.inRam (byteAddr a 0) = true := by
    rw [State.ramWrite_cfg]
    exact s.wordInRam_byte a hin (by decide)
  rw [State.ramReadByte, State.ramOr, if_pos hbyte, State.ramWrite_ram]
  exact s.get_ramSetWord_byte a v hr hin (by decide)

end Sys2Proof.Machine

namespace Sys2Proof.Proofs

open Sys2Proof.Machine

/-- Settles O28: bit by bit, the new value is f in the pin's field and the old value elsewhere. -/
theorem fselInsertOneField : Obligations.FselInsertOneField :=
  fun v p f _ => ⟨rfl, fselField_fselInsert v p f, fun _ hb hother => fselInsert_bit_other v p f hb hother, fselInsert_idem v p f⟩

/-- Settles O29: each address is its sum, and the buffer's words do not wrap in a well-formed configuration. -/
theorem registerMap : Obligations.RegisterMap := by
  refine ⟨fun c hoff => ?map, ⟨rfl, rfl, rfl, rfl, rfl⟩, ⟨rfl, rfl, rfl, rfl⟩, fun c i hwf hi => toNat_bufAddr hwf hi⟩
  case map =>
    have hcmp (n : Fin 4) : (0x0C#32 : Word) + BitVec.ofNat 32 (4 * n.val) = BitVec.ofNat 32 (0x0C + 4 * n.val) :=
      (BitVec.ofNat_add _ _).symm
    simp [Reg.addr, hoff, BitVec.add_assoc, hcmp]

/-- Settles O31: a bit of the bank's word is a pin of the bank. -/
theorem outputLatchWrites : Obligations.OutputLatchWrites := by
  intro s n v p hp
  have hset : (s.devWrite (.gpset n) v).gpio.latch = s.gpio.latch ||| bankPins n v := rfl
  have hclr : (s.devWrite (.gpclr n) v).gpio.latch = s.gpio.latch &&& ~~~(bankPins n v) := rfl
  have hlt : p < 54 := by omega
  rw [hset, hclr, pinLevel, pinLevel, pinLevel, BitVec.getLsbD_or, BitVec.getLsbD_and, BitVec.getLsbD_not, bankPins_bit n v p hp]
  simp [hlt]

/-- Settles O32: the read shows the pad's level, or the controller's DATA on its pin. -/
theorem levelReads : Obligations.LevelReads := by
  intro s p hp hne
  rw [s.busRead_gplev_bit hp]
  refine ⟨fun hout => ?output, fun hin hpad => ?input, fun hout hin => ?alternate, ?data⟩
  case output => exact s.readLevel_of_padLevel (fun h => hne (hout.symm.trans h.2.2)) (s.padLevel_output hout)
  case input =>
    have hnot : ¬(p = s.cfg.pinData ∧ s.ctrl.plugged = true ∧ s.pinFunction p = s.cfg.fselInput) :=
      fun ⟨hdata, hplugged, _⟩ => hpad.elim (absurd hdata) fun h => Bool.false_ne_true (h.symm.trans hplugged)
    exact ⟨fun hdriven => s.readLevel_of_padLevel hnot (s.padLevel_driven hne hin hdriven),
      fun hdriven hup => s.readLevel_of_padLevel hnot ((s.padLevel_pulled hne hin hdriven).1 hup),
      fun hdriven hdown => s.readLevel_of_padLevel hnot ((s.padLevel_pulled hne hin hdriven).2 hdown)⟩
  case alternate => exact s.readLevel_of_padLevel (fun h => hin h.2.2) (s.padLevel_alt hout hin)
  case data => exact fun hin hdata hplugged hsynced hpos => s.readLevel_data hin hdata hplugged hsynced hpos

/-- Settles O33: the flags are the FIFOs' lengths, a read pops the outbound FIFO and a write pushes into the inbound one. -/
theorem mailboxDevice : Obligations.MailboxDevice := by
  intro s hflags hle
  refine ⟨?full, ?empty, s.busRead_mbox .mboxStatus nofun, ?pop, ?push⟩
  case full =>
    refine (s.mboxStatus_full s.freeValue).trans (decide_eq_decide.mpr ?_)
    omega
  case empty =>
    refine (s.mboxStatus_empty s.freeValue hflags).trans ?_
    rw [Bool.eq_iff_iff, List.isEmpty_iff, decide_eq_true_eq]
  case pop =>
    intro w ws hout
    have hvalue : (s.busRead .mboxRead).1 = s.mbox.outbound.head?.getD s.freeValue := rfl
    refine ⟨by rw [hvalue, hout]; rfl, ?_⟩
    rw [State.busRead, State.record_mbox, State.devRead_mboxRead, hout, List.tail_cons]
  case push => exact fun v hroom => if_pos hroom

/-- Settles O34: the bits of LSR are the FIFOs' states, and the accesses of AUX_MU_IO and AUX_MU_IIR move, append and clear bytes. -/
theorem uartDevice : Obligations.UartDevice := by
  intro s henabled
  refine ⟨?ready, s.lsr_txe s.freeValue henabled, s.busRead_uart .auxMuLsr nofun, ?pop, fun v hroom => if_pos hroom, fun v => rfl, ?order⟩
  case ready =>
    refine (s.lsr_dr s.freeValue henabled).trans ?_
    rw [Bool.eq_iff_iff, Bool.not_eq_true', ← Bool.not_eq_true, List.isEmpty_iff, decide_eq_true_eq]
  case pop =>
    intro b bs hrx
    have hvalue : (s.busRead .auxMuIo).1 = (s.freeValue.extractLsb' 8 24 ++ b : BitVec 32) := by
      simp only [State.busRead, State.devRead, State.devValue, hrx]
    refine ⟨by rw [hvalue, BitVec.extractLsb'_append_eq_right], ?_⟩
    rw [State.busRead, State.record_uart, State.devRead_auxMuIo, hrx, List.tail_cons]
  case order =>
    unfold Uart.drain
    split
    · rename_i htx
      simp [htx]
    · rfl

/-- Settles O35: the counter's halves as natural numbers. -/
theorem timerReads : Obligations.TimerReads := by
  intro s
  refine ⟨fun hpresent hcount => ?present, fun habsent => ?absent⟩
  case present =>
    have hcounter := s.counter_present hpresent hcount
    rw [s.busRead_clo _ hcounter, s.busRead_chi _ hcounter]
    simp only [BitVec.extractLsb'_toNat, BitVec.toNat_ofNat, Nat.shiftRight_eq_div_pow, Nat.mod_eq_of_lt hcount]
    omega
  case absent =>
    have hcounter : s.counter = some 0#64 := by simp [State.counter, habsent]
    rw [s.busRead_clo _ hcounter, s.busRead_chi _ hcounter]
    exact ⟨rfl, rfl⟩

/-- Settles O37: a word write stores the word's bytes at its four addresses and nothing elsewhere, in canonical form. -/
theorem ramLittleEndian : Obligations.RamLittleEndian := by
  intro s a v hwf hin
  have hrising := Memory.wf_rising hwf
  refine ⟨fun k hk => s.get_ramSetWord_byte a v hrising hin hk, ?word, s.ramReadByte_ramWrite hrising hin,
    fun b hb => s.get_ramSetWord_ne a v b hb, s.ramSetWord_wf a v hwf⟩
  case word => exact s.ramWord_ramSetWord_same _ a v hrising hin

/-- Settles O39: the buffer's address is a multiple of 16, so the channel's bits do not overlap its own. -/
theorem channelWordEncodes : Obligations.ChannelWordEncodes :=
  fun c ch hwf => ⟨rfl, channelWord_eq_add hwf ch, channelWord_low c ch⟩

end Sys2Proof.Proofs
end

section
/-! PROOFS. Pull states (60_exceptions.md R523; 70_reset_and_hazards.md R621, R622): what a clocking write does to each pin, and what a host
write does to the engine's pull sequence. -/

namespace Sys2Proof.Machine

variable (s : State)

/-! ## A clocking write -/

/-- A clocking write on a pin of its bank. -/
theorem State.devWrite_gppudclk_pullOf (n : Fin 2) (v : Word) {p : Nat} (hp : p < 54) (hbank : pinBank p = n) :
    (s.devWrite (.gppudclk n) v).gpio.pullOf p =
      pullAfterClock s.cfg s.cycles s.gpio.settleFrom s.gpio.gppud s.gpio.clkAt[p] (s.gpio.gppudclk[n].bit (p % 32)) (v.bit (p % 32))
        (freePull (s.freeValue.bit (p % 32)) (s.useFree.freeValue.bit (p % 32))) (s.gpio.pullOf p) := by
  simp [State.devWrite, State.clockPulls, Gpio.pullOf, hp, hbank]

theorem State.devWrite_gppudclk_otherBank (n : Fin 2) (v : Word) {p : Nat} (hp : p < 54) (hbank : pinBank p ≠ n) :
    (s.devWrite (.gppudclk n) v).gpio.pullOf p = s.gpio.pullOf p := by
  simp [State.devWrite, State.clockPulls, Gpio.pullOf, hp, hbank]

theorem pullAfterClock_set (c : Config) (now : Nat) (pudAt : Option Nat) (g : Word) (clkAt : Nat) (old : Bool) (free pull : Pull) :
    pullAfterClock c now pudAt g clkAt old true free pull =
      if settled c.pudWaitCycles pudAt now then pullOfGppud c g free else free := rfl

theorem pullAfterClock_cleared {c : Config} {now clkAt : Nat} (h : clkAt + c.pudWaitCycles ≤ now) (pudAt : Option Nat) (g : Word)
    (free pull : Pull) : pullAfterClock c now pudAt g clkAt true false free pull = pull :=
  if_pos h

/-- A pin clocked after the settle time takes the pull that GPPUD names. -/
theorem State.devWrite_gppudclk_settled {n : Fin 2} {v : Word} {p w : Nat} {pull : Pull} (hp : p < 54) (hbank : pinBank p = n)
    (hv : v.bit (p % 32) = true) (hbroken : s.gpio.broken = false) (hpud : s.gpio.pudAt = some w)
    (hsettled : w + s.cfg.pudWaitCycles ≤ s.cycles) (hpull : s.cfg.namesPull s.gpio.gppud pull) :
    (s.devWrite (.gppudclk n) v).gpio.pullOf p = pull := by
  have hfrom : s.gpio.settleFrom = some w := by simp [Gpio.settleFrom, hbroken, hpud]
  rw [s.devWrite_gppudclk_pullOf n v hp hbank, hv, pullAfterClock_set, hfrom,
    if_pos (show settled _ (some w) _ = true from decide_eq_true hsettled), pullOfGppud_names _ _ _ _ hpull]

/-- A pin whose clock bit is cleared after the hold time keeps its pull. -/
theorem State.devWrite_gppudclk_held {n : Fin 2} {v : Word} {p : Nat} (hp : p < 54) (hbank : pinBank p = n)
    (hv : v.bit (p % 32) = false) (hold : s.gpio.gppudclk[n].bit (p % 32) = true)
    (hheld : s.gpio.clkAt[p] + s.cfg.pudWaitCycles ≤ s.cycles) :
    (s.devWrite (.gppudclk n) v).gpio.pullOf p = s.gpio.pullOf p := by
  rw [s.devWrite_gppudclk_pullOf n v hp hbank, hv, hold, pullAfterClock_cleared hheld]

theorem State.devWrite_gppudclk_untouched {n : Fin 2} {v : Word} {p : Nat} (hp : p < 54) (hbank : pinBank p = n)
    (hv : v.bit (p % 32) = false) (hold : s.gpio.gppudclk[n].bit (p % 32) = false) :
    (s.devWrite (.gppudclk n) v).gpio.pullOf p = s.gpio.pullOf p := by
  rw [s.devWrite_gppudclk_pullOf n v hp hbank, hv, hold, pullAfterClock_untouched]

/-- What a clocking write leaves in the other fields that the pulls depend on. -/
theorem State.devWrite_gppudclk_fields (n : Fin 2) (v : Word) {p : Nat} (hp : p < 54) (hbank : pinBank p = n)
    (hv : v.bit (p % 32) = true) :
    (s.devWrite (.gppudclk n) v).gpio.gppudclk[n].bit (p % 32) = true ∧ (s.devWrite (.gppudclk n) v).gpio.clkAt[p] = s.cycles := by
  simp [State.devWrite, State.clockPulls, hbank, hv]

/-! ## Free pulls -/

/-- Two free bits give any pull. -/
theorem freePull_surjective (any : Pull) : ∃ b1 b0 : Bool, freePull b1 b0 = any := by
  cases any
  · exact ⟨false, false, rfl⟩
  · exact ⟨false, true, rfl⟩
  · exact ⟨true, false, rfl⟩

theorem bit_fill (b : Bool) {j : Nat} (hj : j < 32) : Word.bit (if b then BitVec.allOnes 32 else 0#32) j = b := by
  cases b
  · simp
  · rw [if_pos rfl, Word.bit, BitVec.getLsbD_allOnes, decide_eq_true hj]

/-- Some two words of free values give a pin any pull. -/
theorem exists_freePull (any : Pull) (p : Nat) :
    ∃ w1 w0 : Word, freePull (w1.bit (p % 32)) (w0.bit (p % 32)) = any := by
  obtain ⟨b1, b0, hfree⟩ := freePull_surjective any
  have hp : p % 32 < 32 := Nat.mod_lt _ (by decide)
  exact ⟨if b1 then BitVec.allOnes 32 else 0#32, if b0 then BitVec.allOnes 32 else 0#32, by rw [bit_fill b1 hp, bit_fill b0 hp, hfree]⟩

/-- Without a settle time a clocked pin takes any pull (70_reset_and_hazards.md R622). -/
theorem State.devWrite_gppudclk_any (v : Word) {p : Nat} (hp : p < 54) (hv : v.bit (p % 32) = true)
    (hfrom : s.gpio.broken = true ∨ s.gpio.pudAt = none) (any : Pull) :
    ∃ ws : List Word, (({ s with noise := ws } : State).devWrite (.gppudclk (pinBank p)) v).gpio.pullOf p = any := by
  obtain ⟨w1, w0, hfree⟩ := exists_freePull any p
  have hnone : s.gpio.settleFrom = none := by
    rcases hfrom with h | h
    · simp [Gpio.settleFrom, h]
    · simp [Gpio.settleFrom, h]
  refine ⟨[w1, w0], ?_⟩
  rw [State.devWrite_gppudclk_pullOf _ _ v hp rfl, hv, pullAfterClock_set]
  exact (if_neg (by simp [hnone, settled])).trans hfree

/-! ## A host write during the engine's pull sequence -/

/-- After `k` points of PullDisable the engine stands in its settle time, and then in its hold time. -/
theorem pullPhase_pullDisable (q : Nat) (rest : List Op) :
    (∀ k, 1 ≤ k → k ≤ 2 → pullPhase ((pullDisable q).drop k ++ rest) = some .settle) ∧
      ∀ k, 3 ≤ k → k ≤ 4 → pullPhase ((pullDisable q).drop k ++ rest) = some (.hold (pinBank q)) := by
  have hbit : pinBit q ≠ 0#32 := fun h => by
    have := pinBit_bit q (q % 32) (Nat.mod_lt _ (by decide))
    rw [h, Word.bit_zero] at this
    simp at this
  constructor
  · intro k h1 h2
    obtain rfl | rfl : k = 1 ∨ k = 2 := by omega
    all_goals simp [pullDisable, pullPhase, hbit]
  · intro k h1 h2
    obtain rfl | rfl : k = 3 ∨ k = 4 := by omega
    all_goals simp [pullDisable, pullPhase]

/-- A register whose host write breaks the engine's pull sequence. -/
def Reg.isPull (r : Reg) : Prop := r = .gppud ∨ ∃ n, r = .gppudclk n

theorem State.hostDevWrite_settle {r : Reg} (hr : r.isPull) (v : Word) (h : s.pullPhase = some .settle) :
    (s.hostDevWrite r v).gpio.broken = true := by
  obtain rfl | ⟨n, rfl⟩ := hr
  · exact congrArg (fun t : State => t.gpio.broken) (s.breakPull_settle _ h)
  · exact congrArg (fun t : State => t.gpio.broken) (s.breakPull_settle _ h)

/-- The free values that the break of a hold time draws come after those of the write itself. -/
theorem State.exists_noise_breakPull {r : Reg} (hr : r.isPull) (v w1 w0 : Word) :
    ∃ (ws : List Word) (t : State), ({ s with noise := ws } : State).hostDevWrite r v = ({ s with noise := ws } : State).breakPull t ∧
      t.noise = [w1, w0] := by
  obtain rfl | ⟨n, rfl⟩ := hr
  · exact ⟨[w1, w0], _, rfl, rfl⟩
  · exact ⟨[0#32, 0#32, w1, w0], _, rfl, rfl⟩

theorem State.freeValue_of_noise {w : Word} {ws : List Word} (h : s.noise = w :: ws) : s.freeValue = w ∧ s.useFree.noise = ws := by
  simp [State.freeValue, State.useFree, h]

/-- A host write during the engine's hold time leaves any pull on a clocked pin (70_reset_and_hazards.md R622). -/
theorem State.hostDevWrite_hold_any {r : Reg} (hr : r.isPull) (v : Word) {n : Fin 2} (h : s.pullPhase = some (.hold n)) {p : Nat}
    (hp : p ≤ 53) (hbank : pinBank p = n) (hclocked : s.gpio.gppudclk[n].bit (p % 32) = true) (any : Pull) :
    ∃ ws : List Word, (({ s with noise := ws } : State).hostDevWrite r v).gpio.pullOf p = any := by
  obtain ⟨w1, w0, hfree⟩ := exists_freePull any p
  obtain ⟨ws, t, hbreak, hnoise⟩ := s.exists_noise_breakPull hr v w1 w0
  obtain ⟨h1, hnoise'⟩ := t.freeValue_of_noise hnoise
  obtain ⟨h0, -⟩ := t.useFree.freeValue_of_noise hnoise'
  refine ⟨ws, ?_⟩
  rw [hbreak, State.breakPull_hold { s with noise := ws } t n h, Gpio.freePulls_pullOf _ _ _ _ _ _ hp, if_pos ⟨hbank, hclocked⟩, h1, h0]
  exact hfree

theorem State.breakPull_pull {t : State} (h : ∀ n, s.pullPhase ≠ some (.hold n)) : (s.breakPull t).gpio.pull = t.gpio.pull := by
  unfold State.breakPull
  split
  · rfl
  · rfl
  · rename_i n hn
    exact absurd hn (h n)

/-! ## A host's own pull sequence -/

/-- With an idle engine a host write is judged by the waits alone. -/
theorem State.hostDevWrite_idle (hseq : s.seq = .idle) (v : Word) :
    s.hostDevWrite .gppud v = s.devWrite .gppud v ∧ ∀ n, s.hostDevWrite (.gppudclk n) v = s.unbroken.devWrite (.gppudclk n) v :=
  ⟨s.breakPull_none _ (s.pullPhase_idle hseq), fun _ => s.breakPull_none _ (s.pullPhase_idle hseq)⟩

/-- After a clocking write of an idle engine's host: the pin's pull, its clock bit and its time. -/
theorem State.apply_clock {n : Fin 2} {v : Word} {p w : Nat} {pull : Pull} (hseq : s.seq = .idle) (hp : p < 54) (hbank : pinBank p = n)
    (hv : v.bit (p % 32) = true) (hpud : s.gpio.pudAt = some w) (hsettled : w + s.cfg.pudWaitCycles ≤ s.cycles)
    (hpull : s.cfg.namesPull s.gpio.gppud pull) :
    (State.apply s (.hostDevWrite (.gppudclk n) v)).gpio.pullOf p = pull ∧
      (State.apply s (.hostDevWrite (.gppudclk n) v)).gpio.gppudclk[n].bit (p % 32) = true ∧
      (State.apply s (.hostDevWrite (.gppudclk n) v)).gpio.clkAt[p] = s.cycles := by
  rw [State.apply, (s.hostDevWrite_idle hseq v).2 n]
  exact ⟨s.unbroken.devWrite_gppudclk_settled hp hbank hv rfl hpud hsettled hpull, s.unbroken.devWrite_gppudclk_fields n v hp hbank hv⟩

/-- The clearing write of an idle engine's host. -/
theorem State.apply_clear {n : Fin 2} {p : Nat} (hseq : s.seq = .idle) (hp : p < 54) (hbank : pinBank p = n)
    (hold : s.gpio.gppudclk[n].bit (p % 32) = true) (hheld : s.gpio.clkAt[p] + s.cfg.pudWaitCycles ≤ s.cycles) :
    (State.apply s (.hostDevWrite (.gppudclk n) 0#32)).gpio.pullOf p = s.gpio.pullOf p := by
  rw [State.apply, (s.hostDevWrite_idle hseq _).2 n]
  exact s.unbroken.devWrite_gppudclk_held hp hbank (Word.bit_zero _) hold hheld

/-- The sequence of 60_exceptions.md R523 by the host, the engine idle: GPPUD, wait, clock, wait, clear. -/
theorem State.apply_pullSequence {n : Fin 2} {g v : Word} {a b p : Nat} {pull : Pull} (hseq : s.seq = .idle)
    (ha : s.cfg.pudWaitCycles ≤ a) (hb : s.cfg.pudWaitCycles ≤ b) (hp : p < 54) (hbank : pinBank p = n)
    (hv : v.bit (p % 32) = true) (hpull : s.cfg.namesPull g pull) :
    ([.hostDevWrite .gppud g, .cycles a, .hostDevWrite (.gppudclk n) v, .cycles b,
      .hostDevWrite (.gppudclk n) 0#32].foldl State.apply s).gpio.pullOf p = pull := by
  have hpud : State.apply s (.hostDevWrite .gppud g) = s.devWrite .gppud g := (s.hostDevWrite_idle hseq g).1
  simp only [List.foldl_cons, List.foldl_nil, hpud]
  set waited := State.apply (s.devWrite .gppud g) (.cycles a)
  obtain ⟨hclocked, hbit, hclk⟩ := waited.apply_clock (n := n) (v := v) hseq hp hbank hv rfl (Nat.add_le_add_left ha _) hpull
  set clocked := State.apply waited (.hostDevWrite (.gppudclk n) v) with hdef
  have hfields : clocked.seq = .idle ∧ clocked.cycles = waited.cycles ∧ clocked.cfg = s.cfg := by
    simp [hdef, State.apply, waited, State.devWrite, hseq]
  obtain ⟨hidle, hcycles, hcfg⟩ := hfields
  have hheld : clocked.gpio.clkAt[p] + clocked.cfg.pudWaitCycles ≤ clocked.cycles + b := by
    rw [hclk, hcycles, hcfg]
    exact Nat.add_le_add_left hb _
  rw [State.apply_clear (State.apply clocked (.cycles b)) hidle hp hbank hbit hheld]
  exact hclocked

end Sys2Proof.Machine

namespace Sys2Proof.Proofs

open Sys2Proof.Machine

/-- Settles O30: a clocking write judges each pin of its bank by the recorded times, and what a host write breaks is judged by free
values, which can be any. -/
theorem pullFollowsClock : Obligations.PullFollowsClock := by
  refine ⟨?during, ?unsettled, fun s v => ⟨rfl, rfl, fun hphase => s.breakPull_pull hphase⟩, ?clock, ?sequence⟩
  case during =>
    intro s i q k rest r v _ hseq hr
    obtain ⟨hsettle, hhold⟩ := pullPhase_pullDisable q rest
    have hphase : s.pullPhase = pullPhase ((pullDisable q).drop k ++ rest) := by simp only [State.pullPhase, hseq]
    exact ⟨fun h1 h2 => s.hostDevWrite_settle hr v (hphase.trans (hsettle k h1 h2)),
      fun h3 h4 p hp hbank hclocked any =>
        s.hostDevWrite_hold_any hr v (hphase.trans (hhold k h3 h4)) hp hbank hclocked any⟩
  case unsettled => exact fun s v p hp hv hfrom any => s.devWrite_gppudclk_any v (by omega) hv hfrom any
  case clock =>
    intro s n v p hp
    have hlt : p < 54 := by omega
    exact ⟨fun hbank => s.devWrite_gppudclk_otherBank n v hlt hbank,
      fun hbank hv hold => s.devWrite_gppudclk_untouched hlt hbank hv hold,
      fun w hbank hv hbroken hpud hsettled pull hpull => s.devWrite_gppudclk_settled hlt hbank hv hbroken hpud hsettled hpull,
      fun _ hbank hv hold hheld => s.devWrite_gppudclk_held hlt hbank hv hold hheld⟩
  case sequence =>
    exact fun s n g v a b p pull hseq ha hb hp hbank hv hpull => s.apply_pullSequence hseq ha hb (by omega) hbank hv hpull

end Sys2Proof.Proofs
end

section
/-! PROOFS. The coprocessor's pop, writes and push (60_exceptions.md R530, R531; 40_mailbox.md R201). -/

namespace Sys2Proof.Machine

variable (s : State)

/-- The pop of the head, with the layout of its request. -/
theorem State.coPop_cons {w : Word} {ws : List Word} (h : s.mbox.inbound = w :: ws) :
    s.coPop = { s with mbox := { s.mbox with inbound := ws, held := s.mbox.held ++ [s.popRequest w] } } := by
  simp [State.coPop, h]

/-! ## Write extent -/

/-- The tag format of a response, in the words of R530: word 1, a tag's length word with bit 31 set, or a value word. -/
theorem Layout.answers_iff (l : Layout) (i : Nat) (v : Word) :
    l.answers i v = true ↔ i = 1 ∨ ∃ t ∈ l.tags, i = t.start + 2 ∧ v.bit 31 = true ∨ t.start + 3 ≤ i ∧ i < t.start + 3 + t.values := by
  simp [Layout.answers]

theorem State.coWrite_of_may {a v : Word} (h : ∃ r ∈ s.mbox.held, r.mayWrite s.cfg a v = true) : s.coWrite a v = s.ramSetWord a v :=
  if_pos (List.any_eq_true.mpr h)

theorem State.coWrite_of_mayNot {a v : Word} (h : ¬∃ r ∈ s.mbox.held, r.mayWrite s.cfg a v = true) : s.coWrite a v = s :=
  if_neg (mt List.any_eq_true.mp h)

/-- A request lets the coprocessor write only the words 1 to `n - 1` of its buffer. -/
theorem Request.eq_word_of_mayWrite {c : Config} {r : Request} {a v : Word} (hr : r.layout ≠ none) (h : r.mayWrite c a v = true) :
    ∃ (l : Layout) (i : Nat), r.layout = some l ∧ 1 ≤ i ∧ i < l.words ∧ a = (r.word &&& 0xFFFFFFF0#32) + BitVec.ofNat 32 (4 * i) := by
  obtain hnone | ⟨l, i, hl, h1, hi, ha, -⟩ := (r.mayWrite_iff c a v).mp h
  · exact absurd hnone hr
  · refine ⟨l, i, hl, h1, hi, ?_⟩
    have hoff : a - (r.word &&& 0xFFFFFFF0#32) = BitVec.ofNat 32 (4 * i) := by
      rw [show (4 * i) = (a - requestBase r.word).toNat from ha.symm, BitVec.ofNat_toNat, BitVec.setWidth_eq, requestBase]
    rw [← hoff, BitVec.add_comm, BitVec.sub_add_cancel]

/-- A byte outside the words of the requests held stays. -/
theorem State.get_coWrite_outside {a v : Word} {b : Nat} (hlayout : ∀ r ∈ s.mbox.held, r.layout ≠ none)
    (hb : ∀ r ∈ s.mbox.held, ∀ l, r.layout = some l → ∀ i, 1 ≤ i → i < l.words → ∀ k < 4,
      b ≠ byteAddr ((r.word &&& 0xFFFFFFF0#32) + BitVec.ofNat 32 (4 * i)) k) :
    Memory.get (s.coWrite a v).ram b = Memory.get s.ram b := by
  by_cases hmay : ∃ r ∈ s.mbox.held, r.mayWrite s.cfg a v = true
  · obtain ⟨r, hr, hw⟩ := hmay
    obtain ⟨l, i, hl, h1, hi, rfl⟩ := Request.eq_word_of_mayWrite (hlayout r hr) hw
    rw [s.coWrite_of_may ⟨r, hr, hw⟩, State.get_ramSetWord_ne _ _ _ _ (hb r hr l hl i h1 hi)]
  · rw [s.coWrite_of_mayNot hmay]

/-! ## Pushes -/

/-- A response to the engine's own request needs a popped request of its word. -/
theorem State.coPush_own {w : Word} (hown : s.ownRequest = some w) (hheld : ∀ r ∈ s.mbox.held, r.word ≠ w) : s.coPush w = s := by
  have hmay : s.mayPush w = false := by
    rw [State.mayPush, Bool.or_eq_false_iff, List.any_eq_false]
    exact ⟨fun r hr => by simpa using hheld r hr, by simp [hown]⟩
  rw [State.coPush, hmay, Bool.false_and, if_neg Bool.false_ne_true]

/-- The oldest request of a word is answered first (70_reset_and_hazards.md R623; log 36). -/
theorem answered_append {before after : List Request} {r : Request} (h : ∀ q ∈ before, q.word ≠ r.word) :
    answered (before ++ r :: after) r.word = before ++ after := by
  induction before with
  | nil => simp [answered]
  | cons q qs ih =>
    rw [List.forall_mem_cons] at h
    rw [List.cons_append, answered, if_neg h.1, ih h.2, List.cons_append]

/-- A push that answers a request, with room in the outbound FIFO. -/
theorem State.coPush_answers {before after : List Request} {r : Request} (hheld : s.mbox.held = before ++ r :: after)
    (hbefore : ∀ q ∈ before, q.word ≠ r.word) (hroom : s.mbox.outbound.length < s.cfg.mboxFifoDepth) :
    s.coPush r.word = { s with mbox := { s.mbox with outbound := s.mbox.outbound ++ [r.word], held := before ++ after } } := by
  have hmay : s.mayPush r.word = true := by
    rw [State.mayPush, hheld]
    simp
  rw [State.coPush, hmay, Bool.true_and, if_pos (decide_eq_true hroom), hheld, answered_append hbefore]

/-- The request of a running mailbox command. -/
theorem State.ownRequest_of_seq {w : Word}
    (h : ∃ (ch : BitVec 4) (todo : List Op), s.seq = .run (.mboxSubmit ch) todo ∧ w = channelWord s.cfg ch ∨
      s.seq = .run .fbProvision todo ∧ w = channelWord s.cfg s.cfg.chProp) : s.ownRequest = some w := by
  obtain ⟨ch, todo, ⟨hseq, rfl⟩ | ⟨hseq, rfl⟩⟩ := h
  · simp [State.ownRequest, hseq]
  · simp [State.ownRequest, hseq]

end Sys2Proof.Machine

namespace Sys2Proof.Proofs

open Sys2Proof.Machine

/-- Settles O38: the pop takes the layout, which fixes what may be written, and a push answers the oldest request of its word. -/
theorem coprocessorExtent : Obligations.CoprocessorExtent := by
  refine ⟨?pop, ?extent, fun s a v b hlayout hb => s.get_coWrite_outside hlayout hb, ?push⟩
  case pop => exact fun s w ws h => ⟨_, s.coPop_cons h, fun l => s.requestLayout_eq_some _ l⟩
  case extent =>
    intro s a v may hmay
    have hiff : may ↔ ∃ r ∈ s.mbox.held, r.mayWrite s.cfg a v = true := by
      simp only [hmay, Request.mayWrite_iff, Layout.answers_iff]
      rfl
    exact ⟨fun h => s.coWrite_of_may (hiff.mp h), fun h => s.coWrite_of_mayNot (mt hiff.mpr h)⟩
  case push =>
    intro s w
    refine ⟨fun hown hheld => s.coPush_own (s.ownRequest_of_seq hown) hheld, ?_⟩
    rintro before after r hheld rfl hbefore hroom
    exact s.coPush_answers hheld hbefore hroom

end Sys2Proof.Proofs
end

section
/-! PROOFS. Held polls (60_exceptions.md R506): what the next step of one does, and when it stays held. -/

namespace Sys2Proof.Machine

variable {s t : State} {i : Instr} {r : Reg} {bit : Fin 32} {level : Bool} {rest todo : List Op}

/-! ## A read does not depend on SEQ -/

theorem State.useFree_goto (s : State) : (s.goto i todo).useFree = s.useFree.goto i todo := by
  unfold State.useFree State.goto
  cases s.noise <;> rfl

theorem State.advanceTimer_goto (s : State) (n : Nat) : (s.goto i todo).advanceTimer n = (s.advanceTimer n).goto i todo := by
  unfold State.advanceTimer State.goto
  split <;> rfl

theorem State.readInto_goto (s : State) (r : Reg) : (s.goto i todo).readInto r = (s.readInto r).goto i todo := by
  have hpop (u : State) : (u.goto i todo).popRead r = (u.popRead r).goto i todo := by cases r <;> rfl
  have hread : (s.goto i todo).devRead r = ((s.devRead r).1, (s.devRead r).2.goto i todo) := by
    have hfree : (s.goto i todo).readsFree r = s.readsFree r := by cases r <;> rfl
    have hvalue : (s.goto i todo).devValue (s.goto i todo).freeValue r = s.devValue s.freeValue r := by cases r <;> rfl
    rw [State.devRead, State.devRead, hfree, hvalue, State.useFree_goto]
    split <;> rw [hpop]
  rw [State.readInto, State.readInto, State.busRead, State.busRead, hread]
  rfl

theorem State.polled_goto (s : State) : (s.goto i todo).polled i r rest = s.polled i r rest := by
  rw [State.polled, State.advanceTimer_goto, State.polled, State.readInto_goto]
  rfl

/-! ## The next moves of a held poll -/

/-- The word a poll of `r` reads at the engine's next step has the bit at the level. -/
def State.seesNext (s : State) (r : Reg) (bit : Fin 32) (level : Bool) : Prop := (s.nextRead r).bit bit.val = level

theorem State.nextRead_goto (s : State) : (s.goto i todo).nextRead r = s.nextRead r := by
  rw [State.nextRead, State.goto_timer, State.advanceTimer_goto]
  cases r <;> rfl

theorem State.seesNext_goto (s : State) : (s.goto i todo).seesNext r bit level ↔ s.seesNext r bit level := by
  rw [State.seesNext, State.nextRead_goto, State.seesNext]

/-- A held poll that now sees its condition goes on. -/
theorem runLoop_resume (n : Nat) (hq : s.quiet = true) (hseq : s.seq = .run i (.compute (.pollTest r bit level) :: rest))
    (hheld : s.loc.v.bit bit.val ≠ level) (hsees : s.seesNext r bit level) (hrest : ∀ o ∈ rest.head?, o.mayHold = false) :
    runLoop (n + 3) s = runLoop n (s.polled i r rest) := by
  rw [runLoop_poll_again s i r bit level rest (n + 2) hq hseq hheld,
    runLoop_poll (s.goto i (waitUntil r bit level ++ rest)) i r bit level rest n hq rfl hrest (s.seesNext_goto.mpr hsees),
    State.polled_goto]

/-- A held poll that does not see its condition stays held. -/
theorem runLoop_stays (n : Nat) (hq : s.quiet = true) (hseq : s.seq = .run i (.compute (.pollTest r bit level) :: rest))
    (hheld : s.loc.v.bit bit.val ≠ level) (hsees : ¬s.seesNext r bit level) :
    runLoop (n + 2) s = s.polled i r (.compute (.pollTest r bit level) :: rest) := by
  rw [runLoop_poll_again s i r bit level rest (n + 1) hq hseq hheld,
    runLoop_poll_hold (s.goto i (waitUntil r bit level ++ rest)) i r bit level rest n hq rfl (mt s.seesNext_goto.mp hsees),
    State.polled_goto]

theorem Op.mayHold_of_plain {op : Op} (h : op.plain = true) : op.mayHold = false := by
  cases op with
  | compute c =>
    cases c with
    | sampleBit k => rfl
    | _ => cases h
  | _ => rfl

/-- After a poll, a plain point with no test after it goes on. -/
theorem runLoop_polled_op {op : Op} (n : Nat) (hq : s.quiet = true) (hop : op.plain = true) (hrest : ∀ o ∈ rest.head?, o.mayHold = false) :
    runLoop (n + 1) (s.polled i r (op :: rest)) = runLoop n ((s.polled i r (op :: rest)).engineStep i op rest) :=
  runLoop_go _ n (by simpa [State.polled, State.quiet] using hq) rfl (State.engineStep_plain_seq _ i op rest hop) hrest

/-- A poll that sees its condition, and a plain point with no test after it. -/
theorem runLoop_poll_op {op : Op} (n : Nat) (hq : s.quiet = true) (hseq : s.seq = .run i (waitUntil r bit level ++ op :: rest))
    (hop : op.plain = true) (hrest : ∀ o ∈ rest.head?, o.mayHold = false) (hsees : s.seesNext r bit level) :
    runLoop (n + 3) s = runLoop n ((s.polled i r (op :: rest)).engineStep i op rest) := by
  have hhead : ∀ o ∈ (op :: rest).head?, o.mayHold = false := by
    rintro o ⟨⟩
    exact Op.mayHold_of_plain hop
  rw [show n + 3 = (n + 1) + 2 from rfl, runLoop_poll s i r bit level _ _ hq hseq hhead hsees, runLoop_polled_op n hq hop hrest]

/-- The word of the poll's read is the one its test sees. -/
theorem State.polled_sees : (s.polled i r rest).loc.v.bit bit.val = level ↔ s.seesNext r bit level := by
  simp [State.polled, State.seesNext, State.nextRead]

/-- With nothing else to come, a step runs the command on. -/
theorem step_running {op : Op} (hwf : s.cfg.wf = true) (hscript : s.script = []) (hseq : s.seq = .run i (op :: rest)) :
    step s = .next (runLoop (runBound s) s) := by
  rw [step_engineTurn hwf hscript]
  simp [engineTurn, hseq]

theorem le_runBound (s : State) : 2 ^ 34 ≤ runBound s := by
  unfold runBound
  omega

theorem State.quiet_of_script (h : s.script = []) : s.quiet = true := by simp [State.quiet, h]

theorem State.quiet_of_script_eq (h : t.script = s.script) (hq : s.quiet = true) : t.quiet = true := by
  rw [State.quiet, h]
  exact hq

/-! ## Holds at a poll -/

/-- What a poll leaves alone: everything but the timer, the word read, the free values and the trace. -/
theorem State.polled_fields (s : State) (hmbox : r ≠ .mboxRead) (huart : r ≠ .auxMuIo) :
    (s.polled i r rest).cfg = s.cfg ∧ (s.polled i r rest).regs = s.regs ∧ (s.polled i r rest).mbox = s.mbox ∧
      (s.polled i r rest).gpio = s.gpio ∧ (s.polled i r rest).uart = s.uart ∧ (s.polled i r rest).ctrl = s.ctrl ∧
      (s.polled i r rest).ram = s.ram := by
  simp [State.polled, State.busRead_mbox _ r hmbox, State.busRead_uart _ r huart]

/-- A command held at a poll of a register whose next read shows no change either holds as R506 says. -/
theorem holdsAt_poll (hexec : exec i s = .next t) (hregs : t.regs = s.regs)
    (hseq : t.seq = .run i (.compute (.pollTest r bit level) :: rest)) (hwf : t.cfg.wf = true) (hscript : t.script = [])
    (hmbox : r ≠ .mboxRead) (huart : r ≠ .auxMuIo) (hheld : t.loc.v.bit bit.val ≠ level) (hsees : ¬t.seesNext r bit level) :
    HoldsAt i s t := by
  obtain ⟨n, hn⟩ : ∃ n, runBound t = n + 2 := ⟨runBound t - 2, by have := le_runBound t; omega⟩
  have hstep : step t = .next (t.polled i r (.compute (.pollTest r bit level) :: rest)) := by
    rw [step_running hwf hscript hseq, hn, runLoop_stays n (State.quiet_of_script hscript) hseq hheld hsees]
  obtain ⟨-, h2, h3, h4, h5, h6, h7⟩ := t.polled_fields (i := i) (rest := .compute (.pollTest r bit level) :: rest) hmbox huart
  exact ⟨hexec, ⟨_, hseq⟩, hregs, _, hstep, hseq.symm, h2, h3, h4, h5, h6, h7⟩

/-- A command that begins with a poll that does not see its condition holds there. -/
theorem exec_poll_holds (hq : s.quiet = true) (hstart : startOf s i = .program (waitUntil r bit level ++ rest)) (hmbox : r ≠ .mboxRead)
    (huart : r ≠ .auxMuIo) (hsees : ¬(s.started i (waitUntil r bit level ++ rest)).seesNext r bit level) :
    ∃ t, exec i s = .next t ∧ t.seq = .run i (.compute (.pollTest r bit level) :: rest) ∧ t.cfg = s.cfg ∧ t.script = s.script ∧
      t.regs = s.regs ∧ t.uart = s.uart ∧ t.loc.v.bit bit.val ≠ level := by
  set p := s.started i (waitUntil r bit level ++ rest)
  obtain ⟨hcfg, hregs, -, -, huart, -, -⟩ := p.polled_fields (i := i) (rest := .compute (.pollTest r bit level) :: rest) hmbox huart
  have hbound : runBound s = runBound s - 1 + 1 := by
    have := le_runBound s
    omega
  refine ⟨_, ?_, rfl, hcfg, by simp [State.polled, p, State.started], hregs, huart, mt State.polled_sees.mp hsees⟩
  rw [exec_eq, hstart, runCommand_program, hbound]
  exact congrArg _ (runLoop_poll_hold p i r bit level rest _ hq rfl hsees)

end Sys2Proof.Machine
end

section
/-! PROOFS. UART.PUTC, UART.PUTS, UART.PUTHEX and UART.GETC (45_uart.md R402 to R405, R411 to R415): what they send, and where they hold. -/

namespace Sys2Proof.Machine

variable {s t u : State} {i : Instr} {op : Op} {ops rest todo todo' : List Op} {b : Byte} {bs out out' : List Byte}
  {tr tr' : List BusEvent} {k m : Nat} {P Q : State → Prop}

/-! ## One byte -/

/-- The byte a point of PutChar writes, `opnd` being the operand (45_uart.md R402, R414). -/
def Op.byteSent (opnd : Word) : Op → Option Byte
  | .putByte b => some b
  | .putNibble k => some (hexDigit (nibble opnd k))
  | _ => none

/-- PutChar, its write being the point `op` (45_uart.md R402). -/
def sendOp (op : Op) : List Op := waitUntil .auxMuLsr Config.lsrTxeBit true ++ [op]

theorem State.stepOp_byteSent (h : op.byteSent s.opnd = some b) :
    s.stepOp i op rest = (s.busWrite .auxMuIo (b.setWidth 32)).goto i rest := by
  cases op with
  | putByte c | putNibble c =>
    cases h
    rfl
  | _ => cases h

theorem Op.byteSent_plain {opnd : Word} (h : op.byteSent opnd = some b) : op.plain = true ∧ op.isCompute = false := by
  cases op with
  | putByte c | putNibble c => exact ⟨rfl, rfl⟩
  | _ => cases h

/-- The state after PutChar whose first read of LSR shows room. -/
def State.sentByte (s : State) (i : Instr) (op : Op) (rest : List Op) : State :=
  (s.polled i .auxMuLsr (op :: rest)).engineStep i op rest

theorem Uart.push_byte (x : Uart) (depth : Nat) (b : Byte) :
    x.push depth (b.setWidth 32) = { x with tx := if x.tx.length < depth then x.tx ++ [b] else x.tx } := by
  have hbyte : (b.setWidth 32).extractLsb' 0 8 = b := by
    apply BitVec.eq_of_toNat_eq
    simp [BitVec.extractLsb'_toNat]
    omega
  rw [Uart.push, hbyte]
  split <;> rfl

/-- What PutChar leaves alone, the bytes in the transmit FIFO, and its two accesses (45_uart.md R402). -/
theorem State.sentByte_fields (s : State) (hop : op.byteSent s.opnd = some b) :
    (s.sentByte i op rest).cfg = s.cfg ∧ (s.sentByte i op rest).script = s.script ∧ (s.sentByte i op rest).regs = s.regs ∧
      (s.sentByte i op rest).opnd = s.opnd ∧ (s.sentByte i op rest).ram = s.ram ∧
      (s.sentByte i op rest).loc.prev = s.loc.prev ∧
      (s.sentByte i op rest).uart =
        { s.uart with tx := if s.uart.tx.length < s.cfg.uartFifoDepth then s.uart.tx ++ [b] else s.uart.tx } ∧
      (s.sentByte i op rest).trace =
        s.trace ++ [.rd (Reg.auxMuLsr.addr s.cfg) 4 (s.nextRead .auxMuLsr), .wr (Reg.auxMuIo.addr s.cfg) 4 (b.setWidth 32)] := by
  have hwrite : s.sentByte i op rest =
      (((s.polled i .auxMuLsr (op :: rest)).advanceTimer (s.polled i .auxMuLsr (op :: rest)).timer.rate).busWrite .auxMuIo
        (b.setWidth 32)).goto i rest := by
    rw [State.sentByte, State.engineStep_step _ _ _ _ (Op.byteSent_plain hop).2,
      State.stepOp_byteSent (b := b) (by simpa [State.polled] using hop)]
  rw [hwrite]
  refine ⟨?_, ?_, ?_, ?_, ?_, ?_, ?_, ?_⟩
  case refine_7 =>
    simp [State.busWrite, State.devWrite, Uart.push_byte, State.polled, State.busRead_uart _ .auxMuLsr nofun]
  case refine_8 => simp [State.busWrite_trace, State.polled, State.readInto_trace, State.nextRead]
  all_goals simp [State.polled]

/-! ## Progress of the UART's senders -/

theorem maskTrace_append (a : Word) (l l' : List BusEvent) : maskTrace a (l ++ l') = maskTrace a l ++ maskTrace a l' :=
  List.map_append

/-- From `s`, `k` moves, whatever fuel is left, lead to `t`: the program `todo` ahead, the bytes `out` sent, the events `tr` made but for
the values of LSR, and no other state of the command changed. -/
structure Sends (i : Instr) (s t : State) (k : Nat) (todo : List Op) (out : List Byte) (tr : List BusEvent) : Prop where
  run    : ∀ n, runLoop (n + k) s = runLoop n t
  seq    : t.seq = .run i todo
  cfg    : t.cfg = s.cfg
  script : t.script = s.script
  regs   : t.regs = s.regs
  opnd   : t.opnd = s.opnd
  ram    : t.ram = s.ram
  uart   : t.uart = { s.uart with tx := s.uart.tx ++ out }
  trace  : maskTrace (Reg.auxMuLsr.addr s.cfg) t.trace = maskTrace (Reg.auxMuLsr.addr s.cfg) (s.trace ++ tr)

/-- From `s`, `k` moves, whatever fuel is left, lead to the hold `t` of a PutChar, the bytes `out` sent before. -/
structure HoldsSending (i : Instr) (s t : State) (k : Nat) (out : List Byte) : Prop where
  run    : ∀ n, runLoop (n + k) s = t
  seq    : ∃ rest, t.seq = .run i (.compute (.pollTest .auxMuLsr Config.lsrTxeBit true) :: rest)
  cfg    : t.cfg = s.cfg
  script : t.script = s.script
  regs   : t.regs = s.regs
  uart   : t.uart = { s.uart with tx := s.uart.tx ++ out }
  full   : s.cfg.uartFifoDepth ≤ s.uart.tx.length + out.length
  sees   : t.loc.v.bit Config.lsrTxeBit.val ≠ true

theorem Sends.refl (hseq : s.seq = .run i todo) : Sends i s s 0 todo [] [] :=
  ⟨fun _ => rfl, hseq, rfl, rfl, rfl, rfl, rfl, by simp, by simp⟩

theorem Sends.trans (h : Sends i s t k todo out tr) (h' : Sends i t u m todo' out' tr') :
    Sends i s u (m + k) todo' (out ++ out') (tr ++ tr') where
  run n := by rw [← Nat.add_assoc, h.run, h'.run]
  seq := h'.seq
  cfg := h'.cfg.trans h.cfg
  script := h'.script.trans h.script
  regs := h'.regs.trans h.regs
  opnd := h'.opnd.trans h.opnd
  ram := h'.ram.trans h.ram
  uart := by rw [h'.uart, h.uart, List.append_assoc]
  trace := by
    have htrace := h'.trace
    rw [h.cfg] at htrace
    rw [htrace, maskTrace_append, h.trace, maskTrace_append, ← List.append_assoc, maskTrace_append (l' := tr'), maskTrace_append]

theorem Sends.trans_holds (h : Sends i s t k todo out tr) (h' : HoldsSending i t u m out') :
    HoldsSending i s u (m + k) (out ++ out') where
  run n := by rw [← Nat.add_assoc, h.run, h'.run]
  seq := h'.seq
  cfg := h'.cfg.trans h.cfg
  script := h'.script.trans h.script
  regs := h'.regs.trans h.regs
  uart := by rw [h'.uart, h.uart, List.append_assoc]
  full := by simpa [h.cfg, h.uart, Nat.add_assoc] using h'.full
  sees := h'.sees

theorem Sends.quiet (h : Sends i s t k todo out tr) (hq : s.quiet = true) : t.quiet = true := State.quiet_of_script_eq h.script hq

theorem Sends.enabled (h : Sends i s t k todo out tr) (henabled : s.uartEnabled = true) : t.uartEnabled = true := by
  simpa [State.uartEnabled, h.cfg, h.uart] using henabled

/-- The transmit FIFO has room for these bytes. -/
def State.txFits (s : State) (out : List Byte) : Prop := out = [] ∨ s.uart.tx.length + out.length ≤ s.cfg.uartFifoDepth

/-- At most `m` moves from `s` send the bytes `out`, to a state of `Q`, if there is room for them, and hold with those sent that fit, if
there is not. -/
structure SendsOrHolds (i : Instr) (s : State) (m : Nat) (todo : List Op) (out : List Byte) (tr : List BusEvent) (Q : State → Prop) :
    Prop where
  sends : s.txFits out → ∃ t, ∃ k ≤ m, Sends i s t k todo out tr ∧ Q t
  holds : ¬s.txFits out → ∃ t, ∃ k ≤ m, HoldsSending i s t k (out.take (s.cfg.uartFifoDepth - s.uart.tx.length))

/-- A sender after a sender, the second one from any state the first one leads to. -/
theorem SendsOrHolds.trans {n : Nat} (h : SendsOrHolds i s m todo out tr P)
    (h' : ∀ t k, Sends i s t k todo out tr → P t → SendsOrHolds i t n todo' out' tr' Q) :
    SendsOrHolds i s (n + m) todo' (out ++ out') (tr ++ tr') Q := by
  have hroom {t : State} {k : Nat} (ht : Sends i s t k todo out tr) :
      t.txFits out' ↔ out' = [] ∨ s.uart.tx.length + out.length + out'.length ≤ s.cfg.uartFifoDepth := by
    simp [State.txFits, ht.cfg, ht.uart]
  by_cases hfirst : s.txFits out
  case neg =>
    obtain ⟨hout, hfull⟩ := not_or.mp hfirst
    have hpos : 0 < out.length := List.length_pos_of_ne_nil hout
    refine ⟨fun hall => absurd hall ?_, fun _ => ?_⟩
    · simp only [State.txFits, List.append_eq_nil_iff, hout, false_and, false_or, List.length_append]
      omega
    · obtain ⟨t, k, hk, ht⟩ := h.holds hfirst
      rw [List.take_append_of_le_length (by omega)]
      exact ⟨t, k, by omega, ht⟩
  case pos =>
    obtain ⟨t, k, hk, ht, hP⟩ := h.sends hfirst
    refine ⟨fun hall => ?_, fun hall => ?_⟩
    · have hrest : t.txFits out' := (hroom ht).mpr (by
        obtain hnil | hle := hall
        · exact .inl (List.append_eq_nil_iff.mp hnil).2
        · exact .inr (by simpa [Nat.add_assoc] using hle))
      obtain ⟨u, l, hl, hu, hQ⟩ := (h' t k ht hP).sends hrest
      exact ⟨u, l + k, by omega, ht.trans hu, hQ⟩
    · have hrest : ¬t.txFits out' := fun hfits => hall (by
        obtain rfl | hle := (hroom ht).mp hfits
        · simpa using hfirst
        · exact .inr (by simpa [Nat.add_assoc] using hle))
      obtain ⟨u, l, hl, hu⟩ := (h' t k ht hP).holds hrest
      have htake : (out ++ out').take (s.cfg.uartFifoDepth - s.uart.tx.length) =
          out ++ out'.take (t.cfg.uartFifoDepth - t.uart.tx.length) := by
        obtain rfl | hle := hfirst
        · simp [ht.cfg, ht.uart]
        · rw [List.take_append, List.take_of_length_le (by omega), ht.cfg, ht.uart, List.length_append]
          congr 2
          omega
      exact ⟨u, l + k, by omega, htake ▸ ht.trans_holds hu⟩

theorem SendsOrHolds.mono {n : Nat} (h : SendsOrHolds i s m todo out tr Q) (hle : m ≤ n) : SendsOrHolds i s n todo out tr Q where
  sends hfits := let ⟨t, k, hk, ht⟩ := h.sends hfits; ⟨t, k, hk.trans hle, ht⟩
  holds hfull := let ⟨t, k, hk, ht⟩ := h.holds hfull; ⟨t, k, hk.trans hle, ht⟩

/-- Moves that send nothing do not hold. -/
theorem SendsOrHolds.of_sends (h : Sends i s t k todo [] tr) (hQ : Q t) : SendsOrHolds i s k todo [] tr Q where
  sends _ := ⟨t, k, le_rfl, h, hQ⟩
  holds hfull := absurd (.inl rfl) hfull

/-! ## PutChar of a list of bytes -/

/-- The enabled UART shows room when its transmit FIFO is not full (60_exceptions.md R525). -/
theorem State.seesNext_txe (s : State) (henabled : s.uartEnabled = true) :
    s.seesNext .auxMuLsr Config.lsrTxeBit true ↔ s.uart.tx.length < s.cfg.uartFifoDepth := by
  have hbit := (s.advanceTimer s.timer.rate).lsr_txe (s.advanceTimer s.timer.rate).freeValue (by simpa [State.uartEnabled] using henabled)
  rw [State.advanceTimer_uart, State.advanceTimer_cfg] at hbit
  exact (Eq.congr_left hbit).trans decide_eq_true_iff

/-- PutChar of one byte on the enabled UART. -/
theorem sendsOrHolds_sendOp (henabled : s.uartEnabled = true) (hop : op.byteSent s.opnd = some b) (hq : s.quiet = true)
    (hseq : s.seq = .run i (sendOp op ++ rest)) (hrest : ∀ o ∈ rest.head?, o.mayHold = false) :
    SendsOrHolds i s 3 rest [b] (putTrace s.cfg [b]) (fun t => t.loc.prev = s.loc.prev) := by
  have hplain := (Op.byteSent_plain hop).1
  have hpoll : s.seq = .run i (waitUntil .auxMuLsr Config.lsrTxeBit true ++ op :: rest) := by simp [hseq, sendOp]
  have hsees := s.seesNext_txe henabled
  refine ⟨fun hfits => ?_, fun hfull => ?_⟩
  · have hroom : s.uart.tx.length < s.cfg.uartFifoDepth := hfits.resolve_left nofun
    obtain ⟨hcfg, hscript, hregs, hopnd, hram, hprev, huart, htrace⟩ := s.sentByte_fields (i := i) (rest := rest) hop
    refine ⟨s.sentByte i op rest, 3, le_rfl, ⟨?_, State.engineStep_plain_seq _ i op rest hplain, hcfg, hscript, hregs, hopnd, hram, ?_, ?_⟩, hprev⟩
    · exact fun n => runLoop_poll_op n hq hpoll hplain hrest (hsees.mpr hroom)
    · rw [huart, if_pos hroom]
    · rw [htrace, maskTrace_append, maskTrace_append]
      simp [maskTrace, putTrace, BusEvent.maskRead]
  · have hroom : ¬s.uart.tx.length < s.cfg.uartFifoDepth := fun hlt => hfull (.inr hlt)
    obtain ⟨hcfg, hregs, -, -, huart, -, -⟩ :=
      s.polled_fields (i := i) (r := .auxMuLsr) (rest := .compute (.pollTest .auxMuLsr Config.lsrTxeBit true) :: op :: rest) nofun nofun
    have hnone : s.cfg.uartFifoDepth - s.uart.tx.length = 0 := by omega
    refine ⟨_, 1, by decide, ⟨fun n => runLoop_poll_hold s i _ _ _ _ n hq hpoll (mt hsees.mp hroom), ⟨_, rfl⟩, hcfg,
      by simp [State.polled], hregs, ?_, by simp; omega, ?_⟩⟩
    · rw [huart, hnone]
      simp
    · exact mt State.polled_sees.mp (mt hsees.mp hroom)

/-- PutChar of each byte of a list, in order. -/
theorem sendsOrHolds_sendOps (henabled : s.uartEnabled = true) (hops : List.Forall₂ (fun op b => op.byteSent s.opnd = some b) ops bs)
    (hq : s.quiet = true) (hseq : s.seq = .run i (ops.flatMap sendOp ++ rest)) (hrest : ∀ o ∈ rest.head?, o.mayHold = false) :
    SendsOrHolds i s (3 * bs.length) rest bs (putTrace s.cfg bs) (fun t => t.loc.prev = s.loc.prev) := by
  generalize hopnd : s.opnd = opnd at hops
  induction hops generalizing s with
  | nil => exact .of_sends (.refl hseq) rfl
  | @cons op b ops bs hop hops ih =>
    have hhead : ∀ o ∈ (ops.flatMap sendOp ++ rest).head?, o.mayHold = false := by
      cases ops with
      | nil => exact hrest
      | cons op' ops' => simp [sendOp, waitUntil, Op.mayHold]
    have hfirst := sendsOrHolds_sendOp henabled (hopnd ▸ hop) hq (rest := ops.flatMap sendOp ++ rest) (by simpa using hseq) hhead
    refine hfirst.trans (n := 3 * bs.length) fun t k ht hprev => ?_
    have := ih (s := t) (ht.enabled henabled) (ht.quiet hq) ht.seq (ht.opnd.trans hopnd)
    rw [hprev, ht.cfg] at this
    exact this

/-! ## The lines of UART.PUTS -/

/-- The string byte at index k (45_uart.md R413). -/
def State.strByte (s : State) (k : Nat) : Byte := Memory.get s.ram (byteAddr (strAddr s.opnd k) 0)

/-- UART.PUTS from index k on. -/
def lineOps (k len : Nat) : List Op := if k < len then strStep k len else []

theorem mayHold_head_lineOps {len : Nat} (hrest : ∀ o ∈ rest.head?, o.mayHold = false) :
    ∀ o ∈ (lineOps k len ++ rest).head?, o.mayHold = false := by
  unfold lineOps
  split
  · simp [strStep, Op.mayHold]
  · exact hrest

theorem putsOutput_cons (cs : Bool) (prev c : Byte) (str : List Byte) :
    putsOutput cs prev (c :: str) = if c = 0#8 then [] else lineBytes cs prev c ++ putsOutput cs c str := by
  by_cases hline : c = asciiLf ∧ ¬(cs = true ∧ prev = asciiCr)
  · have hline' : c = 0x0A#8 ∧ ¬(cs = true ∧ prev = 0x0D#8) := hline
    simp only [putsOutput, lineBytes, if_pos hline, if_pos hline']
    rfl
  · have hline' : ¬(c = 0x0A#8 ∧ ¬(cs = true ∧ prev = 0x0D#8)) := hline
    simp only [putsOutput, lineBytes, if_neg hline, if_neg hline']
    rfl

theorem putsTrace_cons (c : Config) (a : Word) (prev b : Byte) (k : Nat) (str : List Byte) :
    putsTrace c a prev k (b :: str) =
      [.rd (strAddr a k) 1 (b.setWidth 32)] ++
        (if b = 0#8 then [] else putTrace c (lineBytes c.crSuppress prev b) ++ putsTrace c a b (k + 1) str) := rfl

theorem length_lineBytes (cs : Bool) (prev c : Byte) : (lineBytes cs prev c).length ≤ 2 := by
  unfold lineBytes
  split
  · exact le_rfl
  · exact Nat.le_succ 1

/-- The state after the read of the string byte at index k, the program `todo` ahead. -/
def State.tookChar (s : State) (i : Instr) (k : Nat) (todo : List Op) : State :=
  (((s.advanceTimer s.timer.rate).record (.rd (strAddr s.opnd k) 1 ((s.strByte k).setWidth 32))).withLoc
    { s.loc with c := s.strByte k }).goto i todo

theorem State.engineStep_strRead (hin : s.cfg.inRam (byteAddr (strAddr s.opnd k) 0) = true) :
    s.engineStep i (.strRead k) rest = s.tookChar i k rest := by
  rw [State.engineStep_step _ _ _ _ rfl]
  simp [State.stepOp, State.ramReadByte, State.ramOr, hin, State.strByte, State.tookChar]

/-- The read of one string byte, which sends nothing (45_uart.md R413). -/
theorem sends_strStep {len : Nat} (hin : s.cfg.inRam (byteAddr (strAddr s.opnd k) 0) = true) (hq : s.quiet = true)
    (hseq : s.seq = .run i (strStep k len ++ rest))
    (hhead : ∀ o ∈ (afterString s.cfg.crSuppress s.loc.prev (s.strByte k) k len rest).head?, o.mayHold = false) :
    ∃ t, Sends i s t 2 (afterString s.cfg.crSuppress s.loc.prev (s.strByte k) k len rest) []
        [.rd (strAddr s.opnd k) 1 ((s.strByte k).setWidth 32)] ∧ t.loc.prev = s.strByte k := by
  set r := s.tookChar i k (.compute (.lineTest k len) :: rest) with hr
  have htest : r.engineStep i (.compute (.lineTest k len)) rest =
      (r.withLoc { r.loc with prev := s.strByte k }).goto i (afterString s.cfg.crSuppress s.loc.prev (s.strByte k) k len rest) := by
    rw [State.engineStep_compute, hr]
    simp [State.compute, State.tookChar]
  refine ⟨r.engineStep i (.compute (.lineTest k len)) rest, ⟨fun n => ?_, ?_, ?_, ?_, ?_, ?_, ?_, ?_, ?_⟩, ?_⟩ <;> rw [htest]
  case refine_1 =>
    have hread : s.seq = .run i (.strRead k :: .compute (.lineTest k len) :: rest) := hseq
    rw [runLoop_step s (n + 1) hq hread (State.engineStep_strRead hin) (State.held_of_seq _ rfl (by simp [Op.mayHold])),
      runLoop_step r n (by simpa [hr, State.tookChar, State.quiet] using hq) rfl htest (State.held_of_seq _ rfl hhead)]
  all_goals simp [hr, State.tookChar]

/-- The string from index k on, byte by byte. -/
theorem sendsOrHolds_string {len : Nat} (m : Nat) (henabled : s.uartEnabled = true) (hlen : k + m = len)
    (hin : ∀ j < len, s.cfg.inRam (byteAddr (strAddr s.opnd j) 0) = true) (hq : s.quiet = true)
    (hseq : s.seq = .run i (lineOps k len ++ rest)) (hrest : ∀ o ∈ rest.head?, o.mayHold = false) :
    SendsOrHolds i s (8 * m) rest (putsOutput s.cfg.crSuppress s.loc.prev ((List.range' k m).map s.strByte))
      (putsTrace s.cfg s.opnd s.loc.prev k ((List.range' k m).map s.strByte)) (fun _ => True) := by
  induction m generalizing s k with
  | zero =>
    have hdone : lineOps k len = [] := if_neg (by omega)
    exact .of_sends (.refl (by simpa [hdone] using hseq)) trivial
  | succ m ih =>
    have hstep : lineOps k len = strStep k len := if_pos (by omega)
    rw [hstep] at hseq
    rw [List.range'_succ, List.map_cons, putsOutput_cons, putsTrace_cons, show 8 * (m + 1) = (8 * m + 6) + 2 by omega]
    by_cases hnul : s.strByte k = 0#8
    case pos =>
      have hafter : afterString s.cfg.crSuppress s.loc.prev (s.strByte k) k len rest = rest := if_pos hnul
      obtain ⟨t, ht, -⟩ := sends_strStep (hin k (by omega)) hq hseq (by rwa [hafter])
      rw [if_pos hnul, if_pos hnul, List.append_nil]
      exact (SendsOrHolds.of_sends (hafter ▸ ht) trivial).mono (by omega)
    case neg =>
      have hafter : afterString s.cfg.crSuppress s.loc.prev (s.strByte k) k len rest =
          ((lineBytes s.cfg.crSuppress s.loc.prev (s.strByte k)).map Op.putByte).flatMap sendOp ++ (lineOps (k + 1) len ++ rest) := by
        rw [afterString, if_neg hnul, List.flatMap_map, List.append_assoc]
        rfl
      have hhead : ∀ o ∈ (lineOps (k + 1) len ++ rest).head?, o.mayHold = false := mayHold_head_lineOps hrest
      obtain ⟨t, ht, hprev⟩ := sends_strStep (hin k (by omega)) hq hseq (by
        rw [hafter]
        unfold lineBytes
        split <;> simp [sendOp, waitUntil, Op.mayHold])
      rw [if_neg hnul, if_neg hnul, ← List.nil_append (lineBytes _ _ _ ++ _)]
      refine (SendsOrHolds.of_sends ht (Q := fun t => t.loc.prev = s.strByte k) hprev).trans fun t _ ht hprev => ?_
      have hline := sendsOrHolds_sendOps (i := i) (ht.enabled henabled)
        (bs := lineBytes s.cfg.crSuppress s.loc.prev (s.strByte k))
        (List.forall₂_map_left_iff.mpr (List.forall₂_same.mpr fun _ _ => rfl)) (ht.quiet hq) (ht.seq.trans (by rw [hafter])) hhead
      rw [ht.cfg] at hline
      refine (hline.mono (n := 6) (by have := length_lineBytes s.cfg.crSuppress s.loc.prev (s.strByte k); omega)).trans
        fun u _ hu hprev' => ?_
      have hcfg : u.cfg = s.cfg := hu.cfg.trans ht.cfg
      have hopnd : u.opnd = s.opnd := hu.opnd.trans ht.opnd
      have hbytes : u.strByte = s.strByte := by
        funext j
        rw [State.strByte, hopnd, hu.ram, ht.ram, State.strByte]
      have hnext := ih (s := u) (k := k + 1) (hu.enabled (ht.enabled henabled)) (by omega) (by rwa [hcfg, hopnd])
        (hu.quiet (ht.quiet hq)) hu.seq
      rwa [hcfg, hopnd, hbytes, hprev', hprev] at hnext

theorem sendsOrHolds_puts {len : Nat} (henabled : s.uartEnabled = true) (hlen : s.opnd.toNat + len ≤ 2 ^ 32)
    (hin : ∀ j < len, s.cfg.inRam (s.opnd.toNat + j) = true) (hq : s.quiet = true) :
    SendsOrHolds i (s.started i (putsProgram len)) (8 * len) [.finish .plain] (putsOutput s.cfg.crSuppress 0x00#8 (s.ramBytes s.opnd len))
      (putsTrace s.cfg s.opnd 0x00#8 0 (s.ramBytes s.opnd len)) (fun _ => True) := by
  have haddr (j : Nat) (hj : j < len) : byteAddr (strAddr s.opnd j) 0 = s.opnd.toNat + j := by
    simp only [byteAddr, strAddr, BitVec.toNat_add, BitVec.toNat_ofNat]
    omega
  have hstring := sendsOrHolds_string (s := s.started i (putsProgram len)) (i := i) (k := 0) (rest := [.finish .plain]) len
    henabled (Nat.zero_add len) (fun j hj => (congrArg s.cfg.inRam (haddr j hj)).trans (hin j hj)) hq rfl (by simp [Op.mayHold])
  rw [← List.range_eq_range'] at hstring
  exact hstring

/-! ## The digits of UART.PUTHEX -/

theorem toNat_nibble (v : Word) (k : Nat) : (nibble v k).toNat = v.toNat / 16 ^ k % 16 := by
  simp [nibble, BitVec.extractLsb'_toNat, Nat.shiftRight_eq_div_pow, Nat.pow_mul]

theorem hexDigits_eq (v : Word) : hexDigits v = nibbleOrder.map fun k => hexDigit (nibble v k) := by
  simp only [hexDigits, hexDigit, toNat_nibble, nibbleOrder, apply_ite (BitVec.ofNat 8)]

theorem hexDigit_toNat (d : BitVec 4) :
    (d.toNat ≤ 9 → (hexDigit d).toNat = 0x30 + d.toNat) ∧ (10 ≤ d.toNat → (hexDigit d).toNat = 0x41 + (d.toNat - 10)) := by
  revert d
  decide

theorem sendsOrHolds_puthex (henabled : s.uartEnabled = true) (hq : s.quiet = true) :
    SendsOrHolds i (s.started i (nibbleOrder.flatMap putDigit ++ [.finish .plain])) 24 [.finish .plain] (hexDigits s.opnd)
      (putTrace s.cfg (hexDigits s.opnd)) (fun _ => True) := by
  have hdigits := sendsOrHolds_sendOps (s := s.started i (nibbleOrder.flatMap putDigit ++ [.finish .plain])) (i := i)
    (ops := nibbleOrder.map Op.putNibble) (bs := hexDigits s.opnd) (rest := [.finish .plain]) henabled
    (by
      rw [hexDigits_eq, List.forall₂_map_left_iff, List.forall₂_map_right_iff]
      exact List.forall₂_same.mpr fun _ _ => rfl) hq rfl (by simp [Op.mayHold])
  exact ⟨fun h => let ⟨t, k, hk, ht, _⟩ := hdigits.sends h; ⟨t, k, hk, ht, trivial⟩, hdigits.holds⟩

theorem sendsOrHolds_putc (henabled : s.uartEnabled = true) (hq : s.quiet = true) :
    SendsOrHolds i (s.started i (putChar b ++ [.finish .plain])) 3 [.finish .plain] [b] (putTrace s.cfg [b]) (fun _ => True) := by
  have hbyte := sendsOrHolds_sendOp (s := s.started i (putChar b ++ [.finish .plain])) (i := i) (op := .putByte b)
    (rest := [.finish .plain]) henabled rfl hq rfl (by simp [Op.mayHold])
  exact ⟨fun h => let ⟨t, k, hk, ht, _⟩ := hbyte.sends h; ⟨t, k, hk, ht, trivial⟩, hbyte.holds⟩

/-! ## The commands that send -/

/-- A command that sends its bytes completes when there is room for them. -/
theorem SendsOrHolds.completes {prog : List Op} (h : SendsOrHolds i (s.started i prog) m [.finish .plain] out tr Q)
    (hstart : startOf s i = .program prog) (hm : m < 2 ^ 34) (hq : s.quiet = true) (haccepted : s.accepted) (hfits : s.txFits out) :
    ∃ t, exec i s = .next t ∧ t.seq = .idle ∧ t.regs = { s.regs with status := s.doneStatus } ∧
      t.uart = { s.uart with tx := s.uart.tx ++ out } ∧
      maskTrace (Reg.auxMuLsr.addr s.cfg) t.trace = maskTrace (Reg.auxMuLsr.addr s.cfg) (s.trace ++ tr) := by
  obtain ⟨t, k, hk, ht, -⟩ := h.sends hfits
  refine ⟨(t.advanceTimer t.timer.rate).complete .plain, ?exec, State.complete_seq _ _, ?regs, ?uart, ?trace⟩
  case exec =>
    rw [exec_eq, hstart]
    exact runCommand_of_run s i prog .plain k t (ht.quiet hq) ht.seq (by unfold runBound; omega) ht.run
  case regs =>
    rw [State.complete_plain_regs, State.advanceTimer_regs, ht.regs]
    exact congrArg (fun status => { s.regs with status }) haccepted.completed
  case uart =>
    rw [State.complete_uart, State.advanceTimer_uart, ht.uart]
    rfl
  case trace =>
    rw [State.complete_trace, State.advanceTimer_trace]
    exact ht.trace

/-- A command that sends its bytes holds when there is no room for them, with those sent that fit. -/
theorem SendsOrHolds.holdsAt {prog : List Op} (h : SendsOrHolds i (s.started i prog) m [.finish .plain] out tr Q)
    (hstart : startOf s i = .program prog) (hm : m < 2 ^ 34) (hscript : s.script = []) (hwf : s.cfg.wf = true)
    (henabled : s.uartEnabled = true) (hfull : ¬s.txFits out) :
    ∃ t, HoldsAt i s t ∧ t.uart = { s.uart with tx := s.uart.tx ++ out.take (s.cfg.uartFifoDepth - s.uart.tx.length) } := by
  obtain ⟨t, k, hk, ht⟩ := h.holds hfull
  obtain ⟨rest, hseq⟩ := ht.seq
  have hexec : exec i s = .next t := by
    obtain ⟨n, hn⟩ : ∃ n, runBound s = n + k := ⟨runBound s - k, by unfold runBound; omega⟩
    rw [exec_eq, hstart, runCommand_program, hn]
    exact congrArg _ (ht.run n)
  have hsees : ¬t.seesNext .auxMuLsr Config.lsrTxeBit true := by
    have henabled' : t.uartEnabled = true := by
      rw [State.uartEnabled, ht.cfg, ht.uart]
      exact henabled
    rw [t.seesNext_txe henabled', ht.uart, ht.cfg, List.length_append]
    exact Nat.not_lt.mpr ht.full
  exact ⟨t, holdsAt_poll hexec ht.regs hseq (ht.cfg ▸ hwf) (ht.script.trans hscript) nofun nofun ht.sees hsees, ht.uart⟩

/-! ## Before the enable (45_uart.md R415) -/

/-- UART.PUTC on a UART whose LSR may read any value. -/
theorem exec_uartPutc (hq : s.quiet = true) (haccepted : s.accepted) :
    ∃ t, exec (.uartPutc b) s = .next t ∧
      (t.seq = .idle ∧ t.regs = { s.regs with status := s.doneStatus } ∧
          t.uart = { s.uart with tx := if s.uart.tx.length < s.cfg.uartFifoDepth then s.uart.tx ++ [b] else s.uart.tx } ∨
        (∃ todo, t.seq = .run (.uartPutc b) todo) ∧ t.regs = s.regs ∧ t.uart = s.uart) := by
  set r := s.started (.uartPutc b) (putChar b ++ [.finish .plain]) with hr
  have hseq : r.seq = .run (.uartPutc b) (waitUntil .auxMuLsr Config.lsrTxeBit true ++ .putByte b :: [.finish .plain]) := rfl
  by_cases hsees : r.seesNext .auxMuLsr Config.lsrTxeBit true
  case pos =>
    obtain ⟨-, hscript, hregs, -, -, -, huart, -⟩ :=
      r.sentByte_fields (i := .uartPutc b) (op := .putByte b) (b := b) (rest := [.finish .plain]) rfl
    set t := r.sentByte (.uartPutc b) (.putByte b) [.finish .plain] with ht
    have hexec : exec (.uartPutc b) s = .next ((t.advanceTimer t.timer.rate).complete .plain) :=
      runCommand_of_run s _ _ .plain 3 t (State.quiet_of_script_eq hscript hq) (State.engineStep_plain_seq _ _ _ _ rfl)
        (by unfold runBound; omega) fun n => runLoop_poll_op n hq hseq rfl (by simp [Op.mayHold]) hsees
    refine ⟨_, hexec, .inl ⟨State.complete_seq _ _, ?_, ?_⟩⟩
    · rw [State.complete_plain_regs, State.advanceTimer_regs, hregs]
      exact congrArg (fun status => { s.regs with status }) haccepted.completed
    · rw [State.complete_uart, State.advanceTimer_uart, huart]
      rfl
  case neg =>
    obtain ⟨n, hn⟩ : ∃ n, runBound s = n + 1 := ⟨runBound s - 1, by unfold runBound; omega⟩
    have hrest := r.polled_fields (i := .uartPutc b) (r := .auxMuLsr)
      (rest := .compute (.pollTest .auxMuLsr Config.lsrTxeBit true) :: .putByte b :: [.finish .plain]) nofun nofun
    obtain ⟨-, hregs, -, -, huart, -, -⟩ := hrest
    refine ⟨_, ?_, .inr ⟨⟨_, rfl⟩, hregs, huart⟩⟩
    rw [exec_eq, startOf, runCommand_program, hn]
    exact congrArg _ (runLoop_poll_hold r _ _ _ _ _ n hq hseq hsees)

/-- The points of the programs of UART.PUTS and UART.PUTHEX. -/
def Op.sends : Op → Bool
  | .poll .auxMuLsr | .compute (.pollTest .auxMuLsr _ _) | .compute (.lineTest _ _) | .strRead _ | .putByte _ | .putNibble _
  | .finish .plain => true
  | _ => false

/-- A command that sends, run from `s`: it is busy with points that send ahead, or it is done; of the UART it changes the transmit FIFO. -/
structure SendFrame (i : Instr) (s u : State) : Prop where
  uart  : u.uart = { s.uart with tx := u.uart.tx }
  state : (∃ todo, u.seq = .run i todo ∧ todo.all Op.sends = true ∧ u.regs = s.regs) ∨
    u.seq = .idle ∧ u.regs = { s.regs with status := s.regs.status.completed }

theorem all_sends_putChars (l : List Byte) : (l.flatMap putChar).all Op.sends = true := by
  rw [List.all_flatMap, List.all_eq_true]
  exact fun _ _ => rfl

theorem all_sends_afterString (cs : Bool) (prev c : Byte) (k len : Nat) (hrest : rest.all Op.sends = true) :
    (afterString cs prev c k len rest).all Op.sends = true := by
  unfold afterString
  split
  · exact hrest
  · simp only [List.all_append, all_sends_putChars, hrest]
    split <;> rfl

theorem SendFrame.running (h : s.uart = { u.uart with tx := s.uart.tx }) (hseq : s.seq = .run i todo)
    (hsends : todo.all Op.sends = true) (hregs : s.regs = u.regs) : SendFrame i u s :=
  ⟨h, .inl ⟨todo, hseq, hsends, hregs⟩⟩

/-- Each point that sends keeps the frame. -/
theorem SendFrame.engineStep (h : SendFrame i s u) (hseq : u.seq = .run i (op :: rest)) : SendFrame i s (u.engineStep i op rest) := by
  obtain ⟨huart, ⟨todo, htodo, hsends, hregs⟩ | ⟨hidle, -⟩⟩ := h
  case inr => exact absurd (hidle.symm.trans hseq) nofun
  obtain rfl : op :: rest = todo := by
    rw [hseq] at htodo
    injection htodo
  obtain ⟨hop, hrest⟩ := Bool.and_eq_true_iff.mp (List.all_cons ▸ hsends)
  have hwrite (b : Byte) : SendFrame i s (((u.advanceTimer u.timer.rate).busWrite .auxMuIo (b.setWidth 32)).goto i rest) := by
    refine .running ?_ rfl hrest (by simpa using hregs)
    have hpush : (((u.advanceTimer u.timer.rate).busWrite .auxMuIo (b.setWidth 32)).goto i rest).uart =
        { u.uart with tx := if u.uart.tx.length < u.cfg.uartFifoDepth then u.uart.tx ++ [b] else u.uart.tx } := by
      simp [State.busWrite, State.devWrite, Uart.push_byte]
    rw [hpush, huart]
  unfold Op.sends at hop
  split at hop
  case h_1 =>
    refine .running ?_ rfl hrest (by simpa [State.engineStep, State.stepOp] using hregs)
    simpa [State.engineStep, State.stepOp, State.busRead_uart _ .auxMuLsr nofun] using huart
  case h_2 bit level =>
    rw [State.engineStep_compute]
    refine .running huart rfl ?_ hregs
    split
    · exact hrest
    · exact hrest
  case h_3 k len =>
    rw [State.engineStep_compute]
    exact .running huart rfl (all_sends_afterString _ _ _ k len hrest) hregs
  case h_4 k =>
    refine .running ?_ rfl hrest (by simpa [State.engineStep, State.stepOp] using hregs)
    simpa [State.engineStep, State.stepOp] using huart
  case h_5 b => exact hwrite b
  case h_6 k =>
    rw [State.engineStep_step _ _ _ _ rfl, State.stepOp_byteSent rfl]
    exact hwrite _
  case h_7 =>
    refine ⟨by simpa [State.engineStep, State.stepOp] using huart, .inr ⟨rfl, ?_⟩⟩
    rw [State.engineStep, State.stepOp, State.complete_plain_regs]
    simp [hregs]
  case h_8 => cases hop

/-- UART.PUTS and UART.PUTHEX on a UART whose LSR may read any value. -/
theorem exec_sendFrame {prog : List Op} (hq : s.quiet = true) (haccepted : s.accepted) (hstart : startOf s i = .program prog)
    (hprog : prog.all Op.sends = true) :
    ∃ t, exec i s = .next t ∧ t.uart = { s.uart with tx := t.uart.tx } ∧
      (t.seq = .idle ∧ t.regs = { s.regs with status := s.doneStatus } ∨ (∃ todo, t.seq = .run i todo) ∧ t.regs = s.regs) := by
  have hframe : SendFrame i s (runLoop (runBound s) (s.started i prog)) := by
    refine runLoop_quiet_induction (P := SendFrame i s) (fun u j op rest hu hseq => ?_) _ _ hq (.running rfl rfl hprog rfl)
    obtain rfl : j = i := by
      obtain ⟨-, ⟨todo, htodo, -⟩ | ⟨hidle, -⟩⟩ := hu
      · rw [hseq] at htodo
        injection htodo
      · exact absurd (hidle.symm.trans hseq) nofun
    exact hu.engineStep hseq
  obtain ⟨huart, hstate⟩ := hframe
  refine ⟨_, by rw [exec_eq, hstart, runCommand_program]; rfl, huart, ?_⟩
  obtain ⟨todo, hseq, -, hregs⟩ | ⟨hidle, hregs⟩ := hstate
  · exact .inr ⟨⟨todo, hseq⟩, hregs⟩
  · exact .inl ⟨hidle, haccepted.completed ▸ hregs⟩

/-! ## UART.GETC -/

/-- The state after GetChar's read, LSR having shown a byte (45_uart.md R403). -/
def State.gotByte (s : State) (i : Instr) (rest : List Op) : State := (s.polled i .auxMuLsr (.rxRead :: rest)).engineStep i .rxRead rest

/-- The two reads of GetChar pop the receive FIFO, and the byte read is the one popped (45_uart.md R403). -/
theorem State.gotByte_fields (s : State) :
    ∃ v, (s.gotByte i rest).loc.v = v ∧ (s.gotByte i rest).cfg = s.cfg ∧ (s.gotByte i rest).script = s.script ∧
      (s.gotByte i rest).regs = s.regs ∧ (s.gotByte i rest).uart = { s.uart with rx := s.uart.rx.tail } ∧
      (s.gotByte i rest).trace =
        s.trace ++ [.rd (Reg.auxMuLsr.addr s.cfg) 4 (s.nextRead .auxMuLsr), .rd (Reg.auxMuIo.addr s.cfg) 4 v] ∧
      ∀ b bs, s.uart.rx = b :: bs → v.extractLsb' 0 8 = b := by
  set p := s.polled i .auxMuLsr (.rxRead :: rest) with hp
  have hpuart : (p.advanceTimer p.timer.rate).uart = s.uart := by
    simp [hp, State.polled, State.busRead_uart _ .auxMuLsr nofun]
  have hread : s.gotByte i rest = ((p.advanceTimer p.timer.rate).readInto .auxMuIo).goto i rest := by
    rw [State.gotByte, State.engineStep_step _ _ _ _ rfl]
    rfl
  rw [hread]
  refine ⟨((p.advanceTimer p.timer.rate).busRead .auxMuIo).1, by simp, by simp [hp, State.polled], by simp [hp, State.polled],
    by simp [hp, State.polled], ?_, ?_, fun b bs hrx => ?_⟩
  · rw [State.goto_uart, State.readInto_uart, State.busRead, State.record_uart, State.devRead_auxMuIo, hpuart]
  · simp [State.readInto_trace, hp, State.polled, State.nextRead]
  · have hvalue : ((p.advanceTimer p.timer.rate).busRead .auxMuIo).1 =
        ((p.advanceTimer p.timer.rate).freeValue.extractLsb' 8 24 ++ b : BitVec 32) := by
      simp only [State.busRead, State.devRead, State.devValue, hpuart, hrx]
    rw [hvalue, BitVec.extractLsb'_append_eq_right]

/-- The enabled UART shows a byte when its receive FIFO is not empty (60_exceptions.md R525). -/
theorem State.seesNext_dr (s : State) (henabled : s.uartEnabled = true) :
    s.seesNext .auxMuLsr Config.lsrDrBit true ↔ s.uart.rx ≠ [] := by
  have hbit := (s.advanceTimer s.timer.rate).lsr_dr (s.advanceTimer s.timer.rate).freeValue (by simpa [State.uartEnabled] using henabled)
  rw [State.advanceTimer_uart] at hbit
  refine (Eq.congr_left hbit).trans ?_
  rw [Bool.not_eq_true', ← Bool.not_eq_true, List.isEmpty_iff]

theorem seesNext_getc (henabled : s.uartEnabled = true) :
    (s.started .uartGetc (getChar ++ [.finish .getc])).seesNext .auxMuLsr Config.lsrDrBit true ↔ s.uart.rx ≠ [] := by
  have hstarted : (s.started .uartGetc (getChar ++ [.finish .getc])).uartEnabled = true := henabled
  rw [State.seesNext_dr _ hstarted]
  rfl

theorem State.complete_getc_regs (s : State) :
    (s.complete .getc).regs =
      { s.regs with
        status := s.regs.status.completed, res0 := (normalizeCr (s.loc.v.extractLsb' 0 8)).setWidth 32 } := rfl

/-- UART.GETC completes when LSR shows a byte. -/
theorem exec_uartGetc_sees (hq : s.quiet = true) (haccepted : s.accepted)
    (hsees : (s.started .uartGetc (getChar ++ [.finish .getc])).seesNext .auxMuLsr Config.lsrDrBit true) :
    ∃ (t : State) (v : Word), exec .uartGetc s = .next t ∧ t.seq = .idle ∧
      t.regs = { s.regs with status := s.doneStatus, res0 := (normalizeCr (v.extractLsb' 0 8)).setWidth 32 } ∧
      t.uart = { s.uart with rx := s.uart.rx.tail } ∧ (∀ b bs, s.uart.rx = b :: bs → v.extractLsb' 0 8 = b) ∧
      maskTrace (Reg.auxMuLsr.addr s.cfg) t.trace =
        maskTrace (Reg.auxMuLsr.addr s.cfg)
          (s.trace ++ [.rd (Reg.auxMuLsr.addr s.cfg) 4 0#32, .rd (Reg.auxMuIo.addr s.cfg) 4 v]) := by
  set r := s.started .uartGetc (getChar ++ [.finish .getc]) with hr
  obtain ⟨v, hv, hcfg, hscript, hregs, huart, htrace, hbyte⟩ := r.gotByte_fields (i := .uartGetc) (rest := [.finish .getc])
  set t := r.gotByte .uartGetc [.finish .getc] with ht
  have hexec : exec .uartGetc s = .next ((t.advanceTimer t.timer.rate).complete .getc) :=
    runCommand_of_run s _ _ .getc 3 t (State.quiet_of_script_eq hscript hq) (State.engineStep_plain_seq _ _ _ _ rfl)
      (by unfold runBound; omega) fun n => runLoop_poll_op n hq rfl rfl (by simp [Op.mayHold]) hsees
  refine ⟨_, v, hexec, State.complete_seq _ _, ?_, ?_, hbyte, ?_⟩
  · rw [State.complete_getc_regs, State.advanceTimer_regs, State.advanceTimer_loc, hregs, hv, ← haccepted.completed]
    rfl
  · rw [State.complete_uart, State.advanceTimer_uart, huart]
    rfl
  · rw [State.complete_trace, State.advanceTimer_trace, htrace, maskTrace_append, maskTrace_append]
    simp [maskTrace, BusEvent.maskRead, hr, State.started]

/-- UART.GETC holds when LSR shows no byte. -/
theorem exec_uartGetc_holds (hq : s.quiet = true)
    (hsees : ¬(s.started .uartGetc (getChar ++ [.finish .getc])).seesNext .auxMuLsr Config.lsrDrBit true) :
    ∃ t, exec .uartGetc s = .next t ∧
      t.seq = .run .uartGetc (.compute (.pollTest .auxMuLsr Config.lsrDrBit true) :: .rxRead :: [.finish .getc]) ∧
      t.cfg = s.cfg ∧ t.script = s.script ∧ t.regs = s.regs ∧ t.uart = s.uart ∧ t.loc.v.bit Config.lsrDrBit.val ≠ true :=
  exec_poll_holds (rest := .rxRead :: [.finish .getc]) hq rfl nofun nofun hsees

theorem normalizeCr_ne (b : Byte) : normalizeCr b ≠ 0x0D#8 := by
  unfold normalizeCr
  split
  · decide
  · assumption

end Sys2Proof.Machine

namespace Sys2Proof.Proofs

open Sys2Proof.Machine

/-- Settles O55: with room the byte is sent; and whatever LSR reads, the command is past its poll or held there. -/
theorem uartPutcCompletes : Obligations.UartPutcCompletes :=
  fun _ _ hq haccepted => ⟨fun henabled hroom =>
    (sendsOrHolds_putc henabled hq).completes rfl (by decide) hq haccepted (.inr hroom), fun _ => exec_uartPutc hq haccepted⟩

/-- Settles O56: with a byte the poll sees it; and whatever LSR reads, the command is past its poll or held there. -/
theorem uartGetcCompletes : Obligations.UartGetcCompletes := by
  intro s hq haccepted
  constructor
  case left =>
    intro b bs henabled hrx
    have hsees : (s.started .uartGetc (getChar ++ [.finish .getc])).seesNext .auxMuLsr Config.lsrDrBit true :=
      (seesNext_getc henabled).mpr (by simp [hrx])
    obtain ⟨t, v, hexec, hseq, hregs, huart, hbyte, htrace⟩ := exec_uartGetc_sees hq haccepted hsees
    rw [hbyte b bs hrx] at hregs
    rw [hrx] at huart
    exact ⟨t, v, hexec, hseq, hregs, huart, hbyte b bs hrx, htrace⟩
  case right =>
    intro _
    by_cases hsees : (s.started .uartGetc (getChar ++ [.finish .getc])).seesNext .auxMuLsr Config.lsrDrBit true
    case pos =>
      obtain ⟨t, v, hexec, hseq, hregs, huart, hbyte, -⟩ := exec_uartGetc_sees hq haccepted hsees
      have hres : t.regs.res0 = (normalizeCr (v.extractLsb' 0 8)).setWidth 32 := by rw [hregs]
      refine ⟨t, hexec, .inl ⟨hseq, by rw [hres]; exact hregs, ?_, ?_, ?_, huart⟩⟩
      · rw [hres, BitVec.toNat_setWidth_of_le (by decide)]
        exact BitVec.isLt _
      · rw [hres]
        intro h
        exact normalizeCr_ne (v.extractLsb' 0 8) (by simpa using congrArg (BitVec.setWidth 8) h)
      · intro b bs hrx
        rw [hres, hbyte b bs hrx]
        rfl
    case neg =>
      obtain ⟨t, hexec, hseq, -, -, hregs, huart, -⟩ := exec_uartGetc_holds hq hsees
      exact ⟨t, hexec, .inr ⟨⟨_, hseq⟩, hregs, huart⟩⟩

/-- Settles O57: each line's bytes are sent after the read of its byte; before the enable the points that send change the transmit FIFO
only. -/
theorem uartPutsCompletes : Obligations.UartPutsCompletes := by
  intro s len hq haccepted hlen
  have hstart : startOf s (.uartPuts len) = .program (putsProgram len.toNat) := if_pos (decide_eq_true hlen)
  constructor
  case left =>
    rintro str out henabled hin rfl rfl hroom
    exact (sendsOrHolds_puts henabled hlen hin hq).completes hstart (by omega) hq haccepted (.inr hroom)
  case right =>
    intro _
    refine exec_sendFrame hq haccepted hstart ?_
    unfold putsProgram
    split <;> rfl

/-- Settles O58: the eight digits are sent one by one. -/
theorem uartPuthexCompletes : Obligations.UartPuthexCompletes :=
  ⟨fun _ hq haccepted => ⟨fun henabled hroom =>
    (sendsOrHolds_puthex henabled hq).completes rfl (by decide) hq haccepted (.inr hroom),
    fun _ => exec_sendFrame hq haccepted rfl rfl⟩, hexDigit_toNat⟩

/-- Settles O59: a sender holds at the first byte that finds no room, and UART.GETC at its poll. -/
theorem uartHolds : Obligations.UartHolds := by
  intro s hscript haccepted hwf henabled
  have hq := State.quiet_of_script hscript
  refine ⟨?putc, ?puts, ?puthex, ?getc⟩
  case putc =>
    intro b hfull
    obtain ⟨t, ht, huart⟩ := (sendsOrHolds_putc (i := .uartPutc b) (b := b) henabled hq).holdsAt rfl (by decide) hscript hwf henabled
      (by simp [State.txFits]; omega)
    rw [show s.cfg.uartFifoDepth - s.uart.tx.length = 0 by omega, List.take_zero, List.append_nil] at huart
    exact ⟨t, ht, huart⟩
  case puts =>
    rintro len out hlen hin rfl hne hfull
    exact (sendsOrHolds_puts henabled hlen hin hq).holdsAt (if_pos (decide_eq_true hlen)) (by omega) hscript hwf henabled
      (by simp only [State.txFits, hne, false_or]; omega)
  case puthex =>
    intro hfull
    exact (sendsOrHolds_puthex henabled hq).holdsAt rfl (by decide) hscript hwf henabled
      (by simp only [State.txFits, not_or]; exact ⟨List.cons_ne_nil _ _, Nat.not_le.mpr hfull⟩)
  case getc =>
    intro hrx
    have hnone : ¬(s.started .uartGetc (getChar ++ [.finish .getc])).seesNext .auxMuLsr Config.lsrDrBit true :=
      fun h => (seesNext_getc henabled).mp h hrx
    obtain ⟨t, hexec, hseq, hcfg, hs, hregs, huart, hheld⟩ := exec_uartGetc_holds hq hnone
    have henabled' : t.uartEnabled = true := by rwa [State.uartEnabled, hcfg, huart]
    refine ⟨t, holdsAt_poll hexec hregs hseq (hcfg ▸ hwf) (hs.trans hscript) nofun nofun hheld ?_, huart⟩
    rw [State.seesNext_dr t henabled', huart]
    exact fun h => h hrx

end Sys2Proof.Proofs
end

section
/-! PROOFS. TMR.NOW and TMR.DELAY (43_timer.md R320 to R325, R330, R331): the value of a Now() on a counter that moves at a rate, the end
of a Delay on a running counter, and the hold of one on a stopped counter. -/

namespace Sys2Proof.Machine

variable {s : State} {i : Instr} {rest todo : List Op} {c : BitVec 64} {u : NowUse} {n : Word}

/-! ## The reads of a Now(), with their values -/

/-- What CHI reads of a count below 2^64 (60_exceptions.md R526). -/
def chiOf (count : Nat) : Word := (BitVec.ofNat 64 count).extractLsb' 32 32

/-- What CLO reads of a count below 2^64 (60_exceptions.md R526). -/
def cloOf (count : Nat) : Word := (BitVec.ofNat 64 count).extractLsb' 0 32

theorem toNat_chiOf {count : Nat} (h : count < 2 ^ 64) : (chiOf count).toNat = count / 2 ^ 32 := by
  rw [chiOf, BitVec.extractLsb'_toNat, BitVec.toNat_ofNat, Nat.mod_eq_of_lt h, Nat.shiftRight_eq_div_pow]
  omega

theorem toNat_cloOf (count : Nat) : (cloOf count).toNat = count % 2 ^ 32 := by
  rw [cloOf, BitVec.extractLsb'_toNat, BitVec.toNat_ofNat, Nat.shiftRight_zero]
  omega

/-- The state after the reads of CHI and CLO at the next two engine steps. -/
def State.readHalves (s : State) (i : Instr) (todo : List Op) : State :=
  s.atCounter i todo { s.loc with hi := chiOf (s.timer.count + s.timer.rate), lo := cloOf (s.timer.count + 2 * s.timer.rate) }
    (s.timer.count + 2 * s.timer.rate)
    (s.trace ++
      [.rd (Reg.systmrChi.addr s.cfg) 4 (chiOf (s.timer.count + s.timer.rate)),
        .rd (Reg.systmrClo.addr s.cfg) 4 (cloOf (s.timer.count + 2 * s.timer.rate))])

theorem runLoop_readHalves (hq : s.quiet = true) (hp : s.cfg.timerPresent = true) (hc : s.timer.count + 2 * s.timer.rate < 2 ^ 64)
    (hseq : s.seq = .run i (.chiRead :: .cloRead :: todo)) (hheld : (s.readHalves i todo).held = false) (m : Nat) :
    runLoop (m + 2) s = runLoop m (s.readHalves i todo) := by
  set r := s.atCounter i (.cloRead :: todo) { s.loc with hi := chiOf (s.timer.count + s.timer.rate) }
    (s.timer.count + s.timer.rate) (s.trace ++ [s.chiEvent]) with hr
  have hchi : s.engineStep i .chiRead (.cloRead :: todo) = r := s.engineStep_chiRead i (.cloRead :: todo) hp (by omega)
  have hcount : r.timer.count + r.timer.rate = s.timer.count + 2 * s.timer.rate := by
    simp only [hr, State.atCounter]
    omega
  have hclo := r.engineStep_cloRead i todo hp (by omega)
  have hhalves : r.atCounter i todo { r.loc with lo := cloOf (r.timer.count + r.timer.rate) } (r.timer.count + r.timer.rate)
      (r.trace ++ [r.cloEvent]) = s.readHalves i todo := by
    rw [State.cloEvent, hcount]
    simp [hr, State.readHalves, State.atCounter, State.chiEvent, chiOf, cloOf]
  rw [runLoop_step s (m + 1) hq hseq hchi (State.held_of_seq _ rfl (by simp [Op.mayHold])),
    runLoop_step r m hq rfl (hclo.trans hhalves) hheld]

/-- The values a Now() for a result returns, its first read being the next engine step: those of its first pair of reads, or after a carry
those of its second (43_timer.md R320). -/
theorem runLoop_nowResult (hq : s.quiet = true) (hp : s.cfg.timerPresent = true) (hc : s.timer.count + 5 * s.timer.rate < 2 ^ 64)
    (hseq : s.seq = .run i (nowOps .result ++ rest)) (hrest : ∀ o ∈ rest.head?, o.mayHold = false) :
    ∃ t k, k ≤ 7 ∧ (∀ m, runLoop (m + k) s = runLoop m t) ∧ t.quiet = true ∧ t.seq = .run i rest ∧
      ((s.timer.count + s.timer.rate) / 2 ^ 32 = (s.timer.count + 3 * s.timer.rate) / 2 ^ 32 ∧
          t.loc.hi = chiOf (s.timer.count + s.timer.rate) ∧ t.loc.lo = cloOf (s.timer.count + 2 * s.timer.rate) ∨
        (s.timer.count + s.timer.rate) / 2 ^ 32 ≠ (s.timer.count + 3 * s.timer.rate) / 2 ^ 32 ∧
          t.loc.hi = chiOf (s.timer.count + 4 * s.timer.rate) ∧ t.loc.lo = cloOf (s.timer.count + 5 * s.timer.rate)) := by
  set r := s.readHalves i (.chiCheck :: .compute (.nowTest .result) :: rest) with hr
  have hpair (m : Nat) : runLoop (m + 2) s = runLoop m r :=
    runLoop_readHalves hq hp (by omega) hseq (State.held_of_seq r rfl (by simp [Op.mayHold])) m
  have hcount : r.timer.count + r.timer.rate = s.timer.count + 3 * s.timer.rate := by
    simp only [hr, State.readHalves, State.atCounter]
    omega
  set w := r.atCounter i (.compute (.nowTest .result) :: rest) { r.loc with v := chiOf (s.timer.count + 3 * s.timer.rate) }
    (s.timer.count + 3 * s.timer.rate) (r.trace ++ [r.chiEvent]) with hw
  have hcheck : r.engineStep i .chiCheck (.compute (.nowTest .result) :: rest) = w := by
    rw [r.engineStep_chiCheck i (.compute (.nowTest .result) :: rest) hp (by omega), hcount]
    rfl
  have hreads (m : Nat) : runLoop (m + 3) s = runLoop m w := by
    rw [hpair (m + 1), runLoop_step r m hq rfl hcheck (State.held_before_result rfl (.inl rfl))]
  have hsame : w.loc.v = w.loc.hi ↔ (s.timer.count + s.timer.rate) / 2 ^ 32 = (s.timer.count + 3 * s.timer.rate) / 2 ^ 32 :=
    eq_comm.trans (high_eq_iff _ _ (by omega) (by omega))
  by_cases hcarry : w.loc.v = w.loc.hi
  case pos =>
    have htest := w.engineStep_nowTest_same i .result rest hcarry
    refine ⟨w.engineStep i (.compute (.nowTest .result)) rest, 4, by decide, fun m => ?_, ?_, ?_, ?_⟩ <;> rw [htest]
    · rw [hreads (m + 1), runLoop_step w m hq rfl htest (State.held_of_seq _ rfl hrest)]
    · exact hq
    · rfl
    · exact .inl ⟨hsame.mp hcarry, rfl, rfl⟩
  case neg =>
    have htest := w.engineStep_nowTest_changed i .result rest hcarry
    set x := w.atCounter i (nowRetry .result ++ rest) w.loc w.timer.count w.trace
    have hxcount : x.timer.count = s.timer.count + 3 * s.timer.rate := rfl
    have hxrate : x.timer.rate = s.timer.rate := rfl
    set y := x.readHalves i (.compute (.nowDone .result) :: rest)
    have hretry (m : Nat) : runLoop (m + 2) x = runLoop m y :=
      runLoop_readHalves (s := x) hq hp (by omega) rfl (State.held_before_result rfl (.inr rfl)) m
    refine ⟨y.engineStep i (.compute (.nowDone .result)) rest, 7, le_rfl, fun m => ?_, ?_, ?_, ?_⟩ <;>
      rw [y.engineStep_nowDone i .result rest]
    · rw [hreads (m + 4), runLoop_step w (m + 3) hq rfl htest (State.held_of_seq _ rfl (by simp [nowRetry, Op.mayHold])), hretry,
        runLoop_step y m hq rfl (y.engineStep_nowDone i .result rest) (State.held_of_seq _ rfl hrest)]
    · exact hq
    · rfl
    · have h4 : x.timer.count + x.timer.rate = s.timer.count + 4 * s.timer.rate := by omega
      have h5 : x.timer.count + 2 * x.timer.rate = s.timer.count + 5 * s.timer.rate := by omega
      exact .inr ⟨mt hsame.mpr hcarry, congrArg chiOf h4, congrArg cloOf h5⟩

/-- A number of engine steps, from the time they take at a rate of at least 1. -/
theorem steps_le {k a b r : Nat} (hr : 0 < r) (h : k * r ≤ a + b * r) : k ≤ a + b := by
  by_contra hlarge
  have hmul : (a + b + 1) * r ≤ k * r := Nat.mul_le_mul_right _ (by omega)
  have hone : a ≤ a * r := Nat.le_mul_of_pos_right _ hr
  rw [Nat.add_mul, Nat.add_mul] at hmul
  omega

/-! ## Delay on a stopped counter (43_timer.md R322, R325) -/

/-- The state at the test of a Now() that has read the standing count `c`. -/
def State.atNowTest (s : State) (i : Instr) (u : NowUse) (rest : List Op) (c : BitVec 64) : State :=
  s.atCounter i (.compute (.nowTest u) :: rest) { s.loc with hi := c.extractLsb' 32 32, lo := c.extractLsb' 0 32, v := c.extractLsb' 32 32 }
    s.timer.count
    (s.trace ++ [.rd (Reg.systmrChi.addr s.cfg) 4 (c.extractLsb' 32 32), .rd (Reg.systmrClo.addr s.cfg) 4 (c.extractLsb' 0 32),
      .rd (Reg.systmrChi.addr s.cfg) 4 (c.extractLsb' 32 32)])

theorem State.atNowTest_held (hrate : s.timer.rate = 0) (hloop : delayHolds u c s.loc.t0 = true) :
    (s.atNowTest i u rest c).held = true := by
  have hvalue : (c.extractLsb' 32 32 ++ c.extractLsb' 0 32 : BitVec 64) = c := halves_append c
  simp [State.held, State.atNowTest, State.atCounter, hrate, hvalue, hloop]

/-- A reading that leaves Delay in its loop holds, when the counter is stopped. -/
theorem State.CounterStands.runLoop_now_hold (h : s.CounterStands c) (hrate : s.timer.rate = 0) (hq : s.quiet = true)
    (hseq : s.seq = .run i (nowOps u ++ rest)) (hloop : delayHolds u c s.loc.t0 = true) (m : Nat) :
    runLoop (m + 3) s = s.atNowTest i u rest c := by
  have hchi := h.engineStep_chiRead (i := i) (rest := [.cloRead, .chiCheck, .compute (.nowTest u)] ++ rest)
  set s1 := s.atCounter i ([.cloRead, .chiCheck, .compute (.nowTest u)] ++ rest) _ _ _
  have h1 : s1.CounterStands c := h.atCounter _ _ _
  have hclo := h1.engineStep_cloRead (i := i) (rest := [.chiCheck, .compute (.nowTest u)] ++ rest)
  set s2 := s1.atCounter i ([.chiCheck, .compute (.nowTest u)] ++ rest) _ _ _ with hs2
  have h2 : s2.CounterStands c := h1.atCounter _ _ _
  have hcheck : s2.engineStep i .chiCheck (.compute (.nowTest u) :: rest) = s.atNowTest i u rest c := by
    rw [h2.engineStep_chiCheck]
    simp [s2, s1, State.atCounter, State.atNowTest]
  rw [runLoop_step s (m + 2) hq hseq hchi (State.held_of_seq _ rfl (by simp [Op.mayHold])),
    runLoop_step s1 (m + 1) hq rfl hclo (State.held_of_seq _ rfl (by simp [Op.mayHold])),
    runLoop_quiet s2 m hq rfl]
  show (if (s2.engineStep i .chiCheck (.compute (.nowTest u) :: rest)).held = true then _ else _) = _
  rw [hcheck, if_pos (State.atNowTest_held hrate hloop)]
  exact hcheck

/-- The next step of a held Delay makes its Now() again, and holds again. -/
theorem State.CounterStands.step_atNowTest (h : s.CounterStands c) (hrate : s.timer.rate = 0) (hwf : s.cfg.wf = true)
    (hscript : s.script = []) (hloop : delayHolds (.delayAgain n) c s.loc.t0 = true) :
    ∃ t, step (s.atNowTest i (.delayAgain n) rest c) = .next t ∧ t.seq = (s.atNowTest i (.delayAgain n) rest c).seq ∧
      t.regs = s.regs ∧ t.mbox = s.mbox ∧ t.gpio = s.gpio ∧ t.uart = s.uart ∧ t.ctrl = s.ctrl ∧ t.ram = s.ram := by
  have hq := State.quiet_of_script hscript
  set r := s.atNowTest i (.delayAgain n) rest c with hr
  have hvalue : (r.loc.hi ++ r.loc.lo : BitVec 64) = c := halves_append c
  have hlt : ¬s.loc.t0.toNat + n.toNat ≤ c.toNat := Nat.not_le.mpr (of_decide_eq_true hloop)
  have htest := r.engineStep_nowTest_same i (.delayAgain n) rest rfl
  rw [hvalue, show afterNow (.delayAgain n) c r.loc.t0 rest = nowOps (.delayAgain n) ++ rest from if_neg hlt] at htest
  set w := r.atCounter i (nowOps (.delayAgain n) ++ rest) (r.loc.afterNow (.delayAgain n) r.loc.hi r.loc.lo r.loc.v) r.timer.count r.trace
  have hw : w.CounterStands c := ⟨h.still, h.shows⟩
  obtain ⟨m, hm⟩ : ∃ m, runBound r = m + 4 := ⟨runBound r - 4, by have := le_runBound r; omega⟩
  refine ⟨w.atNowTest i (.delayAgain n) rest c, ?_, rfl, rfl, rfl, rfl, rfl, rfl, rfl⟩
  rw [step_running (s := r) hwf hscript rfl, hm, runLoop_step r (m + 3) hq rfl htest (State.held_of_seq w rfl (by simp [nowOps, Op.mayHold])),
    hw.runLoop_now_hold hrate hq rfl hloop m]

/-- The first reading of a Delay on a counter that stands at a nonzero value begins its loop (43_timer.md R322). -/
theorem State.CounterStands.runLoop_delayFirst (h : s.CounterStands c) (hc : c ≠ 0#64) (hq : s.quiet = true)
    (hseq : s.seq = .run i (delayOps n ++ rest)) (hrest : ∀ o ∈ rest.head?, o.mayHold = false) (m : Nat) :
    runLoop (m + 4) s =
      runLoop m
        (s.atCounter i (nowOps (.delayAgain n) ++ rest)
          (s.loc.afterNow (.delayFirst n) (c.extractLsb' 32 32) (c.extractLsb' 0 32) (c.extractLsb' 32 32)) s.timer.count
          (s.trace ++ nowTrace s.cfg (c.extractLsb' 32 32) (c.extractLsb' 0 32) (c.extractLsb' 32 32) 0#32 0#32)) := by
  rw [h.runLoop_now (.delayFirst n) hq hseq rfl hrest m, show afterNow (.delayFirst n) c s.loc.t0 rest = _ from if_neg hc]

/-- A Delay of more than 0 on a counter stopped at a nonzero value holds after two readings (43_timer.md R325). -/
theorem State.CounterStands.runLoop_delay_hold (h : s.CounterStands c) (hrate : s.timer.rate = 0) (hc : c ≠ 0#64) (hn : n ≠ 0#32)
    (hwf : s.cfg.wf = true) (hscript : s.script = []) (hseq : s.seq = .run i (delayOps n ++ rest))
    (hrest : ∀ o ∈ rest.head?, o.mayHold = false) :
    ∃ t, (∀ m, runLoop (m + 7) s = t) ∧ t.seq = .run i (.compute (.nowTest (.delayAgain n)) :: rest) ∧ t.regs = s.regs ∧
      t.timer = s.timer ∧ t.gpio = s.gpio ∧
      ∃ t', step t = .next t' ∧ t'.seq = t.seq ∧ t'.regs = t.regs ∧ t'.mbox = t.mbox ∧ t'.gpio = t.gpio ∧ t'.uart = t.uart ∧
        t'.ctrl = t.ctrl ∧ t'.ram = t.ram := by
  have hq := State.quiet_of_script hscript
  have hfirst := h.runLoop_delayFirst hc hq hseq hrest
  set r := s.atCounter i (nowOps (.delayAgain n) ++ rest) _ _ _ with hr
  have hstands : r.CounterStands c := ⟨h.still, h.shows⟩
  have ht0 : r.loc.t0 = c := halves_append c
  have hpos : 0 < n.toNat := Nat.pos_of_ne_zero fun h0 => hn (BitVec.eq_of_toNat_eq h0)
  have hloop : delayHolds (.delayAgain n) c r.loc.t0 = true := by
    rw [ht0]
    exact decide_eq_true (by omega)
  refine ⟨r.atNowTest i (.delayAgain n) rest c, fun m => ?_, rfl, rfl, rfl, rfl, hstands.step_atNowTest hrate hwf hscript hloop⟩
  rw [hfirst (m + 3), hstands.runLoop_now_hold hrate hq rfl hloop m]

/-! ## The lines CTRL.SAMPLE drives -/

/-- The register whose write drives pin p to a level (44_controller.md R360). -/
def driveReg (p : Nat) (high : Bool) : Reg := if high then .gpset (pinBank p) else .gpclr (pinBank p)

theorem State.CounterStands.engineStep_driveOp (h : s.CounterStands c) (p : Nat) (high : Bool) :
    s.engineStep i (driveOp p high) rest = (s.busWrite (driveReg p high) (pinBit p)).goto i rest := by
  cases high <;>
  · rw [State.engineStep_step _ _ _ _ rfl, h.advanceTimer]
    rfl

theorem State.busWrite_driveReg_gpio (s : State) (p : Nat) (high : Bool) :
    (s.busWrite (driveReg p high) (pinBit p)).gpio = { s.gpio with latch := driveLatch s.gpio.latch p high } := by
  cases high <;> simp [driveReg, State.busWrite, State.devWrite, driveLatch]

theorem State.busWrite_driveReg_timer (s : State) (p : Nat) (high : Bool) :
    (s.busWrite (driveReg p high) (pinBit p)).timer = s.timer := by
  cases high <;> simp [driveReg, State.busWrite, State.devWrite]

/-- The state after driving a pin, on a standing counter. -/
def State.driven (s : State) (i : Instr) (p : Nat) (high : Bool) (rest : List Op) : State :=
  (s.busWrite (driveReg p high) (pinBit p)).goto i rest

/-- Driving a pin on a standing counter changes the output latch, and of the command's other state the trace only. -/
theorem State.driven_fields (s : State) (p : Nat) (high : Bool) :
    (s.driven i p high rest).cfg = s.cfg ∧ (s.driven i p high rest).script = s.script ∧ (s.driven i p high rest).regs = s.regs ∧
      (s.driven i p high rest).loc = s.loc ∧ (s.driven i p high rest).timer = s.timer ∧
      (s.driven i p high rest).gpio = { s.gpio with latch := driveLatch s.gpio.latch p high } ∧
      (s.driven i p high rest).trace = s.trace ++ [.wr ((driveReg p high).addr s.cfg) 4 (pinBit p)] := by
  simp [State.driven, State.busWrite_driveReg_gpio, State.busWrite_driveReg_timer, State.busWrite_trace]

theorem State.CounterStands.congr {t : State} (h : s.CounterStands c) (hcfg : t.cfg = s.cfg) (htimer : t.timer = s.timer) :
    t.CounterStands c where
  still := by rw [hcfg, htimer]; exact h.still
  shows := by rw [State.counter, hcfg, htimer]; exact h.shows

theorem State.CounterStands.runLoop_driveOp (h : s.CounterStands c) {p : Nat} {high : Bool} (hq : s.quiet = true)
    (hseq : s.seq = .run i (driveOp p high :: rest)) (hrest : ∀ o ∈ rest.head?, o.mayHold = false) (m : Nat) :
    runLoop (m + 1) s = runLoop m (s.driven i p high rest) :=
  runLoop_step s m hq hseq (h.engineStep_driveOp p high) (State.held_of_seq _ rfl hrest)

/-- The pins of a well-formed configuration (00_scope.md R8). -/
theorem Config.pins_of_wf {cfg : Config} (hwf : cfg.wf = true) :
    (cfg.pinLatch ≤ 53 ∧ cfg.pinClock ≤ 53 ∧ cfg.pinData ≤ 53 ∧ cfg.uartTxPin ≤ 53 ∧ cfg.uartRxPin ≤ 53) ∧
      cfg.pinLatch ≠ cfg.pinData ∧ cfg.pinData ≠ cfg.pinClock ∧ cfg.pinLatch ≠ cfg.pinClock := by
  simp only [Config.wf, Config.clauses, Bool.and_eq_true, decide_eq_true_eq] at hwf
  tauto

/-- The program of CTRL.SAMPLE, up to the delay of its latch pulse. -/
theorem sampleProgram_eq (cfg : Config) :
    ∃ rest, sampleProgram cfg =
      [driveOp cfg.pinClock true, driveOp cfg.pinLatch true] ++ (delayOps Config.latchUs ++ driveOp cfg.pinLatch false :: rest) :=
  ⟨(List.range Config.ctrlBits).flatMap (sampleBit cfg) ++ [.finish .sample], by simp [sampleProgram, driveOp]⟩

/-! ## The commands on a stopped counter -/

/-- TMR.DELAY of 0 ends at its second reading. -/
theorem State.CounterStands.exec_tmrDelay_zero (h : s.CounterStands c) (hc : c ≠ 0#64) (hq : s.quiet = true) (haccepted : s.accepted)
    (hzero : s.opnd = 0#32) :
    ∃ t, exec .tmrDelay s = .next t ∧ t.seq = .idle ∧ t.regs = { s.regs with status := s.doneStatus } ∧
      t.trace = s.trace
        ++ nowTrace s.cfg (c.extractLsb' 32 32) (c.extractLsb' 0 32) (c.extractLsb' 32 32) 0#32 0#32
        ++ nowTrace s.cfg (c.extractLsb' 32 32) (c.extractLsb' 0 32) (c.extractLsb' 32 32) 0#32 0#32 := by
  set r := s.started .tmrDelay (delayProgram s.opnd) with hr
  have hrstands : r.CounterStands c := ⟨h.still, h.shows⟩
  have hfirst := hrstands.runLoop_delayFirst hc (n := s.opnd) (rest := [.finish .plain]) hq rfl (by simp [Op.mayHold])
  set u := r.atCounter .tmrDelay (nowOps (.delayAgain s.opnd) ++ [.finish .plain]) _ _ _ with hu
  have hustands : u.CounterStands c := ⟨h.still, h.shows⟩
  have ht0 : u.loc.t0 = c := halves_append c
  have hdone : ¬c.toNat < u.loc.t0.toNat + s.opnd.toNat := by simp [ht0, hzero]
  have hsecond := hustands.runLoop_now (.delayAgain s.opnd) (rest := [.finish .plain]) hq rfl (decide_eq_false hdone) (by simp [Op.mayHold])
  rw [show afterNow (.delayAgain s.opnd) c u.loc.t0 [.finish .plain] = [.finish .plain] from if_pos (Nat.not_lt.mp hdone)] at hsecond
  set t := u.atCounter .tmrDelay [.finish .plain] _ _ _
  have hexec : exec .tmrDelay s = .next ((t.advanceTimer t.timer.rate).complete .plain) :=
    runCommand_of_run s .tmrDelay (delayProgram s.opnd) .plain 8 t hq rfl (by unfold runBound; omega)
      fun m => (hfirst (m + 4)).trans (hsecond m)
  refine ⟨_, hexec, State.complete_seq _ _, ?_, ?_⟩
  · rw [State.complete_plain_regs, State.advanceTimer_regs]
    exact congrArg (fun status => { s.regs with status }) haccepted.completed
  · rw [State.complete_trace, State.advanceTimer_trace]
    rfl

/-- TMR.DELAY of more than 0 holds. -/
theorem State.CounterStands.exec_tmrDelay_holds (h : s.CounterStands c) (hrate : s.timer.rate = 0) (hc : c ≠ 0#64)
    (hwf : s.cfg.wf = true) (hscript : s.script = []) (hmore : s.opnd ≠ 0#32) : ∃ t, HoldsAt .tmrDelay s t ∧ t.timer = s.timer := by
  have hrstands : (s.started .tmrDelay (delayProgram s.opnd)).CounterStands c := ⟨h.still, h.shows⟩
  obtain ⟨t, hrun, hseq, hregs, htimer, -, hstep⟩ := hrstands.runLoop_delay_hold hrate hc hmore (rest := [.finish .plain]) hwf hscript
    rfl (by simp [Op.mayHold])
  obtain ⟨m, hm⟩ : ∃ m, runBound s = m + 7 := ⟨runBound s - 7, by unfold runBound; omega⟩
  refine ⟨t, ⟨?_, ⟨_, hseq⟩, hregs, hstep⟩, htimer⟩
  rw [exec_eq, startOf, runCommand_program, hm]
  exact congrArg _ (hrun m)

/-- CTRL.SAMPLE holds in the delay of its latch pulse, CLOCK and LATCH written high. -/
theorem State.CounterStands.exec_ctrlSample_holds (h : s.CounterStands c) (hrate : s.timer.rate = 0) (hc : c ≠ 0#64)
    (hwf : s.cfg.wf = true) (hscript : s.script = []) :
    ∃ t, HoldsAt .ctrlSample s t ∧ t.timer = s.timer ∧
      ∀ p ≤ 53, pinLevel t.gpio.latch p =
        if p = s.cfg.pinClock ∨ p = s.cfg.pinLatch then true else pinLevel s.gpio.latch p := by
  have hq := State.quiet_of_script hscript
  obtain ⟨rest, hprog⟩ := sampleProgram_eq s.cfg
  set ops := delayOps Config.latchUs ++ driveOp s.cfg.pinLatch false :: rest with hops
  set b := s.started .ctrlSample (sampleProgram s.cfg) with hb
  have hbseq : b.seq = .run .ctrlSample (driveOp s.cfg.pinClock true :: driveOp s.cfg.pinLatch true :: ops) :=
    congrArg (Seq.run .ctrlSample) hprog
  obtain ⟨hcfg1, hscript1, hregs1, -, htimer1, hgpio1, -⟩ :=
    b.driven_fields (i := .ctrlSample) (rest := driveOp s.cfg.pinLatch true :: ops) s.cfg.pinClock true
  set b1 := b.driven .ctrlSample s.cfg.pinClock true (driveOp s.cfg.pinLatch true :: ops)
  obtain ⟨hcfg2, hscript2, hregs2, -, htimer2, hgpio2, -⟩ :=
    b1.driven_fields (i := .ctrlSample) (rest := ops) s.cfg.pinLatch true
  set b2 := b1.driven .ctrlSample s.cfg.pinLatch true ops
  have hb : b.CounterStands c := ⟨h.still, h.shows⟩
  have hb1 := hb.congr hcfg1 htimer1
  have hb2 := hb1.congr hcfg2 htimer2
  have hclock (m : Nat) : runLoop (m + 1) b = runLoop m b1 := hb.runLoop_driveOp hq hbseq (by simp [driveOp, driveHigh, Op.mayHold]) m
  have hlatch (m : Nat) : runLoop (m + 1) b1 = runLoop m b2 :=
    hb1.runLoop_driveOp (State.quiet_of_script_eq hscript1 hq) rfl (by simp [hops, delayOps, nowOps, Op.mayHold]) m
  obtain ⟨t, hrun, hseq, hregs, htimer, hgpio, hstep⟩ := hb2.runLoop_delay_hold (i := .ctrlSample) (n := Config.latchUs)
    (rest := driveOp s.cfg.pinLatch false :: rest) (by rw [htimer2, htimer1]; exact hrate) hc (by decide)
    (by rw [hcfg2, hcfg1]; exact hwf) (by rw [hscript2, hscript1]; exact hscript) rfl (by simp [driveOp, driveLow, Op.mayHold])
  obtain ⟨m, hm⟩ : ∃ m, runBound s = m + 9 := ⟨runBound s - 9, by unfold runBound; omega⟩
  refine ⟨t, ⟨?exec, ⟨_, hseq⟩, hregs.trans (hregs2.trans hregs1), hstep⟩, htimer.trans (htimer2.trans htimer1), fun p hp => ?levels⟩
  case exec =>
    rw [exec_eq, startOf, runCommand_program, hm]
    exact congrArg _ ((hclock (m + 8)).trans ((hlatch (m + 7)).trans (hrun m)))
  case levels =>
    obtain ⟨⟨hlatchle, hclockle, -⟩, -⟩ := Config.pins_of_wf hwf
    rw [hgpio, hgpio2, hgpio1, pinLevel_driveLatch _ _ _ _ hlatchle hp, pinLevel_driveLatch _ _ _ _ hclockle hp]
    by_cases hpc : p = s.cfg.pinClock
    · simp [hpc]
    · by_cases hpl : p = s.cfg.pinLatch
      · simp [hpl]
      · simp only [hpc, hpl, or_self, if_false]
        rfl

end Sys2Proof.Machine

namespace Sys2Proof.Proofs

open Sys2Proof.Machine

/-- Settles O47: the two words returned are the halves of the counts at the reads that gave them. -/
theorem tmrNowValue : Obligations.TmrNowValue := by
  intro s hq hp hc
  obtain ⟨t, k, hk, hrun, htq, hseq, hvalue⟩ :=
    runLoop_nowResult (s := s.started .tmrNow nowProgram) (i := .tmrNow) (rest := [.finish .now]) hq hp hc rfl (by simp [Op.mayHold])
  rw [show (s.started .tmrNow nowProgram).timer = s.timer from rfl] at hvalue
  have hexec : exec .tmrNow s = .next ((t.advanceTimer t.timer.rate).complete .now) :=
    runCommand_of_run s .tmrNow nowProgram .now k t htq hseq (by unfold runBound; omega) hrun
  have hregs : ((t.advanceTimer t.timer.rate).complete .now).regs.res1 = t.loc.hi ∧
      ((t.advanceTimer t.timer.rate).complete .now).regs.res0 = t.loc.lo := by
    rw [State.complete_now_regs, State.advanceTimer_loc]
    exact ⟨rfl, rfl⟩
  have hresult : t.loc.hi.toNat * 2 ^ 32 + t.loc.lo.toNat =
      if (s.timer.count + s.timer.rate) / 2 ^ 32 = (s.timer.count + 3 * s.timer.rate) / 2 ^ 32 then
        (s.timer.count + s.timer.rate) / 2 ^ 32 * 2 ^ 32 + (s.timer.count + 2 * s.timer.rate) % 2 ^ 32
      else
        (s.timer.count + 4 * s.timer.rate) / 2 ^ 32 * 2 ^ 32 + (s.timer.count + 5 * s.timer.rate) % 2 ^ 32 := by
    obtain ⟨hsame, hhi, hlo⟩ | ⟨hcarry, hhi, hlo⟩ := hvalue
    · rw [hhi, hlo, toNat_chiOf (by omega), toNat_cloOf]
      exact (if_pos hsame).symm
    · rw [hhi, hlo, toNat_chiOf (by omega), toNat_cloOf]
      exact (if_neg hcarry).symm
  rw [← hregs.1, ← hregs.2] at hresult
  refine ⟨_, hexec, hresult, fun hrate => ?_⟩
  have hle {a b : Nat} (h : a ≤ b) : a / 2 ^ 32 ≤ b / 2 ^ 32 := Nat.div_le_div_right h
  rw [hresult]
  split
  case isTrue hsame =>
    have h12 : (s.timer.count + s.timer.rate) / 2 ^ 32 ≤ (s.timer.count + 2 * s.timer.rate) / 2 ^ 32 := hle (by omega)
    have h23 : (s.timer.count + 2 * s.timer.rate) / 2 ^ 32 ≤ (s.timer.count + 3 * s.timer.rate) / 2 ^ 32 := hle (by omega)
    omega
  case isFalse hcarry =>
    have h13 : (s.timer.count + s.timer.rate) / 2 ^ 32 ≤ (s.timer.count + 3 * s.timer.rate) / 2 ^ 32 := hle (by omega)
    have h34 : (s.timer.count + 3 * s.timer.rate) / 2 ^ 32 ≤ (s.timer.count + 4 * s.timer.rate) / 2 ^ 32 := hle (by omega)
    have h45 : (s.timer.count + 4 * s.timer.rate) / 2 ^ 32 ≤ (s.timer.count + 5 * s.timer.rate) / 2 ^ 32 := hle (by omega)
    have h15 : (s.timer.count + 5 * s.timer.rate) / 2 ^ 32 ≤ (s.timer.count + s.timer.rate) / 2 ^ 32 + 1 := by omega
    omega

/-- Settles O48: the loop of Delay ends, and its moves are fewer than the bound, since the counter moves by 1 at least at each step. -/
theorem tmrDelayCompletes : Obligations.TmrDelayCompletes := by
  intro s hq haccepted hp hr h4 hbound
  set r := s.started .tmrDelay (delayProgram s.opnd)
  obtain ⟨k, m, hi, lo, w, t0, tr, hm, hend, hle, hrun⟩ := runLoop_delay r .tmrDelay s.opnd [.finish .plain]
    (by intro r b l rest; simp) hq rfl hp hr h4 (show s.timer.count + s.opnd.toNat + 11 * s.timer.rate < 2 ^ 64 by omega)
  set t := r.atCounter .tmrDelay [.finish .plain] (r.loc.withTimes hi lo w t0) (r.timer.count + k * r.timer.rate) (r.trace ++ tr)
  have hsteps : k ≤ s.opnd.toNat + 11 :=
    steps_le hr (Nat.le_of_add_le_add_left ((show s.timer.count + k * s.timer.rate ≤ _ from hle).trans_eq (Nat.add_assoc _ _ _)))
  have hopnd := s.opnd.isLt
  have hexec : exec .tmrDelay s = .next ((t.advanceTimer t.timer.rate).complete .plain) :=
    runCommand_of_run s .tmrDelay (delayProgram s.opnd) .plain m t hq rfl (by unfold runBound; omega) hrun
  refine ⟨_, hexec, State.complete_seq _ _, ?_, ?_⟩
  · rw [State.complete_plain_regs, State.advanceTimer_regs]
    exact congrArg (fun status => { s.regs with status }) haccepted.completed
  · rw [State.complete_timer, State.advanceTimer_present t _ hp]
    exact (show s.timer.count + s.opnd.toNat ≤ s.timer.count + k * s.timer.rate from hend).trans (Nat.le_add_right _ _)

/-- Settles O50: the first reading begins the loop of Delay, which the second one ends for 0 and holds in for more. -/
theorem stoppedTimer : Obligations.StoppedTimer := by
  intro s hi lo hscript haccepted hwf hp hrate hpos hlt hvalue
  have hstands : s.CounterStands (hi ++ lo) := ⟨.inr hrate, hvalue ▸ s.counter_present hp hlt⟩
  have hne : (hi ++ lo : BitVec 64) ≠ 0#64 := by
    rw [hvalue]
    intro h
    have hcount := congrArg BitVec.toNat h
    rw [BitVec.toNat_ofNat, Nat.mod_eq_of_lt hlt] at hcount
    exact absurd hcount (Nat.ne_of_gt hpos)
  refine ⟨fun hzero => ?_, hstands.exec_tmrDelay_holds hrate hne hwf hscript, hstands.exec_ctrlSample_holds hrate hne hwf hscript⟩
  have hhi : (hi ++ lo : BitVec 64).extractLsb' 32 32 = hi := BitVec.extractLsb'_append_eq_left
  have hlo : (hi ++ lo : BitVec 64).extractLsb' 0 32 = lo := BitVec.extractLsb'_append_eq_right
  have := hstands.exec_tmrDelay_zero hne (State.quiet_of_script hscript) haccepted hzero
  rwa [hhi, hlo] at this

end Sys2Proof.Proofs
end

section
/-! PROOFS. CTRL.INIT and UART.INIT (44_controller.md R370; 45_uart.md R400, R410): ConfigurePin of several pins in a row, and the UART's
registers. -/

namespace Sys2Proof.Machine

variable {s : State} {i : Instr} {rest ops : List Op} {p q : Nat} {f : BitVec 3}

/-! ## One ConfigurePin after another -/

/-- A ConfigurePin of another pin leaves a pin's field as it is. -/
theorem fselField_fselInsert_other (v : Word) (p q : Nat) (f : BitVec 3) (hne : q % 10 ≠ p % 10) :
    fselField (fselInsert v p f) q = fselField v q := by
  apply BitVec.eq_of_getLsbD_eq
  intro b hb
  have hshift := fselShift_le q
  rw [fselField, fselField, BitVec.getLsbD_extractLsb', BitVec.getLsbD_extractLsb', fselInsert_bit v p f (by omega), if_neg]
  unfold fselShift
  omega

/-- ConfigurePin sets its pin's function and no other pin's (41_gpio.md R244). -/
theorem State.pinFunction_configurePin (hp : p ≤ 53) (hq : q ≤ 53) :
    (s.runOps i (configurePin p f) rest).pinFunction q = if q = p then f else s.pinFunction q := by
  obtain ⟨-, -, hfsel, -⟩ := s.runOps_configurePin i p f rest
  have hreg : fselReg q = fselReg p ↔ q / 10 = p / 10 := by
    simp only [fselReg, Fin.ofNat, Fin.mk.injEq]
    omega
  simp only [State.pinFunction, hfsel, Fin.getElem_fin, Vector.getElem_set]
  by_cases hsame : q = p
  · subst hsame
    simp [fselField_fselInsert]
  · by_cases hr : fselReg q = fselReg p
    · have hmod : q % 10 ≠ p % 10 := by
        have := hreg.mp hr
        omega
      simp [hsame, hr, fselField_fselInsert_other _ _ _ _ hmod]
    · have hval : (fselReg p).val ≠ (fselReg q).val := fun h => hr (Fin.ext h.symm)
      simp [hsame, hval]

/-- The bit of pin q in the pull-clock registers is clear. -/
def State.clockIdle (s : State) (q : Nat) : Prop := (s.gpio.gppudclk[pinBank q]).bit (q % 32) = false

/-- ConfigurePin leaves the clock bits of its bank clear. -/
theorem State.clockIdle_configurePin (h : q = p ∨ s.clockIdle q) : (s.runOps i (configurePin p f) rest).clockIdle q := by
  obtain ⟨-, -, -, -, hclk, -⟩ := s.runOps_configurePin i p f rest
  simp only [State.clockIdle, hclk, Fin.getElem_fin, Vector.getElem_set]
  by_cases hbank : (pinBank p).val = (pinBank q).val
  · simp [hbank]
  · rw [if_neg hbank]
    exact h.resolve_left fun heq => hbank (by rw [heq])

/-- A pull that is off stays off when another pin is configured, if its own clock bit is clear. -/
theorem State.pull_off_configurePin (hp : p ≤ 53) (hq : q ≤ 53) (hidle : s.clockIdle q) (hoff : s.gpio.pullOf q = .off) :
    (s.runOps i (configurePin p f) rest).gpio.pullOf q = .off := by
  by_cases hsame : q = p
  · exact hsame ▸ s.runOps_configurePin_pull i q f rest
  · refine Eq.trans ?_ hoff
    have hlt : q < 54 := by omega
    by_cases hb : pinBank q = pinBank p
    · have hm : ¬q % 32 = p % 32 := fun h => hsame (pin_eq_of_bank p q hp hq hb h)
      have h0 : (pinBit p).bit (q % 32) = false := by rw [pinBit_bit _ _ (Nat.mod_lt _ (by omega))]; simp [hm]
      have hclk : (s.gpio.gppudclk[(pinBank p).val]).bit (q % 32) = false := by
        simpa only [State.clockIdle, hb, Fin.getElem_fin] using hidle
      simp [configurePin, setFunction, pullDisable, State.engineStep, State.stepOp, State.readInto, State.busRead, State.busWrite,
        State.busSpin, State.devRead, State.devWrite, State.devValue, State.readsFree, State.popRead, State.clockPulls,
        Config.gppudOff, Gpio.pullOf, hlt, hb, h0, hclk]
    · simp [configurePin, setFunction, pullDisable, State.engineStep, State.stepOp, State.readInto, State.busRead, State.busWrite,
        State.busSpin, State.devRead, State.devWrite, State.devValue, State.readsFree, State.popRead, State.clockPulls,
        Config.gppudOff, Gpio.pullOf, hlt, hb]

/-- A pin's pull is off, and no clock bit of it is set that could change it. -/
def State.parked (s : State) (q : Nat) : Prop := s.clockIdle q ∧ s.gpio.pullOf q = .off

/-- From `s`, ConfigurePin(p, f) has led to `t` (41_gpio.md R242 to R244). -/
structure ConfiguredPin (p : Nat) (f : BitVec 3) (s t : State) : Prop where
  cfg      : t.cfg = s.cfg
  regs     : t.regs = s.regs
  trace    : t.trace = s.trace ++ configureTrace s.cfg p f s.gpio.gpfsel[fselReg p]
  gpfsel   : t.gpio.gpfsel = s.gpio.gpfsel.set (fselReg p).val (fselInsert s.gpio.gpfsel[fselReg p] p f) (fselReg p).isLt
  latch    : t.gpio.latch = s.gpio.latch
  uart     : t.uart = s.uart
  function : ∀ q ≤ 53, t.pinFunction q = if q = p then f else s.pinFunction q
  parked   : ∀ q ≤ 53, q = p ∨ s.parked q → t.parked q

theorem configuredPin_runOps (s : State) (i : Instr) (f : BitVec 3) (rest : List Op) (hp : p ≤ 53) :
    ConfiguredPin p f s (s.runOps i (configurePin p f) rest) := by
  obtain ⟨hregs, htrace, hfsel, -, -, hlatch, huart⟩ := s.runOps_configurePin i p f rest
  refine ⟨State.runOps_cfg s i _ _, hregs, htrace, hfsel, hlatch, huart, fun q hq => State.pinFunction_configurePin hp hq, fun q hq h => ?_⟩
  obtain rfl | ⟨hidle, hoff⟩ := h
  · exact ⟨State.clockIdle_configurePin (.inl rfl), s.runOps_configurePin_pull i q f rest⟩
  · exact ⟨State.clockIdle_configurePin (.inr hidle), State.pull_off_configurePin hp hq hidle hoff⟩

/-! ## The UART's registers (45_uart.md R400) -/

/-- UART.INIT after its pins. -/
def uartEnableOps (c : Config) : List Op :=
  [.enableRead, .enableWrite, .regWrite .auxMuIer c.ierInit, .regWrite .auxMuCntl c.cntlOff, .regWrite .auxMuLcr c.lcrInit,
    .regWrite .auxMuMcr c.mcrInit, .regWrite .auxMuIir c.iirInit, .regWrite .auxMuBaud c.baudDiv, .regWrite .auxMuCntl c.cntlOn]

/-- What the accesses of UART.INIT to the UART's registers leave: the pins as they were, the registers written in order. -/
theorem State.runOps_uartEnable (s : State) (i : Instr) (rest : List Op) :
    (s.runOps i (uartEnableOps s.cfg) rest).regs = s.regs ∧ (s.runOps i (uartEnableOps s.cfg) rest).gpio = s.gpio ∧
      (s.runOps i (uartEnableOps s.cfg) rest).uart =
        { s.uart with
          enables := s.uart.enables ||| s.cfg.auxMuEnMask
          ier := s.cfg.ierInit
          lcr := s.cfg.lcrInit
          mcr := s.cfg.mcrInit
          cntl := s.cfg.cntlOn
          baud := s.cfg.baudDiv
          rx := if s.cfg.iirInit.bit s.cfg.iirRxBit.val then [] else s.uart.rx
          tx := if s.cfg.iirInit.bit s.cfg.iirTxBit.val then [] else s.uart.tx } ∧
      (s.runOps i (uartEnableOps s.cfg) rest).trace = s.trace
        ++ [.rd (Reg.auxEnables.addr s.cfg) 4 s.uart.enables,
            .wr (Reg.auxEnables.addr s.cfg) 4 (s.uart.enables ||| s.cfg.auxMuEnMask),
            .wr (Reg.auxMuIer.addr s.cfg) 4 s.cfg.ierInit, .wr (Reg.auxMuCntl.addr s.cfg) 4 s.cfg.cntlOff,
            .wr (Reg.auxMuLcr.addr s.cfg) 4 s.cfg.lcrInit, .wr (Reg.auxMuMcr.addr s.cfg) 4 s.cfg.mcrInit,
            .wr (Reg.auxMuIir.addr s.cfg) 4 s.cfg.iirInit, .wr (Reg.auxMuBaud.addr s.cfg) 4 s.cfg.baudDiv,
            .wr (Reg.auxMuCntl.addr s.cfg) 4 s.cfg.cntlOn] := by
  simp [uartEnableOps, State.engineStep, State.stepOp, State.readInto, State.busRead, State.busWrite, State.devRead, State.devWrite,
    State.devValue, State.readsFree, State.popRead, Uart.clearFifos]

end Sys2Proof.Machine

namespace Sys2Proof.Proofs

open Sys2Proof.Machine

/-- Settles O51: each ConfigurePin sets its own pin, and clears its clock bit, so that the ones after it leave that pin's pull. -/
theorem ctrlInitCompletes : Obligations.CtrlInitCompletes := by
  intro s g1 g2 g3 hq haccepted hwf hg1 hg2 hg3
  obtain ⟨⟨hlatch, hclock, hdata, -⟩, hLD, hDC, hLC⟩ := Config.pins_of_wf hwf
  obtain ⟨t, ht, hexec⟩ := runCommand_plain s .ctrlInit
    (configurePin s.cfg.pinLatch s.cfg.fselOutput ++ configurePin s.cfg.pinClock s.cfg.fselOutput
      ++ configurePin s.cfg.pinData s.cfg.fselInput) .plain rfl hq (by simp [configurePin, setFunction, pullDisable])
  rw [State.runOps_append, State.runOps_append] at ht
  set r := s.started .ctrlInit _
  have h1 := configuredPin_runOps r .ctrlInit s.cfg.fselOutput (configurePin s.cfg.pinClock s.cfg.fselOutput
    ++ (configurePin s.cfg.pinData s.cfg.fselInput ++ [.finish .plain])) hlatch
  set u1 := r.runOps .ctrlInit (configurePin s.cfg.pinLatch s.cfg.fselOutput) _
  have h2 := configuredPin_runOps u1 .ctrlInit s.cfg.fselOutput (configurePin s.cfg.pinData s.cfg.fselInput ++ [.finish .plain]) hclock
  set u2 := u1.runOps .ctrlInit (configurePin s.cfg.pinClock s.cfg.fselOutput) _
  have h3 := ht ▸ configuredPin_runOps u2 .ctrlInit s.cfg.fselInput [.finish .plain] hdata
  have hgpio : ((t.advanceTimer t.timer.rate).complete .plain).gpio = t.gpio := by simp
  have hfsel1 : u1.gpio.gpfsel = g1 := h1.gpfsel.trans hg1.symm
  have hfsel2 : u2.gpio.gpfsel = g2 := by rw [h2.gpfsel, hfsel1, hg2]
  have hfsel3 : t.gpio.gpfsel = g3 := by rw [h3.gpfsel, hfsel2, hg3]
  refine ⟨_, hexec, State.complete_seq _ _, ?regs, hgpio ▸ hfsel3, ?functions, ?pulls, ?latch, ?trace⟩
  case regs =>
    rw [State.complete_plain_regs, State.advanceTimer_regs, h3.regs, h2.regs, h1.regs]
    exact congrArg (fun status => { s.regs with status }) haccepted.completed
  case functions =>
    simp only [State.pinFunction, hgpio]
    refine ⟨?_, ?_, ?_⟩
    · exact (h3.function _ hlatch).trans ((if_neg hLD).trans ((h2.function _ hlatch).trans ((if_neg hLC).trans
        ((h1.function _ hlatch).trans (if_pos rfl)))))
    · exact (h3.function _ hclock).trans ((if_neg hDC.symm).trans ((h2.function _ hclock).trans (if_pos rfl)))
    · exact (h3.function _ hdata).trans (if_pos rfl)
  case pulls =>
    rw [hgpio]
    have hparked1 := h1.parked _ hlatch (.inl rfl)
    have hparked2 := h2.parked _ hclock (.inl rfl)
    exact ⟨(h3.parked _ hlatch (.inr (h2.parked _ hlatch (.inr hparked1)))).2, (h3.parked _ hclock (.inr hparked2)).2,
      (h3.parked _ hdata (.inl rfl)).2⟩
  case latch =>
    rw [hgpio, h3.latch, h2.latch, h1.latch]
    rfl
  case trace =>
    rw [State.complete_trace, State.advanceTimer_trace, h3.trace, h2.trace, h1.trace, hfsel2, hfsel1, h2.cfg, h1.cfg]
    rfl

/-- Settles O54: the two pins' ConfigurePin, and then the nine accesses of the UART's registers. -/
theorem uartInitCompletes : Obligations.UartInitCompletes := by
  rintro s f g1 g2 hq haccepted hwf rfl hg1 hg2
  obtain ⟨⟨-, -, -, htx, hrx⟩, -⟩ := Config.pins_of_wf hwf
  have hprog : startOf s .uartInit =
      .program (configurePin s.cfg.uartTxPin (fselAlt s.cfg s.cfg.uartAltFn) ++ configurePin s.cfg.uartRxPin (fselAlt s.cfg s.cfg.uartAltFn)
        ++ uartEnableOps s.cfg ++ [.finish .plain]) := rfl
  obtain ⟨t, ht, hexec⟩ := runCommand_plain s .uartInit
    (configurePin s.cfg.uartTxPin (fselAlt s.cfg s.cfg.uartAltFn) ++ configurePin s.cfg.uartRxPin (fselAlt s.cfg s.cfg.uartAltFn)
      ++ uartEnableOps s.cfg) .plain rfl hq (by simp [configurePin, setFunction, pullDisable, uartEnableOps])
  rw [State.runOps_append, State.runOps_append] at ht
  set r := s.started .uartInit _
  have h1 := configuredPin_runOps r .uartInit (fselAlt s.cfg s.cfg.uartAltFn)
    (configurePin s.cfg.uartRxPin (fselAlt s.cfg s.cfg.uartAltFn) ++ (uartEnableOps s.cfg ++ [.finish .plain])) htx
  set u1 := r.runOps .uartInit (configurePin s.cfg.uartTxPin (fselAlt s.cfg s.cfg.uartAltFn)) _
  have h2 := configuredPin_runOps u1 .uartInit (fselAlt s.cfg s.cfg.uartAltFn) (uartEnableOps s.cfg ++ [.finish .plain]) hrx
  set u2 := u1.runOps .uartInit (configurePin s.cfg.uartRxPin (fselAlt s.cfg s.cfg.uartAltFn)) _
  have hcfg : u2.cfg = s.cfg := h2.cfg.trans h1.cfg
  have huart : u2.uart = s.uart := h2.uart.trans h1.uart
  obtain ⟨hregs3, hgpio3, huart3, htrace3⟩ := u2.runOps_uartEnable .uartInit [.finish .plain]
  rw [hcfg, ← ht] at hregs3 hgpio3 huart3 htrace3
  have hfsel1 : u1.gpio.gpfsel = g1 := h1.gpfsel.trans hg1.symm
  have hfsel2 : u2.gpio.gpfsel = g2 := by rw [h2.gpfsel, hfsel1, hg2]
  have hgpio : ((t.advanceTimer t.timer.rate).complete .plain).gpio = u2.gpio := by simpa using hgpio3
  refine ⟨_, (exec_eq s _).trans (hprog ▸ hexec), State.complete_seq _ _, ?regs, hgpio ▸ hfsel2, ?pulls, ?uart, ?trace⟩
  case regs =>
    rw [State.complete_plain_regs, State.advanceTimer_regs, hregs3, h2.regs, h1.regs]
    exact congrArg (fun status => { s.regs with status }) haccepted.completed
  case pulls =>
    rw [hgpio]
    exact ⟨(h2.parked _ htx (.inr (h1.parked _ htx (.inl rfl)))).2, (h2.parked _ hrx (.inl rfl)).2⟩
  case uart =>
    rw [State.complete_uart, State.advanceTimer_uart, huart3, huart]
  case trace =>
    rw [State.complete_trace, State.advanceTimer_trace, htrace3, h2.trace, h1.trace, hfsel1, h1.cfg, huart]
    rfl

end Sys2Proof.Proofs
end

section
/-! PROOFS. CTRL.SAMPLE without a timer (44_controller.md R371, R373): its exact trace, and how its reads of DATA become the snapshot. -/

namespace Sys2Proof.Machine

variable {s t u : State} {i : Instr} {rest todo todo' : List Op} {tr tr' : List BusEvent} {k m j : Nat} {snap snap' : BitVec 16} {n : Word}

/-! ## Progress on a standing counter -/

/-- From `s`, `k` moves, whatever fuel is left, lead to `t`: the program `todo` ahead, the events `tr` made, the snapshot `snap` taken, and
the counter and the host registers as they were. -/
structure Samples (i : Instr) (s t : State) (k : Nat) (todo : List Op) (tr : List BusEvent) (snap : BitVec 16) : Prop where
  run    : ∀ m, runLoop (m + k) s = runLoop m t
  seq    : t.seq = .run i todo
  cfg    : t.cfg = s.cfg
  script : t.script = s.script
  regs   : t.regs = s.regs
  timer  : t.timer = s.timer
  trace  : t.trace = s.trace ++ tr
  snap   : t.loc.snap = snap

theorem Samples.trans (h : Samples i s t k todo tr snap) (h' : Samples i t u m todo' tr' snap') :
    Samples i s u (m + k) todo' (tr ++ tr') snap' where
  run n := by rw [← Nat.add_assoc, h.run, h'.run]
  seq := h'.seq
  cfg := h'.cfg.trans h.cfg
  script := h'.script.trans h.script
  regs := h'.regs.trans h.regs
  timer := h'.timer.trans h.timer
  trace := by rw [h'.trace, h.trace, List.append_assoc]
  snap := h'.snap

theorem Samples.quiet (h : Samples i s t k todo tr snap) (hq : s.quiet = true) : t.quiet = true := State.quiet_of_script_eq h.script hq

theorem Samples.stands {c : BitVec 64} (h : Samples i s t k todo tr snap) (hc : s.CounterStands c) : t.CounterStands c :=
  hc.congr h.cfg h.timer

/-- A Delay on a counter that shows 0 is one Now() (43_timer.md R323). -/
theorem samples_delay (hc : s.CounterStands 0#64) (hq : s.quiet = true) (hseq : s.seq = .run i (delayOps n ++ rest))
    (hrest : ∀ o ∈ rest.head?, o.mayHold = false) : ∃ t, Samples i s t 4 rest (zeroNow s.cfg) s.loc.snap :=
  ⟨_, hc.runLoop_now (.delayFirst n) hq hseq rfl hrest, rfl, rfl, rfl, rfl, rfl, rfl, rfl⟩

theorem samples_drive (hc : s.CounterStands 0#64) {p : Nat} {high : Bool} (hq : s.quiet = true)
    (hseq : s.seq = .run i (driveOp p high :: rest)) (hrest : ∀ o ∈ rest.head?, o.mayHold = false) :
    ∃ t, Samples i s t 1 rest [.wr ((driveReg p high).addr s.cfg) 4 (pinBit p)] s.loc.snap := by
  obtain ⟨hcfg, hscript, hregs, hloc, htimer, -, htrace⟩ := s.driven_fields (i := i) (rest := rest) p high
  exact ⟨_, hc.runLoop_driveOp hq hseq hrest, rfl, hcfg, hscript, hregs, htimer, htrace, by rw [hloc]⟩

/-- The snapshot after the DATA read `v` at position j (44_controller.md R362). -/
def snapWith (c : Config) (snap : BitVec 16) (j : Nat) (v : Word) : BitVec 16 :=
  if v.bit (c.pinData % 32) then snap else snap ||| (1#16 <<< j)

theorem snapWith_bit (c : Config) (snap : BitVec 16) (v : Word) {b : Nat} (hb : b < 16) (j : Nat) :
    (snapWith c snap j v).getLsbD b = (decide (b = j) && !v.bit (c.pinData % 32) || snap.getLsbD b) := by
  unfold snapWith
  split
  case isTrue h => simp [h]
  case isFalse h =>
    have hone : (1#16 <<< j).getLsbD b = decide (b = j) := by
      simp only [BitVec.getLsbD_shiftLeft, BitVec.getLsbD_one]
      by_cases hlt : b < j
      · simp [hlt, show b ≠ j by omega]
      · by_cases heq : b = j
        · simp [heq, show j < 16 by omega]
        · simp [heq, show ¬b - j = 0 by omega]
    simp [h, hone, Bool.or_comm]

/-- The read of DATA at position j and its bit of the snapshot. -/
theorem samples_read (hc : s.CounterStands 0#64) (hq : s.quiet = true)
    (hseq : s.seq = .run i (.sampleRead :: .compute (.sampleBit j) :: rest)) (hrest : ∀ o ∈ rest.head?, o.mayHold = false) :
    ∃ t v, Samples i s t 2 rest [.rd ((Reg.gplev (pinBank s.cfg.pinData)).addr s.cfg) 4 v] (snapWith s.cfg s.loc.snap j v) := by
  set r := (s.readInto (.gplev (pinBank s.cfg.pinData))).goto i (.compute (.sampleBit j) :: rest) with hr
  have hread : s.engineStep i .sampleRead (.compute (.sampleBit j) :: rest) = r := by
    rw [State.engineStep_step _ _ _ _ rfl, hc.advanceTimer]
    rfl
  have hbit : r.engineStep i (.compute (.sampleBit j)) rest =
      (r.withLoc { r.loc with snap := snapWith s.cfg s.loc.snap j r.loc.v }).goto i rest := by
    rw [State.engineStep_compute]
    simp [State.compute, snapWith, hr]
  refine ⟨r.engineStep i (.compute (.sampleBit j)) rest, r.loc.v, fun m => ?_, ?_, ?_, ?_, ?_, ?_, ?_, ?_⟩ <;> rw [hbit]
  case refine_1 =>
    rw [runLoop_step s (m + 1) hq hseq hread (State.held_of_seq _ rfl (by simp [Op.mayHold])),
      runLoop_step r m (by simpa [hr, State.quiet] using hq) rfl hbit (State.held_of_seq _ rfl hrest)]
  all_goals simp [hr, State.readInto_trace]

/-! ## The sixteen bits -/

/-- One turn of the loop (44_controller.md R371, R373). -/
theorem samples_bit (hc : s.CounterStands 0#64) (hq : s.quiet = true) (hseq : s.seq = .run i (sampleBit s.cfg j ++ rest))
    (hrest : ∀ o ∈ rest.head?, o.mayHold = false) :
    ∃ t v, Samples i s t 12 rest (sampleBitTrace s.cfg v) (snapWith s.cfg s.loc.snap j v) := by
  have hprog : sampleBit s.cfg j ++ rest =
      delayOps Config.halfBitUs ++ (driveOp s.cfg.pinClock false :: .sampleRead :: .compute (.sampleBit j)
        :: (delayOps Config.halfBitUs ++ (driveOp s.cfg.pinClock true :: rest))) := by simp [sampleBit, driveOp]
  obtain ⟨t1, h1⟩ := samples_delay hc hq (hseq.trans (congrArg _ hprog)) (by simp [driveOp, driveLow, Op.mayHold])
  obtain ⟨t2, h2⟩ := samples_drive (h1.stands hc) (h1.quiet hq) h1.seq (by simp [Op.mayHold])
  have h12 := h1.trans h2
  obtain ⟨t3, v, h3⟩ := samples_read (h12.stands hc) (h12.quiet hq) h12.seq (by simp [delayOps, nowOps, Op.mayHold])
  have h13 := h12.trans h3
  obtain ⟨t4, h4⟩ := samples_delay (h13.stands hc) (h13.quiet hq) h13.seq (by simp [driveOp, driveHigh, Op.mayHold])
  have h14 := h13.trans h4
  obtain ⟨t5, h5⟩ := samples_drive (h14.stands hc) (h14.quiet hq) h14.seq hrest
  have h15 := h14.trans h5
  refine ⟨t5, v, ?_⟩
  rw [h4.snap, h3.snap, h12.snap, h12.cfg, h13.cfg, h14.cfg, h1.cfg, h1.snap] at h15
  exact h15

theorem mayHold_head_sampleBits (c : Config) (j N : Nat) (hrest : ∀ o ∈ rest.head?, o.mayHold = false) :
    ∀ o ∈ ((List.range' j N).flatMap (sampleBit c) ++ rest).head?, o.mayHold = false := by
  cases N with
  | zero => exact hrest
  | succ N => simp [List.range'_succ, sampleBit, delayOps, nowOps, Op.mayHold]

/-- The loop from position j on: the reads, and the bits they leave. -/
theorem samples_bits (N : Nat) (hc : s.CounterStands 0#64) (hq : s.quiet = true)
    (hseq : s.seq = .run i ((List.range' j N).flatMap (sampleBit s.cfg) ++ rest)) (hrest : ∀ o ∈ rest.head?, o.mayHold = false) :
    ∃ (t : State) (v : List Word) (snap : BitVec 16), v.length = N ∧ Samples i s t (12 * N) rest (v.flatMap (sampleBitTrace s.cfg)) snap ∧
      ∀ b < 16, snap.getLsbD b =
        (decide (j ≤ b ∧ b < j + N) && !(v.getD (b - j) 0#32).bit (s.cfg.pinData % 32) || s.loc.snap.getLsbD b) := by
  induction N generalizing s j with
  | zero => exact ⟨s, [], s.loc.snap, rfl, ⟨fun _ => rfl, hseq, rfl, rfl, rfl, rfl, by simp, rfl⟩, by simp⟩
  | succ N ih =>
    obtain ⟨t, v, h1⟩ := samples_bit (i := i) (j := j) (rest := (List.range' (j + 1) N).flatMap (sampleBit s.cfg) ++ rest) hc hq
      (by rw [hseq]; simp [List.range'_succ]) (mayHold_head_sampleBits _ _ _ hrest)
    obtain ⟨u, vs, snap, hlen, h2, hbits⟩ := ih (s := t) (j := j + 1) (h1.stands hc) (h1.quiet hq) (by rw [h1.seq, h1.cfg])
    rw [h1.cfg] at h2
    refine ⟨u, v :: vs, snap, by simp [hlen], ?_, fun b hb => ?_⟩
    · simpa [Nat.mul_add] using h1.trans h2
    · rw [hbits b hb, h1.snap, snapWith_bit _ _ _ hb, h1.cfg]
      by_cases heq : b = j
      · simp [heq]
      · by_cases hlt : b < j
        · simp [heq, show ¬j + 1 ≤ b by omega, show ¬j ≤ b by omega]
        · obtain ⟨d, rfl⟩ : ∃ d, b = j + 1 + d := ⟨b - (j + 1), by omega⟩
          have hd : j + 1 + d - j = d + 1 := by omega
          simp [heq, hd, show j + 1 + d < j + (N + 1) ↔ j + 1 + d < j + 1 + N by omega, show j ≤ j + 1 + d by omega]

end Sys2Proof.Machine

namespace Sys2Proof.Proofs

open Sys2Proof.Machine

/-- Settles O53: without a timer each Delay is one Now() that reads 0, so the trace is that of the program's points. -/
theorem ctrlSampleDegenerate : Obligations.CtrlSampleDegenerate := by
  intro s hq haccepted habsent
  set r := s.started .ctrlSample (sampleProgram s.cfg) with hr
  have hc : r.CounterStands 0#64 := State.counterStands_zero (.inl habsent)
  have hprog : sampleProgram s.cfg =
      driveOp s.cfg.pinClock true :: driveOp s.cfg.pinLatch true :: (delayOps Config.latchUs ++ (driveOp s.cfg.pinLatch false
        :: ((List.range' 0 Config.ctrlBits).flatMap (sampleBit s.cfg) ++ [.finish .sample]))) := by
    simp [sampleProgram, driveOp, List.range_eq_range']
  obtain ⟨t1, h1⟩ := samples_drive hc hq (congrArg (Seq.run .ctrlSample) hprog) (by simp [driveOp, driveHigh, Op.mayHold])
  obtain ⟨t2, h2⟩ := samples_drive (h1.stands hc) (h1.quiet hq) h1.seq (by simp [delayOps, nowOps, Op.mayHold])
  have h12 := h1.trans h2
  obtain ⟨t3, h3⟩ := samples_delay (h12.stands hc) (h12.quiet hq) h12.seq (by simp [driveOp, driveLow, Op.mayHold])
  have h13 := h12.trans h3
  obtain ⟨t4, h4⟩ := samples_drive (h13.stands hc) (h13.quiet hq) h13.seq
    (mayHold_head_sampleBits _ _ _ (by simp [Op.mayHold]))
  have h14 := h13.trans h4
  have hcfg4 : t4.cfg = s.cfg := h14.cfg
  obtain ⟨t, v, snap, hlen, h5, hbits⟩ := samples_bits Config.ctrlBits (h14.stands hc) (h14.quiet hq)
    (h14.seq.trans (by rw [hcfg4])) (by simp [Op.mayHold])
  have h15 := h14.trans h5
  have hexec : exec .ctrlSample s = .next ((t.advanceTimer t.timer.rate).complete .sample) :=
    runCommand_of_run s .ctrlSample (sampleProgram s.cfg) .sample _ t (h15.quiet hq) h15.seq
      (by unfold runBound Config.ctrlBits; omega) h15.run
  have hregs : ((t.advanceTimer t.timer.rate).complete .sample).regs =
      { s.regs with status := s.doneStatus, res0 := snap.setWidth 32 } := by
    rw [State.complete]
    simp only [State.advanceTimer_regs, State.advanceTimer_loc, h15.regs, h15.snap, ← haccepted.completed]
    rfl
  refine ⟨_, v, hexec, State.complete_seq _ _, hlen, ?trace, ?regs, fun b hb => ?bits, ?small⟩
  case trace =>
    rw [State.complete_trace, State.advanceTimer_trace, h15.trace, h13.cfg, h12.cfg, h1.cfg, hcfg4]
    simp [hr, State.started, driveReg]
  case regs => rw [hregs]
  case bits =>
    rw [hregs, Word.bit, BitVec.getLsbD_setWidth, hbits b hb, h4.snap, h13.snap, h12.snap, h1.snap, hcfg4]
    simp [hr, State.started, Config.ctrlBits, hb, show b < 32 by omega]
  case small =>
    rw [hregs, BitVec.toNat_setWidth_of_le (by decide)]
    exact snap.isLt

end Sys2Proof.Proofs
end

section
/-! PROOFS. CTRL.SAMPLE of a plugged-in controller on a running counter (44_controller.md R362, R371): the latch pulse puts the peripheral
in step, and the sixteen bits follow. -/

namespace Sys2Proof.Machine

variable {s : State} {i : Instr} {rest : List Op} {p : Nat} {high : Bool}

/-! ## What an edge leaves of the peripheral -/

/-- The socket and the buttons are as they were, and the edge time is the old one or now (60_exceptions.md R534; log 13). -/
structure Ctrl.EdgeFrame (now : Nat) (c c' : Ctrl) : Prop where
  plugged : c'.plugged = c.plugged
  buttons : c'.buttons = c.buttons
  edgeAt  : c'.edgeAt = now ∨ c'.edgeAt = c.edgeAt

theorem Ctrl.EdgeFrame.trans {now : Nat} {c d e : Ctrl} (h : Ctrl.EdgeFrame now c d) (h' : Ctrl.EdgeFrame now d e) :
    Ctrl.EdgeFrame now c e where
  plugged := h'.plugged.trans h.plugged
  buttons := h'.buttons.trans h.buttons
  edgeAt := h'.edgeAt.elim .inl fun heq => h.edgeAt.imp heq.trans heq.trans

theorem Ctrl.edgeFrame_onLatch (c : Ctrl) (now : Nat) (l : Option Bool) : Ctrl.EdgeFrame now c (c.onLatch now l) := by
  unfold Ctrl.onLatch
  split <;> [skip; split] <;> split <;> exact ⟨rfl, rfl, by simp⟩

theorem Ctrl.edgeFrame_onClock (c : Ctrl) (now : Nat) (l : Option Bool) : Ctrl.EdgeFrame now c (c.onClock now l) := by
  unfold Ctrl.onClock
  split <;> [skip; split] <;> exact ⟨rfl, rfl, by simp⟩

theorem Ctrl.edgeFrame_onFloat (c : Ctrl) (now : Nat) : Ctrl.EdgeFrame now c c.onFloat := by
  unfold Ctrl.onFloat
  split <;> exact ⟨rfl, rfl, .inr rfl⟩

theorem Ctrl.edgeFrame_follow (c : Ctrl) (now : Nat) (latch clock : Bool) : Ctrl.EdgeFrame now c (c.follow now latch clock) :=
  ((c.edgeFrame_onLatch now _).trans (Ctrl.edgeFrame_onClock _ now _)).trans (Ctrl.edgeFrame_onFloat _ now)

/-! ## The latch pulse -/

/-- LATCH and CLOCK are outputs, the timer is there, and its counter runs. -/
structure Wired (s : State) : Prop where
  quiet    : s.quiet = true
  present  : s.cfg.timerPresent = true
  rate_pos : 0 < s.timer.rate
  latch_fn : s.pinFunction s.cfg.pinLatch = s.cfg.fselOutput
  clock_fn : s.pinFunction s.cfg.pinClock = s.cfg.fselOutput

/-- From `s`, the engine has driven pin p to a level, and the peripheral has followed: `t` (60_exceptions.md R534). -/
structure Drove (i : Instr) (p : Nat) (high : Bool) (rest : List Op) (s t : State) : Prop where
  run    : ∀ m, runLoop (m + 1) s = runLoop m t
  seq    : t.seq = .run i rest
  cfg    : t.cfg = s.cfg
  script : t.script = s.script
  regs   : t.regs = s.regs
  loc    : t.loc = s.loc
  timer  : t.timer = { s.timer with count := s.timer.count + s.timer.rate }
  gpio   : t.gpio = { s.gpio with latch := driveLatch s.gpio.latch p high }
  ctrl   : t.ctrl = s.ctrl.follow (s.timer.count + s.timer.rate) (pinLevel t.gpio.latch s.cfg.pinLatch)
    (pinLevel t.gpio.latch s.cfg.pinClock)

theorem Wired.drove (h : Wired s) (hseq : s.seq = .run i (driveOp p high :: rest)) (hrest : ∀ o ∈ rest.head?, o.mayHold = false) :
    ∃ t, Drove i p high rest s t := by
  obtain ⟨e, he⟩ := s.engineStep_drive i p high rest h.latch_fn h.clock_fn h.present
  refine ⟨_, fun m => runLoop_step s m h.quiet hseq he (State.held_of_seq _ rfl hrest), ?_, ?_, ?_, ?_, ?_, ?_, ?_, ?_⟩ <;> rfl

theorem Drove.wired {t : State} (h : Drove i p high rest s t) (hs : Wired s) : Wired t := by
  have hfn (q : Nat) : t.pinFunction q = s.pinFunction q := by simp only [State.pinFunction, h.gpio]
  exact ⟨State.quiet_of_script_eq h.script hs.quiet, h.cfg ▸ hs.present, by rw [h.timer]; exact hs.rate_pos,
    by rw [hfn, h.cfg]; exact hs.latch_fn, by rw [hfn, h.cfg]; exact hs.clock_fn⟩

theorem Drove.level {t : State} (h : Drove i p high rest s t) {q : Nat} (hp : p ≤ 53) (hq : q ≤ 53) :
    pinLevel t.gpio.latch q = if q = p then high else pinLevel s.gpio.latch q := by
  rw [h.gpio]
  exact pinLevel_driveLatch _ p q high hp hq

/-- From `s`, CTRL.SAMPLE has driven CLOCK and LATCH high: `t`, where the peripheral has loaded the buttons (60_exceptions.md R534). -/
structure Loaded (i : Instr) (rest : List Op) (s t : State) : Prop where
  run       : ∀ m, runLoop (m + 2) s = runLoop m t
  wired     : Wired t
  seq       : t.seq = .run i rest
  cfg       : t.cfg = s.cfg
  regs      : t.regs = s.regs
  loc       : t.loc = s.loc
  timer     : t.timer = { s.timer with count := s.timer.count + 2 * s.timer.rate }
  gpio      : t.gpio = { s.gpio with latch := t.gpio.latch }
  level     : ∀ q ≤ 53, pinLevel t.gpio.latch q = if q = s.cfg.pinLatch ∨ q = s.cfg.pinClock then true else pinLevel s.gpio.latch q
  plugged   : t.ctrl.plugged = s.ctrl.plugged
  shift     : t.ctrl.shift = s.ctrl.buttons
  pos       : t.ctrl.pos = 0
  latchLine : t.ctrl.latchLine = some true
  clockLine : t.ctrl.clockLine = some true
  edge_le   : s.ctrl.edgeAt ≤ s.timer.count → t.ctrl.edgeAt ≤ t.timer.count

theorem Wired.loaded (h : Wired s) (hwf : s.cfg.wf = true) (hrest : ∀ o ∈ rest.head?, o.mayHold = false)
    (hseq : s.seq = .run i (driveOp s.cfg.pinClock true :: driveOp s.cfg.pinLatch true :: rest)) : ∃ t, Loaded i rest s t := by
  obtain ⟨⟨hlatch, hclock, -⟩, -, -, hLC⟩ := Config.pins_of_wf hwf
  obtain ⟨t, h1⟩ := h.drove hseq (by simp [driveOp, driveHigh, Op.mayHold])
  obtain ⟨u, h2⟩ := (h1.wired h).drove h1.seq hrest
  have hlevel (q : Nat) (hq : q ≤ 53) : pinLevel u.gpio.latch q =
      if q = s.cfg.pinLatch ∨ q = s.cfg.pinClock then true else pinLevel s.gpio.latch q := by
    rw [h2.level hlatch hq, h1.level hclock hq, ite_or]
  have hctrl := h2.ctrl
  rw [h1.cfg, hlevel _ hlatch, hlevel _ hclock, if_pos (.inl rfl), if_pos (.inr rfl)] at hctrl
  obtain ⟨c, hc, hplug, -, hlatchLine, hclockLine, hshift, hpos, hedge⟩ := t.ctrl.follow_latch_rise (t.timer.count + t.timer.rate)
  obtain rfl : u.ctrl = c := hctrl.trans hc
  have hframe := s.ctrl.edgeFrame_follow (s.timer.count + s.timer.rate) (pinLevel t.gpio.latch s.cfg.pinLatch)
    (pinLevel t.gpio.latch s.cfg.pinClock)
  rw [← h1.ctrl] at hframe
  refine ⟨u, fun m => by rw [h1.run, h2.run], h2.wired (h1.wired h), h2.seq, h2.cfg.trans h1.cfg, h2.regs.trans h1.regs,
    h2.loc.trans h1.loc, ?timer, by rw [h2.gpio, h1.gpio], hlevel, hplug.trans hframe.plugged, hshift.trans hframe.buttons, hpos,
    hlatchLine, hclockLine, fun hle => ?edge⟩
  case timer =>
    rw [h2.timer, h1.timer, Nat.two_mul, ← Nat.add_assoc]
  case edge =>
    have hcount1 : t.timer.count = s.timer.count + s.timer.rate := by rw [h1.timer]
    have hcount2 : u.timer.count = t.timer.count + t.timer.rate := by rw [h2.timer]
    obtain heq | heq := hedge <;> obtain heq' | heq' := hframe.edgeAt <;> omega

/-- The latch pulse of CTRL.SAMPLE (44_controller.md R371): CLOCK and LATCH high, a wait of 12 microseconds, LATCH low; the peripheral
then shows its first button. -/
theorem runLoop_latchPulse (h : Wired s) (hwf : s.cfg.wf = true) (h4 : 4 * s.timer.rate < 2 ^ 32)
    (hdata : s.pinFunction s.cfg.pinData = s.cfg.fselInput) (hplug : s.ctrl.plugged = true) (hedge : s.ctrl.edgeAt ≤ s.timer.count)
    (hsnap : s.loc.snap = 0#16) (hb : s.timer.count + 12 + 14 * s.timer.rate < 2 ^ 64)
    (hseq : s.seq = .run i (driveOp s.cfg.pinClock true :: driveOp s.cfg.pinLatch true
      :: (delayOps Config.latchUs ++ driveOp s.cfg.pinLatch false :: rest)))
    (hrest : ∀ o ∈ rest.head?, o.mayHold = false) :
    ∃ k m t, m ≤ 2 * k ∧ (∀ n, runLoop (n + m) s = runLoop n t) ∧ SampleAt t s.ctrl.buttons 0 ∧ t.seq = .run i rest ∧ t.cfg = s.cfg ∧
      t.regs = s.regs ∧ t.gpio = { s.gpio with latch := t.gpio.latch } ∧
      (∀ q ≤ 53, pinLevel t.gpio.latch q =
        if q = s.cfg.pinClock then true else if q = s.cfg.pinLatch then false else pinLevel s.gpio.latch q) ∧
      t.timer = { s.timer with count := s.timer.count + k * s.timer.rate } ∧
      s.timer.count + 12 ≤ s.timer.count + k * s.timer.rate ∧
      s.timer.count + k * s.timer.rate ≤ s.timer.count + 12 + 14 * s.timer.rate := by
  obtain ⟨⟨hlatch, hclock, hdatale, -⟩, -, -, hLC⟩ := Config.pins_of_wf hwf
  obtain ⟨u, hu⟩ := h.loaded hwf (by simp [delayOps, nowOps, Op.mayHold]) hseq
  have hcount : u.timer.count = s.timer.count + 2 * s.timer.rate := by rw [hu.timer]
  have hrate : u.timer.rate = s.timer.rate := by rw [hu.timer]
  -- the wait
  obtain ⟨k, m, hi, lo, w, t0, tr, hm, hlo, hhi, hdelay⟩ := runLoop_delay u i Config.latchUs (driveOp s.cfg.pinLatch false :: rest)
    (by intro r b l rest'; simp [driveOp, driveLow]) hu.wired.quiet hu.seq hu.wired.present hu.wired.rate_pos (by rw [hrate]; exact h4)
    (by rw [hcount, hrate]; show s.timer.count + 2 * s.timer.rate + 12 + 11 * s.timer.rate < 2 ^ 64; omega)
  rw [hcount, hrate, show (Config.latchUs).toNat = 12 from rfl] at hlo hhi
  rw [hcount, hrate] at hdelay
  set v := u.atCounter i (driveOp s.cfg.pinLatch false :: rest) (u.loc.withTimes hi lo w t0)
    (s.timer.count + 2 * s.timer.rate + k * s.timer.rate) (u.trace ++ tr) with hv
  have hwired : Wired v := ⟨hu.wired.quiet, hu.wired.present, hu.wired.rate_pos, hu.wired.latch_fn, hu.wired.clock_fn⟩
  have hvcfg : v.cfg = s.cfg := hu.cfg
  have hvtimer : v.timer = { s.timer with count := s.timer.count + 2 * s.timer.rate + k * s.timer.rate } := by
    simp only [hv, State.atCounter, hu.timer]
  have hnow : v.timer.count + v.timer.rate = s.timer.count + (k + 3) * s.timer.rate := by
    rw [hvtimer, Nat.add_mul]
    show s.timer.count + 2 * s.timer.rate + k * s.timer.rate + s.timer.rate = _
    omega
  -- LATCH falls after its interval: the peripheral is in step
  obtain ⟨t, ht⟩ := hwired.drove (p := s.cfg.pinLatch) (high := false) (rest := rest) (i := i) rfl hrest
  have hcfg : t.cfg = s.cfg := ht.cfg.trans hvcfg
  have htimer : t.timer = { s.timer with count := s.timer.count + (k + 3) * s.timer.rate } := by rw [ht.timer, hnow, hvtimer]
  have hlevel (q : Nat) (hq : q ≤ 53) : pinLevel t.gpio.latch q =
      if q = s.cfg.pinClock then true else if q = s.cfg.pinLatch then false else pinLevel s.gpio.latch q := by
    rw [ht.level hlatch hq, show v.gpio = u.gpio from rfl, hu.level q hq]
    by_cases hqc : q = s.cfg.pinClock
    · simp [hqc, hLC.symm]
    · by_cases hql : q = s.cfg.pinLatch
      · simp [hql, hLC]
      · simp [hqc, hql]
  have hctrl := ht.ctrl
  rw [hvcfg, hlevel _ hlatch, hlevel _ hclock, if_neg hLC, if_pos rfl, if_pos rfl, hnow,
    Ctrl.follow_latch_fall v.ctrl _ hu.latchLine hu.clockLine (by
      have hle : v.ctrl.edgeAt ≤ s.timer.count + 2 * s.timer.rate := hcount ▸ hu.edge_le hedge
      rw [Nat.add_mul]
      omega)] at hctrl
  have hgpio : t.gpio = { s.gpio with latch := t.gpio.latch } := by rw [ht.gpio, show v.gpio = u.gpio from rfl, hu.gpio]
  have hfn (q : Nat) : t.pinFunction q = s.pinFunction q := by
    rw [State.pinFunction, hgpio]
    rfl
  have hsnap' : t.loc.snap = 0#16 := by
    rw [ht.loc]
    show u.loc.snap = _
    rw [hu.loc, hsnap]
  have hwired' := ht.wired hwired
  have hat : SampleAt t s.ctrl.buttons 0 :=
    { quiet := hwired'.quiet
      present := hwired'.present
      rate_pos := hwired'.rate_pos
      rate_lt := by rw [htimer]; exact h4
      latch_le := hcfg ▸ hlatch
      clock_le := hcfg ▸ hclock
      data_le := hcfg ▸ hdatale
      distinct := hcfg ▸ hLC
      latch_fn := hwired'.latch_fn
      clock_fn := hwired'.clock_fn
      data_fn := by rw [hfn, hcfg]; exact hdata
      plugged := by rw [hctrl]; exact hu.plugged.trans hplug
      latch_lo := by rw [hctrl]
      clock_hi := by rw [hctrl]; exact hu.clockLine
      synced := by rw [hctrl]
      pos_eq := by rw [hctrl]; exact hu.pos
      shift_eq := by rw [hctrl]; exact hu.shift
      edge_le := by rw [hctrl, htimer]
      latch_lv := by rw [hcfg, hlevel _ hlatch, if_neg hLC, if_pos rfl]
      clock_lv := by rw [hcfg, hlevel _ hclock, if_pos rfl]
      snap_eq := fun b _ => by simp [hsnap'] }
  refine ⟨k + 3, m + 3, t, by omega, fun n => ?run, hat, ht.seq, hcfg, ht.regs.trans hu.regs, hgpio, hlevel, htimer, ?_, ?_⟩
  case run => rw [show n + (m + 3) = n + 1 + m + 2 by omega, hu.run, hdelay, ht.run]
  all_goals
    rw [Nat.add_mul]
    omega

end Sys2Proof.Machine

namespace Sys2Proof.Proofs

open Sys2Proof.Machine

/-- Settles O52: the latch pulse puts the peripheral in step, and each of the sixteen turns of the loop takes one button from it. -/
theorem ctrlSampleReadsButtons : Obligations.CtrlSampleReadsButtons := by
  intro s hq haccepted hwf hne hlatchFn hclockFn hdataFn hplug hedge hp hr h4 hbound
  set r := s.started .ctrlSample (sampleProgram s.cfg) with hr'
  have hprog : sampleProgram s.cfg =
      driveOp s.cfg.pinClock true :: driveOp s.cfg.pinLatch true :: (delayOps Config.latchUs ++ (driveOp s.cfg.pinLatch false
        :: ((List.range' 0 16).flatMap (sampleBit s.cfg) ++ [.finish .sample]))) := by
    simp [sampleProgram, driveOp, List.range_eq_range', Config.ctrlBits]
  have hseq : r.seq = .run .ctrlSample (driveOp r.cfg.pinClock true :: driveOp r.cfg.pinLatch true :: (delayOps Config.latchUs
      ++ (driveOp r.cfg.pinLatch false :: ((List.range' 0 16).flatMap (sampleBit r.cfg) ++ [.finish .sample])))) :=
    congrArg (Seq.run .ctrlSample) hprog
  obtain ⟨k1, m1, t1, hm1, hrun1, hat1, hseq1, hcfg1, hregs1, hgpio1, hlevel1, htimer1, hlo1, hhi1⟩ :=
    runLoop_latchPulse (s := r)
      ⟨hq, hp, hr, hlatchFn, hclockFn⟩ hwf h4 hdataFn hplug hedge rfl (show s.timer.count + 12 + 14 * s.timer.rate < 2 ^ 64 by omega)
      hseq (mayHold_head_sampleBits _ _ _ (by simp [Op.mayHold]))
  rw [show r.timer = s.timer from rfl] at htimer1 hlo1 hhi1
  have hcount1 : t1.timer.count = s.timer.count + k1 * s.timer.rate := by rw [htimer1]
  have hrate1 : t1.timer.rate = s.timer.rate := by rw [htimer1]
  obtain ⟨k2, m2, t2, hm2, hrun2, hat2, hseq2, hcfg2, hregs2, hgpio2, hlevel2, htimer2, hlo2, hhi2⟩ :=
    runLoop_sampleBits .ctrlSample s.ctrl.buttons [.finish .sample] (by intro r b l rest; simp) 16 0 t1 rfl hat1
      (hseq1.trans (by rw [hcfg1])) (by rw [hcount1, hrate1]; omega)
  rw [hcount1, hrate1] at htimer2 hlo2 hhi2
  have hmoves : m2 + m1 < runBound s := by
    have hk1 : k1 ≤ 12 + 14 := steps_le hr (by omega)
    have hk2 : k2 ≤ 16 * 12 + 16 * 25 := steps_le hr (by omega)
    unfold runBound
    omega
  have hsnap : t2.loc.snap = s.ctrl.buttons := by
    apply BitVec.eq_of_getLsbD_eq
    intro b hb
    rw [hat2.snap_eq b hb]
    simp [hb]
  have hexec : exec .ctrlSample s = .next ((t2.advanceTimer t2.timer.rate).complete .sample) :=
    runCommand_of_run s .ctrlSample (sampleProgram s.cfg) .sample (m2 + m1) t2 hat2.quiet hseq2 hmoves
      fun n => by rw [← Nat.add_assoc, hrun1, hrun2]
  have hgpio : ((t2.advanceTimer t2.timer.rate).complete .sample).gpio = t2.gpio := by simp
  obtain ⟨⟨hlatch, hclock, -⟩, -⟩ := Config.pins_of_wf hwf
  refine ⟨_, hexec, State.complete_seq _ _, ?regs, ?gpio, fun p hple => ?levels, ?time⟩
  case regs =>
    rw [State.complete]
    simp only [State.advanceTimer_regs, State.advanceTimer_loc, hregs2, hregs1, hsnap, ← haccepted.completed]
    rfl
  case gpio =>
    rw [hgpio, hgpio2, hgpio1]
    rfl
  case levels =>
    rw [hgpio, hlevel2 p hple, hlevel1 p hple]
    rfl
  case time =>
    have hcount2 : t2.timer.count = s.timer.count + k1 * s.timer.rate + k2 * s.timer.rate := by rw [htimer2]
    rw [State.complete_timer, State.advanceTimer_present t2 _ (hcfg2 ▸ hcfg1 ▸ hp)]
    show s.timer.count + 204 ≤ t2.timer.count + t2.timer.rate
    omega

end Sys2Proof.Proofs
end

section
/-! PROOFS. MboxCall (40_mailbox.md R205 to R208, R212): what its send, its match loop and its code read do, and where it holds. -/

namespace Sys2Proof.Machine

variable {s t u : State} {i : Instr} {rest : List Op} {ch : BitVec 4} {w x : Word} {xs other more : List Word} {mbox mbox' : Mbox}
  {tr tr' : List BusEvent}

/-! ## What an exchange changes -/

/-- From `s` to `t` the engine has used the mailbox only: it stands as `mbox`, the word sent is `w`, the events are `tr` but for the values
of MBOX_STATUS, and no other state of the command has changed. -/
structure Exchanged (s t : State) (mbox : Mbox) (w : Word) (tr : List BusEvent) : Prop where
  cfg    : t.cfg = s.cfg
  script : t.script = s.script
  regs   : t.regs = s.regs
  ram    : t.ram = s.ram
  mbox   : t.mbox = mbox
  word   : t.loc.w = w
  trace  : maskTrace (Reg.mboxStatus.addr s.cfg) t.trace = maskTrace (Reg.mboxStatus.addr s.cfg) (s.trace ++ tr)

theorem Exchanged.trans {w' : Word} (h : Exchanged s t mbox w tr) (h' : Exchanged t u mbox' w' tr') :
    Exchanged s u mbox' w' (tr ++ tr') where
  cfg := h'.cfg.trans h.cfg
  script := h'.script.trans h.script
  regs := h'.regs.trans h.regs
  ram := h'.ram.trans h.ram
  mbox := h'.mbox
  word := h'.word
  trace := by
    have htrace := h'.trace
    rw [h.cfg] at htrace
    rw [htrace, maskTrace_append, h.trace, maskTrace_append, ← List.append_assoc, maskTrace_append (l' := tr'), maskTrace_append]

theorem Exchanged.of_goto {todo : List Op} (h : Exchanged (s.goto i todo) t mbox w tr) : Exchanged s t mbox w tr :=
  ⟨h.cfg, h.script, h.regs, h.ram, h.mbox, h.word, h.trace⟩

theorem Exchanged.quiet (h : Exchanged s t mbox w tr) (hq : s.quiet = true) : t.quiet = true := State.quiet_of_script_eq h.script hq

/-! ## The status flags at the next read -/

/-- FULL is 0 at the next read when the inbound FIFO has room (60_exceptions.md R521). -/
theorem State.seesNext_full (s : State) :
    s.seesNext .mboxStatus s.cfg.mboxFullBit false ↔ s.mbox.inbound.length < s.cfg.mboxFifoDepth := by
  have hbit := (s.advanceTimer s.timer.rate).mboxStatus_full (s.advanceTimer s.timer.rate).freeValue
  rw [State.advanceTimer_mbox, State.advanceTimer_cfg] at hbit
  exact ((Eq.congr_left hbit).trans decide_eq_false_iff_not).trans Nat.not_le

/-- EMPTY is 0 at the next read when a word waits (60_exceptions.md R521). -/
theorem State.seesNext_empty (s : State) (hflags : s.cfg.mboxFullBit ≠ s.cfg.mboxEmptyBit) :
    s.seesNext .mboxStatus s.cfg.mboxEmptyBit false ↔ s.mbox.outbound ≠ [] := by
  have hbit := (s.advanceTimer s.timer.rate).mboxStatus_empty (s.advanceTimer s.timer.rate).freeValue
    (by rw [State.advanceTimer_cfg]; exact hflags)
  rw [State.advanceTimer_mbox, State.advanceTimer_cfg] at hbit
  refine (Eq.congr_left hbit).trans ?_
  rw [← Bool.not_eq_true, List.isEmpty_iff]

/-- A poll of MBOX_STATUS that has been read. -/
theorem State.polled_exchanged (s : State) (i : Instr) (rest : List Op) :
    Exchanged s (s.polled i .mboxStatus rest) s.mbox s.loc.w [.rd (Reg.mboxStatus.addr s.cfg) 4 0#32] := by
  refine ⟨?_, ?_, ?_, ?_, ?_, ?_, ?_⟩
  case refine_5 => simp [State.polled, State.busRead_mbox _ .mboxStatus nofun]
  case refine_7 =>
    have htrace : (s.polled i .mboxStatus rest).trace = s.trace ++ [.rd (Reg.mboxStatus.addr s.cfg) 4 (s.nextRead .mboxStatus)] := by
      simp [State.polled, State.readInto_trace, State.nextRead]
    rw [htrace, maskTrace_append, maskTrace_append]
    simp [maskTrace, BusEvent.maskRead]
  all_goals simp [State.polled]

/-! ## The send -/

/-- The state after MboxCall's write of the word, FULL having been read as 0 (40_mailbox.md R205). -/
def State.sentWord (s : State) (i : Instr) (ch : BitVec 4) (rest : List Op) : State :=
  (s.polled i .mboxStatus (.mboxSend ch :: rest)).engineStep i (.mboxSend ch) rest

theorem State.sentWord_exchanged (s : State) (i : Instr) (ch : BitVec 4) (rest : List Op)
    (hroom : s.mbox.inbound.length < s.cfg.mboxFifoDepth) :
    Exchanged s (s.sentWord i ch rest) { s.mbox with inbound := s.mbox.inbound ++ [channelWord s.cfg ch] } (channelWord s.cfg ch)
      [.rd (Reg.mboxStatus.addr s.cfg) 4 0#32, .wr (Reg.mboxWrite.addr s.cfg) 4 (channelWord s.cfg ch)] := by
  have hpoll := s.polled_exchanged i (.mboxSend ch :: rest)
  set p := s.polled i .mboxStatus (.mboxSend ch :: rest)
  have hsend : s.sentWord i ch rest = (((p.advanceTimer p.timer.rate).busWrite .mboxWrite (channelWord p.cfg ch)).withLoc
      { p.loc with w := channelWord p.cfg ch }).goto i rest := by
    rw [State.sentWord, State.engineStep_step _ _ _ _ rfl]
    simp [State.stepOp, p]
  rw [hsend, hpoll.cfg]
  refine hpoll.trans (tr' := [_]) ⟨?_, ?_, ?_, ?_, ?_, ?_, ?_⟩
  case refine_5 =>
    simp [State.busWrite, State.devWrite, Mbox.push, hpoll.mbox, hpoll.cfg, hroom]
  case refine_7 => simp [State.busWrite_trace, hpoll.cfg]
  all_goals simp

theorem runLoop_sendWord (hq : s.quiet = true)
    (hseq : s.seq = .run i (waitUntil .mboxStatus s.cfg.mboxFullBit false ++ .mboxSend ch :: rest))
    (hrest : ∀ o ∈ rest.head?, o.mayHold = false) (hroom : s.mbox.inbound.length < s.cfg.mboxFifoDepth) (n : Nat) :
    runLoop (n + 3) s = runLoop n (s.sentWord i ch rest) :=
  runLoop_poll_op n hq hseq rfl hrest (s.seesNext_full.mpr hroom)

/-! ## The match loop -/

/-- The state after the pop of one word and its test, EMPTY having been read as 0 (40_mailbox.md R205). -/
def State.poppedWord (s : State) (i : Instr) (rest : List Op) : State :=
  ((s.polled i .mboxStatus (.mboxReceive :: .compute .matchTest :: rest)).engineStep i .mboxReceive (.compute .matchTest :: rest)).engineStep i
    (.compute .matchTest) rest

/-- The reads of a status and a word. -/
def popTrace (c : Config) (w : Word) : List BusEvent :=
  [.rd (Reg.mboxStatus.addr c) 4 0#32, .rd (Reg.mboxRead.addr c) 4 w]

theorem popTrace_eq (c : Config) : popTrace c = fun w => [.rd (Reg.mboxStatus.addr c) 4 0#32, .rd (Reg.mboxRead.addr c) 4 w] := rfl

/-- A word equal to W ends the loop, and another one is lost (40_mailbox.md R205, R206). -/
theorem State.poppedWord_exchanged (s : State) (i : Instr) (rest : List Op) (hout : s.mbox.outbound = x :: xs) :
    Exchanged s (s.poppedWord i rest) { s.mbox with outbound := xs } s.loc.w (popTrace s.cfg x) ∧
      (s.poppedWord i rest).seq = .run i (if x = s.loc.w then rest else mboxMatch s.cfg ++ rest) := by
  have hpoll := s.polled_exchanged i (.mboxReceive :: .compute .matchTest :: rest)
  set p := s.polled i .mboxStatus (.mboxReceive :: .compute .matchTest :: rest)
  have hpout : (p.advanceTimer p.timer.rate).mbox.outbound = x :: xs := by rw [State.advanceTimer_mbox, hpoll.mbox, hout]
  have hvalue : ((p.advanceTimer p.timer.rate).busRead .mboxRead).1 = x := by
    rw [State.busRead, State.devRead, State.devValue, hpout]
    rfl
  have hpop : p.engineStep i .mboxReceive (.compute .matchTest :: rest) =
      ((p.advanceTimer p.timer.rate).readInto .mboxRead).goto i (.compute .matchTest :: rest) := by
    rw [State.engineStep_step _ _ _ _ rfl]
    rfl
  have htest : s.poppedWord i rest = ((p.advanceTimer p.timer.rate).readInto .mboxRead).goto i
      (if x = s.loc.w then rest else mboxMatch s.cfg ++ rest) := by
    rw [State.poppedWord, hpop, State.engineStep_compute]
    simp only [State.compute, State.goto_loc, State.readInto_loc, hvalue, State.advanceTimer_loc, hpoll.word, State.goto_cfg,
      State.readInto_cfg, State.advanceTimer_cfg, hpoll.cfg]
    rfl
  rw [htest]
  refine ⟨hpoll.trans (tr' := [_]) ⟨?_, ?_, ?_, ?_, ?_, ?_, ?_⟩, rfl⟩
  case refine_5 =>
    rw [State.goto_mbox, State.readInto_mbox, State.busRead, State.record_mbox, State.devRead_mboxRead, hpout, State.advanceTimer_mbox,
      hpoll.mbox]
    rfl
  case refine_7 => simp [State.readInto_trace, hvalue, hpoll.cfg]
  case refine_6 => simp [hpoll.word]
  all_goals simp

theorem runLoop_popWord (hq : s.quiet = true) (hrest : ∀ o ∈ rest.head?, o.mayHold = false) (hout : s.mbox.outbound = x :: xs) (n : Nat) :
    runLoop (n + 2) (s.polled i .mboxStatus (.mboxReceive :: .compute .matchTest :: rest)) = runLoop n (s.poppedWord i rest) := by
  have hhead : ∀ o ∈ (if x = s.loc.w then rest else mboxMatch s.cfg ++ rest).head?, o.mayHold = false := by
    split
    · exact hrest
    · simp [mboxMatch, waitUntil, Op.mayHold]
  rw [runLoop_polled_op (n + 1) hq rfl (by simp [Op.mayHold])]
  exact runLoop_go _ n (by simpa [State.polled, State.quiet] using hq) (State.engineStep_plain_seq _ i .mboxReceive _ rfl)
    (s.poppedWord_exchanged i rest hout).2 hhead

/-- One turn of the match loop, when a word waits. -/
theorem runLoop_matchTurn (hq : s.quiet = true) (hflags : s.cfg.mboxFullBit ≠ s.cfg.mboxEmptyBit)
    (hseq : s.seq = .run i (mboxMatch s.cfg ++ rest)) (hrest : ∀ o ∈ rest.head?, o.mayHold = false) (hout : s.mbox.outbound = x :: xs)
    (n : Nat) : runLoop (n + 4) s = runLoop n (s.poppedWord i rest) := by
  have hpoll : s.seq = .run i (waitUntil .mboxStatus s.cfg.mboxEmptyBit false ++ (.mboxReceive :: .compute .matchTest :: rest)) := by
    simp [hseq, mboxMatch]
  have hsees : s.seesNext .mboxStatus s.cfg.mboxEmptyBit false := (s.seesNext_empty hflags).mpr (by simp [hout])
  rw [show n + 4 = n + 2 + 2 from rfl, runLoop_poll s i _ _ _ _ _ hq hpoll (by simp [Op.mayHold]) hsees, runLoop_popWord hq hrest hout]

/-- Words that differ from W are popped and lost (40_mailbox.md R206). -/
theorem runLoop_matchOthers (hq : s.quiet = true) (hflags : s.cfg.mboxFullBit ≠ s.cfg.mboxEmptyBit)
    (hseq : s.seq = .run i (mboxMatch s.cfg ++ rest)) (hrest : ∀ o ∈ rest.head?, o.mayHold = false)
    (hout : s.mbox.outbound = other ++ more) (hother : s.loc.w ∉ other) :
    ∃ t, (∀ n, runLoop (n + 4 * other.length) s = runLoop n t) ∧ t.seq = .run i (mboxMatch s.cfg ++ rest) ∧
      Exchanged s t { s.mbox with outbound := more } s.loc.w (other.flatMap (popTrace s.cfg)) := by
  induction other generalizing s with
  | nil =>
    refine ⟨s, fun _ => rfl, hseq, rfl, rfl, rfl, rfl, ?_, rfl, by simp⟩
    rw [← List.nil_append more, ← hout]
  | cons x other ih =>
    obtain ⟨hne, hrest'⟩ := not_or.mp (mt List.mem_cons.mpr hother)
    obtain ⟨hturn, hnext⟩ := s.poppedWord_exchanged i rest hout
    rw [if_neg (Ne.symm hne)] at hnext
    obtain ⟨t, hrun, htseq, ht⟩ := ih (s := s.poppedWord i rest) (hturn.quiet hq) (by rw [hturn.cfg]; exact hflags)
      (by rw [hnext, hturn.cfg]) (by rw [hturn.mbox]; rfl) (by rw [hturn.word]; exact hrest')
    rw [hturn.cfg] at htseq ht
    rw [hturn.mbox, hturn.word] at ht
    refine ⟨t, fun n => ?_, htseq, hturn.trans ht⟩
    rw [show n + 4 * (x :: other).length = n + 4 * other.length + 4 by simp; omega, runLoop_matchTurn hq hflags hseq hrest hout, hrun]

/-- The match loop ends at W, with the words before it lost (40_mailbox.md R205, R206). -/
theorem runLoop_match (hq : s.quiet = true) (hflags : s.cfg.mboxFullBit ≠ s.cfg.mboxEmptyBit)
    (hseq : s.seq = .run i (mboxMatch s.cfg ++ rest)) (hrest : ∀ o ∈ rest.head?, o.mayHold = false)
    (hout : s.mbox.outbound = other ++ s.loc.w :: more) (hother : s.loc.w ∉ other) :
    ∃ t, (∀ n, runLoop (n + 4 * (other.length + 1)) s = runLoop n t) ∧ t.seq = .run i rest ∧
      Exchanged s t { s.mbox with outbound := more } s.loc.w ((other ++ [s.loc.w]).flatMap (popTrace s.cfg)) := by
  obtain ⟨u, hrun, huseq, hu⟩ := runLoop_matchOthers hq hflags hseq hrest hout hother
  have huout : u.mbox.outbound = s.loc.w :: more := by rw [hu.mbox]
  rw [← hu.cfg] at huseq hflags
  obtain ⟨hlast, hnext⟩ := u.poppedWord_exchanged i rest huout
  rw [if_pos hu.word.symm] at hnext
  have hall := hu.trans hlast
  rw [hu.mbox, hu.word, hu.cfg] at hall
  refine ⟨_, fun n => ?_, hnext, ?_⟩
  · rw [show n + 4 * (other.length + 1) = n + 4 + 4 * other.length by omega, hrun, runLoop_matchTurn (hu.quiet hq) hflags huseq hrest huout]
  · simpa using hall

/-- The match loop holds when no word equal to W waits, with all those that wait lost (40_mailbox.md R208). -/
theorem runLoop_match_hold (hq : s.quiet = true) (hflags : s.cfg.mboxFullBit ≠ s.cfg.mboxEmptyBit)
    (hseq : s.seq = .run i (mboxMatch s.cfg ++ rest)) (hrest : ∀ o ∈ rest.head?, o.mayHold = false) (hnone : s.loc.w ∉ s.mbox.outbound) :
    ∃ t, (∀ n, runLoop (n + (4 * s.mbox.outbound.length + 1)) s = t) ∧
      t.seq = .run i (.compute (.pollTest .mboxStatus s.cfg.mboxEmptyBit false) :: .mboxReceive :: .compute .matchTest :: rest) ∧
      Exchanged s t { s.mbox with outbound := [] } s.loc.w
        (s.mbox.outbound.flatMap (popTrace s.cfg) ++ [.rd (Reg.mboxStatus.addr s.cfg) 4 0#32]) ∧
      t.loc.v.bit s.cfg.mboxEmptyBit.val ≠ false := by
  obtain ⟨u, hrun, huseq, hu⟩ := runLoop_matchOthers hq hflags hseq hrest (List.append_nil _).symm hnone
  have hsees : ¬u.seesNext .mboxStatus s.cfg.mboxEmptyBit false := by
    rw [← hu.cfg, u.seesNext_empty (by rw [hu.cfg]; exact hflags), hu.mbox]
    simp
  have hlast := u.polled_exchanged i (.compute (.pollTest .mboxStatus s.cfg.mboxEmptyBit false) :: .mboxReceive :: .compute .matchTest :: rest)
  have hall := hu.trans hlast
  rw [hu.mbox, hu.word, hu.cfg] at hall
  refine ⟨_, fun n => ?_, rfl, hall, mt State.polled_sees.mp hsees⟩
  rw [show n + (4 * s.mbox.outbound.length + 1) = n + 1 + 4 * s.mbox.outbound.length by omega, hrun,
    runLoop_poll_hold u i .mboxStatus s.cfg.mboxEmptyBit false (.mboxReceive :: .compute .matchTest :: rest) n (hu.quiet hq)
      (by simp [huseq, mboxMatch]) hsees]

/-! ## The response code -/

/-- The read of buffer word 1 (40_mailbox.md R205). -/
theorem State.engineStep_codeRead_exchanged (s : State) (i : Instr) (rest : List Op) (hin : s.wordInRam (bufAddr s.cfg 1) = true) :
    Exchanged s (s.engineStep i .codeRead rest) s.mbox s.loc.w [.rd (bufAddr s.cfg 1) 4 (s.ramWord 0#32 (bufAddr s.cfg 1))] ∧
      (s.engineStep i .codeRead rest).loc.code = s.ramWord 0#32 (bufAddr s.cfg 1) := by
  have hread : ((s.advanceTimer s.timer.rate).ramRead (bufAddr s.cfg 1)).1 = s.ramWord 0#32 (bufAddr s.cfg 1) := by
    rw [State.ramRead, s.ramWord_inRam _ _ hin, State.ramWord_inRam _ _ _ (by simpa [State.wordInRam] using hin), State.advanceTimer_ram]
  rw [State.engineStep_step _ _ _ _ rfl]
  refine ⟨⟨?_, ?_, ?_, ?_, ?_, ?_, ?_⟩, ?_⟩
  case refine_7 => simp [State.stepOp, State.ramRead_trace, hread]
  case refine_8 => simp [State.stepOp, hread]
  all_goals simp [State.stepOp]

/-! ## MboxCall -/

theorem mboxCall_append (c : Config) (ch : BitVec 4) (rest : List Op) :
    mboxCall c ch ++ rest =
      waitUntil .mboxStatus c.mboxFullBit false ++ .mboxSend ch :: (mboxMatch c ++ .codeRead :: rest) := by
  simp [mboxCall]

theorem mayHold_head_match (c : Config) : ∀ o ∈ (mboxMatch c ++ rest).head?, o.mayHold = false := by
  simp [mboxMatch, waitUntil, Op.mayHold]

/-- MboxCall whose word stands in the outbound FIFO (40_mailbox.md R205, R212). -/
theorem runLoop_mboxCall (hq : s.quiet = true) (hflags : s.cfg.mboxFullBit ≠ s.cfg.mboxEmptyBit)
    (hseq : s.seq = .run i (mboxCall s.cfg ch ++ rest)) (hrest : ∀ o ∈ rest.head?, o.mayHold = false)
    (hroom : s.mbox.inbound.length < s.cfg.mboxFifoDepth) (hout : s.mbox.outbound = other ++ channelWord s.cfg ch :: more)
    (hother : channelWord s.cfg ch ∉ other) (hin : s.wordInRam (bufAddr s.cfg 1) = true) :
    ∃ t, (∀ n, runLoop (n + (4 * other.length + 8)) s = runLoop n t) ∧ t.seq = .run i rest ∧
      Exchanged s t { s.mbox with inbound := s.mbox.inbound ++ [channelWord s.cfg ch], outbound := more } (channelWord s.cfg ch)
        (mboxTrace s.cfg ch (other ++ [channelWord s.cfg ch]) (s.ramWord 0#32 (bufAddr s.cfg 1))) ∧
      t.loc.code = s.ramWord 0#32 (bufAddr s.cfg 1) := by
  rw [mboxCall_append] at hseq
  have hsent := s.sentWord_exchanged i ch (mboxMatch s.cfg ++ .codeRead :: rest) hroom
  have hsend := runLoop_sendWord hq hseq (mayHold_head_match _) hroom
  have hsentSeq : (s.sentWord i ch (mboxMatch s.cfg ++ .codeRead :: rest)).seq = .run i (mboxMatch s.cfg ++ .codeRead :: rest) :=
    State.engineStep_plain_seq _ i _ _ rfl
  set u := s.sentWord i ch (mboxMatch s.cfg ++ .codeRead :: rest)
  obtain ⟨v, hmatch, hvseq, hv⟩ := runLoop_match (i := i) (rest := .codeRead :: rest) (other := other) (more := more) (hsent.quiet hq)
    (by rw [hsent.cfg]; exact hflags) (by rw [hsent.cfg]; exact hsentSeq) (by simp [Op.mayHold]) (by rw [hsent.mbox, hsent.word]; exact hout)
    (by rw [hsent.word]; exact hother)
  have hboth := hsent.trans hv
  rw [hsent.mbox, hsent.word, hsent.cfg] at hboth
  have hram : v.ramWord 0#32 (bufAddr v.cfg 1) = s.ramWord 0#32 (bufAddr s.cfg 1) := by
    simp only [State.ramWord, State.ramOr, hboth.cfg, hboth.ram]
  obtain ⟨hcode, hcodeLoc⟩ := v.engineStep_codeRead_exchanged i rest (by
    simp only [State.wordInRam, hboth.cfg]
    exact hin)
  have hall := hboth.trans hcode
  rw [hboth.mbox, hboth.word, hboth.cfg, ← hboth.cfg, hram, hboth.cfg] at hall
  refine ⟨_, fun n => ?_, State.engineStep_plain_seq _ i _ _ rfl, ?_, hcodeLoc.trans hram⟩
  · rw [show n + (4 * other.length + 8) = n + 1 + 4 * (other.length + 1) + 3 by omega, hsend, hmatch]
    exact runLoop_go v n (hboth.quiet hq) hvseq (State.engineStep_plain_seq v i _ _ rfl) hrest
  · simpa [mboxTrace, popTrace_eq] using hall

/-- MboxCall holds at a full inbound FIFO (40_mailbox.md R208). -/
theorem runLoop_mboxCall_full (hq : s.quiet = true) (hseq : s.seq = .run i (mboxCall s.cfg ch ++ rest))
    (hfull : s.cfg.mboxFifoDepth ≤ s.mbox.inbound.length) :
    ∃ t todo, (∀ n, runLoop (n + 1) s = t) ∧ t.seq = .run i (.compute (.pollTest .mboxStatus s.cfg.mboxFullBit false) :: todo) ∧
      Exchanged s t s.mbox s.loc.w [.rd (Reg.mboxStatus.addr s.cfg) 4 0#32] ∧ t.loc.v.bit s.cfg.mboxFullBit.val ≠ false := by
  rw [mboxCall_append] at hseq
  have hsees : ¬s.seesNext .mboxStatus s.cfg.mboxFullBit false := mt s.seesNext_full.mp (Nat.not_lt.mpr hfull)
  exact ⟨_, _, fun n => runLoop_poll_hold s i _ _ _ _ n hq hseq hsees, rfl, s.polled_exchanged i _, mt State.polled_sees.mp hsees⟩

/-- MboxCall holds when no word equal to its own stands in the outbound FIFO (40_mailbox.md R208). -/
theorem runLoop_mboxCall_empty (hq : s.quiet = true) (hflags : s.cfg.mboxFullBit ≠ s.cfg.mboxEmptyBit)
    (hseq : s.seq = .run i (mboxCall s.cfg ch ++ rest)) (hroom : s.mbox.inbound.length < s.cfg.mboxFifoDepth)
    (hnone : channelWord s.cfg ch ∉ s.mbox.outbound) :
    ∃ t, (∀ n, runLoop (n + (4 * s.mbox.outbound.length + 4)) s = t) ∧
      t.seq = .run i
        (.compute (.pollTest .mboxStatus s.cfg.mboxEmptyBit false) :: .mboxReceive :: .compute .matchTest :: .codeRead :: rest) ∧
      Exchanged s t { s.mbox with inbound := s.mbox.inbound ++ [channelWord s.cfg ch], outbound := [] } (channelWord s.cfg ch)
        ([.rd (Reg.mboxStatus.addr s.cfg) 4 0#32, .wr (Reg.mboxWrite.addr s.cfg) 4 (channelWord s.cfg ch)]
          ++ (s.mbox.outbound.flatMap (popTrace s.cfg) ++ [.rd (Reg.mboxStatus.addr s.cfg) 4 0#32])) ∧
      t.loc.v.bit s.cfg.mboxEmptyBit.val ≠ false := by
  rw [mboxCall_append] at hseq
  have hsent := s.sentWord_exchanged i ch (mboxMatch s.cfg ++ .codeRead :: rest) hroom
  have hsend := runLoop_sendWord hq hseq (mayHold_head_match _) hroom
  have hsentSeq : (s.sentWord i ch (mboxMatch s.cfg ++ .codeRead :: rest)).seq = .run i (mboxMatch s.cfg ++ .codeRead :: rest) :=
    State.engineStep_plain_seq _ i _ _ rfl
  set u := s.sentWord i ch (mboxMatch s.cfg ++ .codeRead :: rest)
  obtain ⟨t, hmatch, htseq, ht, hheld⟩ := runLoop_match_hold (i := i) (rest := .codeRead :: rest) (hsent.quiet hq)
    (by rw [hsent.cfg]; exact hflags) (by rw [hsent.cfg]; exact hsentSeq) (by simp [Op.mayHold])
    (by rw [hsent.mbox, hsent.word]; exact hnone)
  have hall := hsent.trans ht
  rw [hsent.mbox, hsent.word, hsent.cfg] at hall
  rw [hsent.cfg] at htseq hheld
  rw [hsent.mbox] at hmatch
  refine ⟨t, fun n => ?_, htseq, hall, hheld⟩
  rw [show n + (4 * s.mbox.outbound.length + 4) = n + (4 * s.mbox.outbound.length + 1) + 3 by omega, hsend]
  exact hmatch n

/-- What is left of MboxCall once its own word waits: the pop ends the match loop, and the code is read. -/
theorem runLoop_answered (hq : s.quiet = true) (hflags : s.cfg.mboxFullBit ≠ s.cfg.mboxEmptyBit)
    (hseq : s.seq = .run i
      (.compute (.pollTest .mboxStatus s.cfg.mboxEmptyBit false) :: .mboxReceive :: .compute .matchTest :: .codeRead :: rest))
    (hheld : s.loc.v.bit s.cfg.mboxEmptyBit.val ≠ false) (hrest : ∀ o ∈ rest.head?, o.mayHold = false)
    (hout : s.mbox.outbound = s.loc.w :: xs) (hin : s.wordInRam (bufAddr s.cfg 1) = true) :
    ∃ t, (∀ n, runLoop (n + 6) s = runLoop n t) ∧ t.seq = .run i rest ∧
      Exchanged s t { s.mbox with outbound := xs } s.loc.w
        (popTrace s.cfg s.loc.w ++ [.rd (bufAddr s.cfg 1) 4 (s.ramWord 0#32 (bufAddr s.cfg 1))]) ∧
      t.loc.code = s.ramWord 0#32 (bufAddr s.cfg 1) := by
  have hsees : s.seesNext .mboxStatus s.cfg.mboxEmptyBit false := (s.seesNext_empty hflags).mpr (by simp [hout])
  obtain ⟨hpop, hpopSeq⟩ := s.poppedWord_exchanged i (.codeRead :: rest) hout
  rw [if_pos rfl] at hpopSeq
  have hram : (s.poppedWord i (.codeRead :: rest)).ramWord 0#32 (bufAddr s.cfg 1) = s.ramWord 0#32 (bufAddr s.cfg 1) := by
    simp only [State.ramWord, State.ramOr, hpop.cfg, hpop.ram]
  obtain ⟨hcode, hcodeLoc⟩ := (s.poppedWord i (.codeRead :: rest)).engineStep_codeRead_exchanged i rest (by
    simp only [State.wordInRam, hpop.cfg]
    exact hin)
  have hall := hpop.trans hcode
  rw [hpop.mbox, hpop.word, hpop.cfg, hram] at hall
  refine ⟨_, fun n => ?_, State.engineStep_plain_seq _ i _ _ rfl, hall, by rw [hcodeLoc, hpop.cfg, hram]⟩
  rw [runLoop_resume (n + 3) hq hseq hheld hsees (by simp [Op.mayHold]), runLoop_popWord hq (by simp [Op.mayHold]) hout]
  exact runLoop_go _ n (hpop.quiet hq) hpopSeq (State.engineStep_plain_seq _ i _ _ rfl) hrest

/-! ## The writes of the request -/

theorem length_bufWrites (ws : List Word) : ∀ k, (bufWrites k ws).length = ws.length := by
  induction ws with
  | nil => exact fun _ => rfl
  | cons v vs ih => exact fun k => congrArg (· + 1) (ih (k + 1))

theorem smooth_bufWrites (ws : List Word) (hrest : ∀ o ∈ rest.head?, o.mayHold = false) : ∀ k, Smooth (bufWrites k ws) rest = true := by
  induction ws with
  | nil => exact fun _ => rfl
  | cons v vs ih =>
    intro k
    have hnext : (bufWrites (k + 1) vs ++ rest).head?.all (fun o => !o.mayHold) = true := by
      cases vs with
      | nil => simpa [bufWrites, Option.all_eq_true] using hrest
      | cons => rfl
    rw [bufWrites, Smooth, hnext, ih]
    rfl

/-- The writes of the request use RAM and the trace only. -/
theorem State.runOps_bufWrites (ws : List Word) (k : Nat) :
    (s.runOps i (bufWrites k ws) rest).regs = s.regs ∧ (s.runOps i (bufWrites k ws) rest).mbox = s.mbox ∧
      (s.runOps i (bufWrites k ws) rest).trace = s.trace ++ (ws.zipIdx k).map fun w => .wr (bufAddr s.cfg w.2) 4 w.1 := by
  induction ws generalizing k s with
  | nil => simp [bufWrites]
  | cons v vs ih =>
    rw [bufWrites, State.runOps_cons]
    obtain ⟨hregs, hmbox, htrace⟩ := ih (s := s.engineStep i (.bufWrite k v) (bufWrites (k + 1) vs ++ rest)) (k + 1)
    rw [hregs, hmbox, htrace]
    have hstep : (s.engineStep i (.bufWrite k v) (bufWrites (k + 1) vs ++ rest)).trace = s.trace ++ [.wr (bufAddr s.cfg k) 4 v] := by
      rw [State.engineStep_step _ _ _ _ rfl]
      simp [State.stepOp, State.ramWrite]
    rw [hstep]
    simp [State.engineStep, State.stepOp]

/-! ## MBOX.SUBMIT and FB.PROVISION -/

theorem provisionProgram_append (c : Config) :
    provisionProgram c = bufWrites 0 (fbRequest c) ++ (mboxCall c c.chProp ++ (.compute .codeTest :: respReads)) := by
  simp [provisionProgram]

theorem mayHold_head_call (c : Config) (ch : BitVec 4) : ∀ o ∈ (mboxCall c ch ++ rest).head?, o.mayHold = false := by
  simp [mboxCall, waitUntil, Op.mayHold]

/-- The run of FB.PROVISION's program to its MboxCall. -/
theorem runLoop_bufWrites (hq : s.quiet = true) (hseq : s.seq = .run i (provisionProgram s.cfg)) (n : Nat) :
    runLoop (n + 35) s =
      runLoop n (s.runOps i (bufWrites 0 (fbRequest s.cfg)) (mboxCall s.cfg s.cfg.chProp ++ (.compute .codeTest :: respReads))) := by
  have hlength : (bufWrites 0 (fbRequest s.cfg)).length = 35 := length_bufWrites _ 0
  rw [← hlength]
  exact runLoop_plain s i _ _ n (smooth_bufWrites _ (mayHold_head_call _ _) 0) hq (by rw [hseq, provisionProgram_append])

/-- The state in which the command's MboxCall begins, after the request's writes in FB.PROVISION: the mailbox and the registers as at
the start. -/
theorem exists_mboxCall (hq : s.quiet = true)
    (hcommand : i = .mboxSubmit ch ∨ i = .fbProvision ∧ s.regs.fbValid = false ∧ ch = s.cfg.chProp) :
    ∃ prog u rest k, startOf s i = .program prog ∧ k ≤ 35 ∧ (∀ n, runLoop (n + k) (s.started i prog) = runLoop n u) ∧
      u.seq = .run i (mboxCall s.cfg ch ++ rest) ∧ u.cfg = s.cfg ∧ u.script = s.script ∧ u.regs = s.regs ∧ u.mbox = s.mbox := by
  obtain rfl | ⟨rfl, hvalid, rfl⟩ := hcommand
  · exact ⟨_, _, [.finish .submit], 0, rfl, by omega, fun _ => rfl, rfl, rfl, rfl, rfl, rfl⟩
  · obtain ⟨hregs, hmbox, -⟩ := State.runOps_bufWrites (s := s.started .fbProvision (provisionProgram s.cfg)) (i := .fbProvision)
      (rest := mboxCall s.cfg s.cfg.chProp ++ (.compute .codeTest :: respReads)) (fbRequest s.cfg) 0
    refine ⟨provisionProgram s.cfg, _, .compute .codeTest :: respReads, 35, ?_, le_rfl,
      runLoop_bufWrites (s := s.started .fbProvision (provisionProgram s.cfg)) hq rfl, ?_, ?_, ?_, hregs, hmbox⟩
    · simp [startOf, provisionStart, hvalid]
    · exact State.runOps_seq _ _ _ _ (smooth_bufWrites _ (mayHold_head_call _ _) 0) (by
        rw [← provisionProgram_append]
        rfl)
    · exact State.runOps_cfg _ _ _ _
    · exact State.runOps_script _ _ _ _

theorem State.accepted.completedWith (haccepted : s.accepted) (b : Bool) : s.regs.status.completedWith b = s.resultStatus b := by
  rw [haccepted]
  rfl

/-- The completion of MBOX.SUBMIT with the code read (40_mailbox.md R210). -/
theorem State.complete_submit_regs (s : State) :
    (s.complete .submit).regs =
      { s.regs with status := s.regs.status.completedWith (successTest s.cfg s.loc.code), res0 := s.loc.code } := rfl

end Sys2Proof.Machine

namespace Sys2Proof.Proofs

open Sys2Proof.Machine

/-- Settles O40: the match loop loses the words before W, and the code read after it is the command's result. -/
theorem mboxSubmitCompletes : Obligations.MboxSubmitCompletes := by
  intro s ch other more code hq haccepted hflags hroom hout hother hin hcode
  obtain ⟨t, hrun, htseq, ht, htcode⟩ := runLoop_mboxCall (s := s.started (.mboxSubmit ch) (submitProgram s.cfg ch))
    (rest := [.finish .submit]) hq hflags rfl (by simp [Op.mayHold]) hroom hout hother hin
  have hbound : 4 * other.length + 8 < runBound s := by
    rw [runBound, hout, List.length_append]
    omega
  have hexec := runCommand_of_run s (.mboxSubmit ch) (submitProgram s.cfg ch) .submit _ t (ht.quiet hq) htseq hbound hrun
  refine ⟨_, hexec, State.complete_seq _ _, ?regs, ?mbox, ?trace⟩
  case regs =>
    have hregs : ((t.advanceTimer t.timer.rate).complete .submit).regs =
        { s.regs with res0 := code, status := s.resultStatus (successTest s.cfg code) } := by
      rw [State.complete_submit_regs, State.advanceTimer_regs, State.advanceTimer_loc, State.advanceTimer_cfg, htcode, ht.regs, ht.cfg, hcode]
      exact congrArg (fun status => { s.regs with status, res0 := s.ramWord 0#32 (bufAddr s.cfg 1) }) (haccepted.completedWith _)
    rw [hregs, successTest]
    cases s.cfg.successTest <;> rfl
  case mbox =>
    rw [State.complete_mbox, State.advanceTimer_mbox]
    exact ht.mbox
  case trace =>
    rw [State.complete_trace, State.advanceTimer_trace, hcode]
    exact ht.trace

/-- Settles O41: FULL is polled before the send, and EMPTY before each pop. -/
theorem mailboxHolds : Obligations.MailboxHolds := by
  intro s i w hscript haccepted hwf hflags hcommand
  obtain ⟨ch, rfl, hcall⟩ : ∃ ch, w = channelWord s.cfg ch ∧
      (i = .mboxSubmit ch ∨ i = .fbProvision ∧ s.regs.fbValid = false ∧ ch = s.cfg.chProp) := by
    obtain ⟨ch, hi, rfl⟩ | ⟨hi, hvalid, rfl⟩ := hcommand
    · exact ⟨ch, rfl, .inl hi⟩
    · exact ⟨_, rfl, .inr ⟨hi, hvalid, rfl⟩⟩
  obtain ⟨prog, u, rest, k, hstart, hk, hrun, huseq, hucfg, huscript, huregs, humbox⟩ :=
    exists_mboxCall (State.quiet_of_script hscript) hcall
  have huq : u.quiet = true := State.quiet_of_script (huscript.trans hscript)
  have hexec {t : State} (m : Nat) (hm : m + k ≤ runBound s) (ht : ∀ n, runLoop (n + m) u = t) : exec i s = .next t := by
    obtain ⟨n, hn⟩ : ∃ n, runBound s = n + m + k := ⟨runBound s - m - k, by omega⟩
    rw [exec_eq, hstart, runCommand_program, hn]
    exact congrArg _ ((hrun (n + m)).trans (ht n))
  have hholds {t : State} {bit : Fin 32} {mbox : Mbox} {sent : Word} {tr : List BusEvent} {todo : List Op} (h : exec i s = .next t)
      (hseq : t.seq = .run i (.compute (.pollTest .mboxStatus bit false) :: todo)) (ht : Exchanged u t mbox sent tr)
      (hheld : t.loc.v.bit bit.val ≠ false) (hsees : ¬t.seesNext .mboxStatus bit false) : HoldsAt i s t :=
    holdsAt_poll h (ht.regs.trans huregs) hseq (by rw [ht.cfg, hucfg, hwf]) (ht.script.trans (huscript.trans hscript)) nofun nofun hheld
      hsees
  constructor
  · intro hfull
    obtain ⟨t, todo, hloop, htseq, ht, hheld⟩ := runLoop_mboxCall_full huq (by rw [hucfg, huseq])
      (by rw [hucfg, humbox]; exact hfull)
    have hsees : ¬t.seesNext .mboxStatus u.cfg.mboxFullBit false := by
      rw [← ht.cfg, State.seesNext_full, ht.mbox, ht.cfg, hucfg, humbox]
      exact Nat.not_lt.mpr hfull
    have hbound : 1 + k ≤ runBound s := by
      have := le_runBound s
      omega
    exact ⟨t, hholds (hexec 1 hbound hloop) htseq ht hheld hsees, ht.mbox.trans humbox⟩
  · intro hroom hnone
    obtain ⟨t, hloop, htseq, ht, hheld⟩ := runLoop_mboxCall_empty huq (by rw [hucfg]; exact hflags) (by rw [hucfg, huseq])
      (by rw [hucfg, humbox]; exact hroom) (by rw [hucfg, humbox]; exact hnone)
    have hsees : ¬t.seesNext .mboxStatus u.cfg.mboxEmptyBit false := by
      rw [← ht.cfg, State.seesNext_empty _ (by rw [ht.cfg, hucfg]; exact hflags), ht.mbox]
      simp
    have hbound : 4 * u.mbox.outbound.length + 4 + k ≤ runBound s := by
      rw [runBound, humbox]
      omega
    refine ⟨t, hholds (hexec _ hbound hloop) htseq ht hheld hsees, ?_⟩
    rw [ht.mbox, humbox, hucfg]

end Sys2Proof.Proofs
end

section
/-! PROOFS. Held commands resumed by a step (60_exceptions.md R506; 40_mailbox.md R208; 43_timer.md R325; 45_uart.md R405). -/

namespace Sys2Proof.Machine

variable {s t : State} {i : Instr} {r : Reg} {bit : Fin 32} {level : Bool} {op : Op} {rest : List Op} {f : Finish} {c : BitVec 64} {n : Word}

/-! ## The step of a held poll -/

/-- The next step of a held poll that sees its condition goes on past it. -/
theorem step_resume (hscript : s.script = []) (hwf : s.cfg.wf = true) (hseq : s.seq = .run i (.compute (.pollTest r bit level) :: rest))
    (hheld : s.loc.v.bit bit.val ≠ level) (hsees : s.seesNext r bit level) (hrest : ∀ o ∈ rest.head?, o.mayHold = false) :
    step s = .next (runLoop (runBound s - 3) (s.polled i r rest)) := by
  have hbound : runBound s = runBound s - 3 + 3 := by
    have := le_runBound s
    omega
  rw [step_running hwf hscript hseq, hbound, runLoop_resume _ (State.quiet_of_script hscript) hseq hheld hsees hrest]
  rfl

/-- The next step of a held poll that does not see its condition leaves it held. -/
theorem step_stays (hscript : s.script = []) (hwf : s.cfg.wf = true) (hseq : s.seq = .run i (.compute (.pollTest r bit level) :: rest))
    (hheld : s.loc.v.bit bit.val ≠ level) (hsees : ¬s.seesNext r bit level) :
    step s = .next (s.polled i r (.compute (.pollTest r bit level) :: rest)) := by
  have hbound : runBound s = runBound s - 2 + 2 := by
    have := le_runBound s
    omega
  rw [step_running hwf hscript hseq, hbound, runLoop_stays _ (State.quiet_of_script hscript) hseq hheld hsees]

/-- The next step of a held poll with one plain point and the completion after it completes, when it sees its condition. -/
theorem step_resume_finish (hscript : s.script = []) (hwf : s.cfg.wf = true)
    (hseq : s.seq = .run i (.compute (.pollTest r bit level) :: op :: [.finish f])) (hheld : s.loc.v.bit bit.val ≠ level)
    (hsees : s.seesNext r bit level) (hop : op.plain = true)
    (ht : (s.polled i r [op, .finish f]).engineStep i op [.finish f] = t) :
    step s = .next ((t.advanceTimer t.timer.rate).complete f) := by
  have hbound : runBound s - 3 = runBound s - 5 + 2 := by
    have := le_runBound s
    omega
  have hq : s.quiet = true := State.quiet_of_script hscript
  have hhead : ∀ o ∈ [op, .finish f].head?, o.mayHold = false := by
    rintro o ⟨⟩
    exact Op.mayHold_of_plain hop
  rw [step_resume hscript hwf hseq hheld hsees hhead, hbound, runLoop_polled_op _ hq hop (by simp [Op.mayHold]), ht,
    runLoop_finish t i f [] _ (by rw [← ht]; simpa [State.polled, State.quiet] using hq) (ht ▸ State.engineStep_plain_seq _ i op _ hop)]

/-! ## The step of an agent -/

/-- An agent acts on a held command by the event at the head of the script, which has a meaning in every configuration. -/
theorem step_event {e : Event} {es : List Event} (hwf : t.cfg.wf = true) (hok : e.ok t.cfg = true) (hengine : e ≠ .engine)
    (hhold : e ≠ .untilHold) (hpoll : e ≠ .poll) :
    step { t with script := e :: es } = .next (State.apply { t with script := es } e) :=
  (step_agent (s := { t with script := e :: es }) hwf rfl hengine hhold hpoll).trans (if_pos hok)

/-- The pop of the head leaves a request of its word among those held. -/
theorem State.exists_coPop {w : Word} {ws : List Word} (h : s.mbox.inbound = w :: ws) :
    ∃ held, (∃ r ∈ held, r.word = w) ∧ s.coPop = { s with mbox := { s.mbox with inbound := ws, held := held } } :=
  ⟨_, ⟨_, List.mem_append_right _ (List.mem_singleton.mpr rfl), rfl⟩, s.coPop_cons h⟩

/-- A push of a popped word, with room in the outbound FIFO. -/
theorem State.coPush_of_held {w : Word} (hheld : ∃ r ∈ s.mbox.held, r.word = w) (hroom : s.mbox.outbound.length < s.cfg.mboxFifoDepth) :
    s.coPush w = { s with mbox := { s.mbox with outbound := s.mbox.outbound ++ [w], held := answered s.mbox.held w } } := by
  have hmay : s.mayPush w = true := by
    rw [State.mayPush, Bool.or_eq_true, List.any_eq_true]
    exact .inl (by simpa using hheld)
  rw [State.coPush, hmay, Bool.true_and, if_pos (decide_eq_true hroom)]

theorem Config.mboxFifoDepth_pos {c : Config} (hwf : c.wf = true) : 0 < c.mboxFifoDepth := by
  simp only [Config.wf, Config.ranges, Bool.and_eq_true, decide_eq_true_eq] at hwf
  omega

/-! ## The commands resumed -/

/-- UART.PUTC after the line partner has drained a byte. -/
theorem uartPutc_resumes {a b : Byte} {as : List Byte} (hscript : s.script = []) (haccepted : s.accepted) (hwf : s.cfg.wf = true)
    (henabled : s.uartEnabled = true) (htx : s.uart.tx = a :: as) (hfull : s.uart.tx.length = s.cfg.uartFifoDepth) :
    ∃ t u v, HoldsAt (.uartPutc b) s t ∧ step { t with script := [.uartDrain] } = .next u ∧ step u = .next v ∧ v.seq = .idle ∧
      v.regs = { s.regs with status := s.doneStatus } ∧ v.uart = { s.uart with tx := as ++ [b], sent := s.uart.sent ++ [a] } := by
  have hnone : ¬(s.started (.uartPutc b) (putChar b ++ [.finish .plain])).seesNext .auxMuLsr Config.lsrTxeBit true :=
    mt (State.seesNext_txe (s.started _ _) henabled).mp (Nat.not_lt.mpr hfull.ge)
  obtain ⟨t, hexec, hseq, hcfg, htscript, hregs, huart, hheld⟩ := exec_poll_holds (i := .uartPutc b) (rest := [.putByte b, .finish .plain])
    (State.quiet_of_script hscript) rfl nofun nofun hnone
  have htwf : t.cfg.wf = true := hcfg ▸ hwf
  have htenabled : t.uartEnabled = true := by rwa [State.uartEnabled, hcfg, huart]
  have hnext : ¬t.seesNext .auxMuLsr Config.lsrTxeBit true := by
    rw [State.seesNext_txe _ htenabled, huart, hcfg]
    exact Nat.not_lt.mpr hfull.ge
  set u := State.apply { t with script := [] } .uartDrain with hu
  have huuart : u.uart = { s.uart with tx := as, sent := s.uart.sent ++ [a] } := by
    simp only [hu, State.apply, huart, Uart.drain, htx]
  have hucfg : u.cfg = s.cfg := hcfg
  have huenabled : u.uartEnabled = true := by
    rw [State.uartEnabled, huuart, hucfg]
    exact henabled
  have huroom : u.uart.tx.length < u.cfg.uartFifoDepth := by
    rw [huuart, hucfg, ← hfull, htx]
    exact Nat.lt_succ_self _
  obtain ⟨-, -, hvregs, -, -, -, hvuart, -⟩ := u.sentByte_fields (i := .uartPutc b) (op := .putByte b) (b := b)
    (rest := [.finish .plain]) rfl
  refine ⟨t, u, _, holdsAt_poll hexec hregs hseq htwf (htscript.trans hscript) nofun nofun hheld hnext,
    step_event htwf rfl nofun nofun nofun, step_resume_finish (t := u.sentByte (.uartPutc b) (.putByte b) [.finish .plain]) rfl htwf hseq hheld
      ((u.seesNext_txe huenabled).mpr huroom) rfl rfl,
    State.complete_seq _ _, ?_, ?_⟩
  · rw [State.complete_plain_regs, State.advanceTimer_regs, hvregs, show u.regs = s.regs from hregs]
    exact congrArg (fun status => { s.regs with status }) haccepted.completed
  · rw [State.complete_uart, State.advanceTimer_uart]
    rw [hvuart, if_pos huroom, huuart]

/-- UART.GETC after the line partner has delivered a byte. -/
theorem uartGetc_resumes {b : Byte} (hscript : s.script = []) (haccepted : s.accepted) (hwf : s.cfg.wf = true)
    (henabled : s.uartEnabled = true) (hrx : s.uart.rx = []) (hroom : 0 < s.cfg.uartFifoDepth) :
    ∃ t u v, HoldsAt .uartGetc s t ∧ step { t with script := [.uartReceive b] } = .next u ∧ step u = .next v ∧ v.seq = .idle ∧
      v.regs = { s.regs with status := s.doneStatus, res0 := (if b = 0x0D#8 then 0x0A#8 else b).setWidth 32 } ∧
      v.uart = s.uart := by
  have hnone : ¬(s.started .uartGetc (getChar ++ [.finish .getc])).seesNext .auxMuLsr Config.lsrDrBit true :=
    fun h => (seesNext_getc henabled).mp h hrx
  obtain ⟨t, hexec, hseq, hcfg, htscript, hregs, huart, hheld⟩ := exec_uartGetc_holds (State.quiet_of_script hscript) hnone
  have htwf : t.cfg.wf = true := hcfg ▸ hwf
  have hnext : ¬t.seesNext .auxMuLsr Config.lsrDrBit true := by
    rw [State.seesNext_dr t (by rwa [State.uartEnabled, hcfg, huart]), huart]
    exact fun h => h hrx
  set u := State.apply { t with script := [] } (.uartReceive b) with hu
  have huuart : u.uart = { s.uart with rx := [b] } := by
    simp only [hu, State.apply, huart, hcfg, Uart.receive, hrx, List.length_nil, if_pos hroom, List.nil_append]
  have huenabled : u.uartEnabled = true := by
    rw [State.uartEnabled, huuart, show u.cfg = s.cfg from hcfg]
    exact henabled
  have husees : u.seesNext .auxMuLsr Config.lsrDrBit true := by
    rw [u.seesNext_dr huenabled, huuart]
    exact List.cons_ne_nil _ _
  obtain ⟨x, hx, -, -, hvregs, hvuart, -, hbyte⟩ := u.gotByte_fields (i := .uartGetc) (rest := [.finish .getc])
  refine ⟨t, u, _, holdsAt_poll hexec hregs hseq htwf (htscript.trans hscript) nofun nofun hheld hnext,
    step_event htwf rfl nofun nofun nofun,
    step_resume_finish (t := u.gotByte .uartGetc [.finish .getc]) rfl htwf hseq hheld husees rfl rfl, State.complete_seq _ _, ?_, ?_⟩
  · rw [State.complete_getc_regs, State.advanceTimer_regs, State.advanceTimer_loc, hvregs, hx, hbyte b [] (by rw [huuart]),
      show u.regs = s.regs from hregs]
    exact congrArg (fun status => { s.regs with status, res0 := (if b = 0x0D#8 then 0x0A#8 else b).setWidth 32 }) haccepted.completed
  · rw [State.complete_uart, State.advanceTimer_uart, hvuart, huuart, ← hrx]
    rfl

/-- MBOX.SUBMIT after the coprocessor has answered. -/
theorem mboxSubmit_resumes {ch : BitVec 4} (hscript : s.script = []) (haccepted : s.accepted) (hwf : s.cfg.wf = true)
    (hflags : s.cfg.mboxFullBit ≠ s.cfg.mboxEmptyBit) (hinbound : s.mbox.inbound = []) (hnone : channelWord s.cfg ch ∉ s.mbox.outbound)
    (hin : s.wordInRam (bufAddr s.cfg 1) = true) :
    ∃ t u v x, HoldsAt (.mboxSubmit ch) s t ∧ step { t with script := [.coPop, .coPush (channelWord s.cfg ch)] } = .next u ∧
      step u = .next v ∧ step v = .next x ∧ x.seq = .idle ∧
      x.regs =
        { s.regs with
          res0 := s.ramWord 0#32 (bufAddr s.cfg 1)
          status := s.resultStatus (successTest s.cfg (s.ramWord 0#32 (bufAddr s.cfg 1))) } ∧
      x.mbox.inbound = [] ∧ x.mbox.outbound = [] := by
  have hdepth := Config.mboxFifoDepth_pos hwf
  set p := s.started (.mboxSubmit ch) (submitProgram s.cfg ch) with hp
  obtain ⟨t, hloop, hseq, ht, hheld⟩ := runLoop_mboxCall_empty (s := p) (rest := [.finish .submit]) (State.quiet_of_script hscript) hflags
    rfl (hinbound ▸ hdepth) hnone
  have hcfg : t.cfg = s.cfg := ht.cfg
  have htwf : t.cfg.wf = true := hcfg ▸ hwf
  have hexec : exec (.mboxSubmit ch) s = .next t := by
    have hbound : runBound s = runBound s - (4 * s.mbox.outbound.length + 4) + (4 * s.mbox.outbound.length + 4) := by
      unfold runBound
      omega
    rw [exec_eq, startOf, runCommand_program, hbound]
    exact congrArg _ (hloop _)
  have hnext : ¬t.seesNext .mboxStatus s.cfg.mboxEmptyBit false := by
    rw [← hcfg, State.seesNext_empty _ (by rw [hcfg]; exact hflags), ht.mbox]
    simp
  have htinbound : t.mbox.inbound = [channelWord s.cfg ch] := by
    rw [ht.mbox]
    exact congrArg (· ++ [channelWord s.cfg ch]) hinbound
  obtain ⟨held, hword, hpop⟩ := State.exists_coPop (s := { t with script := [.coPush (channelWord s.cfg ch)] }) htinbound
  set u : State := { t with
    script := [.coPush (channelWord s.cfg ch)], mbox := { t.mbox with inbound := [], held := held } } with hu
  have hpush : State.apply { u with script := [] } (.coPush (channelWord s.cfg ch)) =
      { u with
        script := []
        mbox := { u.mbox with outbound := u.mbox.outbound ++ [channelWord s.cfg ch], held := answered held (channelWord s.cfg ch) } } := by
    refine State.coPush_of_held (s := { u with script := [] }) hword ?_
    rw [show u.mbox.outbound = [] from congrArg Mbox.outbound ht.mbox, show u.cfg = s.cfg from hcfg]
    exact hdepth
  set v : State := { u with
    script := []
    mbox := { u.mbox with outbound := u.mbox.outbound ++ [channelWord s.cfg ch], held := answered held (channelWord s.cfg ch) } } with hv
  have hvcfg : v.cfg = s.cfg := hcfg
  have hvword : v.loc.w = channelWord s.cfg ch := ht.word
  have hvout : v.mbox.outbound = [v.loc.w] := by
    rw [hvword, show v.mbox.outbound = t.mbox.outbound ++ [channelWord s.cfg ch] from rfl, ht.mbox]
    rfl
  have hvram : v.ramWord 0#32 (bufAddr v.cfg 1) = s.ramWord 0#32 (bufAddr s.cfg 1) := by
    simp only [State.ramWord, State.ramOr, hvcfg, show v.ram = s.ram from ht.ram]
  obtain ⟨y, hrun, hyseq, hy, hcode⟩ := runLoop_answered (s := v) (i := .mboxSubmit ch) (rest := [.finish .submit]) (xs := []) rfl
    (by rw [hvcfg]; exact hflags) (by rw [hvcfg]; exact hseq) (by rw [hvcfg]; exact hheld) (by simp [Op.mayHold]) hvout
    (by rw [State.wordInRam, hvcfg]; exact hin)
  have hstep : step v = .next ((y.advanceTimer y.timer.rate).complete .submit) := by
    have hbound : runBound v = runBound v - 7 + 1 + 6 := by
      have := le_runBound v
      omega
    rw [step_running (s := v) htwf rfl hseq, hbound, hrun, runLoop_finish y _ .submit [] _ (hy.quiet rfl) hyseq]
  have hpopStep : step { t with script := [.coPop, .coPush (channelWord s.cfg ch)] } = .next u :=
    (step_event (e := .coPop) htwf rfl nofun nofun nofun).trans (congrArg _ hpop)
  have hpushStep : step u = .next v :=
    (step_event (t := u) (e := .coPush (channelWord s.cfg ch)) htwf rfl nofun nofun nofun).trans (congrArg _ hpush)
  refine ⟨t, u, v, _,
    holdsAt_poll hexec ht.regs hseq htwf (ht.script.trans hscript) nofun nofun hheld hnext,
    hpopStep, hpushStep,
    hstep, State.complete_seq _ _, ?regs, ?inbound, ?outbound⟩
  case regs =>
    rw [State.complete_submit_regs, State.advanceTimer_regs, State.advanceTimer_loc, State.advanceTimer_cfg, hcode, hvram, hy.cfg, hvcfg,
      hy.regs, show v.regs = s.regs from ht.regs]
    exact congrArg (fun status => { s.regs with status, res0 := s.ramWord 0#32 (bufAddr s.cfg 1) }) (haccepted.completedWith _)
  case inbound =>
    rw [State.complete_mbox, State.advanceTimer_mbox, hy.mbox]
  case outbound =>
    rw [State.complete_mbox, State.advanceTimer_mbox, hy.mbox]

/-- A held Delay whose time is over reads the counter once more and ends. -/
theorem State.CounterStands.step_delay_ends (h : s.CounterStands c) (hscript : s.script = []) (hwf : s.cfg.wf = true)
    (hseq : s.seq = .run i [.compute (.nowTest (.delayAgain n)), .finish .plain]) (hsame : s.loc.v = s.loc.hi)
    (hbefore : ¬s.loc.t0.toNat + n.toNat ≤ (s.loc.hi ++ s.loc.lo : BitVec 64).toNat) (hover : s.loc.t0.toNat + n.toNat ≤ c.toNat) :
    ∃ t, step s = .next t ∧ t.seq = .idle ∧ t.regs = { s.regs with status := s.regs.status.completed } ∧ t.timer = s.timer := by
  have hq := State.quiet_of_script hscript
  have htest := s.engineStep_nowTest_same i (.delayAgain n) [.finish .plain] hsame
  rw [show afterNow (.delayAgain n) _ s.loc.t0 [.finish .plain] = nowOps (.delayAgain n) ++ [.finish .plain] from if_neg hbefore] at htest
  set r := s.atCounter i (nowOps (.delayAgain n) ++ [.finish .plain]) (s.loc.afterNow (.delayAgain n) s.loc.hi s.loc.lo s.loc.v)
    s.timer.count s.trace with hr
  have hstands : r.CounterStands c := ⟨h.still, h.shows⟩
  have hnow := hstands.runLoop_now (.delayAgain n) (rest := [.finish .plain]) hq rfl (decide_eq_false (Nat.not_lt.mpr hover))
    (by simp [Op.mayHold])
  rw [show afterNow (.delayAgain n) c r.loc.t0 [.finish .plain] = [.finish .plain] from if_pos hover] at hnow
  set t := r.atCounter i [.finish .plain] _ _ _ with ht
  have htstands : t.CounterStands c := ⟨h.still, h.shows⟩
  have hbound : runBound s = runBound s - 6 + 1 + 4 + 1 := by
    have := le_runBound s
    omega
  refine ⟨t.complete .plain, ?_, State.complete_seq _ _, rfl, rfl⟩
  rw [step_running hwf hscript hseq, hbound, runLoop_step s _ hq hseq htest (State.held_of_seq r rfl (by simp [nowOps, Op.mayHold])), hnow,
    runLoop_finish t i .plain [] _ hq rfl, htstands.advanceTimer]

/-- TMR.DELAY after the counter has moved by OPND. -/
theorem tmrDelay_resumes (hscript : s.script = []) (haccepted : s.accepted) (hwf : s.cfg.wf = true) (hp : s.cfg.timerPresent = true)
    (hrate : s.timer.rate = 0) (hpos : 0 < s.timer.count) (hmore : s.opnd ≠ 0#32) (hlt : s.timer.count + s.opnd.toNat < 2 ^ 64) :
    ∃ t u v, HoldsAt .tmrDelay s t ∧ step { t with script := [.tick s.opnd.toNat] } = .next u ∧ step u = .next v ∧ v.seq = .idle ∧
      v.regs = { s.regs with status := s.doneStatus } ∧ v.timer.count = s.timer.count + s.opnd.toNat := by
  set c : BitVec 64 := BitVec.ofNat 64 s.timer.count with hc
  have hcount : c.toNat = s.timer.count := by
    rw [hc, BitVec.toNat_ofNat, Nat.mod_eq_of_lt (by omega)]
  have hne : c ≠ 0#64 := fun h => absurd (congrArg BitVec.toNat h) (by rw [hcount]; exact Nat.ne_of_gt hpos)
  have hq := State.quiet_of_script hscript
  set p := s.started .tmrDelay (delayProgram s.opnd) with hp'
  have hstands : p.CounterStands c := ⟨.inr hrate, s.counter_present hp (by omega)⟩
  have hfirst := hstands.runLoop_delayFirst hne (n := s.opnd) (rest := [.finish .plain]) hq rfl (by simp [Op.mayHold])
  set r := p.atCounter .tmrDelay (nowOps (.delayAgain s.opnd) ++ [.finish .plain]) _ _ _
  have hrstands : r.CounterStands c := ⟨hstands.still, hstands.shows⟩
  have ht0 : r.loc.t0 = c := halves_append c
  have hopnd : 0 < s.opnd.toNat := Nat.pos_of_ne_zero fun h => hmore (BitVec.eq_of_toNat_eq h)
  have hloop : delayHolds (.delayAgain s.opnd) c r.loc.t0 = true := by
    rw [ht0]
    exact decide_eq_true (by omega)
  set t := r.atNowTest .tmrDelay (.delayAgain s.opnd) [.finish .plain] c with ht
  have hexec : exec .tmrDelay s = .next t := by
    have hbound : runBound s = runBound s - 7 + 3 + 4 := by
      have := le_runBound s
      omega
    rw [exec_eq, startOf, runCommand_program, hbound]
    exact congrArg _ ((hfirst _).trans (hrstands.runLoop_now_hold hrate hq rfl hloop _))
  obtain ⟨t', hstep⟩ := hrstands.step_atNowTest (i := .tmrDelay) (rest := [.finish .plain]) hrate hwf hscript hloop
  set u : State := { t with script := [], timer := { t.timer with count := s.timer.count + s.opnd.toNat } } with hu
  have hevent : step { t with script := [.tick s.opnd.toNat] } = .next u :=
    (step_event (t := t) (e := .tick s.opnd.toNat) (es := []) hwf rfl nofun nofun nofun).trans
      (congrArg _ (State.advanceTimer_present { t with script := [] } _ hp))
  have hustands : u.CounterStands (BitVec.ofNat 64 (s.timer.count + s.opnd.toNat)) := ⟨.inr hrate, u.counter_present hp hlt⟩
  have hread : (u.loc.hi ++ u.loc.lo : BitVec 64) = c := halves_append c
  have hut0 : u.loc.t0 = c := ht0
  obtain ⟨v, hv, hvseq, hvregs, hvtimer⟩ := hustands.step_delay_ends rfl hwf (i := .tmrDelay) (n := s.opnd) rfl rfl
    (by rw [hread, hut0]; omega) (by rw [hut0, hcount, BitVec.toNat_ofNat, Nat.mod_eq_of_lt hlt])
  refine ⟨t, u, v, ⟨hexec, ⟨_, rfl⟩, rfl, t', hstep⟩, hevent, hv, hvseq, hvregs.trans ?_, congrArg Timer.count hvtimer⟩
  exact congrArg (fun status => { s.regs with status }) haccepted.completed

end Sys2Proof.Machine

namespace Sys2Proof.Proofs

open Sys2Proof.Machine

/-- Settles O60: a held poll makes one read at its next step, and each command's condition comes true by its agent's action. -/
theorem heldCommandsResume : Obligations.HeldCommandsResume := by
  refine ⟨?poll, ?putc, ?getc, ?submit, ?delay⟩
  case poll =>
    rintro s t i r bit level rest hscript hwf hseq hheld hrest rfl
    have hhead : ∀ o ∈ rest.head?, o.mayHold = false := by
      intro o ho
      obtain ⟨more, rfl⟩ := List.head?_eq_some_iff.mp ho
      cases o with
      | compute c => exact absurd rfl (hrest c more)
      | _ => rfl
    exact ⟨fun h => step_resume hscript hwf hseq hheld (State.polled_sees (i := i) (rest := rest).mp h) hhead,
      fun h => step_stays hscript hwf hseq hheld (mt (State.polled_sees (i := i) (rest := rest)).mpr h)⟩
  case putc => exact fun s a b as hscript haccepted hwf henabled htx hfull => uartPutc_resumes hscript haccepted hwf henabled htx hfull
  case getc => exact fun s b hscript haccepted hwf henabled hrx hroom => uartGetc_resumes hscript haccepted hwf henabled hrx hroom
  case submit =>
    rintro s ch w code hscript haccepted hwf hflags rfl hinbound hnone hin rfl
    exact mboxSubmit_resumes hscript haccepted hwf hflags hinbound hnone hin
  case delay => exact fun s hscript haccepted hwf hp hrate hpos hmore hlt => tmrDelay_resumes hscript haccepted hwf hp hrate hpos hmore hlt

end Sys2Proof.Proofs
end

section
/-! PROOFS. FB.PROVISION with a coprocessor that answers (42_framebuffer.md R282 to R284, R290 to R295; 60_exceptions.md R530 to R532). -/

namespace Sys2Proof.Machine

variable {s t u : State} {i : Instr} {rest : List Op} {es : List Event} {buf : List Word} {ws : List (Nat × Word)} {k : Nat}

/-! ## Running until the hold (log 1) -/

theorem State.held_of_poll {r : Reg} {bit : Fin 32} {level : Bool} (hseq : s.seq = .run i (.compute (.pollTest r bit level) :: rest))
    (hheld : s.loc.v.bit bit.val ≠ level) : s.held = true := by
  simp [State.held, hseq, hheld]

/-- Under the marker `untilHold` the engine makes its move, and uses the marker up when it then holds. -/
theorem runLoop_untilHold_move {op : Op} (hseq : s.seq = .run i (op :: rest)) (n : Nat) :
    runLoop (n + 1) { s with script := .untilHold :: es } =
      runLoop n { s.engineStep i op rest with script := if (s.engineStep i op rest).held then es else .untilHold :: es } := by
  have hmarked (u : State) (huseq : u.seq = .run i (op :: rest)) (huscript : u.script = .untilHold :: es) :
      runLoop (n + 1) u =
        runLoop n (if (u.engineStep i op rest).held then { u.engineStep i op rest with script := es } else u.engineStep i op rest) := by
    simp only [runLoop, huseq, huscript]
  rw [hmarked { s with script := .untilHold :: es } hseq rfl, State.engineStep_withScript]
  cases hstop : (s.engineStep i op rest).held with
  | true => exact congrArg (runLoop n) (if_pos hstop)
  | false => exact congrArg (runLoop n) (if_neg (Bool.eq_false_iff.mp hstop))

/-- A run that leads to a hold leads there under the marker too. -/
theorem runLoop_untilHold (hscript : s.script = []) (hfree : s.held = false) (hrun : runLoop k s = t) (hheld : t.held = true) :
    ∃ j ≤ k, ∀ n, runLoop (n + j) { s with script := .untilHold :: es } = runLoop n { t with script := es } := by
  induction k generalizing s with
  | zero => exact absurd (hfree.symm.trans ((congrArg State.held hrun).trans hheld)) Bool.false_ne_true
  | succ k ih =>
    by_cases hmoves : ∃ i op rest, s.seq = .run i (op :: rest)
    · obtain ⟨i, op, rest, hseq⟩ := hmoves
      rw [runLoop_quiet s k (State.quiet_of_script hscript) hseq] at hrun
      have hmove := runLoop_untilHold_move (es := es) hseq
      cases hstop : (s.engineStep i op rest).held with
      | true =>
        rw [hstop, if_pos rfl] at hrun
        simp only [hrun, hheld, if_true] at hmove
        exact ⟨1, by omega, hmove⟩
      | false =>
        rw [hstop, if_neg Bool.false_ne_true] at hrun
        simp only [hstop, Bool.false_eq_true, if_false] at hmove
        obtain ⟨j, hj, hjrun⟩ := ih (by simpa using hscript) hstop hrun
        exact ⟨j + 1, by omega, fun n => (hmove (n + j)).trans (hjrun n)⟩
    · have hstop : runLoop (k + 1) s = s := by
        unfold runLoop
        split
        · exact absurd ⟨_, _, _, ‹_›⟩ hmoves
        · rfl
      rw [hstop] at hrun
      exact absurd (hfree.symm.trans ((congrArg State.held hrun).trans hheld)) Bool.false_ne_true

/-! ## The mailbox buffer -/

/-- In `t` the 35 words of the buffer are `buf`, and every other byte of RAM is as in `s`. -/
structure Buffered (s t : State) (buf : List Word) : Prop where
  cfg    : t.cfg = s.cfg
  length : buf.length = 35
  rising : Memory.rising t.ram = true
  words  : ∀ j < 35, t.ramWord 0#32 (bufAddr s.cfg j) = buf.getD j 0#32
  frame  : ∀ a, (∀ j < 35, ∀ k < 4, a ≠ byteAddr (bufAddr s.cfg j) k) → Memory.get t.ram a = Memory.get s.ram a

theorem Buffered.congr (h : Buffered s t buf) (hcfg : u.cfg = t.cfg) (hram : u.ram = t.ram) : Buffered s u buf where
  cfg := hcfg.trans h.cfg
  length := h.length
  rising := hram ▸ h.rising
  words j hj := by simpa only [State.ramWord, State.ramOr, hcfg, hram] using h.words j hj
  frame a ha := hram ▸ h.frame a ha

/-- The words that stand in the buffer. -/
theorem buffered_self (hram : Memory.wf s.ram = true) :
    Buffered s s ((List.range 35).map fun j => s.ramWord 0#32 (bufAddr s.cfg j)) where
  cfg := rfl
  length := by simp
  rising := Memory.wf_rising hram
  words j hj := by simp [hj]
  frame _ _ := rfl

/-- The words of the buffer do not overlap. -/
theorem byteAddr_bufAddr_ne {c : Config} (hwf : c.wf = true) {j k : Nat} (hj : j < 35) (hk : k < 35) (hne : j ≠ k) :
    ∀ a < 4, ∀ b < 4, byteAddr (bufAddr c j) a ≠ byteAddr (bufAddr c k) b := by
  have hfits := hwf
  simp only [Config.wf, Config.clauses, Bool.and_eq_true, decide_eq_true_eq] at hfits
  have haddr {j a : Nat} (hj : j < 35) (ha : a < 4) : byteAddr (bufAddr c j) a = c.mboxBufAddr.toNat + 4 * j + a := by
    rw [byteAddr, BitVec.toNat_add, toNat_bufAddr hwf (by omega), BitVec.toNat_ofNat, Nat.add_mod_mod, Nat.mod_eq_of_lt (by omega)]
  intro a ha b hb
  rw [haddr hj ha, haddr hk hb]
  omega

/-- A write of one of its words. -/
theorem Buffered.write (hwf : s.cfg.wf = true) (hin : s.bufferInRam) (h : Buffered s t buf) {j : Nat} (hj : j < 35) (v : Word) :
    Buffered s (t.ramSetWord (bufAddr s.cfg j) v) (buf.set j v) where
  cfg := (State.ramSetWord_cfg _ _ _).trans h.cfg
  length := by rw [List.length_set, h.length]
  rising := State.ramSetWord_rising _ _ _ h.rising
  words k hk := by
    by_cases hkj : k = j
    · subst hkj
      rw [State.ramWord_ramSetWord_same _ _ _ _ h.rising (by rw [State.wordInRam, h.cfg]; exact hin k hk)]
      simp [h.length, hk]
    · rw [State.ramWord_ramSetWord_ne _ _ _ _ _ (byteAddr_bufAddr_ne hwf hk hj hkj), h.words k hk]
      simp [List.getElem?_set_ne (Ne.symm hkj)]
  frame a ha := by rw [State.get_ramSetWord_ne _ _ _ _ (ha j hj), h.frame a ha]

/-- The ascending writes of the engine replace the words one by one (42_framebuffer.md R282). -/
theorem Buffered.runOps_bufWrites (hwf : s.cfg.wf = true) (hin : s.bufferInRam) {vs done old : List Word} (h : Buffered s t (done ++ old))
    (hlength : old.length = vs.length) : Buffered s (t.runOps i (bufWrites done.length vs) rest) (done ++ vs) := by
  induction vs generalizing t done old with
  | nil =>
    rw [List.length_eq_zero_iff.mp hlength] at h
    exact h
  | cons v vs ih =>
    obtain ⟨o, old, rfl⟩ := List.exists_cons_of_length_eq_add_one hlength
    have hj : done.length < 35 := by
      have := h.length
      simp only [List.length_append, List.length_cons] at this
      omega
    have hwrite := ((h.congr (u := t.advanceTimer t.timer.rate) (by simp) (by simp)).write hwf hin hj v).congr
      (u := t.engineStep i (.bufWrite done.length v) (bufWrites (done.length + 1) vs ++ rest)) (by simp) (by
        rw [State.engineStep_step _ _ _ _ rfl, State.stepOp, State.goto_ram, State.ramWrite, State.record_ram, State.advanceTimer_cfg, h.cfg])
    have hset : (done ++ o :: old).set done.length v = (done ++ [v]) ++ old := by simp
    rw [hset] at hwrite
    have hnext := ih hwrite (Nat.succ.inj hlength)
    rw [List.length_append, List.length_singleton, List.append_assoc] at hnext
    exact hnext

/-! ## The coprocessor's writes -/

/-- The layout of the framebuffer request (42_framebuffer.md R280, R281). -/
def fbLayout : Layout := ⟨35, [⟨2, 2⟩, ⟨7, 2⟩, ⟨12, 2⟩, ⟨17, 1⟩, ⟨21, 1⟩, ⟨25, 2⟩, ⟨30, 1⟩]⟩

theorem fbAnswerOk_iff (w : Nat × Word) :
    fbAnswerOk w ↔
      w.1 = 1 ∨ w.1 ∈ [5, 6, 10, 11, 15, 16, 20, 24, 28, 29, 33] ∨ w.1 ∈ [4, 9, 14, 19, 23, 27, 32] ∧ w.2.bit 31 = true := Iff.rfl

/-- The format of the answer is the one that R530 gives for this layout. -/
theorem fbLayout_answers {w : Nat × Word} (h : fbAnswerOk w) : fbLayout.answers w.1 w.2 = true := by
  have hvalue : ∀ j ∈ [5, 6, 10, 11, 15, 16, 20, 24, 28, 29, 33],
      ∃ t ∈ fbLayout.tags, t.start + 3 ≤ j ∧ j < t.start + 3 + t.values := by decide
  have hlength : ∀ j ∈ [4, 9, 14, 19, 23, 27, 32], ∃ t ∈ fbLayout.tags, j = t.start + 2 := by decide
  rw [Layout.answers_iff]
  obtain h | h | ⟨h, hbit⟩ := (fbAnswerOk_iff w).mp h
  · exact .inl h
  · obtain ⟨t, ht, hword⟩ := hvalue _ h
    exact .inr ⟨t, ht, .inr hword⟩
  · obtain ⟨t, ht, hword⟩ := hlength _ h
    exact .inr ⟨t, ht, .inl ⟨hword, hbit⟩⟩

theorem fbAnswerOk.bounds {w : Nat × Word} (h : fbAnswerOk w) : 1 ≤ w.1 ∧ w.1 < 35 := by
  have hvalue : ∀ j ∈ [5, 6, 10, 11, 15, 16, 20, 24, 28, 29, 33], 1 ≤ j ∧ j < 35 := by decide
  have hlength : ∀ j ∈ [4, 9, 14, 19, 23, 27, 32], 1 ≤ j ∧ j < 35 := by decide
  obtain h | h | ⟨h, -⟩ := (fbAnswerOk_iff w).mp h
  · omega
  · exact hvalue _ h
  · exact hlength _ h

/-- Where the tags do not yet end, the next one stands at the present word, with the values its size word reserves. -/
theorem State.tagsFill_step {b size : Word} {n i : Nat} {ts : List TagSlot} (h : s.tagsFill b n i ts) (hn : i + 1 ≠ n)
    (hsize : s.requestWord b (i + 1) = size) :
    ∃ ts', ts = ⟨i, (size.toNat + 3) / 4⟩ :: ts' ∧ s.tagsFill b n (i + 3 + (size.toNat + 3) / 4) ts' := by
  cases ts with
  | nil => exact absurd h.1 hn
  | cons t ts =>
    obtain ⟨hstart, -, -, -, hvalues, hmore⟩ := h
    obtain ⟨start, values⟩ := t
    cases hstart
    rw [hsize] at hvalues
    cases hvalues
    exact ⟨ts, rfl, hmore⟩

/-- At the end tag no tag stands. -/
theorem State.tagsFill_end {b : Word} {n i : Nat} {ts : List TagSlot} (h : s.tagsFill b n i ts) (hend : s.requestWord b i = 0#32) :
    ts = [] := by
  cases ts with
  | nil => rfl
  | cons t ts =>
    obtain ⟨-, -, -, htag, -⟩ := h
    exact absurd hend htag

/-- The request's words leave no other layout (40_mailbox.md R201). -/
theorem Buffered.layout_eq {l : Layout} (h : Buffered s t (fbRequest s.cfg)) (hl : t.requestLayout s.cfg.mboxBufAddr = some l) :
    l = fbLayout := by
  have hword (j : Nat) (hj : j < 35) : t.requestWord s.cfg.mboxBufAddr j = (fbRequest s.cfg).getD j 0#32 := h.words j hj
  have hsize : t.requestWord s.cfg.mboxBufAddr 0 = 140#32 := hword 0 (by decide)
  have h3 : t.requestWord s.cfg.mboxBufAddr 3 = 8#32 := hword 3 (by decide)
  have h8 : t.requestWord s.cfg.mboxBufAddr 8 = 8#32 := hword 8 (by decide)
  have h13 : t.requestWord s.cfg.mboxBufAddr 13 = 8#32 := hword 13 (by decide)
  have h18 : t.requestWord s.cfg.mboxBufAddr 18 = 4#32 := hword 18 (by decide)
  have h22 : t.requestWord s.cfg.mboxBufAddr 22 = 4#32 := hword 22 (by decide)
  have h26 : t.requestWord s.cfg.mboxBufAddr 26 = 8#32 := hword 26 (by decide)
  have h31 : t.requestWord s.cfg.mboxBufAddr 31 = 4#32 := hword 31 (by decide)
  obtain ⟨words, tags⟩ := l
  obtain ⟨-, hwords, hfill⟩ := (t.requestLayout_eq_some _ _).mp hl
  rw [hsize] at hwords
  obtain rfl : words = 35 := Nat.eq_of_mul_eq_mul_left (by decide : 0 < 4) hwords.symm
  clear hl
  obtain ⟨ts2, rfl, hfill2⟩ := State.tagsFill_step (n := 35) (i := 2) hfill (by decide) h3
  obtain ⟨ts7, rfl, hfill7⟩ := State.tagsFill_step (n := 35) (i := 7) hfill2 (by decide) h8
  obtain ⟨ts12, rfl, hfill12⟩ := State.tagsFill_step (n := 35) (i := 12) hfill7 (by decide) h13
  obtain ⟨ts17, rfl, hfill17⟩ := State.tagsFill_step (n := 35) (i := 17) hfill12 (by decide) h18
  obtain ⟨ts21, rfl, hfill21⟩ := State.tagsFill_step (n := 35) (i := 21) hfill17 (by decide) h22
  obtain ⟨ts25, rfl, hfill25⟩ := State.tagsFill_step (n := 35) (i := 25) hfill21 (by decide) h26
  obtain ⟨ts30, rfl, hfill30⟩ := State.tagsFill_step (n := 35) (i := 30) hfill25 (by decide) h31
  obtain rfl := State.tagsFill_end (i := 34) hfill30 (hword 34 (by decide))
  rfl

/-- The popped request lets the coprocessor make every write of the property-tag format (60_exceptions.md R530). -/
theorem Buffered.mayWrite (hwf : s.cfg.wf = true) (h : Buffered s t (fbRequest s.cfg)) {w : Nat × Word} (hw : fbAnswerOk w) :
    (t.popRequest (channelWord s.cfg s.cfg.chProp)).mayWrite s.cfg (bufAddr s.cfg w.1) w.2 = true := by
  obtain ⟨hpos, hlt⟩ := hw.bounds
  have hbase : requestBase (channelWord s.cfg s.cfg.chProp) = s.cfg.mboxBufAddr := requestBase_channelWord hwf _
  have hoff : (bufAddr s.cfg w.1 - s.cfg.mboxBufAddr).toNat = 4 * w.1 := by
    rw [bufAddr, BitVec.add_comm, BitVec.add_sub_cancel, BitVec.toNat_ofNat, Nat.mod_eq_of_lt (by omega)]
  rw [Request.mayWrite_iff]
  cases hl : (t.popRequest (channelWord s.cfg s.cfg.chProp)).layout with
  | none => exact .inl rfl
  | some l =>
    have heq : l = fbLayout := h.layout_eq (by rw [← hbase]; exact hl)
    subst heq
    exact .inr ⟨fbLayout, w.1, rfl, hpos, hlt, by rw [State.popRequest, hbase]; exact hoff, fun _ => fbLayout_answers hw⟩

/-- A write of a RAM word changes RAM only, whatever else is set in the state. -/
theorem State.exists_ramSetWord (s : State) (a v : Word) : ∃ ram, s.ramSetWord a v = { s with ram } := by
  have hbyte (u : State) (k : Nat) (b : Byte) : ∃ ram, u.ramSet a k b = { u with ram } := by
    unfold State.ramSet
    split
    · exact ⟨_, rfl⟩
    · exact ⟨u.ram, rfl⟩
  obtain ⟨r0, h0⟩ := hbyte s 0 (wordByte v 0)
  obtain ⟨r1, h1⟩ := hbyte { s with ram := r0 } 1 (wordByte v 1)
  obtain ⟨r2, h2⟩ := hbyte { s with ram := r1 } 2 (wordByte v 2)
  obtain ⟨r3, h3⟩ := hbyte { s with ram := r2 } 3 (wordByte v 3)
  exact ⟨r3, by rw [State.ramSetWord, h0, h1, h2, h3]⟩

/-- The coprocessor's writes make the answer in the buffer, one move each, and change nothing else. -/
theorem runLoop_answerWrites {op : Op} (hwf : s.cfg.wf = true) (hin : s.bufferInRam) (hbuf : Buffered s u buf)
    (hseq : u.seq = .run i (op :: rest)) (hscript : u.script = answerWrites s.cfg ws ++ es)
    (hmay : ∀ w, fbAnswerOk w → ∃ r ∈ u.mbox.held, r.mayWrite s.cfg (bufAddr s.cfg w.1) w.2 = true) (hws : ∀ w ∈ ws, fbAnswerOk w) :
    ∃ ram, (∀ n, runLoop (n + ws.length) u = runLoop n { u with script := es, ram }) ∧
      Buffered s { u with script := es, ram } (afterWrites buf ws) := by
  induction ws generalizing u buf with
  | nil =>
    have hu : u = { u with script := es } := by
      rw [← show u.script = es from hscript]
    refine ⟨u.ram, fun n => ?_, hbuf.congr rfl rfl⟩
    rw [← hu]
    rfl
  | cons w ws ih =>
    obtain ⟨hw, hws⟩ := List.forall_mem_cons.mp hws
    obtain ⟨ram, hram⟩ := State.exists_ramSetWord { u with script := answerWrites s.cfg ws ++ es } (bufAddr s.cfg w.1) w.2
    have hcfg : u.cfg = s.cfg := hbuf.cfg
    have hwrite : State.apply { u with script := answerWrites s.cfg ws ++ es } (.coWrite (bufAddr s.cfg w.1) w.2) =
        { u with script := answerWrites s.cfg ws ++ es, ram } := by
      rw [← hram]
      refine State.coWrite_of_may { u with script := answerWrites s.cfg ws ++ es } ?_
      simpa only [hcfg] using hmay w hw
    have hmove (n : Nat) : runLoop (n + 1) u = runLoop n { u with script := answerWrites s.cfg ws ++ es, ram } := by
      rw [← hwrite]
      exact runLoop_agent n hseq hscript rfl nofun nofun nofun
    have hnext : Buffered s { u with script := answerWrites s.cfg ws ++ es, ram } (buf.set w.1 w.2) := by
      rw [← hram]
      exact (hbuf.congr (u := { u with script := answerWrites s.cfg ws ++ es }) rfl rfl).write hwf hin hw.bounds.2 w.2
    obtain ⟨ram', hrun, hbuf'⟩ := ih hnext hseq rfl hmay hws
    exact ⟨ram', fun n => (hmove (n + ws.length)).trans (hrun n), hbuf'⟩

/-! ## The wait and the answer -/

/-- The events of the request and of the wait for its answer (42_framebuffer.md R282; 40_mailbox.md R212). -/
def requestTrace (c : Config) : List BusEvent :=
  (fbRequest c).zipIdx.map (fun w => .wr (bufAddr c w.2) 4 w.1)
    ++ [.rd (Reg.mboxStatus.addr c) 4 0#32, .wr (Reg.mboxWrite.addr c) 4 (channelWord c c.chProp), .rd (Reg.mboxStatus.addr c) 4 0#32]

/-- FB.PROVISION, started in `s`, waits in `t` for its answer: the events `es` to come, these words in the two FIFOs and these in the
buffer. -/
structure Waits (s t : State) (es : List Event) (inbound outbound buf : List Word) : Prop where
  seq      : t.seq = .run .fbProvision
    (.compute (.pollTest .mboxStatus s.cfg.mboxEmptyBit false) :: .mboxReceive :: .compute .matchTest :: .codeRead ::
      .compute .codeTest :: respReads)
  script   : t.script = es
  regs     : t.regs = s.regs
  inbound  : t.mbox.inbound = inbound
  outbound : t.mbox.outbound = outbound
  word     : t.loc.w = channelWord s.cfg s.cfg.chProp
  status   : t.loc.v.bit s.cfg.mboxEmptyBit.val ≠ false
  buffer   : Buffered s t buf
  trace    : maskTrace (Reg.mboxStatus.addr s.cfg) t.trace = maskTrace (Reg.mboxStatus.addr s.cfg) (s.trace ++ requestTrace s.cfg)

/-- The events after the hold. -/
def answerEvents (c : Config) (ws : List (Nat × Word)) : List Event :=
  .coPop :: (answerWrites c ws ++ [.coPush (channelWord c c.chProp)])

theorem answerScript_eq (c : Config) (ws : List (Nat × Word)) : answerScript c ws = .untilHold :: answerEvents c ws := by
  simp [answerScript, answerEvents]

/-- The engine writes its request, sends its word and waits (42_framebuffer.md R290). -/
theorem provision_waits (h : AnsweredRequest s ws) :
    ∃ t, ∃ j ≤ 39, (∀ n, runLoop (n + j) (s.started .fbProvision (provisionProgram s.cfg)) = runLoop n t) ∧
      Waits s t (answerEvents s.cfg ws) [channelWord s.cfg s.cfg.chProp] [] (fbRequest s.cfg) := by
  set q : State := { s.started .fbProvision (provisionProgram s.cfg) with script := [] } with hq
  set r := q.runOps .fbProvision (bufWrites 0 (fbRequest s.cfg)) (mboxCall s.cfg s.cfg.chProp ++ (.compute .codeTest :: respReads)) with hr
  have hstart : s.started .fbProvision (provisionProgram s.cfg) = { q with script := .untilHold :: answerEvents s.cfg ws } := by
    rw [← answerScript_eq, ← h.script_eq]
    rfl
  have hwrites (n : Nat) : runLoop (n + 35) q = runLoop n r := runLoop_bufWrites (s := q) rfl rfl n
  obtain ⟨hregs, hmbox, htrace⟩ := State.runOps_bufWrites (s := q) (i := .fbProvision)
    (rest := mboxCall s.cfg s.cfg.chProp ++ (.compute .codeTest :: respReads)) (fbRequest s.cfg) 0
  rw [← hr] at hregs hmbox htrace
  have hcfg : r.cfg = s.cfg := State.runOps_cfg _ _ _ _
  have hscript : r.script = [] := State.runOps_script _ _ _ _
  have hbuf : Buffered s r (fbRequest s.cfg) :=
    (((buffered_self h.ram_wf).congr (u := q) rfl rfl).runOps_bufWrites (done := []) h.cfg_wf h.buffer_in_ram
      (by simp [length_fbRequest]))
  have hseq : r.seq = .run .fbProvision (mboxCall r.cfg r.cfg.chProp ++ (.compute .codeTest :: respReads)) := by
    rw [hcfg]
    exact State.runOps_seq _ _ _ _ (smooth_bufWrites _ (mayHold_head_call _ _) 0)
      (congrArg (Seq.run .fbProvision) (provisionProgram_append s.cfg))
  have hout : r.mbox.outbound = [] := (congrArg Mbox.outbound hmbox).trans h.outbound_empty
  have hinb : r.mbox.inbound = [] := (congrArg Mbox.inbound hmbox).trans h.inbound_empty
  obtain ⟨t, hloop, htseq, ht, htheld⟩ := runLoop_mboxCall_empty (s := r) (State.quiet_of_script hscript) (by rw [hcfg]; exact h.flags_differ)
    hseq (by rw [hinb, hcfg]; exact Config.mboxFifoDepth_pos h.cfg_wf) (by rw [hout]; exact List.not_mem_nil)
  rw [hout] at hloop ht
  rw [hcfg] at htseq htheld
  have hrun : runLoop 39 q = t := (hwrites 4).trans (hloop 0)
  obtain ⟨j, hj, hjrun⟩ := runLoop_untilHold (s := q) (es := answerEvents s.cfg ws) rfl
    (State.held_of_seq q rfl (by simp [provisionProgram, fbRequest, bufWrites, Op.mayHold])) hrun (State.held_of_poll htseq htheld)
  refine ⟨{ t with script := answerEvents s.cfg ws }, j, hj, fun n => ?_, htseq, rfl, ht.regs.trans hregs, ?_,
    congrArg Mbox.outbound ht.mbox, ?_, htheld, hbuf.congr ht.cfg ht.ram, ?_⟩
  · rw [hstart]
    exact hjrun n
  · exact (congrArg Mbox.inbound ht.mbox).trans (by rw [hinb, hcfg]; rfl)
  · exact ht.word.trans (by rw [hcfg])
  · have hmasked := ht.trace
    rw [hcfg] at hmasked
    refine hmasked.trans ?_
    rw [htrace]
    simp [requestTrace, hq, State.started]

/-- The coprocessor pops the request, writes its answer and pushes the word back (60_exceptions.md R530). -/
theorem Waits.answer (h : AnsweredRequest s ws)
    (ht : Waits s t (answerEvents s.cfg ws) [channelWord s.cfg s.cfg.chProp] [] (fbRequest s.cfg)) :
    ∃ u, (∀ n, runLoop (n + (ws.length + 2)) t = runLoop n u) ∧
      Waits s u [] [] [channelWord s.cfg s.cfg.chProp] (afterWrites (fbRequest s.cfg) ws) := by
  set w := channelWord s.cfg s.cfg.chProp with hw
  have hcfg : t.cfg = s.cfg := ht.buffer.cfg
  set x : State := { t with script := answerWrites s.cfg ws ++ [.coPush w] } with hx
  have hpopped : State.apply x .coPop =
      { x with mbox := { x.mbox with inbound := [], held := x.mbox.held ++ [x.popRequest w] } } := State.coPop_cons x ht.inbound
  set y : State := { x with mbox := { x.mbox with inbound := [], held := x.mbox.held ++ [x.popRequest w] } } with hy
  have hpop (n : Nat) : runLoop (n + 1) t = runLoop n y := by
    rw [← hpopped]
    exact runLoop_agent n ht.seq ht.script rfl nofun nofun nofun
  have hxbuf : Buffered s x (fbRequest s.cfg) := ht.buffer.congr rfl rfl
  have hlast : x.popRequest w ∈ y.mbox.held := List.mem_append_right _ (List.mem_singleton.mpr rfl)
  obtain ⟨ram, hwrites, hbuf⟩ := runLoop_answerWrites (u := y) (es := [.coPush w]) h.cfg_wf h.buffer_in_ram (hxbuf.congr rfl rfl) ht.seq rfl
    (fun v hv => ⟨_, hlast, hxbuf.mayWrite h.cfg_wf hv⟩) h.answers_ok
  set z : State := { y with script := [.coPush w], ram } with hz
  set a : State := { z with script := [], mbox := { z.mbox with outbound := z.mbox.outbound ++ [w], held := answered z.mbox.held w } } with ha
  have hpushed : State.apply { z with script := [] } (.coPush w) = a := by
    refine State.coPush_of_held (s := { z with script := [] }) ⟨_, hlast, rfl⟩ ?_
    rw [show z.mbox.outbound = [] from ht.outbound, show z.cfg = s.cfg from hcfg]
    exact Config.mboxFifoDepth_pos h.cfg_wf
  refine ⟨a, fun n => ?_, ht.seq, rfl, ht.regs, rfl, ?_, ht.word, ht.status, hbuf.congr rfl rfl, ht.trace⟩
  · rw [show n + (ws.length + 2) = n + 1 + ws.length + 1 by omega, hpop, hwrites]
    exact (runLoop_agent (s := z) (e := .coPush w) n ht.seq rfl rfl nofun nofun nofun).trans (congrArg (runLoop n) hpushed)
  · rw [ha, show z.mbox.outbound = [] from ht.outbound, List.nil_append]

/-! ## The response -/

/-- FB.PROVISION, started in `s`, is before its success test in `t`. -/
structure AtCodeTest (s t : State) (buf : List Word) : Prop where
  seq      : t.seq = .run .fbProvision (.compute .codeTest :: respReads)
  script   : t.script = []
  regs     : t.regs = s.regs
  inbound  : t.mbox.inbound = []
  outbound : t.mbox.outbound = []
  buffer   : Buffered s t buf
  code     : t.loc.code = buf.getD 1 0#32
  trace    : maskTrace (Reg.mboxStatus.addr s.cfg) t.trace =
    maskTrace (Reg.mboxStatus.addr s.cfg)
      (s.trace ++ (requestTrace s.cfg ++ (popTrace s.cfg (channelWord s.cfg s.cfg.chProp) ++ [.rd (bufAddr s.cfg 1) 4 (buf.getD 1 0#32)])))

/-- With its word in the outbound FIFO the wait ends, and the response code is read. -/
theorem Waits.codeTest (h : AnsweredRequest s ws) (ht : Waits s t [] [] [channelWord s.cfg s.cfg.chProp] buf) :
    ∃ u, (∀ n, runLoop (n + 6) t = runLoop n u) ∧ AtCodeTest s u buf := by
  have hcfg : t.cfg = s.cfg := ht.buffer.cfg
  have hcode : t.ramWord 0#32 (bufAddr t.cfg 1) = buf.getD 1 0#32 := by
    rw [hcfg]
    exact ht.buffer.words 1 (by decide)
  obtain ⟨u, hrun, huseq, hu, hucode⟩ := runLoop_answered (s := t) (i := .fbProvision) (rest := .compute .codeTest :: respReads) (xs := [])
    (State.quiet_of_script ht.script) (by rw [hcfg]; exact h.flags_differ) (by rw [hcfg]; exact ht.seq) (by rw [hcfg]; exact ht.status)
    (by simp [Op.mayHold]) (by rw [ht.word]; exact ht.outbound) (by
      rw [State.wordInRam, hcfg]
      exact h.buffer_in_ram 1 (by decide))
  rw [hcode, ht.word, hcfg] at hu
  refine ⟨u, hrun, huseq, hu.script.trans ht.script, hu.regs.trans ht.regs, ?_, ?_, ht.buffer.congr hu.cfg hu.ram, hucode.trans hcode, ?_⟩
  · exact (congrArg Mbox.inbound hu.mbox).trans ht.inbound
  · exact congrArg Mbox.outbound hu.mbox
  · have htrace := hu.trace
    rw [hcfg] at htrace
    rw [htrace, maskTrace_append, ht.trace, ← maskTrace_append, List.append_assoc]

/-- The run to the success test. -/
theorem provision_codeTest (h : AnsweredRequest s ws) :
    ∃ t, ∃ k ≤ ws.length + 47, (∀ n, runLoop (n + k) (s.started .fbProvision (provisionProgram s.cfg)) = runLoop n t) ∧
      AtCodeTest s t (afterWrites (fbRequest s.cfg) ws) := by
  obtain ⟨t, j, hj, hwait, ht⟩ := provision_waits h
  obtain ⟨u, hanswer, hu⟩ := ht.answer h
  obtain ⟨v, hend, hv⟩ := hu.codeTest h
  refine ⟨v, 6 + (ws.length + 2) + j, by omega, fun n => ?_, hv⟩
  rw [← Nat.add_assoc, hwait, ← Nat.add_assoc, hanswer, hend]

/-- The seven response fields in the order of their reads (42_framebuffer.md R292). -/
def respFields : List RespField := [.address, .width, .height, .pitch, .depth, .order, .size]

theorem RespField.index_lt (f : RespField) : f.index < 35 := by cases f <;> decide

/-- The read of a response word (42_framebuffer.md R283). -/
theorem State.engineStep_respRead_exchanged (s : State) (i : Instr) (f : RespField) (rest : List Op)
    (hin : s.wordInRam (bufAddr s.cfg f.index) = true) :
    Exchanged s (s.engineStep i (.respRead f) rest) s.mbox s.loc.w
        [.rd (bufAddr s.cfg f.index) 4 (s.ramWord 0#32 (bufAddr s.cfg f.index))] ∧
      (s.engineStep i (.respRead f) rest).loc.resp = f.store (s.ramWord 0#32 (bufAddr s.cfg f.index)) s.loc.resp := by
  have hread : ((s.advanceTimer s.timer.rate).ramRead (bufAddr s.cfg f.index)).1 = s.ramWord 0#32 (bufAddr s.cfg f.index) := by
    rw [State.ramRead, s.ramWord_inRam _ _ hin, State.ramWord_inRam _ _ _ (by simpa [State.wordInRam] using hin), State.advanceTimer_ram]
  rw [State.engineStep_step _ _ _ _ rfl]
  refine ⟨⟨?_, ?_, ?_, ?_, ?_, ?_, ?_⟩, ?_⟩
  case refine_7 => simp [State.stepOp, State.ramRead_trace, hread]
  case refine_8 => simp [State.stepOp, hread]
  all_goals simp [State.stepOp]

/-- The reads of response words store each of them. -/
theorem State.runOps_respReads (fs : List RespField) (hin : s.bufferInRam) :
    Exchanged s (s.runOps i (fs.map .respRead) rest) s.mbox s.loc.w
        (fs.map fun f => .rd (bufAddr s.cfg f.index) 4 (s.ramWord 0#32 (bufAddr s.cfg f.index))) ∧
      (s.runOps i (fs.map .respRead) rest).loc.resp =
        fs.foldl (fun d f => f.store (s.ramWord 0#32 (bufAddr s.cfg f.index)) d) s.loc.resp := by
  induction fs generalizing s with
  | nil => exact ⟨⟨rfl, rfl, rfl, rfl, rfl, rfl, by simp⟩, rfl⟩
  | cons f fs ih =>
    obtain ⟨hone, hresp⟩ := s.engineStep_respRead_exchanged i f (fs.map .respRead ++ rest) (hin _ f.index_lt)
    set u := s.engineStep i (.respRead f) (fs.map .respRead ++ rest)
    have hword (g : RespField) : u.ramWord 0#32 (bufAddr u.cfg g.index) = s.ramWord 0#32 (bufAddr s.cfg g.index) := by
      simp only [State.ramWord, State.ramOr, hone.cfg, hone.ram]
    obtain ⟨hmore, hfold⟩ := ih (s := u) (by
      intro j hj
      rw [State.wordInRam, hone.cfg]
      exact hin j hj)
    simp only [hword] at hmore hfold
    rw [hone.mbox, hone.word, hone.cfg] at hmore
    rw [hresp] at hfold
    exact ⟨hone.trans hmore, hfold⟩

/-! ## The two completions -/

theorem provisionTrace_eq (c : Config) (buf : List Word) :
    provisionTrace c buf =
      requestTrace c ++ (popTrace c (channelWord c c.chProp) ++ [.rd (bufAddr c 1) 4 (buf.getD 1 0#32)])
        ++ (if successTest c (buf.getD 1 0#32) = true then
              respFields.map fun f => .rd (bufAddr c f.index) 4 (buf.getD f.index 0#32)
            else []) := by
  rw [provisionTrace, requestTrace]
  generalize fbRequest c = request
  simp [popTrace, respFields, RespField.index, bufAddr]

/-- The program of FB.PROVISION runs while the descriptor is unset. -/
theorem AnsweredRequest.start (h : AnsweredRequest s ws) : startOf s .fbProvision = .program (provisionProgram s.cfg) := by
  simp [startOf, provisionStart, h.fb_unset]

theorem AnsweredRequest.runBound_ge (h : AnsweredRequest s ws) : ws.length + 2 ^ 34 ≤ runBound s := by
  have hlength : s.script.length = ws.length + 3 := by
    rw [h.script_eq]
    simp [answerScript, answerWrites]
  rw [runBound, hlength]
  omega

/-- The completion of FB.PROVISION with the response words read (42_framebuffer.md R290). -/
theorem State.complete_provision_regs (s : State) :
    (s.complete .provision).regs =
      { s.regs with
        status := s.regs.status.completedWith true, fb := { s.loc.resp with base := fbBaseOf s.loc.resp.base }, fbValid := true } := rfl

/-- A code that passes the success test: the seven words are read and latched. -/
theorem AtCodeTest.completes (h : AnsweredRequest s ws) (ht : AtCodeTest s t buf) (hsuccess : successTest s.cfg (buf.getD 1 0#32) = true) :
    ∃ u, (∀ n, runLoop (n + 8) t = runLoop n u) ∧ u.seq = .run .fbProvision [.finish .provision] ∧
      Exchanged t u t.mbox t.loc.w (respFields.map fun f => .rd (bufAddr s.cfg f.index) 4 (buf.getD f.index 0#32)) ∧
      { u.loc.resp with base := fbBaseOf u.loc.resp.base } = descOf buf := by
  have hcfg : t.cfg = s.cfg := ht.buffer.cfg
  have hq : t.quiet = true := State.quiet_of_script ht.script
  have htest : t.engineStep .fbProvision (.compute .codeTest) respReads = t.goto .fbProvision respReads := by
    rw [State.engineStep_compute]
    simp only [State.compute, ht.code, hcfg, hsuccess, if_true]
  obtain ⟨hreads, hresp⟩ := State.runOps_respReads (s := t.goto .fbProvision respReads) (i := .fbProvision) (rest := [.finish .provision])
    respFields (by
      intro j hj
      rw [State.wordInRam, State.goto_cfg, hcfg]
      exact h.buffer_in_ram j hj)
  have hword (f : RespField) : (t.goto .fbProvision respReads).ramWord 0#32 (bufAddr (t.goto .fbProvision respReads).cfg f.index) =
      buf.getD f.index 0#32 := by
    rw [State.goto_cfg, hcfg]
    exact ht.buffer.words _ f.index_lt
  simp only [hword] at hreads hresp
  rw [State.goto_cfg, hcfg] at hreads
  set u := (t.goto .fbProvision respReads).runOps .fbProvision (respFields.map .respRead) [.finish .provision]
  refine ⟨u, fun n => ?_, State.runOps_seq (s := t.goto .fbProvision respReads) _ _ _ rfl rfl, hreads.of_goto, ?_⟩
  · rw [runLoop_step t (n + 7) hq ht.seq htest (State.held_of_seq _ rfl (by simp [respReads, Op.mayHold]))]
    exact runLoop_plain (s := t.goto .fbProvision respReads) .fbProvision (respFields.map .respRead) [.finish .provision] n rfl hq rfl
  · rw [hresp]
    rfl

/-- A code that does not pass it: the command fails (42_framebuffer.md R290). -/
theorem AtCodeTest.fails (ht : AtCodeTest s t buf) (hfailure : ¬successTest s.cfg (buf.getD 1 0#32) = true) (n : Nat) :
    runLoop (n + 1) t = runLoop n (t.goto .fbProvision [.finish (.fail .provisionFail)]) := by
  have htest : t.engineStep .fbProvision (.compute .codeTest) respReads = t.goto .fbProvision [.finish (.fail .provisionFail)] := by
    rw [State.engineStep_compute]
    simp only [State.compute, ht.code, ht.buffer.cfg, hfailure]
    rfl
  exact runLoop_step t n (State.quiet_of_script ht.script) ht.seq htest (State.held_of_seq _ rfl (by simp [Op.mayHold]))

/-- FB.PROVISION with an answer. -/
theorem exec_fbProvision_answered (h : AnsweredRequest s ws) (hbuf : buf = afterWrites (fbRequest s.cfg) ws) :
    ∃ t, exec .fbProvision s = .next t ∧ t.seq = .idle ∧ t.script = [] ∧
      t.regs =
        (if successTest s.cfg (buf.getD 1 0#32) = true then
          { s.regs with status := s.resultStatus true, fb := descOf buf, fbValid := true }
        else { s.regs with status := s.errorStatus .provisionFail }) ∧
      t.mbox.inbound = [] ∧ t.mbox.outbound = [] ∧
      maskTrace (Reg.mboxStatus.addr s.cfg) t.trace =
        maskTrace (Reg.mboxStatus.addr s.cfg) (s.trace ++ provisionTrace s.cfg buf) ∧
      Buffered s t buf := by
  obtain ⟨t, k, hk, hrun, ht⟩ := provision_codeTest h
  rw [← hbuf] at ht
  have hbound := h.runBound_ge
  have hcfg : t.cfg = s.cfg := ht.buffer.cfg
  by_cases hsuccess : successTest s.cfg (buf.getD 1 0#32) = true
  case pos =>
    obtain ⟨u, hreads, huseq, hu, hdesc⟩ := ht.completes h hsuccess
    have hexec : exec .fbProvision s = .next ((u.advanceTimer u.timer.rate).complete .provision) := by
      rw [exec_eq, h.start]
      exact runCommand_of_run s _ _ .provision (8 + k) u (State.quiet_of_script (hu.script.trans ht.script)) huseq (by omega) fun n => by
        rw [← Nat.add_assoc, hrun, hreads]
    refine ⟨_, hexec, State.complete_seq _ _, ?script, ?regs, ?inbound, ?outbound, ?trace, ?buffer⟩
    case script => simpa using hu.script.trans ht.script
    case regs =>
      rw [if_pos hsuccess, State.complete_provision_regs, State.advanceTimer_regs, State.advanceTimer_loc, hdesc, hu.regs, ht.regs]
      exact congrArg (fun status => { s.regs with status, fb := descOf buf, fbValid := true }) (h.accepted.completedWith _)
    case inbound => simpa [hu.mbox] using ht.inbound
    case outbound => simpa [hu.mbox] using ht.outbound
    case trace =>
      have htrace := hu.trace
      rw [hcfg] at htrace
      rw [State.complete_trace, State.advanceTimer_trace, htrace, maskTrace_append, ht.trace, provisionTrace_eq, if_pos hsuccess,
        ← maskTrace_append, List.append_assoc]
    case buffer => exact ht.buffer.congr (by simpa using hu.cfg) (by simpa using hu.ram)
  case neg =>
    set u := t.goto .fbProvision [.finish (.fail .provisionFail)] with hu
    have hexec : exec .fbProvision s = .next ((u.advanceTimer u.timer.rate).complete (.fail .provisionFail)) := by
      rw [exec_eq, h.start]
      exact runCommand_of_run s _ _ (.fail .provisionFail) (1 + k) u (State.quiet_of_script ht.script) rfl (by omega) fun n => by
        rw [← Nat.add_assoc, hrun, ht.fails hsuccess]
    refine ⟨_, hexec, State.complete_seq _ _, ?script, ?regs, ?inbound, ?outbound, ?trace, ?buffer⟩
    case script => simpa [hu] using ht.script
    case regs =>
      have hstatus : s.regs.status.failed .provisionFail = s.errorStatus .provisionFail := by
        rw [h.accepted]
        rfl
      rw [if_neg hsuccess, State.complete, State.raiseError_regs, State.advanceTimer_regs, hu, State.goto_regs, ht.regs, hstatus]
    case inbound => simpa [hu] using ht.inbound
    case outbound => simpa [hu] using ht.outbound
    case trace =>
      rw [State.complete_trace, State.advanceTimer_trace, hu, State.goto_trace, ht.trace, provisionTrace_eq, if_neg hsuccess, List.append_nil]
    case buffer => exact ht.buffer.congr (by simp [hu]) (by simp [hu])

end Sys2Proof.Machine

namespace Sys2Proof.Proofs

open Sys2Proof.Machine

/-- Settles O44: the run to the hold, the coprocessor's moves at it, and the run from it to the success test. -/
theorem fbProvisionWithAnswer : Obligations.FbProvisionWithAnswer := by
  intro s ws buf h hbuf
  obtain ⟨t, hexec, hseq, hscript, hregs, hinbound, houtbound, htrace, hbuffer⟩ := exec_fbProvision_answered h hbuf
  exact ⟨t, hexec, hseq, hscript, hregs, hinbound, houtbound, htrace, hbuffer.words, hbuffer.frame⟩

/-- Settles O45: the descriptor is the words of the guarantee. -/
theorem provisionedDescriptorSizes : Obligations.ProvisionedDescriptorSizes := by
  intro s ws buf h hbuf hsuccess hguarantee
  obtain ⟨t, hexec, -, -, hregs, -⟩ := exec_fbProvision_answered h hbuf
  rw [if_pos hsuccess] at hregs
  rw [fbGuarantee] at hguarantee
  refine ⟨t, hexec, ?_⟩
  rw [hregs]
  exact ⟨rfl, rfl, hguarantee⟩

end Sys2Proof.Proofs
end
